-- ==== Sys2Proof/Word.lean ====
section
/-! DEFINITION. The words of the part: bytes, 16-bit symbols, lines, codewords and line addresses. -/

namespace Sys2Proof

/-- One byte of a frame or of a line. -/
abbrev Byte := BitVec 8

/-- A symbol: 16 bits of one device within one codeword (R1, R2). -/
abbrev Sym := BitVec 16

/-- A line: 64 data bytes (00, 3.1). -/
abbrev Line := Vector Byte 64

/-- A codeword: ten symbols, `s_0` to `s_9`, one per device (R1). -/
abbrev Codeword := Vector Sym 10

/-- A stored line: the four codewords C0 to C3, forty symbols (R1). -/
abbrev RawLine := Vector Codeword 4

/-- A line as it crosses the DRAM interface: eight beats, each with one byte of every device (R1, T95). -/
abbrev Burst := Vector (Vector Byte 10) 8

/-- The byte mask of a masked write: flag `i` is the flag of line byte `i` (section 2.5). -/
abbrev ByteMask := BitVec 64

/-- A reading of the time base: microseconds modulo 2^48 (R178). -/
abbrev TimeBase := BitVec 48

/-- A line address as a frame or an argument carries it: rank 0 to 7 and a 27-bit index
(T92). Ranks 4 to 7 are never present (R194). -/
structure LineAddr where
  rank : BitVec 3
  index : BitVec 27
  deriving DecidableEq, Repr

/-- Sixty-four zero bytes: what a refused READ carries (R23) and what a fill writes (R160). -/
def zeroLine : Line := Vector.replicate 64 0

/-- Forty zero symbols: the encoding of the zero line (R4). -/
def zeroRaw : RawLine := Vector.replicate 4 (Vector.replicate 10 0)

end Sys2Proof
end

