-- ==== Sys2Proof/Syntax.lean ====
section
/-! DEFINITION. The commands: one constructor of `Instr` per row of spec/opcode_table.json, with the
operands the event brings from outside the part (log 4). -/

namespace Sys2Proof

/-- The four levels a strap pin is read at (T89). -/
inductive StrapLevel where
  | ground | groundResistor | supplyResistor | supply
  deriving DecidableEq, Repr

/-- The three strap pins (R187). -/
structure StrapPins where
  ranks : StrapLevel
  depth : StrapLevel
  lanes : StrapLevel
  deriving DecidableEq, Repr

/-- The two capture records (R122). -/
inductive RecordName where
  | a | b
  deriving DecidableEq, Repr

/-- What an error does to a stored item (R130): one wrong bit, or more than the check corrects. -/
inductive Severity where
  | singleBit | uncorrectable
  deriving DecidableEq, Repr

/-- The stored items that have a check of their own (R130). For a slot's datum `flips` names the
data bits that an uncorrectable error has changed (R87's "data bytes as stored").
`captureCheckBack` is an error that strikes between the next write of the record and the
read-back of R125 (log 14). -/
inductive StoredItem where
  | region (entry : Fin 16)
  | phase (number : Fin 8)
  | device (entry : Fin 40)
  | slot (number : Fin 32) (flips : Line)
  | capture (record : RecordName)
  | captureCheckBack (record : RecordName)
  deriving DecidableEq, Repr

/-- A drift of the receive elastic buffer: the microseconds that LNK's timer has run since it last moved, and the symbols
by which the fill has moved, up where positive and down where negative (R191, R192, logs 32 and 46). -/
structure Drift where
  elapsed : Nat
  symbols : Int
  deriving DecidableEq, Repr

/-- The commands, in the order of spec/opcode_table.json. -/
inductive Instr where
  | porAsserted (pins : StrapPins)
  | porReleased
  | signalDetected
  | lossOfSignal
  | laneLock (width : Nat) (lanes : List Nat)
  | deskewAndCentring
  | readyExchange
  | elasticSlip (drift : Drift)
  | read (frame : List Byte)
  | write (frame : List Byte)
  | maskedWrite (frame : List Byte)
  | manage (frame : List Byte)
  | echoedFrame (frame : List Byte)
  | upstreamFrameSent
  | completionHandover
  | demandStart (line : LineAddr)
  | arbiterGrant
  | dramReadFinish (beats : Burst)
  | dramWriteFinish
  | refreshDue (rank : Fin 4)
  | refreshFinish
  | tick
  | lazyWaitExpiry (line : LineAddr)
  | timeBaseAdvance
  | drainEnd
  | regionLoad
  | regionRead
  | regionDefault
  | phaseLoad
  | phaseRead
  | phaseSet
  | deviceRead
  | deviceMark
  | deviceUnmark
  | healthParams
  | spareRead
  | spareRetire
  | spareRelease
  | spareParams
  | patrolStart
  | patrolStop
  | cursorRead
  | cursorSet
  | pacingSet
  | pacingReset
  | rankFill
  | rankOnline
  | rankOffline
  | rankStatus
  | captureRead
  | captureRelease
  | injectSet
  | injectClear
  | loopSet
  | alertMaskSet
  | counterRead
  | counterClear
  | timeSet
  | timeRead
  | statusRead
  | identityRead
  | coreResetDrain
  | coreResetAbort
  | echoSet
  | unknownRequest
  | storageError (item : StoredItem) (severity : Severity)
  deriving DecidableEq, Repr

end Sys2Proof
end

