-- ==== Sys2Proof/Decode.lean ====
section
/-! DEFINITION. The command that a table word spells. No row of spec/opcode_table.json gives bits: commands
are events, and what a frame's bytes spell is `Machine.frameBody` (log 40). -/

namespace Sys2Proof

/-- No word spells a command: the table gives no row any bits. -/
def decodeTableWord (nbits w : Nat) : Option Instr :=
  match nbits, w with
  | _, _ => none

end Sys2Proof
end

