-- ==== Sys2Proof/Config.lean ====
section
/-! DEFINITION. The part's constants, with the rule that gives each, and the free values: opaque
constants with no body, of which nothing can be proved but their type. -/

namespace Sys2Proof.Config

/-- Requests the request buffer holds (R19). -/
def bufferCapacity : Nat := 32
/-- Frames at which the upstream queue takes no more completions (R195). -/
def upstreamBound : Nat := 8
/-- Entries the repair queue holds (R52). -/
def repairCapacity : Nat := 16
/-- Poison constant V (R6). -/
def poisonConstant : Sym := 0x6A5C#16
/-- Poison syndrome S1 (R6). -/
def poisonSyndrome : Sym := 0xB077#16
/-- Elements of the field are reduced by x^16 = x^12 + x^3 + x + 1 (R2). -/
def fieldReduction : Sym := 0x100B#16
/-- Generator x^16 + x^12 + x^5 + 1 of the frame check (R193). -/
def checkGenerator : Sym := 0x1021#16
/-- Initial value of the frame check (R193). -/
def checkInitial : Sym := 0xFFFF#16
/-- Vendor code (R180). -/
def vendorCode : Nat := 0x4E17
/-- Part code (R180). -/
def partCode : Nat := 418
/-- Revision (R180). -/
def revision : Nat := 2
/-- Refresh interval in tenths of a microsecond: 3.6 µs (R163). -/
def refreshInterval : Nat := 36
/-- Symbols of drift that the receive elastic buffer absorbs on either side of its centre (R191). -/
def elasticReach : Nat := 12
/-- Reach of the slip history in µs (R192). -/
def slipWindow : Nat := 1000
/-- Spacing of the steal class (R167). -/
def stealSpacing : Nat := 7
/-- Ceiling of the 32-bit counters (R176). -/
def counterCeiling : Nat := 2 ^ 32 - 1
/-- Ceiling of the lost-capture counter (R176). -/
def lostCeiling : Nat := 255
/-- Largest steal threshold and lag limit (R134, R139). -/
def creditCeiling : Nat := 4194303

/-- FREE VALUE (log 16): the state that an unchecked look at a device entry shows while the entry's
storage holds an uncorrectable error. Arguments: the entry number and the time base. Codes as T92:
0 SOUND, 1 SUSPECT, 2 MARKED, 3 PROBATION. -/
opaque faultyDeviceState : Nat → TimeBase → Fin 4

/-- FREE VALUE (log 17): the tick period that the reset effects find in profile 0 while its storage
holds an uncorrectable error that no read has found. Argument: the time base. -/
opaque faultyTickPeriod : TimeBase → BitVec 16

end Sys2Proof.Config
end

