-- ==== Sys2Proof/Machine/Bytes.lean ====
section
/-! DEFINITION. Tables read and written by number, numbers as bytes (R198), lines and masks as bytes, and
the frame check (R193). -/

namespace Sys2Proof.Machine

/-- Item `i` of a table, or `d` where the table has no item `i`. -/
def getAt {α : Type} {n : Nat} (v : Vector α n) (i : Nat) (d : α) : α :=
  if h : i < n then v[i] else d

/-- The table with item `i` replaced; unchanged where the table has no item `i`. -/
def setAt {α : Type} {n : Nat} (v : Vector α n) (i : Nat) (x : α) : Vector α n :=
  if h : i < n then v.set i x else v

/-- A number rises by one and stops at its ceiling (00, 3.2). -/
def saturate (ceiling n : Nat) : Nat := if n < ceiling then n + 1 else n

/-- A number clamped to the nearest end of its range (R172). -/
def clamp (low high n : Nat) : Nat := if n < low then low else if high < n then high else n

/-- The unsigned number that bytes give, most significant byte first (R198). -/
def number (bytes : List Byte) : Nat := bytes.foldl (fun acc b => acc * 256 + b.toNat) 0

/-- A number in `n` bytes, most significant byte first (R198). -/
def packed : (n : Nat) → Nat → List Byte
  | 0, _ => []
  | n + 1, v => BitVec.ofNat 8 (v / 256 ^ n) :: packed n v

/-- A flag in one byte (T92). -/
def packedFlag (b : Bool) : List Byte := [if b then 1 else 0]

/-- A flag read from one byte: 0 is clear, any other value is set (T92). -/
def flagOf (b : Byte) : Bool := b != 0

/-- The line address that a line address word names; bits 31–30 are ignored (T92). -/
def addressOf (bytes : List Byte) : LineAddr :=
  { rank := BitVec.ofNat 3 (number bytes / 2 ^ 27), index := BitVec.ofNat 27 (number bytes) }

/-- The line address word (T92). -/
def packedAddress (a : LineAddr) : List Byte := packed 4 (a.rank.toNat * 2 ^ 27 + a.index.toNat)

/-- Sixty-four bytes as a line; bytes not given are zero. -/
def lineOf (bytes : List Byte) : Line := Vector.ofFn fun i => bytes.getD i.val 0

/-- The byte mask: the flag of line byte i is bit (i mod 8) of byte floor(i/8) (T92). -/
def maskOf (bytes : List Byte) : ByteMask :=
  BitVec.ofNat 64 (bytes.foldr (fun b acc => acc * 256 + b.toNat) 0)

/-- The byte mask in eight bytes (T92). -/
def packedMask (m : ByteMask) : List Byte :=
  (List.range 8).map fun i => BitVec.ofNat 8 (m.toNat / 256 ^ i)

/-! ## Frame check -/

/-- One bit into the check, the generator being x^16 + x^12 + x^5 + 1 (R193). -/
def checkBit (crc : Sym) (bit : Bool) : Sym :=
  if crc.msb != bit then (crc <<< 1) ^^^ Config.checkGenerator else crc <<< 1

/-- One byte into the check, most significant bit first (R193). -/
def checkByte (crc : Sym) (b : Byte) : Sym :=
  [7, 6, 5, 4, 3, 2, 1, 0].foldl (fun c i => checkBit c (b.getLsbD i)) crc

/-- The frame check of the bytes before it: initial value 0xFFFF, no final inversion (R193). -/
def frameCheck (bytes : List Byte) : Sym := bytes.foldl checkByte Config.checkInitial

/-- The bytes followed by their check, high byte first (R193). -/
def checked (bytes : List Byte) : List Byte := bytes ++ packed 2 (frameCheck bytes).toNat

/-! ## Lanes -/

/-- The bytes that lane `k` carries of a frame sent on `width` lanes, in order: byte i travels on lane i modulo the
width (R193); a lane not in use carries none (R187). -/
def laneBytes (width : Nat) (bytes : List Byte) (k : Nat) : List Byte :=
  if k < width then
    (List.range ((bytes.length + (width - 1 - k)) / width)).map fun i => bytes.getD (width * i + k) 0
  else []

/-- A frame dealt out to the eight lanes of a direction (R187, R193). -/
def onLanes (width : Nat) (bytes : List Byte) : List (List Byte) := (List.range 8).map (laneBytes width bytes)

/-- The frame that the lanes in use carry together; what the other lanes carry is ignored (R187, R193). -/
def fromLanes (width : Nat) (lanes : List (List Byte)) : List Byte :=
  (List.range ((lanes.take width).map List.length).sum).map fun i =>
    (lanes.getD (i % width) []).getD (i / width) 0

end Sys2Proof.Machine
end

