-- ==== Sys2Proof/Machine/Field.lean ====
section
/-! DEFINITION. Arithmetic of the symbol field GF(2^16) (R2, R3). -/

namespace Sys2Proof.Machine

/-- A symbol times x: the shift, with x^16 replaced by x^12 + x^3 + x + 1 (R2). -/
def timesX (a : Sym) : Sym :=
  if a.msb then (a <<< 1) ^^^ Config.fieldReduction else a <<< 1

/-- The first `n` partial products of `a` and `b`, where `a` is already multiplied by the power of x that
bit `i` of `b` stands for. -/
def fieldMulFrom : (n : Nat) → (a b : Sym) → (i : Nat) → Sym
  | 0, _, _, _ => 0
  | n + 1, a, b, i => (if b.getLsbD i then a else 0) ^^^ fieldMulFrom n (timesX a) b (i + 1)

/-- The product of two symbols (R2). -/
def fieldMul (a b : Sym) : Sym := fieldMulFrom 16 a b 0

/-- The square of a symbol. -/
def fieldSquare (a : Sym) : Sym := fieldMul a a

/-- `n` squarings, each followed by a product with `a`: a to the power 2^(n+1) − 1. -/
def fieldPowerOnes : (n : Nat) → Sym → Sym
  | 0, a => a
  | n + 1, a => fieldMul (fieldSquare (fieldPowerOnes n a)) a

/-- The inverse of a non-zero symbol: its power 2^16 − 2, the square of its power 2^15 − 1 (R2). -/
def fieldInverse (a : Sym) : Sym := fieldSquare (fieldPowerOnes 14 a)

/-- The quotient a / b for non-zero b (R2). -/
def fieldQuotient (a b : Sym) : Sym := fieldMul a (fieldInverse b)

/-- The weight of device d: the single bit d set (R3). -/
def deviceWeight (d : Nat) : Sym := 1#16 <<< d

/-- The number of 1 bits of a pattern (00, Table 5). -/
def patternWeight (p : Sym) : Nat := (List.range 16).countP fun i => p.getLsbD i

end Sys2Proof.Machine
end

