-- ==== Sys2Proof/Machine/Straps.lean ====
section
/-! DEFINITION. What the strap pins mean (R187, T89). -/

namespace Sys2Proof

/-- Number of present ranks (T89). -/
def StrapPins.presentRanks (p : StrapPins) : Nat :=
  match p.ranks with
  | .ground => 1 | .groundResistor => 2 | .supplyResistor => 3 | .supply => 4

/-- Depth exponent n (T89). -/
def StrapPins.depthExponent (p : StrapPins) : Nat :=
  match p.depth with
  | .ground => 24 | .groundResistor => 25 | .supplyResistor => 26 | .supply => 27

/-- Number of lanes in use (T89). -/
def StrapPins.laneCount (p : StrapPins) : Nat :=
  match p.lanes with
  | .ground => 4 | .groundResistor => 4 | .supplyResistor => 8 | .supply => 8

end Sys2Proof
end

