-- ==== Sys2Proof/Machine/State.lean ====
section
/-! DEFINITION. The state of the part as plain data, block by block (00, Table 2), and the state after
power-on reset. -/

namespace Sys2Proof.Machine

/-! ## Words shared by the blocks -/

/-- The condition of a stored item's storage (R130). -/
inductive Storage where
  | sound | singleBit | uncorrectable
  deriving DecidableEq, Repr

/-- An item of a protected table: its contents and the condition of its storage. While the condition is
`uncorrectable` no checked read shows the contents. -/
structure Stored (α : Type) where
  value : α
  storage : Storage
  deriving DecidableEq, Repr

/-- Classes of a region (R45). -/
inductive RegionClass where
  | standard | hot | journal | exempt
  deriving DecidableEq, Repr

/-- What a lookup returns (R43). `region` is `none` where no valid entry matched. -/
structure Classification where
  region : Option Nat
  cls : RegionClass
  level : Nat
  deriving DecidableEq, Repr

/-- Status of a demand completion (R35). -/
inductive Status where
  | clean | done | corrected | correctedRetry | poisoned | uncorrectable
  | notReady | range | aborted | halted
  deriving DecidableEq, Repr

/-- Result of a management request (T81). -/
inductive Result where
  | done | busy | wrongState | range | halted | unknown
  deriving DecidableEq, Repr

/-- Tables named in subjects (T92). -/
inductive TableId where
  | region | phase | health | spare | capture
  deriving DecidableEq, Repr

/-- Events, in the order of T85. -/
inductive EventKind where
  | lineCorrected | scattered | poisonRead | rqOverrun | tagClash | internalCorrected | tableFault
  | repairDeferred | repairStuck | spareRetired | spareFull | spareFailed | deviceSuspect
  | deviceMarked | deviceSecond | probationPass | probationFail | lineUe | captureLost | halted
  | sweepDone | patrolLag | stealOn | stealOff | fillDone | fillStopped | linkCrc | elasticSlip
  deriving DecidableEq, Repr

/-- Subject of an event (T84). -/
inductive Subject where
  | none
  | rank (rank : Nat)
  | device (rank device : Nat)
  | line (address : LineAddr)
  | table (table : TableId) (index : Nat)
  deriving DecidableEq, Repr

/-! ## LNK -/

/-- The steps of the training exchange (R189). -/
inductive TrainingStep where
  | laneLock | deskew | readyExchange
  deriving DecidableEq, Repr

/-- Link states (R188). -/
inductive LinkState where
  | down
  | training (step : TrainingStep)
  | active
  | echo
  deriving DecidableEq, Repr

/-- A frame waiting in the upstream queue, before its bytes and its check are formed (T94), or an
echoed frame as it came (R197). -/
inductive UpFrame where
  | readDone (tag : Byte) (status : Status) (data : Line)
  | writeDone (tag : Byte) (status : Status)
  | manageDone (tag : Byte) (result : Result) (payload : List Byte)
  | alert (event : EventKind) (level : Nat) (subject : Subject) (record : Option RecordName)
      (time : TimeBase)
  | echoed (bytes : List Byte)
  deriving DecidableEq, Repr

/-- LNK. `fill` is the fill of the receive elastic buffer in symbols above its centre, below it where negative
(R191, log 32). `timer` is its internal timer in µs, and `slips` holds the times of the latest slips, the latest first
(R192, log 46). `transmitting` is the frame being sent, lane by lane: the bytes that each of the eight upstream
lanes carries, none on a lane not in use (R187, R193, log 7). -/
structure Link where
  por : Bool
  straps : StrapPins
  state : LinkState
  fill : Int
  timer : Nat
  slips : List Nat
  upstream : List UpFrame
  transmitting : Option (List (List Byte))
  deriving DecidableEq, Repr

/-! ## DEM -/

/-- A member of the same-line hold set: a line, or the loop line of codec-loop mode (R22). -/
inductive HoldKey where
  | line (address : LineAddr)
  | loopLine
  deriving DecidableEq, Repr

/-- Kind and fields of a request (R19). The arguments of a MANAGE are those that its length counts. -/
inductive RequestBody where
  | read (line : LineAddr)
  | write (line : LineAddr) (data : Line)
  | maskedWrite (line : LineAddr) (mask : ByteMask) (data : Line)
  | manage (kind : Nat) (args : List Byte)
  deriving DecidableEq, Repr

/-- What a request is at. Every phase but `queued` is R19's STARTED; the phases tell what the work
waits for. -/
inductive Phase where
  /-- QUEUED (R19). -/
  | queued
  /-- Its answer is decided and is handed on in the step in progress. -/
  | answering
  /-- Its DRAM read is asked of DRP (R25, R32). -/
  | waitRead
  /-- Its DRAM read is at DRAM. -/
  | readGranted
  /-- It is with FCU for its retry (R27, R32). -/
  | retrying
  /-- A read-modify-write waiting for a release to end before it takes its current line (R31). -/
  | heldRmw
  /-- Its DRAM write is asked of DRP; the status is the one its completion will carry. -/
  | waitWrite (data : Line) (status : Status)
  /-- Its write is held behind a RELEASING slot or a WRITING entry (R29). -/
  | heldWrite (data : Line) (status : Status)
  /-- Its DRAM write is at DRAM. -/
  | writeGranted (status : Status)
  /-- A management request whose work goes on after it was taken (R170). -/
  | serving
  /-- Its completion is pending (R195). -/
  | completing
  deriving DecidableEq, Repr

/-- A request of the buffer, or an orphan (R40). `id` names it inside the model. -/
structure Request where
  id : Nat
  tag : Byte
  body : RequestBody
  phase : Phase
  /-- The moment it started: its age at the arbiter (R166). -/
  age : Nat
  /-- The classification attached at start (R23). -/
  cls : Option Classification
  /-- The line it holds in the hold set (R22). -/
  hold : Option HoldKey
  orphan : Bool
  /-- A drain completed it at its start, on arrival, while another request held its line: STARTED, with no place
  of its own in the hold set (R182, log 41). -/
  beside : Bool := false
  deriving DecidableEq, Repr

/-- A pending completion (R195). -/
structure Completion where
  request : Nat
  frame : UpFrame
  deriving DecidableEq, Repr

/-- DEM: the request buffer with the orphans, in arrival order, the hold set and the pending
completions. -/
structure Dem where
  requests : List Request
  holdSet : List HoldKey
  completions : List Completion
  deriving DecidableEq, Repr

/-! ## RGT and COD -/

/-- A region entry (T27). -/
structure RegionEntry where
  valid : Bool
  base : LineAddr
  rankMask : BitVec 2
  indexMask : BitVec 27
  cls : RegionClass
  level : Nat
  deriving DecidableEq, Repr

structure Rgt where
  entries : Vector (Stored RegionEntry) 16
  defaultLevel : Nat
  deriving DecidableEq, Repr

/-- A filled injection entry (T14). -/
structure Injection where
  line : LineAddr
  device : Nat
  codewords : BitVec 4
  pattern : Sym
  count : Nat
  deriving DecidableEq, Repr

/-- COD. `loopLine` is present exactly while codec-loop mode is on (R17). -/
structure Cod where
  injections : Vector (Option Injection) 2
  loopLine : Option RawLine
  deriving DecidableEq, Repr

/-- Outcome of a codeword (T9, T10). `notRead` stands only in captures (T60). -/
inductive CodewordOutcome where
  | clean
  | fixed (device : Fin 10) (pattern : Sym)
  | filled (pattern : Sym)
  | poisonMark
  | uncorrectable
  | notRead
  deriving DecidableEq, Repr

/-! ## DHT -/

/-- Device states (R92). -/
inductive DeviceState where
  | sound | suspect | marked | probation
  deriving DecidableEq, Repr

/-- A device entry (T50). `count` is the probation count, 0 outside PROBATION. -/
structure DeviceEntry where
  tally : Nat
  state : DeviceState
  touched : Bool
  capped : Bool
  count : Nat
  deriving DecidableEq, Repr

structure Dht where
  devices : Vector (Stored DeviceEntry) 40
  decayQ : Nat
  probationK : Nat
  deriving DecidableEq, Repr

/-! ## RPQ and SLS -/

inductive RepairKind where
  | repair | poison
  deriving DecidableEq, Repr

/-- States of a repair entry (R53); the countdown stands only in WAITING. -/
inductive RepairState where
  | waiting (countdown : Nat)
  | ready
  | writing
  | verifying
  deriving DecidableEq, Repr

/-- A repair entry (T34). `id` names it and is its age (R166). `retired` records that SLS made the line
ACTIVE while its write was in flight (R60, case 2). -/
structure RepairEntry where
  id : Nat
  line : LineAddr
  kind : RepairKind
  data : Line
  verify : Bool
  replayed : Bool
  state : RepairState
  retired : Bool
  deriving DecidableEq, Repr

structure Rpq where
  entries : List RepairEntry
  deriving DecidableEq, Repr

/-- The data of a slot and the condition of its storage; `flips` are the data bits an uncorrectable error
has changed. -/
structure StoredLine where
  data : Line
  storage : Storage
  flips : Line
  deriving DecidableEq, Repr

/-- The Spare Release in progress for a slot: its request and the moment MGU took it (R166). -/
structure ReleaseWork where
  request : Nat
  age : Nat
  deriving DecidableEq, Repr

/-- A spare slot with the fields its state holds (T43). A RELEASING slot with no work is one whose
release HALTED has ended (R85). -/
inductive Slot where
  | free
  | watch (line : LineAddr) (hits : Nat) (lastHit : TimeBase)
  | active (line : LineAddr) (data : StoredLine) (retired : TimeBase)
  | failed (line : LineAddr) (data : StoredLine) (retired : TimeBase)
  | releasing (line : LineAddr) (data : StoredLine) (retired : TimeBase) (work : Option ReleaseWork)
  deriving DecidableEq, Repr

/-- A Spare Retire whose RETIRE read is asked for or at DRAM (R80). -/
structure RetireWork where
  request : Nat
  line : LineAddr
  age : Nat
  deriving DecidableEq, Repr

structure Sls where
  slots : Vector Slot 32
  threshold : Nat
  /-- The allocation flag: FAILED or SUCCEEDED (R77). -/
  allocationFailed : Bool
  retires : List RetireWork
  deriving DecidableEq, Repr

/-! ## FCU -/

/-- Kinds of a capture (T60). -/
inductive CaptureKind where
  | demandUe | patrolUe | rmwUe | slotFailed | tableFault
  deriving DecidableEq, Repr

/-- Outcome of a failed retry (R118): bit `d` of the set stands for device Dd. -/
inductive RetryOutcome where
  | persistent
  | unstable (devices : BitVec 10)
  deriving DecidableEq, Repr

/-- The fields of a HELD record (T60). -/
structure Capture where
  kind : CaptureKind
  line : Option LineAddr
  region : Option Nat
  phase : Nat
  time : TimeBase
  retry : Option RetryOutcome
  outcomes : Vector CodewordOutcome 4
  mark : Option Nat
  held : Option (ByteMask × Line)
  table : Option (TableId × Nat)
  deriving DecidableEq, Repr

/-- EMPTY, HELD, or HELD with its contents lost (R125, R126). -/
inductive RecordContent where
  | empty
  | held (capture : Capture)
  | lost
  deriving DecidableEq, Repr

/-- A capture record. `strike` is an error that will strike between its next write and the check-back
(log 14). -/
structure CaptureRecord where
  content : RecordContent
  storage : Storage
  strike : Storage
  deriving DecidableEq, Repr

/-- Work under retry (R115). For a read-modify-write the mask and bytes of its held write go along. -/
inductive RetryWork where
  | demand (request : Nat)
  | rmw (request : Nat) (mask : ByteMask) (data : Line)
  | patrol
  deriving DecidableEq, Repr

/-- A retry context (R115). `id` names it and is its age (R166). `ended`: the part entered HALTED after the
retry's grant, so that its verdict confirms nothing, an abort in between or not (R127; the mark is log 45). -/
structure RetryContext where
  id : Nat
  line : LineAddr
  work : RetryWork
  cls : Classification
  first : RawLine
  ended : Bool
  deriving DecidableEq, Repr

/-- Why the part is HALTED: (HEALTH, entry) or (CAPTURE, record) (R127). -/
structure HaltCause where
  table : TableId
  index : Nat
  deriving DecidableEq, Repr

structure Fcu where
  recordA : CaptureRecord
  recordB : CaptureRecord
  next : RecordName
  halted : Option HaltCause
  contexts : List RetryContext
  deriving DecidableEq, Repr

/-! ## PSC -/

/-- A phase profile (T66). -/
structure Profile where
  period : Nat
  allowed : Bool
  steal : Nat
  lazyWait : Nat
  deriving DecidableEq, Repr

/-- How the cursor's line stands: not yet tested, to be tested at the next tick, or the visit line with the
classification its test obtained (R144, R145). -/
inductive CursorPhase where
  | untested
  | deferred
  | visitLine (cls : Classification)
  deriving DecidableEq, Repr

/-- PSC. `cursor` is `none` while parked. `passVisited`: a line of the pass in progress has been
visited (R144). -/
structure Psc where
  profiles : Vector (Stored Profile) 8
  phase : Nat
  tickCountdown : Nat
  running : Bool
  cursor : Option LineAddr
  cursorPhase : CursorPhase
  wholeSweep : Bool
  passVisited : Bool
  credit : Nat
  lagLimit : Nat
  steal : Bool
  lagging : Bool
  deriving DecidableEq, Repr

/-! ## DRP -/

/-- Rank states (R155). -/
inductive RankState where
  | absent | offline | filling | online
  deriving DecidableEq, Repr

/-- A rank. `refresh` is its refresh countdown in tenths of a microsecond, `none` while stopped (R163). -/
structure RankRec where
  state : RankState
  selfRefresh : Bool
  fillPosition : Nat
  refresh : Option Nat
  deriving DecidableEq, Repr

/-- DRAM operations, each naming its requester (R164, T75). -/
inductive PortOp where
  | demandRead (request : Nat) (rmw : Bool)
  | retryRead (context : Nat)
  | retireRead (request : Nat)
  | verifyRead (entry : Nat)
  /-- `aborted`: a Core Reset (ABORT) was taken since the grant (R114). -/
  | visitRead (aborted : Bool)
  | demandWrite (request : Nat)
  | repairWrite (entry : Nat)
  | releaseWrite (slot : Nat) (age : Nat)
  | fillWrite
  | refresh
  deriving DecidableEq, Repr

/-- The operation at the port. `formed` are the beats of a write (R1, R5); `overwritten`: a DRAM write of the
line was granted since this read was (R55, R75, R81). A refresh has only the rank of `line`. -/
structure Granted where
  op : PortOp
  line : LineAddr
  cls : Option Classification
  formed : Option Burst
  overwritten : Bool
  deriving DecidableEq, Repr

/-- DRP. `refreshDue` lists ranks in the order their refreshes fell due. -/
structure Drp where
  ranks : Vector RankRec 4
  lastFill : Option Nat
  history : Nat
  port : Option Granted
  refreshDue : List Nat
  deriving DecidableEq, Repr

/-! ## MGU -/

/-- The counters (T86). -/
structure Counters where
  corrected : Vector Nat 4
  ueLines : Vector Nat 4
  poisonedReads : Vector Nat 4
  lagTicks : Nat
  overruns : Nat
  lostCaptures : Nat
  deriving DecidableEq, Repr

/-- Flavours of Core Reset (R181). -/
inductive Flavour where
  | drain | abort
  deriving DecidableEq, Repr

/-- The Core Reset in progress and its request (R171). -/
structure CoreReset where
  flavour : Flavour
  request : Nat
  deriving DecidableEq, Repr

structure Mgu where
  mask : Nat
  counters : Counters
  timeBase : TimeBase
  coreReset : Option CoreReset
  deriving DecidableEq, Repr

/-! ## The part -/

/-- The whole state. `stamp` counts the moments named so far (log 38); `pending` is the queue of waiting
commands, first in, first out. -/
structure State where
  link : Link
  dem : Dem
  rgt : Rgt
  cod : Cod
  dht : Dht
  rpq : Rpq
  sls : Sls
  fcu : Fcu
  psc : Psc
  drp : Drp
  mgu : Mgu
  stamp : Nat
  pending : List Instr
  deriving DecidableEq, Repr

/-- Why a command faults: no command of the part does (INVENTORY.md, Faults), so there is no constructor. -/
inductive Fault where
  deriving DecidableEq, Repr

/-- Why a command is refused. -/
inductive Refusal where
  /-- Raised by `exec` alone, for a command that has no meaning yet. Safe: no state follows. -/
  | notModelled (mnemonic : String)
  deriving DecidableEq, Repr

/-! ## Power-on -/

/-- The empty form of a region entry (R41). -/
def emptyRegion : RegionEntry :=
  { valid := false, base := ⟨0, 0⟩, rankMask := 0, indexMask := 0, cls := .standard, level := 6 }

/-- The default profile (T66). -/
def defaultProfile : Profile :=
  { period := 320, allowed := true, steal := 262144, lazyWait := 20 }

/-- The reset form of a device entry (R113). -/
def resetDevice : DeviceEntry :=
  { tally := 0, state := .sound, touched := false, capped := false, count := 0 }

/-- A rank at power-on: present ranks OFFLINE in self-refresh, the others ABSENT (R155, T77). -/
def powerOnRank (present : Bool) : RankRec :=
  { state := if present then .offline else .absent, selfRefresh := present, fillPosition := 0,
    refresh := none }

/-- An EMPTY capture record with sound storage (R122). -/
def emptyRecord : CaptureRecord := { content := .empty, storage := .sound, strike := .sound }

/-- Every counter at 0 (R176). -/
def zeroCounters : Counters :=
  { corrected := Vector.replicate 4 0, ueLines := Vector.replicate 4 0,
    poisonedReads := Vector.replicate 4 0, lagTicks := 0, overruns := 0, lostCaptures := 0 }

/-- Every block at its power-on value (R187), with the POR pin and the straps as given. -/
def powerOn (por : Bool) (pins : StrapPins) (stamp : Nat) (pending : List Instr) : State :=
  { link := { por := por, straps := pins, state := .down, fill := 0, timer := 0, slips := [], upstream := [],
              transmitting := none }
    dem := { requests := [], holdSet := [], completions := [] }
    rgt := { entries := Vector.replicate 16 ⟨emptyRegion, .sound⟩, defaultLevel := 6 }
    cod := { injections := Vector.replicate 2 none, loopLine := none }
    dht := { devices := Vector.replicate 40 ⟨resetDevice, .sound⟩, decayQ := 32,
             probationK := 1024 }
    rpq := { entries := [] }
    sls := { slots := Vector.replicate 32 .free, threshold := 3, allocationFailed := false,
             retires := [] }
    fcu := { recordA := emptyRecord, recordB := emptyRecord, next := .a, halted := none,
             contexts := [] }
    psc := { profiles := Vector.replicate 8 ⟨defaultProfile, .sound⟩, phase := 0,
             tickCountdown := 320, running := false, cursor := none, cursorPhase := .untested,
             wholeSweep := false, passVisited := false, credit := 0, lagLimit := 1048576,
             steal := false, lagging := false }
    drp := { ranks := Vector.ofFn fun r => powerOnRank (r.val < pins.presentRanks),
             lastFill := none, history := 7, port := none, refreshDue := [] }
    mgu := { mask := 3, counters := zeroCounters, timeBase := 0, coreReset := none }
    stamp := stamp
    pending := pending }

/-- The part right after power-on reset: the POR pin released, the link DOWN, every block at its power-on
value. DESIGN CHOICE (log 5), unsafe: the strap pins all tied to ground. -/
def State.reset : State := powerOn false ⟨.ground, .ground, .ground⟩ 0 []

end Sys2Proof.Machine
end

