-- ==== Sys2Proof/Machine/LineCode.lean ====
section
/-! DEFINITION. The line code: placement, encoding, poison form, decoding, line verdict and correction
record (chapter 1). -/

namespace Sys2Proof.Machine

/-! ## Encoding (R1, R4, R6) -/

/-- The symbol of data device `d` in codeword `j`: line bytes 16j+2d and 16j+2d+1 (R1). -/
def dataSymbol (data : Line) (j d : Nat) : Sym :=
  getAt data (16 * j + 2 * d) 0 ++ getAt data (16 * j + 2 * d + 1) 0

/-- The sum of the data symbols of codeword `j` (R4's A). -/
def dataSum (data : Line) (j : Nat) : Sym :=
  (List.range 8).foldl (fun acc d => acc ^^^ dataSymbol data j d) 0

/-- The weighted sum of the data symbols of codeword `j` (R4's B). -/
def dataWeightedSum (data : Line) (j : Nat) : Sym :=
  (List.range 8).foldl (fun acc d => acc ^^^ fieldMul (deviceWeight d) (dataSymbol data j d)) 0

/-- The check symbol s_9 (R4). -/
def checkNine (data : Line) (j : Nat) : Sym :=
  fieldQuotient (dataWeightedSum data j ^^^ fieldMul (deviceWeight 8) (dataSum data j))
    (deviceWeight 8 ^^^ deviceWeight 9)

/-- A codeword with its check symbols (R4). -/
def encodeCodeword (data : Line) (j : Nat) : Codeword :=
  let nine := checkNine data j
  let eight := dataSum data j ^^^ nine
  Vector.ofFn fun d =>
    if d.val < 8 then dataSymbol data j d.val else if d.val = 8 then eight else nine

/-- The encoding of a line (R4). -/
def encode (data : Line) : RawLine := Vector.ofFn fun j => encodeCodeword data j.val

/-- The poison constant XOR-ed into both check symbols of every codeword (R6). -/
def poison (raw : RawLine) : RawLine :=
  Vector.ofFn fun j => Vector.ofFn fun d =>
    if d.val < 8 then raw[j][d] else raw[j][d] ^^^ Config.poisonConstant

/-- An injection entry's pattern XOR-ed into the symbol of its device in each codeword of its set
(R16). -/
def flip (i : Injection) (raw : RawLine) : RawLine :=
  Vector.ofFn fun j => Vector.ofFn fun d =>
    if d.val = i.device ∧ i.codewords.getLsbD j.val then raw[j][d] ^^^ i.pattern else raw[j][d]

/-! ## Beats (R1, T95) -/

/-- A line as it goes to the devices: codeword `j` in beats 2j and 2j+1, each symbol's high byte first. -/
def onBeats (raw : RawLine) : Burst :=
  Vector.ofFn fun b => Vector.ofFn fun d =>
    let symbol := getAt (getAt raw (b.val / 2) (Vector.replicate 10 0)) d.val 0
    if b.val % 2 = 0 then symbol.extractLsb' 8 8 else symbol.extractLsb' 0 8

/-- The forty symbols of the eight beats that the devices of a rank return. -/
def fromBeats (beats : Burst) : RawLine :=
  Vector.ofFn fun j => Vector.ofFn fun d =>
    getAt (getAt beats (2 * j.val) (Vector.replicate 10 0)) d.val 0 ++
      getAt (getAt beats (2 * j.val + 1) (Vector.replicate 10 0)) d.val 0

/-! ## Decoding a codeword (R7, R9, R10) -/

/-- The syndrome S0 (R7). -/
def syndromeZero (w : Codeword) : Sym := w.toList.foldl (· ^^^ ·) 0

/-- The syndrome S1 (R7). -/
def syndromeOne (w : Codeword) : Sym :=
  (List.finRange 10).foldl (fun acc d => acc ^^^ fieldMul (deviceWeight d.val) w[d]) 0

/-- Outcome without an erasure mark (T9). -/
def outcomeUnmarked (s0 s1 : Sym) : CodewordOutcome :=
  if s0 = 0 ∧ s1 = 0 then .clean
  else if s0 = 0 ∧ s1 = Config.poisonSyndrome then .poisonMark
  else if s0 = 0 then .uncorrectable
  else
    match (List.finRange 10).find? fun d => s1 = fieldMul (deviceWeight d.val) s0 with
    | some d => .fixed d s0
    | none => .uncorrectable

/-- Outcome with an erasure mark at device `m` (T10). -/
def outcomeMarked (m : Fin 10) (s0 s1 : Sym) : CodewordOutcome :=
  if s0 = 0 ∧ s1 = Config.poisonSyndrome then .poisonMark
  else if s1 = fieldMul (deviceWeight m.val) s0 then .filled s0
  else .uncorrectable

/-- Outcome of a codeword under the rank's mark (R9, R10). -/
def outcomeOf (mark : Option (Fin 10)) (w : Codeword) : CodewordOutcome :=
  match mark with
  | none => outcomeUnmarked (syndromeZero w) (syndromeOne w)
  | some m => outcomeMarked m (syndromeZero w) (syndromeOne w)

/-- The codeword after the correction of its outcome (T9, T10). -/
def correctedCodeword (mark : Option (Fin 10)) (o : CodewordOutcome) (w : Codeword) : Codeword :=
  match o, mark with
  | .fixed d e, _ => w.set d (w[d] ^^^ e)
  | .filled e, some m => w.set m (w[m] ^^^ e)
  | _, _ => w

/-- The 64 line bytes of the data symbols (R1). -/
def dataBytes (raw : RawLine) : Line :=
  Vector.ofFn fun i =>
    let s : Sym := getAt (getAt raw (i.val / 16) (Vector.replicate 10 0)) (i.val % 16 / 2) 0
    if i.val % 2 = 0 then (s >>> 8).setWidth 8 else s.setWidth 8

/-! ## Line verdict and verdict record (R11–R13) -/

inductive Verdict where
  | clean | corrected | uncorrectable | poisoned
  deriving DecidableEq, Repr

/-- Read sources (T12). -/
inductive ReadSource where
  | demand | rmw | patrol | retry | verify | retire
  deriving DecidableEq, Repr

/-- A FIXED outcome, or a FILLED one with a non-zero pattern (T11). -/
def CodewordOutcome.isCorrection : CodewordOutcome → Bool
  | .fixed _ _ => true
  | .filled p => p != 0
  | _ => false

/-- The line verdict, the first case of T11 that applies. -/
def lineVerdict (os : List CodewordOutcome) : Verdict :=
  if 2 ≤ os.countP (· == .poisonMark) then .poisoned
  else if os.any fun o => o == .uncorrectable || o == .poisonMark then .uncorrectable
  else if os.any CodewordOutcome.isCorrection then .corrected
  else .clean

/-- One fixed device of a correction record: k_d codewords with patterns of total weight W_d (T13). -/
structure FixedDevice where
  device : Fin 10
  codewords : Nat
  weight : Nat
  deriving DecidableEq, Repr

/-- A correction record (T13). `fill` is the fill device with its fill count. -/
structure CorrectionRecord where
  fixed : List FixedDevice
  fill : Option (Fin 10 × Nat)
  erasureOnly : Bool
  scattered : Bool
  deriving DecidableEq, Repr

/-- The patterns FIXED at device `d`. -/
def fixedPatterns (os : List CodewordOutcome) (d : Fin 10) : List Sym :=
  os.filterMap fun o => match o with | .fixed d' p => if d' = d then some p else none | _ => none

/-- The fixed devices in rising device order (T13). -/
def fixedDevices (os : List CodewordOutcome) : List FixedDevice :=
  ((List.finRange 10).filter fun d => !(fixedPatterns os d).isEmpty).map fun d =>
    { device := d, codewords := (fixedPatterns os d).length,
      weight := ((fixedPatterns os d).map patternWeight).sum }

/-- The number of codewords FILLED with a non-zero pattern (T13). -/
def fillCount (os : List CodewordOutcome) : Nat :=
  os.countP fun o => match o with | .filled p => p != 0 | _ => false

/-- The correction record of a CORRECTED line (R13). -/
def correctionRecord (mark : Option (Fin 10)) (os : List CodewordOutcome) : CorrectionRecord :=
  { fixed := fixedDevices os
    fill := mark.map fun m => (m, fillCount os)
    erasureOnly := (fixedDevices os).isEmpty
    scattered := 2 ≤ (fixedDevices os).length }

/-- A verdict record (T12), with the classification that travels with its work (R47) and whether a DRAM
write of the line was granted after its read was (R55). -/
structure VerdictRecord where
  line : LineAddr
  source : ReadSource
  verdict : Verdict
  mark : Option (Fin 10)
  outcomes : Vector CodewordOutcome 4
  raw : RawLine
  rawData : Line
  corrected : Line
  correction : Option CorrectionRecord
  cls : Option Classification
  overwritten : Bool
  deriving DecidableEq, Repr

/-- The outcomes of the four codewords. -/
def outcomesOf (mark : Option (Fin 10)) (raw : RawLine) : Vector CodewordOutcome 4 :=
  Vector.ofFn fun j => outcomeOf mark raw[j]

/-- The forty symbols after the corrections (R12). -/
def correctedRaw (mark : Option (Fin 10)) (raw : RawLine) : RawLine :=
  Vector.ofFn fun j => correctedCodeword mark (outcomeOf mark raw[j]) raw[j]

/-- The decode of a raw line (R7–R13). -/
def decodeLine (line : LineAddr) (source : ReadSource) (mark : Option (Fin 10))
    (cls : Option Classification) (overwritten : Bool) (raw : RawLine) : VerdictRecord :=
  let os := outcomesOf mark raw
  let v := lineVerdict os.toList
  { line := line, source := source, verdict := v, mark := mark, outcomes := os, raw := raw,
    rawData := dataBytes raw, corrected := dataBytes (correctedRaw mark raw),
    correction := if v = .corrected then some (correctionRecord mark os.toList) else none,
    cls := cls, overwritten := overwritten }

/-- A CORRECTED verdict that is not erasure-only: what RPQ considers and SLS watches (R54, R75). -/
def VerdictRecord.repairable (v : VerdictRecord) : Bool :=
  match v.correction with
  | some c => !c.erasureOnly
  | none => false

end Sys2Proof.Machine
end

