-- ==== Sys2Proof/Machine/Formats.lean ====
section
/-! DEFINITION. Codes, upstream frames and capture parts as bytes (R198, R199, T92, T94, T96). -/

namespace Sys2Proof.Machine

/-! ## Codes (T92) -/

def Status.code : Status → Byte
  | .clean => 0 | .done => 1 | .corrected => 2 | .correctedRetry => 3 | .poisoned => 4
  | .uncorrectable => 5 | .notReady => 6 | .range => 7 | .aborted => 8 | .halted => 9

def Result.code : Result → Byte
  | .done => 0 | .busy => 1 | .wrongState => 2 | .range => 3 | .halted => 4 | .unknown => 5

/-- Events are numbered 1 to 28 in the order of T85. -/
def EventKind.code : EventKind → Byte
  | .lineCorrected => 1 | .scattered => 2 | .poisonRead => 3 | .rqOverrun => 4 | .tagClash => 5
  | .internalCorrected => 6 | .tableFault => 7 | .repairDeferred => 8 | .repairStuck => 9
  | .spareRetired => 10 | .spareFull => 11 | .spareFailed => 12 | .deviceSuspect => 13
  | .deviceMarked => 14 | .deviceSecond => 15 | .probationPass => 16 | .probationFail => 17
  | .lineUe => 18 | .captureLost => 19 | .halted => 20 | .sweepDone => 21 | .patrolLag => 22
  | .stealOn => 23 | .stealOff => 24 | .fillDone => 25 | .fillStopped => 26 | .linkCrc => 27
  | .elasticSlip => 28

def TableId.code : TableId → Byte
  | .region => 1 | .phase => 2 | .health => 3 | .spare => 4 | .capture => 5

def RegionClass.code : RegionClass → Byte
  | .standard => 0 | .hot => 1 | .journal => 2 | .exempt => 3

def recordCode : RecordName → Byte
  | .a => 0 | .b => 1

def recordIndex : RecordName → Nat
  | .a => 0 | .b => 1

def RankState.code : RankState → Byte
  | .absent => 0 | .offline => 1 | .filling => 2 | .online => 3

def DeviceState.code : DeviceState → Byte
  | .sound => 0 | .suspect => 1 | .marked => 2 | .probation => 3

def Slot.code : Slot → Byte
  | .free => 0 | .watch .. => 1 | .active .. => 2 | .failed .. => 3 | .releasing .. => 4

def CaptureKind.code : CaptureKind → Byte
  | .demandUe => 1 | .patrolUe => 2 | .rmwUe => 3 | .slotFailed => 4 | .tableFault => 5

/-- The state byte of a capture record (T96). -/
def RecordContent.code : RecordContent → Byte
  | .empty => 0 | .held _ => 1 | .lost => 2

/-- One byte that names something, 0xFF for none (R198). -/
def packedName (n : Option Nat) : List Byte :=
  match n with
  | some k => packed 1 k
  | none => [0xFF]

/-- A record's name, 0xFF for none. -/
def packedRecord (r : Option RecordName) : List Byte :=
  match r with
  | some x => [recordCode x]
  | none => [0xFF]

/-- A (table, index) subject, 0xFF 0xFF for none (T92). -/
def packedCause (c : Option HaltCause) : List Byte :=
  match c with
  | some x => x.table.code :: packed 1 x.index
  | none => [0xFF, 0xFF]

/-- A codeword outcome in five bytes: code, device, pattern, weight (T92). A FILLED outcome carries a
pattern alone (T12, T60; log 25). -/
def CodewordOutcome.packed (o : CodewordOutcome) : List Byte :=
  match o with
  | .clean => [0, 0xFF, 0, 0, 0]
  | .fixed d p =>
    1 :: BitVec.ofNat 8 d.val :: (Machine.packed 2 p.toNat ++ Machine.packed 1 (patternWeight p))
  | .filled p => 2 :: 0xFF :: (Machine.packed 2 p.toNat ++ [0])
  | .poisonMark => [3, 0xFF, 0, 0, 0]
  | .uncorrectable => [4, 0xFF, 0, 0, 0]
  | .notRead => [5, 0xFF, 0, 0, 0]

/-! ## Upstream frames (T94) -/

/-- Subject type and the five subject bytes of an ALERT frame. -/
def Subject.packed : Subject → List Byte
  | .none => [0, 0, 0, 0, 0, 0]
  | .rank r => 1 :: BitVec.ofNat 8 r :: [0, 0, 0, 0]
  | .device r d => 2 :: BitVec.ofNat 8 r :: BitVec.ofNat 8 d :: [0, 0, 0]
  | .line a => 3 :: (packedAddress a ++ [0])
  | .table t i => 4 :: t.code :: BitVec.ofNat 8 i :: [0, 0, 0]

/-- The bytes of an upstream frame with its check; an echoed frame goes up unchanged (R193, R197, R198). The payload
bytes of a MANAGE-DONE beyond the number in its length byte are zero: the spec does not say what they hold (DESIGN
CHOICE, log 54). -/
def UpFrame.bytes : UpFrame → List Byte
  | .readDone tag status data => checked (0x20 :: tag :: status.code :: data.toList)
  | .writeDone tag status => checked [0x21, tag, status.code]
  | .manageDone tag result payload =>
    checked (0x22 :: tag :: result.code :: BitVec.ofNat 8 payload.length ::
      (payload ++ List.replicate (64 - payload.length) 0))
  | .alert event level subject record time =>
    checked (0x23 :: event.code :: BitVec.ofNat 8 level ::
      (subject.packed ++ packedRecord record ++ packed 6 time.toNat))
  | .echoed bytes => bytes

/-! ## Capture record parts (R199, T96) -/

/-- The presence byte: line address, retry outcome, held write, table identity (T96). -/
def Capture.presence (c : Capture) : Byte :=
  (if c.line.isSome then 1 else 0) ||| (if c.retry.isSome then 2 else 0) |||
    (if c.held.isSome then 4 else 0) ||| (if c.table.isSome then 8 else 0)

/-- The retry outcome and the isolation set; zero bytes where the capture has none (R198). -/
def packedRetry (r : Option RetryOutcome) : List Byte :=
  match r with
  | none => [0, 0, 0]
  | some .persistent => [0, 0, 0]
  | some (.unstable devices) => 1 :: packed 2 devices.toNat

/-- The head of a HELD record: part 0 (T96). -/
def Capture.head (c : Capture) : List Byte :=
  [1, c.kind.code, c.presence] ++
    (match c.line with | some a => packedAddress a | none => [0, 0, 0, 0]) ++
    packedName c.region ++ packed 1 c.phase ++ packed 6 c.time.toNat ++ packedRetry c.retry ++
    (c.outcomes.toList.map CodewordOutcome.packed).flatten ++ packedName c.mark ++
    (match c.table with | some (t, i) => [t.code, BitVec.ofNat 8 i] | none => [0, 0])

/-- A part of a HELD record: the head, the mask with data bytes 0–31, or data bytes 32–63 (R199). -/
def Capture.part (c : Capture) (part : Nat) : List Byte :=
  match part, c.held with
  | 0, _ => c.head
  | 1, some (mask, data) => packedMask mask ++ data.toList.take 32
  | 2, some (_, data) => data.toList.drop 32
  | _, _ => []

/-- A part of a record: the state byte alone for an EMPTY record's part 0 and for every part of a record
found uncorrectable (R199). -/
def RecordContent.part (r : RecordContent) (part : Nat) : List Byte :=
  match r with
  | .empty => if part = 0 then [0] else []
  | .held c => c.part part
  | .lost => [2]

end Sys2Proof.Machine
end

