-- ==== Sys2Proof/Machine/Flags.lean ====
section
/-! DEFINITION. The upstream queue, events and their judgement, counters and the time base
(R173–R178, R195). -/

namespace Sys2Proof.Machine

/-! ## The upstream queue (R195) -/

/-- Whether LNK sends frames in this state: ACTIVE or ECHO (R195). -/
def LinkState.sends : LinkState → Bool
  | .active => true
  | .echo => true
  | _ => false

/-- With no frame on the lanes, LNK begins sending the oldest waiting frame (R195). -/
def beginSending (l : Link) : Link :=
  match l.transmitting, l.upstream with
  | none, f :: rest =>
    if l.state.sends then
      { l with transmitting := some (onLanes l.straps.laneCount f.bytes), upstream := rest }
    else l
  | _, _ => l

/-- A frame handed to the upstream queue. -/
def pushUp (f : UpFrame) (s : State) : State :=
  { s with link := beginSending { s.link with upstream := s.link.upstream ++ [f] } }

/-- The pending completions that room in the queue goes to first: those of requests still in the buffer
(R195, log 8). -/
def roomClaims (s : State) : Nat :=
  s.dem.completions.countP fun c => s.dem.requests.any fun r => r.id == c.request && !r.orphan

/-! ## Events (R173–R175, T85) -/

/-- The level of each event (T85). LINE_UE has none of its own: `raiseAt` gives it (R174). -/
def EventKind.level : EventKind → Nat
  | .lineCorrected => 1 | .scattered => 3 | .poisonRead => 4 | .rqOverrun => 5 | .tagClash => 5
  | .internalCorrected => 1 | .tableFault => 5 | .repairDeferred => 2 | .repairStuck => 4
  | .spareRetired => 3 | .spareFull => 4 | .spareFailed => 6 | .deviceSuspect => 3
  | .deviceMarked => 5 | .deviceSecond => 6 | .probationPass => 2 | .probationFail => 4
  | .lineUe => 0 | .captureLost => 6 | .halted => 7 | .sweepDone => 1 | .patrolLag => 4
  | .stealOn => 2 | .stealOff => 1 | .fillDone => 2 | .fillStopped => 2 | .linkCrc => 3
  | .elasticSlip => 4

/-- Whether an event of this level passes: the link is ACTIVE, and the level is above the mask or is 7
(R173). -/
def eventPasses (level : Nat) (s : State) : Bool :=
  s.link.state == .active && (s.mgu.mask < level || level == 7)

/-- Whether LNK takes an alert frame of this level: level 7 always, the others while the queue has room
(R195). -/
def alertTaken (level : Nat) (s : State) : Bool :=
  level == 7 || s.link.upstream.length + roomClaims s < Config.upstreamBound

/-- An event of the given level reaches MGU: it becomes an alert frame with the time base of this moment,
or leaves no trace (R173). -/
def raiseAt (kind : EventKind) (level : Nat) (subject : Subject) (record : Option RecordName)
    (s : State) : State :=
  if eventPasses level s && alertTaken level s then
    pushUp (.alert kind level subject record s.mgu.timeBase) s
  else s

/-- An event of T85 with its fixed level and no capture record. -/
def raise (kind : EventKind) (subject : Subject) (s : State) : State :=
  raiseAt kind kind.level subject none s

/-! ## Counters (R176) -/

/-- The counters changed by `f`. -/
def State.withCounters (f : Counters → Counters) (s : State) : State :=
  { s with mgu := { s.mgu with counters := f s.mgu.counters } }

/-- One instance of a per-rank counter rises by one, saturating. -/
def bump (v : Vector Nat 4) (rank : Nat) : Vector Nat 4 :=
  setAt v rank (saturate Config.counterCeiling (getAt v rank 0))

/-- A corrected line of the rank (R176). -/
def countCorrected (rank : Nat) (s : State) : State :=
  s.withCounters fun c => { c with corrected := bump c.corrected rank }

/-- A confirmed uncorrectable line of the rank (R119). -/
def countUe (rank : Nat) (s : State) : State :=
  s.withCounters fun c => { c with ueLines := bump c.ueLines rank }

/-- A READ of the rank completed POISONED (R26). -/
def countPoisonedRead (rank : Nat) (s : State) : State :=
  s.withCounters fun c => { c with poisonedReads := bump c.poisonedReads rank }

/-- A lost tick (R138). -/
def countLagTick (s : State) : State :=
  s.withCounters fun c => { c with lagTicks := saturate Config.counterCeiling c.lagTicks }

/-- A frame discarded at a full buffer (R20). -/
def countOverrun (s : State) : State :=
  s.withCounters fun c => { c with overruns := saturate Config.counterCeiling c.overruns }

/-- A lost capture (R124). -/
def countLostCapture (s : State) : State :=
  s.withCounters fun c => { c with lostCaptures := saturate Config.lostCeiling c.lostCaptures }

end Sys2Proof.Machine
end

