-- ==== Sys2Proof/Machine/Operands.lean ====
section
/-! DEFINITION. What a downstream frame and an argument field spell (R193, R194, R198, T92, T93). -/

namespace Sys2Proof.Machine

/-! ## Downstream frames -/

/-- The length of a downstream kind, from start symbol to end symbol (T93). -/
def downstreamLength (kind : Byte) : Option Nat :=
  if kind = 0x10 then some 8
  else if kind = 0x11 then some 72
  else if kind = 0x12 then some 80
  else if kind = 0x13 then some 70
  else none

/-- LNK's judgement of a frame: its kind byte names a downstream kind, its length is that kind's, and its
check matches (R193). -/
def goodFrame (bytes : List Byte) : Bool :=
  match bytes with
  | [] => false
  | kind :: _ =>
    (downstreamLength kind == some bytes.length) &&
      (checked (bytes.take (bytes.length - 2)) == bytes)

/-- Bytes `from` to `from + n − 1` of a frame or an argument field. -/
def field (bytes : List Byte) (start n : Nat) : List Byte := (bytes.drop start).take n

/-- Byte `i`, or 0 where there is none. -/
def byteAt (bytes : List Byte) (i : Nat) : Byte := bytes.getD i 0

/-- The tag of a good frame (T93). -/
def frameTag (bytes : List Byte) : Byte := byteAt bytes 1

/-- The kind and fields of a good frame (R194, T93). The arguments that count are the first so many as
the argument length says, 64 at most. -/
def frameBody (bytes : List Byte) : RequestBody :=
  if byteAt bytes 0 = 0x10 then .read (addressOf (field bytes 2 4))
  else if byteAt bytes 0 = 0x11 then
    .write (addressOf (field bytes 2 4)) (lineOf (field bytes 6 64))
  else if byteAt bytes 0 = 0x12 then
    .maskedWrite (addressOf (field bytes 2 4)) (maskOf (field bytes 6 8))
      (lineOf (field bytes 14 64))
  else
    .manage (byteAt bytes 2).toNat (field bytes 4 (min 64 (byteAt bytes 3).toNat))

/-! ## Frames as a host forms them: the other direction of T93 -/

/-- The frame of a request, with its check. -/
def hostFrame (tag : Byte) : RequestBody → List Byte
  | .read a => checked (0x10 :: tag :: packedAddress a)
  | .write a data => checked (0x11 :: tag :: (packedAddress a ++ data.toList))
  | .maskedWrite a mask data =>
    checked (0x12 :: tag :: (packedAddress a ++ packedMask mask ++ data.toList))
  | .manage kind args =>
    checked (0x13 :: tag :: BitVec.ofNat 8 kind :: BitVec.ofNat 8 args.length ::
      (args ++ List.replicate (64 - args.length) 0))

/-! ## Arguments -/

/-- Argument number made of the `n` bytes from `start` on. -/
def argument (args : List Byte) (start n : Nat) : Nat := number (field args start n)

/-- The class that a code names (T92). -/
def classOf (code : Nat) : Option RegionClass :=
  match code with
  | 0 => some .standard
  | 1 => some .hot
  | 2 => some .journal
  | 3 => some .exempt
  | _ => none

/-- The record that a code names (T92). -/
def recordOf (code : Nat) : Option RecordName :=
  match code with
  | 0 => some .a
  | 1 => some .b
  | _ => none

/-- The number of argument bytes a request kind needs (R171, R194, T82, T92). -/
def argumentsNeeded (kind : Nat) : Nat :=
  match kind with
  | 1 => 13 | 2 => 1 | 3 => 1 | 4 => 10 | 5 => 1 | 6 => 1 | 7 => 2 | 8 => 2 | 9 => 2 | 10 => 3
  | 11 => 1 | 12 => 4 | 13 => 1 | 14 => 1 | 18 => 4 | 19 => 4 | 21 => 1 | 22 => 1 | 23 => 1
  | 25 => 1 | 26 => 1 | 27 => 10 | 28 => 1 | 29 => 1 | 30 => 1 | 33 => 6 | 37 => 1
  | _ => 0

end Sys2Proof.Machine
end

