-- ==== Sys2Proof/Machine/Ops.lean ====
section
/-! DEFINITION. The shared operations: geometry, requests and completions, holders of a line, the waiting
operations of the DRAM port, and quiescing ranks. -/

namespace Sys2Proof.Machine

/-! ## Geometry (R155, R187, T89) -/

/-- Lines in a rank. -/
def depth (s : State) : Nat := 2 ^ s.link.straps.depthExponent

/-- The record of rank `r`; ranks above 3 are ABSENT (R194). -/
def rankRec (s : State) (r : Nat) : RankRec := getAt s.drp.ranks r (powerOnRank false)

/-- The state of rank `r`. -/
def rankState (s : State) (r : Nat) : RankState := (rankRec s r).state

/-- Rank `r` replaced by `x`. -/
def setRank (r : Nat) (x : RankRec) (s : State) : State :=
  { s with drp := { s.drp with ranks := setAt s.drp.ranks r x } }

/-- The rank number of a line. -/
def rankOf (a : LineAddr) : Nat := a.rank.toNat

/-- The line rank:index. -/
def lineAt (r i : Nat) : LineAddr := ⟨BitVec.ofNat 3 r, BitVec.ofNat 27 i⟩

/-- The line exists: its rank is not ABSENT and its index is below the depth (R23, T18). -/
def lineExists (a : LineAddr) (s : State) : Bool :=
  rankState s (rankOf a) != .absent && a.index.toNat < depth s

/-! ## Requests (R19) -/

/-- The line a demand request names. -/
def RequestBody.line? : RequestBody → Option LineAddr
  | .read a => some a
  | .write a _ => some a
  | .maskedWrite a _ _ => some a
  | .manage _ _ => none

/-- READ, WRITE or MASKED-WRITE. -/
def Request.isDemand (r : Request) : Bool := r.body.line?.isSome

/-- The request named `id`. -/
def findRequest (id : Nat) (s : State) : Option Request := s.dem.requests.find? fun r => r.id == id

/-- The request named `id` changed by `f`. -/
def updateRequest (id : Nat) (f : Request → Request) (s : State) : State :=
  { s with dem := { s.dem with requests := s.dem.requests.map fun r => if r.id = id then f r else r } }

/-- The request named `id` put in a phase. -/
def setPhase (id : Nat) (p : Phase) (s : State) : State :=
  updateRequest id (fun r => { r with phase := p }) s

/-- The number of requests in the request buffer, orphans not counted (R19, R40). -/
def bufferCount (s : State) : Nat := s.dem.requests.countP fun r => !r.orphan

/-- The place of a demand request's line in the hold set: in codec-loop mode every demand request counts as
one to the loop line (R22). DESIGN CHOICE (log 42): a request that was started before a Loop Set keeps the place it
took, so that it holds up no request of the other mode. -/
def holdKey (s : State) (a : LineAddr) : HoldKey :=
  if s.cod.loopLine.isSome then .loopLine else .line a

/-! ## Completions (R19, R36, R40, R195) -/

/-- A DRAM write of the line, granted to a demand request, is at DRAM (R22). -/
def portHolds (key : HoldKey) (s : State) : Bool :=
  match s.drp.port with
  | some g => (match g.op with | .demandWrite _ => key == .line g.line | _ => false)
  | none => false

/-- A line leaves the hold set, unless a write granted to its request is still at DRAM (R22). -/
def releaseHold (key : HoldKey) (s : State) : State :=
  if portHolds key s then s
  else { s with dem := { s.dem with holdSet := s.dem.holdSet.erase key } }

/-- The hold, if any, of a request that leaves. -/
def releaseHold? (key : Option HoldKey) (s : State) : State :=
  match key with
  | some k => releaseHold k s
  | none => s

/-- A Core Reset is in progress until its MANAGE-DONE is handed to LNK (R171). -/
def endCoreReset (id : Nat) (s : State) : State :=
  match s.mgu.coreReset with
  | some c => if c.request = id then { s with mgu := { s.mgu with coreReset := none } } else s
  | none => s

/-- The request leaves the buffer: its completion has been handed on or discarded (R19). -/
def dropRequest (r : Request) (s : State) : State :=
  endCoreReset r.id (releaseHold? r.hold
    { s with dem := { s.dem with
        requests := s.dem.requests.filter fun q => q.id != r.id
        completions := s.dem.completions.filter fun c => c.request != r.id } })

/-- LNK takes a completion at once: none is pending and the queue holds fewer than 8 frames (R195). -/
def completionTaken (s : State) : Bool :=
  s.dem.completions.isEmpty && s.link.upstream.length < Config.upstreamBound

/-- The completion of a request is known. It is discarded where the request is an orphan or the link is not
ACTIVE (R40), handed to LNK where there is room, and pending otherwise. A pending completion keeps what it
was given (R195). -/
def complete (id : Nat) (f : UpFrame) (s : State) : State :=
  match findRequest id s with
  | none => s
  | some r =>
    if r.phase = .completing then s
    else if r.orphan || s.link.state != .active then dropRequest r s
    else if completionTaken s then dropRequest r (pushUp f s)
    else
      setPhase id .completing
        { s with dem := { s.dem with completions := s.dem.completions ++ [⟨id, f⟩] } }

/-- READ-DONE for a READ, WRITE-DONE for the others (R36). -/
def demandFrame (r : Request) (status : Status) (data : Line) : UpFrame :=
  match r.body with
  | .read _ => .readDone r.tag status data
  | _ => .writeDone r.tag status

/-- A demand request completes with a status; `data` are the bytes a READ-DONE carries (R36, T24). -/
def completeDemand (id : Nat) (status : Status) (data : Line) (s : State) : State :=
  match findRequest id s with
  | none => s
  | some r => complete id (demandFrame r status data) s

/-- A management request is answered (R170). Every result but DONE has an empty payload. -/
def answer (id : Nat) (result : Result) (payload : List Byte) (s : State) : State :=
  match findRequest id s with
  | none => s
  | some r =>
    complete id (.manageDone r.tag result (if result = .done then payload else [])) s

/-! ## Slots, entries and the holder of a line (R24, R52, R74) -/

/-- The line a slot names. -/
def Slot.line? : Slot → Option LineAddr
  | .free => none
  | .watch a _ _ => some a
  | .active a _ _ => some a
  | .failed a _ _ => some a
  | .releasing a _ _ _ => some a

/-- ACTIVE, FAILED or RELEASING: the slot is the holder of its line (R74). -/
def Slot.holds : Slot → Bool
  | .active .. => true
  | .failed .. => true
  | .releasing .. => true
  | _ => false

/-- Slot `i`. -/
def slotAt (s : State) (i : Nat) : Slot := getAt s.sls.slots i .free

/-- Slot `i` replaced. -/
def setSlot (i : Nat) (x : Slot) (s : State) : State :=
  { s with sls := { s.sls with slots := setAt s.sls.slots i x } }

/-- The slot that names a line (R74: at most one does). -/
def slotNaming (a : LineAddr) (s : State) : Option Nat :=
  (List.range 32).find? fun i => (slotAt s i).line? == some a

/-- The slot that holds a line: ACTIVE, FAILED or RELEASING (R74). -/
def slotHolding (a : LineAddr) (s : State) : Option Nat :=
  (List.range 32).find? fun i => (slotAt s i).line? == some a && (slotAt s i).holds

/-- The repair entry of a line (R52: at most one). -/
def entryOf (a : LineAddr) (s : State) : Option RepairEntry :=
  s.rpq.entries.find? fun e => e.line == a

/-- The repair entry named `id`. -/
def findEntry (id : Nat) (s : State) : Option RepairEntry :=
  s.rpq.entries.find? fun e => e.id == id

/-- A repair entry is removed; the entries behind it move up (R52). Its ungranted request goes with it,
since waiting operations are those of the entries there are (R53). -/
def removeEntry (id : Nat) (s : State) : State :=
  { s with rpq := { s.rpq with entries := s.rpq.entries.filter fun e => e.id != id } }

/-- A repair entry changed by `f`, at its place in creation order. -/
def updateEntry (id : Nat) (f : RepairEntry → RepairEntry) (s : State) : State :=
  { s with rpq := { s.rpq with entries := s.rpq.entries.map fun e => if e.id = id then f e else e } }

/-- The holder of a line (R24). -/
inductive Holder where
  | slot (number : Nat)
  | entry (e : RepairEntry)
  | none
  deriving DecidableEq, Repr

/-- The holder of a line: a slot before an entry, which stands beside an ACTIVE slot only until its granted
write finishes (R64). -/
def holder (a : LineAddr) (s : State) : Holder :=
  match slotHolding a s with
  | some i => .slot i
  | Option.none =>
    match entryOf a s with
    | some e => .entry e
    | Option.none => .none

/-! ## PSC's waiting visit (R142, R145) -/

/-- Profile `n` as it stands. -/
def profileAt (s : State) (n : Nat) : Profile := (getAt s.psc.profiles n ⟨defaultProfile, .sound⟩).value

/-- The profile in force (R132). -/
def currentProfile (s : State) : Profile := profileAt s s.psc.phase

/-- The visit that PSC has waiting at DRP: its cursor line is the visit line, C is at least 1, the patrol is
running and allowed, and the part is not HALTED (R145). -/
def waitingVisit (s : State) : Option (LineAddr × Classification) :=
  match s.psc.cursor, s.psc.cursorPhase with
  | some a, .visitLine c =>
    if 1 ≤ s.psc.credit ∧ s.psc.running ∧ (currentProfile s).allowed ∧ s.fcu.halted.isNone then
      some (a, c)
    else none
  | _, _ => none

/-! ## The waiting operations of the DRAM port (R164–R166)

They are computed from what their requesters wait for, so an operation that its requester withdraws is
gone from here at once. -/

/-- A waiting operation: its place in the grant order (T75) and its age within the class (T76). -/
structure Waiting where
  order : Nat
  age : Nat
  op : PortOp
  line : LineAddr
  cls : Option Classification
  deriving DecidableEq, Repr

/-- The operation is at DRAM. -/
def atPort (op : PortOp) (s : State) : Bool :=
  match s.drp.port with
  | some g => g.op == op
  | none => false

/-- Due refreshes, in the order they fell due (R163). -/
def waitingRefreshes (s : State) : List Waiting :=
  s.drp.refreshDue.map fun r => ⟨1, 0, .refresh, lineAt r 0, none⟩

/-- Retry reads, by the moment FCU opened the context (R115). -/
def waitingRetries (s : State) : List Waiting :=
  (s.fcu.contexts.filter fun c => !atPort (.retryRead c.id) s).map fun c =>
    ⟨2, c.id, .retryRead c.id, c.line, some c.cls⟩

/-- The waiting visit: in the steal class at its spacing, else in the last place (R142, R165, R167). -/
def waitingVisits (s : State) : List Waiting :=
  match waitingVisit s with
  | some (a, c) =>
    [⟨if s.psc.steal ∧ s.drp.history = Config.stealSpacing then 3 else 7, 0, .visitRead false, a,
      some c⟩]
  | none => []

/-- The read-modify-write's read has the source RMW, the READ's the source DEMAND (R25, R32). -/
def RequestBody.isMasked : RequestBody → Bool
  | .maskedWrite .. => true
  | _ => false

/-- The operation that a demand request waits for. -/
def waitingDemand (r : Request) : List Waiting :=
  match r.body.line?, r.phase with
  | some a, .waitRead => [⟨4, r.age, .demandRead r.id r.body.isMasked, a, r.cls⟩]
  | some a, .waitWrite _ _ => [⟨4, r.age, .demandWrite r.id, a, r.cls⟩]
  | _, _ => []

/-- RETIRE reads, in the demand class, by the moment MGU took the Spare Retire (R80). -/
def waitingRetires (s : State) : List Waiting :=
  (s.sls.retires.filter fun w => !atPort (.retireRead w.request) s).map fun w =>
    ⟨4, w.age, .retireRead w.request, w.line, none⟩

/-- The write of a READY entry, or the verify read of a VERIFYING entry (R53). -/
def waitingRepair (s : State) (e : RepairEntry) : List Waiting :=
  match e.state with
  | .ready => [⟨5, e.id, .repairWrite e.id, e.line, none⟩]
  | .verifying =>
    if atPort (.verifyRead e.id) s then [] else [⟨5, e.id, .verifyRead e.id, e.line, none⟩]
  | _ => []

/-- The release write of a RELEASING slot (R84). -/
def waitingRelease (s : State) (i : Nat) : List Waiting :=
  match slotAt s i with
  | .releasing a _ _ (some w) =>
    if atPort (.releaseWrite i w.age) s then []
    else [⟨5, w.age, .releaseWrite i w.age, a, none⟩]
  | _ => []

/-- The turn of rank `r` in the fill class: the ranks above the last one filled come first (T76). -/
def fillTurn (s : State) (r : Nat) : Nat :=
  match s.drp.lastFill with
  | some l => (r + 3 - l) % 4
  | none => r

/-- The fill write that a FILLING rank keeps requested (R160). -/
def waitingFill (s : State) (r : Nat) : List Waiting :=
  if rankState s r = .filling ∧ (rankRec s r).fillPosition < depth s then
    [⟨6, fillTurn s r, .fillWrite, lineAt r (rankRec s r).fillPosition, none⟩]
  else []

/-- Every waiting operation; while the part is HALTED, the due refreshes alone (R168). That the others wait again from
the abort's own step is log 52. -/
def waiting (s : State) : List Waiting :=
  if s.fcu.halted.isSome then waitingRefreshes s
  else
    waitingRefreshes s ++ waitingRetries s ++ waitingVisits s ++
      s.dem.requests.flatMap waitingDemand ++ waitingRetires s ++
      s.rpq.entries.flatMap (waitingRepair s) ++
      (List.range 32).flatMap (waitingRelease s) ++ (List.range 4).flatMap (waitingFill s)

/-- The operation is granted before `w`: by its class, then by its age (R165, R166). -/
def Waiting.before (v w : Waiting) : Bool :=
  v.order < w.order || (v.order == w.order && v.age < w.age)

/-- The operation that the arbiter grants next; the earlier in the list of two that are level. -/
def firstWaiting : List Waiting → Option Waiting
  | [] => none
  | w :: ws =>
    match firstWaiting ws with
    | none => some w
    | some v => if v.before w then some v else some w

/-! ## Quiescing ranks (R158, R163) -/

/-- A DRAM operation of rank `r` is waiting or at DRAM, a due refresh not counted (R158). -/
def rankBusy (s : State) (r : Nat) : Bool :=
  (match s.drp.port with | some g => rankOf g.line == r | none => false) ||
    (waiting s).any fun w => w.order != 1 && rankOf w.line == r

/-- An OFFLINE rank with no operation left enters self-refresh: its countdown stops and its due refresh is
withdrawn (R158, R163). -/
def settleRank (s : State) (r : Nat) : State :=
  if rankState s r = .offline ∧ ¬(rankRec s r).selfRefresh ∧ ¬rankBusy s r then
    { s with drp := { s.drp with
        ranks := setAt s.drp.ranks r { rankRec s r with selfRefresh := true, refresh := none }
        refreshDue := s.drp.refreshDue.filter fun q => q != r } }
  else s

/-- Every quiescing rank that has become quiet enters self-refresh. -/
def settle (s : State) : State := [0, 1, 2, 3].foldl settleRank s

/-! ## Moments (R166) -/

/-- The state in which the next moment has a later stamp than this one (log 38). -/
def passMoment (s : State) : State := { s with stamp := s.stamp + 1 }

end Sys2Proof.Machine
end

