-- ==== Sys2Proof/Machine/Halt.lean ====
section
/-! DEFINITION. Entering HALTED (R127), and the stops that it shares with Core Reset: the patrol
(R152, R153) and the fills (R161). -/

namespace Sys2Proof.Machine

/-- The patrol is stopped; a waiting visit goes with it and the cursor line stands untested
(R145, R150). -/
def stopPatrol (s : State) : State :=
  { s with psc := { s.psc with running := false, cursorPhase := .untested } }

/-- A fill is stopped: the rank becomes OFFLINE, keeps its fill position, and DRP raises FILL_STOPPED
(R161). -/
def stopFill (s : State) (r : Nat) : State :=
  if rankState s r = .filling then
    raise .fillStopped (.rank r) (setRank r { rankRec s r with state := .offline } s)
  else s

/-- Every fill in progress is stopped (R161). -/
def stopFills (s : State) : State := [0, 1, 2, 3].foldl stopFill s

/-- Each retry not yet granted is withdrawn and its context discarded (R116, R127). -/
def dropUngrantedRetries (s : State) : State :=
  { s with fcu := { s.fcu with
      contexts := s.fcu.contexts.filter fun c => atPort (.retryRead c.id) s } }

/-- A retry granted before HALTED goes on at DRAM, and its verdict will confirm nothing (R127, log 45). -/
def endGrantedRetries (s : State) : State :=
  { s with fcu := { s.fcu with contexts := s.fcu.contexts.map fun c => { c with ended := true } } }

/-- The work under retry is the request named `id`. -/
def RetryWork.isFor (id : Nat) : RetryWork → Bool
  | .demand q => q == id
  | .rmw q _ _ => q == id
  | .patrol => false

/-- FCU holds a context for the request named `id`. -/
def underRetry (id : Nat) (s : State) : Bool := s.fcu.contexts.any fun c => c.work.isFor id

/-- The request waits for a grant, or is held, when HALTED begins: it completes HALTED at once. One whose
read, retry or write is at DRAM goes on to that operation's end (R39). -/
def endsAtHalt (r : Request) (s : State) : Bool :=
  match r.phase with
  | .waitRead => true
  | .heldRmw => true
  | .waitWrite _ _ => true
  | .heldWrite _ _ => true
  | .retrying => !underRetry r.id s
  | _ => false

/-- R39 for one request. -/
def haltRequest (s : State) (r : Request) : State :=
  if r.isDemand && endsAtHalt r s then completeDemand r.id .halted zeroLine s else s

/-- R39. -/
def haltDemand (s : State) : State := s.dem.requests.foldl haltRequest s

/-- A release whose write is not granted is withdrawn: the slot stays RELEASING and the Spare Release
completes HALTED (R85). -/
def haltRelease (s : State) (i : Nat) : State :=
  match slotAt s i with
  | .releasing a d t (some w) =>
    if atPort (.releaseWrite i w.age) s then s
    else answer w.request .halted [] (setSlot i (.releasing a d t none) s)
  | _ => s

/-- A Spare Retire leaves the Spare Retires in progress. -/
def endRetire (id : Nat) (s : State) : State :=
  { s with sls := { s.sls with retires := s.sls.retires.filter fun w => w.request != id } }

/-- A Spare Retire whose RETIRE read is not granted completes HALTED (R127). -/
def haltRetire (s : State) (w : RetireWork) : State :=
  if atPort (.retireRead w.request) s then s
  else answer w.request .halted [] (endRetire w.request s)

/-- A Core Reset (DRAIN) whose drain is in progress completes at once with result HALTED (R127, R183). -/
def haltDrain (s : State) : State :=
  match s.mgu.coreReset with
  | some ⟨.drain, id⟩ => answer id .halted [] s
  | _ => s

/-- The work in flight is ended (R127). -/
def endWorkAtHalt (s : State) : State :=
  let s := endGrantedRetries (dropUngrantedRetries s)
  let s := haltDemand s
  let s := (List.range 32).foldl haltRelease s
  let s := s.sls.retires.foldl haltRetire s
  let s := stopPatrol s
  let s := stopFills s
  let s := haltDrain s
  settle s

/-- The part enters HALTED: FCU sets the flag, raises HALTED (level 7) with the cause as subject, and the work
in flight is ended. A cause found while the part is already HALTED changes nothing (R127). -/
def enterHalted (cause : HaltCause) (s : State) : State :=
  if s.fcu.halted.isSome then s
  else
    endWorkAtHalt
      (raise .halted (.table cause.table cause.index)
        { s with fcu := { s.fcu with halted := some cause } })

end Sys2Proof.Machine
end

