-- ==== Sys2Proof/Machine/Capture.lean ====
section
/-! DEFINITION. Capture records: what a capture holds, where it is placed, and the check-back
(R122–R125); and the unchecked view of a rank's mark that a capture takes (R123). -/

namespace Sys2Proof.Machine

/-! ## Device entries seen without a check -/

/-- Device entry `n` (R91). -/
def deviceAt (s : State) (n : Nat) : Stored DeviceEntry := getAt s.dht.devices n ⟨resetDevice, .sound⟩

/-- The entry number of (rank r, device d) (R91). -/
def entryNumber (r d : Nat) : Nat := 10 * r + d

/-- Device states by code (T92). -/
def deviceStateOf (code : Fin 4) : DeviceState :=
  match code with
  | 0 => .sound
  | 1 => .suspect
  | 2 => .marked
  | 3 => .probation

/-- The state that a look at entry `n` shows: a free value while its storage holds an uncorrectable error
that no checked read has met (log 16). -/
def stateSeen (s : State) (n : Nat) : DeviceState :=
  match (deviceAt s n).storage with
  | .uncorrectable => deviceStateOf (Config.faultyDeviceState n s.mgu.timeBase)
  | _ => (deviceAt s n).value.state

/-- MARKED or PROBATION: the device is its rank's mark (R100). -/
def DeviceState.isMark : DeviceState → Bool
  | .marked => true
  | .probation => true
  | _ => false

/-- The erasure mark of rank `r`: its device that is MARKED or in PROBATION (R100). -/
def markOf (s : State) (r : Nat) : Option (Fin 10) :=
  (List.finRange 10).find? fun d => (stateSeen s (entryNumber r d.val)).isMark

/-- Whether the mark is MARKED or in PROBATION (R109). -/
def markState (s : State) (r : Nat) : Option DeviceState :=
  (markOf s r).map fun d => stateSeen s (entryNumber r d.val)

/-! ## Placing a capture -/

/-- The record of a name. -/
def recordAt (s : State) (x : RecordName) : CaptureRecord :=
  match x with
  | .a => s.fcu.recordA
  | .b => s.fcu.recordB

/-- The record of a name replaced. -/
def setRecord (x : RecordName) (c : CaptureRecord) (s : State) : State :=
  match x with
  | .a => { s with fcu := { s.fcu with recordA := c } }
  | .b => { s with fcu := { s.fcu with recordB := c } }

/-- The other record. -/
def otherRecord : RecordName → RecordName
  | .a => .b
  | .b => .a

/-- The record that takes a capture: the one the next pointer names if it is EMPTY, else the other if that
is EMPTY, else none (R124). -/
def captureTarget (s : State) : Option RecordName :=
  if (recordAt s s.fcu.next).content = .empty then some s.fcu.next
  else if (recordAt s (otherRecord s.fcu.next)).content = .empty then some (otherRecord s.fcu.next)
  else none

/-- The check-back of a record just written: an error that struck is corrected, or costs the contents
(R125). -/
def checkBack (x : RecordName) (s : State) : State :=
  match (recordAt s x).strike with
  | .sound => s
  | .singleBit =>
    raise .internalCorrected (.table .capture (recordIndex x))
      (setRecord x { recordAt s x with strike := .sound } s)
  | .uncorrectable =>
    setRecord x { content := .lost, storage := .uncorrectable, strike := .sound } s

/-- The capture written into record `x`, afresh with its check, and checked back (R124, R125). -/
def writeCapture (x : RecordName) (c : Capture) (s : State) : State :=
  checkBack x
    (setRecord x
      { content := .held { c with phase := s.psc.phase, time := s.mgu.timeBase }, storage := .sound,
        strike := (recordAt s x).strike }
      { s with fcu := { s.fcu with next := otherRecord x } })

/-- What a lost capture's CAPTURE_LOST names (R124). -/
def Capture.subject (c : Capture) : Subject :=
  match c.table, c.line with
  | some (t, i), _ => .table t i
  | none, some a => .line a
  | none, none => .none

/-- A capture is placed, or lost with CAPTURE_LOST; while the part is HALTED it is not made (R124). The
first component is the record that received it. -/
def placeCapture (c : Capture) (s : State) : Option RecordName × State :=
  if s.fcu.halted.isSome then (none, s)
  else
    match captureTarget s with
    | some x => (some x, writeCapture x c s)
    | none => (none, raise .captureLost c.subject (countLostCapture s))

/-- The contents of the record were lost at its check-back (R125). -/
def captureFailed (x : Option RecordName) (s : State) : Option HaltCause :=
  match x with
  | some n => if (recordAt s n).content = .lost then some ⟨.capture, recordIndex n⟩ else none
  | none => none

/-- The part enters HALTED where the check-back failed (R125, R127). -/
def haltIf (cause : Option HaltCause) (s : State) : State :=
  match cause with
  | some c => enterHalted c s
  | none => s

/-- A capture with what accompanies it: the capture is placed and checked back, then `report` raises the event
that names the record and moves its counters, and then the part enters HALTED where the check-back found an
uncorrectable error (R119, R125). -/
def capture (c : Capture) (report : Option RecordName → State → State) (s : State) : State :=
  let (x, s) := placeCapture c s
  haltIf (captureFailed x s) (report x s)

/-- No codeword of the line was read (T61). -/
def notReadOutcomes : Vector CodewordOutcome 4 := Vector.replicate 4 .notRead

/-- A capture of kind TABLE-FAULT (R51, R136). -/
def tableCapture (t : TableId) (i : Nat) : Capture :=
  { kind := .tableFault, line := none, region := none, phase := 0, time := 0, retry := none,
    outcomes := notReadOutcomes, mark := none, held := none, table := some (t, i) }

/-- A capture of a line that was not read: its mark is the rank's mark as DHT holds it at placement (T61). -/
def unreadCapture (kind : CaptureKind) (a : LineAddr) (region : Option Nat)
    (held : Option (ByteMask × Line)) (s : State) : Capture :=
  { kind := kind, line := some a, region := region, phase := 0, time := 0, retry := none,
    outcomes := notReadOutcomes, mark := (markOf s (rankOf a)).map Fin.val, held := held,
    table := none }

/-- TABLE_FAULT of a table whose item was found uncorrectable, with its capture (R51, R136). -/
def tableFault (t : TableId) (i : Nat) (s : State) : State :=
  capture (tableCapture t i)
    (fun x => raiseAt .tableFault EventKind.tableFault.level (.table t i) x) s

end Sys2Proof.Machine
end

