-- ==== Sys2Proof/Machine/Tables.lean ====
section
/-! DEFINITION. The checked reads of the protected tables (R130, R131): region entries and lookups, phase
profiles and steal mode, device entries, slot data. -/

namespace Sys2Proof.Machine

/-! ## Region entries and lookups (R42, R43, R50, R51) -/

/-- Region entry `i`. -/
def regionAt (s : State) (i : Nat) : Stored RegionEntry := getAt s.rgt.entries i ⟨emptyRegion, .sound⟩

/-- Region entry `i` replaced. -/
def setRegion (i : Nat) (x : Stored RegionEntry) (s : State) : State :=
  { s with rgt := { s.rgt with entries := setAt s.rgt.entries i x } }

/-- Reading entry `i` checks its storage: a single-bit error is corrected (R50), an uncorrectable one returns
the entry to its empty form (R51). -/
def checkRegion (s : State) (i : Nat) : State :=
  match (regionAt s i).storage with
  | .sound => s
  | .singleBit =>
    raise .internalCorrected (.table .region i) (setRegion i ⟨(regionAt s i).value, .sound⟩ s)
  | .uncorrectable => tableFault .region i (setRegion i ⟨emptyRegion, .sound⟩ s)

/-- A lookup reads all sixteen entries (R50). -/
def checkRegions (s : State) : State := (List.range 16).foldl checkRegion s

/-- The line agrees with the entry's base on every bit that the masks select (R42). -/
def RegionEntry.matches (e : RegionEntry) (a : LineAddr) : Bool :=
  e.valid && ((a.rank ^^^ e.base.rank) &&& e.rankMask.setWidth 3) == 0 &&
    ((a.index ^^^ e.base.index) &&& e.indexMask) == 0

/-- The classification of a line by the entries as they stand: the lowest-numbered match, else STANDARD with
the default UE level (R43). -/
def classify (a : LineAddr) (s : State) : Classification :=
  match (List.range 16).find? fun i => (regionAt s i).value.matches a with
  | some i => ⟨some i, (regionAt s i).value.cls, (regionAt s i).value.level⟩
  | none => ⟨none, .standard, s.rgt.defaultLevel⟩

/-- A lookup (R43, R50, R51). -/
def lookup (a : LineAddr) (s : State) : Classification × State :=
  (classify a (checkRegions s), checkRegions s)

/-! ## Steal mode (R141) -/

/-- The evaluation of steal mode against a threshold. While the part is HALTED the flag keeps its value
(R152, log 21). -/
def evalStealAgainst (threshold : Nat) (s : State) : State :=
  if s.fcu.halted.isSome then s
  else if ¬s.psc.steal ∧ threshold ≠ 0 ∧ threshold ≤ s.psc.credit then
    raise .stealOn .none { s with psc := { s.psc with steal := true } }
  else if s.psc.steal ∧ (s.psc.credit ≤ threshold / 2 ∨ threshold = 0) then
    raise .stealOff .none { s with psc := { s.psc with steal := false } }
  else s

/-! ## Phase profiles (R136) -/

/-- Profile `n` with its storage. -/
def storedProfile (s : State) (n : Nat) : Stored Profile :=
  getAt s.psc.profiles n ⟨defaultProfile, .sound⟩

/-- Profile `n` replaced. -/
def setProfile (n : Nat) (x : Stored Profile) (s : State) : State :=
  { s with psc := { s.psc with profiles := setAt s.psc.profiles n x } }

/-- Reading profile `n` checks its storage: a single-bit error is corrected; an uncorrectable one returns the
profile to the defaults, and where it is the current one steal mode is evaluated anew (R136), be the patrol
running, stopped or in a drain (DESIGN CHOICE, log 43). -/
def checkProfile (n : Nat) (s : State) : State :=
  match (storedProfile s n).storage with
  | .sound => s
  | .singleBit =>
    raise .internalCorrected (.table .phase n) (setProfile n ⟨(storedProfile s n).value, .sound⟩ s)
  | .uncorrectable =>
    let s := tableFault .phase n (setProfile n ⟨defaultProfile, .sound⟩ s)
    if n = s.psc.phase then evalStealAgainst defaultProfile.steal s else s

/-- A read of profile `n` (R136). -/
def readProfile (n : Nat) (s : State) : Profile × State :=
  (profileAt (checkProfile n s) n, checkProfile n s)

/-- Steal mode evaluated against the S of the current profile (R141). -/
def evalSteal (s : State) : State :=
  evalStealAgainst (readProfile s.psc.phase s).1.steal (readProfile s.psc.phase s).2

/-! ## Device entries (R110, R111) -/

/-- Device entry `n` replaced. -/
def setDevice (n : Nat) (x : Stored DeviceEntry) (s : State) : State :=
  { s with dht := { s.dht with devices := setAt s.dht.devices n x } }

/-- A single-bit error of entry `n` is corrected (R110). -/
def correctDevice (s : State) (n : Nat) : State :=
  match (deviceAt s n).storage with
  | .singleBit =>
    raise .internalCorrected (.table .health n) (setDevice n ⟨(deviceAt s n).value, .sound⟩ s)
  | _ => s

/-- The lowest-numbered of some entries that holds an uncorrectable error (log 20). -/
def faultyAmong (ns : List Nat) (s : State) : Option Nat :=
  ns.find? fun n => (deviceAt s n).storage == .uncorrectable

/-- A checked read of some entries: single-bit errors are corrected, an uncorrectable one asks FCU to enter
HALTED (R110, R111). The first component tells whether the entries could be read. -/
def readDevices (ns : List Nat) (s : State) : Bool × State :=
  let s := ns.foldl correctDevice s
  match faultyAmong ns s with
  | some n => (false, enterHalted ⟨.health, n⟩ s)
  | none => (true, s)

/-- The ten entries of rank `r` (R91). -/
def rankEntries (r : Nat) : List Nat := (List.range 10).map (entryNumber r)

/-- A checked read of the ten entries of a rank (R110). -/
def readRank (r : Nat) (s : State) : Bool × State := readDevices (rankEntries r) s

/-! ## Slot data (R86) -/

/-- The data of a slot, in ACTIVE, FAILED and RELEASING (T43). -/
def Slot.data? : Slot → Option StoredLine
  | .active _ d _ => some d
  | .failed _ d _ => some d
  | .releasing _ d _ _ => some d
  | _ => none

/-- The slot with its data replaced. -/
def Slot.withData (d : StoredLine) : Slot → Slot
  | .active a _ t => .active a d t
  | .failed a _ t => .failed a d t
  | .releasing a _ t w => .releasing a d t w
  | x => x

/-- Data written afresh with its check (R86). -/
def freshData (data : Line) : StoredLine := ⟨data, .sound, zeroLine⟩

/-- A read of the data of slot `i`: a single-bit error is corrected and written back; none where the data is
lost (R86, R87). -/
def readSlot (i : Nat) (s : State) : Option Line × State :=
  match (slotAt s i).data? with
  | none => (none, s)
  | some d =>
    match d.storage with
    | .sound => (some d.data, s)
    | .singleBit =>
      (some d.data,
        raise .internalCorrected (.table .spare i)
          (setSlot i ((slotAt s i).withData (freshData d.data)) s))
    | .uncorrectable => (none, s)

/-- The 64 data bytes as stored, with the bits that an uncorrectable error has changed (R87). -/
def StoredLine.asStored (d : StoredLine) : Line :=
  match d.storage with
  | .uncorrectable => Vector.ofFn fun i => d.data[i] ^^^ d.flips[i]
  | _ => d.data

end Sys2Proof.Machine
end

