-- ==== Sys2Proof/Machine/Health.lean ====
section
/-! DEFINITION. The Device Health Table: tally increments, marks, decay and probation (chapter 6). -/

namespace Sys2Proof.Machine

/-- The value of entry `n`. -/
def deviceEntry (s : State) (n : Nat) : DeviceEntry := (deviceAt s n).value

/-- Entry `n` written afresh (R130). -/
def putDevice (n : Nat) (e : DeviceEntry) (s : State) : State := setDevice n ⟨e, .sound⟩ s

/-- The state that a tally below 256 calls for (T51). -/
def stateOfTally (tally : Nat) : DeviceState := if tally < 128 then .sound else .suspect

/-! ## Tally increments (R95–R99) -/

/-- The increment of one listed device (R95, T53). -/
def increment (scattered : Bool) (f : FixedDevice) : Nat :=
  if scattered ∨ 2 ≤ f.codewords ∨ 3 ≤ f.weight then 8 else f.weight

/-- A tally rises to `tally` below 256: the state follows it, and entering SUSPECT from SOUND raises
DEVICE_SUSPECT (R92, R96). -/
def riseBelow (r d : Nat) (tally : Nat) (s : State) : State :=
  let e := deviceEntry s (entryNumber r d)
  let s := putDevice (entryNumber r d)
    { e with tally := tally, state := stateOfTally tally, touched := true } s
  if e.state = .sound ∧ 128 ≤ tally then raise .deviceSuspect (.device r d) s else s

/-- A tally reaches 256 in a rank with no mark: the device becomes MARKED (R97). -/
def markByTally (r d : Nat) (s : State) : State :=
  raise .deviceMarked (.device r d)
    (putDevice (entryNumber r d)
      { deviceEntry s (entryNumber r d) with
        tally := 256, state := .marked, touched := true, capped := false, count := 0 } s)

/-- A tally meets 256 in a rank that has a mark: it is held at 255, with DEVICE_SECOND the first time
(R98). The touched flag is set where the tally rose, from below 255 (R95, log 19). -/
def holdAtCap (r d : Nat) (s : State) : State :=
  let e := deviceEntry s (entryNumber r d)
  let s := putDevice (entryNumber r d)
    { e with tally := 255, state := .suspect, touched := e.touched || e.tally < 255, capped := true } s
  if e.capped then s else raise .deviceSecond (.device r d) s

/-- One listed device takes its increment; a device that is MARKED or in PROBATION takes none
(R95–R98). -/
def raiseTally (r : Nat) (scattered : Bool) (s : State) (f : FixedDevice) : State :=
  let e := deviceEntry s (entryNumber r f.device.val)
  let tally := min 256 (e.tally + increment scattered f)
  if e.state.isMark then s
  else if tally < 256 then riseBelow r f.device.val tally s
  else if (markOf s r).isSome then holdAtCap r f.device.val s
  else markByTally r f.device.val s

/-- The increments of a verdict, in rising device order (R95, R99). -/
def raiseTallies (r : Nat) (v : VerdictRecord) (s : State) : State :=
  match v.correction with
  | some c => c.fixed.foldl (raiseTally r c.scattered) s
  | none => s

/-! ## Probation (R105–R107) -/

/-- A clean probation verdict raises the count; at K probation passes (R105, R106). -/
def countProbation (r d : Nat) (s : State) : State :=
  let e := deviceEntry s (entryNumber r d)
  if s.dht.probationK ≤ e.count + 1 then
    raise .probationPass (.device r d) (putDevice (entryNumber r d) resetDevice s)
  else putDevice (entryNumber r d) { e with count := e.count + 1 } s

/-- A non-zero fill at the probation device: it returns to MARKED (R107). -/
def failProbation (r d : Nat) (s : State) : State :=
  raise .probationFail (.device r d)
    (putDevice (entryNumber r d)
      { deviceEntry s (entryNumber r d) with tally := 256, state := .marked, count := 0 } s)

/-- The effect of a verdict on probation: it counts only where it was decoded with the mark of the device
that is in PROBATION (R105). -/
def judgeProbation (r : Nat) (v : VerdictRecord) (s : State) : State :=
  match v.mark with
  | none => s
  | some m =>
    if (deviceEntry s (entryNumber r m.val)).state = .probation then
      match v.verdict with
      | .clean => countProbation r m.val s
      | .corrected => failProbation r m.val s
      | _ => s
    else s

/-- DHT acts on a verdict record: it reads the rank's entries and, where they can be read, applies the
increments and judges probation (R94, R110, R111). While the part is HALTED it does not act (R112). On the verdict of a
read granted before HALTED that comes after an abort has left it, it does act, as R184 says of consumers (DESIGN CHOICE,
log 51). -/
def healthVerdict (v : VerdictRecord) (s : State) : State :=
  if s.fcu.halted.isSome then s
  else
    match readRank (rankOf v.line) s with
    | (false, s) => s
    | (true, s) => judgeProbation (rankOf v.line) v (raiseTallies (rankOf v.line) v s)

/-! ## Decay (R101) -/

/-- The entry after a completed sweep: an untouched SOUND or SUSPECT device loses Q, and the touched flag is
cleared (R101). -/
def decayed (q : Nat) (e : DeviceEntry) : DeviceEntry :=
  if e.state.isMark ∨ e.touched then { e with touched := false }
  else
    { e with tally := e.tally - q, state := stateOfTally (e.tally - q),
             capped := e.capped && 255 ≤ e.tally - q, touched := false }

/-- Decay of one entry. -/
def decayDevice (s : State) (n : Nat) : State := putDevice n (decayed s.dht.decayQ (deviceEntry s n)) s

/-- Decay of a rank at a completed sweep; abandoned whole where an entry cannot be read (R101, R111). -/
def decayRank (r : Nat) (s : State) : State :=
  match readRank r s with
  | (false, s) => s
  | (true, s) => (rankEntries r).foldl decayDevice s

/-- Every entry written afresh in its reset form (R113). -/
def resetHealth (s : State) : State :=
  { s with dht := { s.dht with devices := Vector.replicate 40 ⟨resetDevice, .sound⟩ } }

end Sys2Proof.Machine
end

