-- ==== Sys2Proof/Machine/Patrol.lean ====
section
/-! DEFINITION. The patrol scrubber: the cursor, skips and sweeps, ticks and credit, and what moves the cursor
from outside (chapter 8). -/

namespace Sys2Proof.Machine

/-! ## The cursor (R143, R148, R149) -/

/-- The cursor comes to a line: a new pass begins there, and it is a whole sweep where it begins at index 0
(R143, R148, R151). -/
def setCursor (a : LineAddr) (s : State) : State :=
  { s with psc := { s.psc with
      cursor := some a, cursorPhase := .untested, wholeSweep := a.index == 0,
      passVisited := false } }

/-- The cursor is parked, and the whole-sweep flag is clear (R149). -/
def parkCursor (s : State) : State :=
  { s with psc := { s.psc with
      cursor := none, cursorPhase := .untested, wholeSweep := false, passVisited := false } }

/-- The cursor steps to the next index of its rank (R144, R146). -/
def stepCursor (a : LineAddr) (s : State) : State :=
  { s with psc := { s.psc with
      cursor := some { a with index := a.index + 1 }, cursorPhase := .untested } }

/-- The first ONLINE rank among some. -/
def firstOnline (ranks : List Nat) (s : State) : Option Nat :=
  ranks.find? fun r => rankState s r == .online

/-- The cursor moves to index 0 of the first ONLINE rank among some, or is parked. -/
def cursorToFirst (ranks : List Nat) (s : State) : State :=
  match firstOnline ranks s with
  | some r => setCursor (lineAt r 0) s
  | none => parkCursor s

/-- The ranks after `r` in rising order, wrapping, `r` itself last (R148). -/
def ranksAfter (r : Nat) : List Nat := [(r + 1) % 4, (r + 2) % 4, (r + 3) % 4, r]

/-- A completed sweep: decay of the rank, and SWEEP_DONE (R148). -/
def completeSweep (r : Nat) (s : State) : State := raise .sweepDone (.rank r) (decayRank r s)

/-- The pass of rank `r` ends: a completed sweep where it began at index 0. The cursor moves to the next ONLINE
rank; where the pass ended by a skip and visited no line, the test waits for the next tick
(R144, R148). -/
def endPass (bySkip : Bool) (r : Nat) (s : State) : State :=
  let wait := bySkip && !s.psc.passVisited
  let s := if s.psc.wholeSweep then completeSweep r s else s
  let s := cursorToFirst (ranksAfter r) s
  if wait ∧ s.psc.running then
    { s with psc := { s.psc with cursorPhase := .deferred } }
  else s

/-- The cursor advances past its line, by a visit's grant or by a skip (R144, R146, R148). -/
def advanceCursor (bySkip : Bool) (s : State) : State :=
  match s.psc.cursor with
  | some a =>
    if a.index.toNat + 1 < depth s then stepCursor a s else endPass bySkip (rankOf a) s
  | none => s

/-! ## Testing the cursor line (R144) -/

/-- The line is skipped: its class is EXEMPT, or a repair entry or a slot in ACTIVE, FAILED or RELEASING
holds it (R144). -/
def skipsLine (a : LineAddr) (c : Classification) (s : State) : Bool :=
  c.cls == .exempt || (entryOf a s).isSome || (slotHolding a s).isSome

/-- The cursor line that stands to be tested: the patrol is running and allowed, and the part is not
HALTED (R144). -/
def lineToTest (s : State) : Option LineAddr :=
  if s.psc.running ∧ s.fcu.halted.isNone ∧ (currentProfile s).allowed ∧
      s.psc.cursorPhase = .untested then s.psc.cursor
  else none

/-- The cursor line is tested, and the lines of a run of skips one after another (R144). The first argument
bounds the run; two passes bound every run, since a pass with no visit defers. -/
def testLines : Nat → State → State
  | 0, s => s
  | n + 1, s =>
    match lineToTest s with
    | none => s
    | some a =>
      let c := (lookup a s).1
      let s := (lookup a s).2
      if s.fcu.halted.isSome then s
      else if skipsLine a c s then testLines n (advanceCursor true s)
      else { s with psc := { s.psc with cursorPhase := .visitLine c } }

/-- PSC looks whether its cursor line is to be tested, reading the current profile (R136, R144, R145). -/
def patrolProceeds (s : State) : State :=
  if s.psc.running ∧ s.fcu.halted.isNone ∧ s.psc.cursor.isSome ∧ s.psc.cursorPhase = .untested then
    let s := (readProfile s.psc.phase s).2
    testLines (2 * depth s + 1) s
  else s

/-! ## Ticks and credit (R137, R138) -/

/-- The four conditions under which a tick earns or is lost (R138). -/
def tickCounts (allowed : Bool) (s : State) : Bool :=
  s.psc.running && allowed && s.psc.cursor.isSome && s.fcu.halted.isNone

/-- A tick that earns: C rises by one and the lagging flag is cleared (R138). -/
def earnTick (s : State) : State :=
  evalSteal { s with psc := { s.psc with credit := s.psc.credit + 1, lagging := false } }

/-- A lost tick: the counter rises, PATROL_LAG is raised on the first of a run, and the lagging flag is set
(R138). -/
def loseTick (s : State) : State :=
  let s := countLagTick s
  let s := if s.psc.lagging then s else raise .patrolLag .none s
  { s with psc := { s.psc with lagging := true } }

/-- What a tick does with the credit (R138). -/
def countTick (allowed : Bool) (s : State) : State :=
  if tickCounts allowed s then
    if s.psc.credit < s.psc.lagLimit then earnTick s else loseTick s
  else s

/-- A line whose test waits for the next tick is to be tested now (R144). -/
def resumeDeferred (s : State) : State :=
  if s.psc.cursorPhase = .deferred then { s with psc := { s.psc with cursorPhase := .untested } }
  else s

/-- A tick: the countdown is reloaded with the current P, the tick earns or is lost, and the cursor line is
tested where that waited (R137, R138, R144, R145). -/
def tickOccurs (s : State) : State :=
  let p := (readProfile s.psc.phase s).1
  let s := (readProfile s.psc.phase s).2
  let s := { s with psc := { s.psc with tickCountdown := p.period } }
  patrolProceeds (resumeDeferred (countTick p.allowed s))

/-! ## Causes from outside -/

/-- The line of the visit gains a holder: the cursor advances past it as for a skip, and the next line is
tested (T67). A visit line that waits for credit is passed in the same way (log 23). -/
def cursorLineHeld (a : LineAddr) (s : State) : State :=
  match s.psc.cursor, s.psc.cursorPhase with
  | some b, .visitLine _ => if a = b then patrolProceeds (advanceCursor true s) else s
  | _, _ => s

/-- The patrol-allowed field in force may have changed: where it disallows, a waiting visit is withdrawn and
the line stands untested; where it allows, an untested line is tested (R133, R134, R145). -/
def allowanceChanged (s : State) : State :=
  if (currentProfile s).allowed then patrolProceeds s
  else { s with psc := { s.psc with cursorPhase := .untested } }

/-- A rank has become ONLINE: a parked cursor moves to its index 0 (R149). -/
def rankCameOnline (r : Nat) (s : State) : State :=
  if s.psc.cursor.isNone then patrolProceeds (setCursor (lineAt r 0) s) else s

/-- Patrol retries of the rank that are not granted are withdrawn and their visits end (R116). -/
def dropPatrolRetries (gone : LineAddr → Bool) (s : State) : State :=
  { s with fcu := { s.fcu with
      contexts := s.fcu.contexts.filter fun c =>
        !(c.work == .patrol && gone c.line && !atPort (.retryRead c.id) s) } }

/-- A rank has left ONLINE: patrol retries of it are withdrawn (R116), and a cursor on it moves on, its pass
abandoned (R149). -/
def rankLeftOnline (r : Nat) (s : State) : State :=
  let s := dropPatrolRetries (fun a => rankOf a == r) s
  match s.psc.cursor with
  | some a => if rankOf a = r then patrolProceeds (cursorToFirst (ranksAfter r) s) else s
  | none => s

/-- The tick period that the reset effects load: the P of profile 0 as it stands, a free value while its
storage holds an uncorrectable error (R137, log 17). -/
def resetTickPeriod (s : State) : Nat :=
  match (storedProfile s 0).storage with
  | .uncorrectable => max 1 (Config.faultyTickPeriod s.mgu.timeBase).toNat
  | _ => (storedProfile s 0).value.period

/-- What a Core Reset of either flavour does to PSC (T68). -/
def resetPatrol (s : State) : State :=
  let period := resetTickPeriod s
  let s := cursorToFirst [0, 1, 2, 3] (stopPatrol s)
  { s with psc := { s.psc with
      phase := 0, tickCountdown := period, credit := 0, steal := false, lagging := false } }

end Sys2Proof.Machine
end

