-- ==== Sys2Proof/Machine/Demand.lean ====
section
/-! DEFINITION. The Demand Engine: how a demand request is handled by the holder of its line, started, and
handled again when the holder changes; the loop line; what a line gaining a holder does (chapter 2, R18,
R64, R65, R78). -/

namespace Sys2Proof.Machine

/-! ## Forming a DRAM write (R5, R6, R16) -/

/-- Injection entry `i` applied to a write of line `a`, its count falling (R16). -/
def injectOne (a : LineAddr) (p : RawLine × State) (i : Nat) : RawLine × State :=
  match getAt p.2.cod.injections i none with
  | some e =>
    if e.line = a then
      (flip e p.1,
        { p.2 with cod := { p.2.cod with
            injections := setAt p.2.cod.injections i
              (if e.count ≤ 1 then none else some { e with count := e.count - 1 }) } })
    else p
  | none => p

/-- Both injection entries applied to a write of line `a` (R16). -/
def inject (a : LineAddr) (raw : RawLine) (s : State) : RawLine × State :=
  [0, 1].foldl (injectOne a) (raw, s)

/-- The written line: encoded, put in poison form where asked, then injection (R5). -/
def formWrite (a : LineAddr) (data : Line) (poisoned : Bool) (s : State) : RawLine × State :=
  inject a (if poisoned then poison (encode data) else encode data) s

/-- The current line with each byte whose mask flag is set replaced by the request's (R33). -/
def merge (mask : ByteMask) (current new : Line) : Line :=
  Vector.ofFn fun i => if mask.getLsbD i.val then new[i] else current[i]

/-! ## Answers -/

/-- A READ completes POISONED: POISON_READ and the rank's counter go with it (R26). -/
def completePoisonedRead (id : Nat) (a : LineAddr) (s : State) : State :=
  completeDemand id .poisoned zeroLine
    (countPoisonedRead (rankOf a) (raise .poisonRead (.line a) s))

/-- The region of a classification, for a capture (T61). -/
def regionOf (c : Option Classification) : Option Nat := c.bind fun x => x.region

/-- The data of a slot is lost: SPARE_FAILED with its SLOT-FAILED capture (R87). -/
def slotDataLost (a : LineAddr) (region : Option Nat) (held : Option (ByteMask × Line)) (s : State) :
    State :=
  capture (unreadCapture .slotFailed a region held s)
    (fun x => raiseAt .spareFailed EventKind.spareFailed.level (.line a) x) s

/-- A read-modify-write is refused: its held write goes into an RMW-UE capture and it completes
UNCORRECTABLE (R34). -/
def refuseRmw (id : Nat) (c : Capture) (s : State) : State :=
  completeDemand id .uncorrectable zeroLine (capture c (fun _ s => s) (setPhase id .answering s))

/-! ## READ by holder (R25, T19, T47) -/

/-- A READ finds the data of slot `i` lost (T47): an ACTIVE slot fails, and so does a RELEASING one whose
release write is not granted, its Spare Release ending WRONG_STATE. Where that write is granted the slot stays
RELEASING, and the READ completes POISONED with its event and its counter all the same (DEDUCED, log 44). -/
def readLostSlot (id : Nat) (a : LineAddr) (region : Option Nat) (i : Nat) (s : State) : State :=
  let s := setPhase id .answering s
  match slotAt s i with
  | .releasing b d t (some w) =>
    if atPort (.releaseWrite i w.age) s then
      completePoisonedRead id a (slotDataLost a region none s)
    else
      completePoisonedRead id a
        (answer w.request .wrongState [] (slotDataLost a region none (setSlot i (.failed b d t) s)))
  | .releasing b d t none =>
    completePoisonedRead id a (slotDataLost a region none (setSlot i (.failed b d t) s))
  | .active b d t =>
    completePoisonedRead id a (slotDataLost a region none (setSlot i (.failed b d t) s))
  | _ => completePoisonedRead id a s

/-- A READ of a line held by slot `i` (T19). -/
def readFromSlot (id : Nat) (a : LineAddr) (region : Option Nat) (i : Nat) (s : State) : State :=
  match slotAt s i with
  | .failed _ _ _ => completePoisonedRead id a s
  | _ =>
    match readSlot i s with
    | (some d, s) => completeDemand id .clean d s
    | (none, s) => readLostSlot id a region i s

/-- A READ by the holder of its line (T19). -/
def applyRead (r : Request) (a : LineAddr) (s : State) : State :=
  match holder a s with
  | .slot i => readFromSlot r.id a (regionOf r.cls) i s
  | .entry e =>
    match e.kind with
    | .repair => completeDemand r.id .clean e.data s
    | .poison => completePoisonedRead r.id a s
  | .none => setPhase r.id .waitRead s

/-! ## Writes by holder (R28, R29, R33, T21) -/

/-- A full write, or a merged line, by the holder of its line; `status` is what its completion carries. -/
def applyWrite (id : Nat) (a : LineAddr) (data : Line) (status : Status) (s : State) : State :=
  match holder a s with
  | .slot i =>
    match slotAt s i with
    | .releasing _ _ _ _ => setPhase id (.heldWrite data status) s
    | .active b _ t => completeDemand id status zeroLine (setSlot i (.active b (freshData data) t) s)
    | .failed b _ t => completeDemand id status zeroLine (setSlot i (.active b (freshData data) t) s)
    | _ => s
  | .entry e =>
    match e.state with
    | .writing => setPhase id (.heldWrite data status) s
    | _ => setPhase id (.waitWrite data status) (removeEntry e.id s)
  | .none => setPhase id (.waitWrite data status) s

/-! ## Read-modify-writes by holder (R31, T22) -/

/-- A read-modify-write takes its current line from an ACTIVE slot (T22, T47). -/
def rmwFromSlot (r : Request) (a : LineAddr) (mask : ByteMask) (new : Line) (i : Nat) (s : State) :
    State :=
  match readSlot i s with
  | (some d, s) => applyWrite r.id a (merge mask d new) .done s
  | (none, s) =>
    match slotAt s i with
    | .active b d t =>
      completeDemand r.id .uncorrectable zeroLine
        (slotDataLost a (regionOf r.cls) (some (mask, new))
          (setSlot i (.failed b d t) (setPhase r.id .answering s)))
    | _ => s

/-- A read-modify-write obtains its current line by the holder (T22). -/
def applyRmw (r : Request) (a : LineAddr) (mask : ByteMask) (new : Line) (s : State) : State :=
  match holder a s with
  | .slot i =>
    match slotAt s i with
    | .releasing _ _ _ _ => setPhase r.id .heldRmw s
    | .active _ _ _ => rmwFromSlot r a mask new i s
    | _ => refuseRmw r.id (unreadCapture .rmwUe a (regionOf r.cls) (some (mask, new)) s) s
  | .entry e =>
    match e.kind with
    | .repair => applyWrite r.id a (merge mask e.data new) .done s
    | .poison => refuseRmw r.id (unreadCapture .rmwUe a (regionOf r.cls) (some (mask, new)) s) s
  | .none => setPhase r.id .waitRead s

/-! ## A started request by its holder (R24) -/

/-- The handling of a started demand request whose read is not granted, by the holder of its line as it
stands (R24, R25, R28, R30). A write half already resolved keeps its data and status (R33). -/
def applyDemand (r : Request) (s : State) : State :=
  match r.body, r.phase with
  | .manage _ _, _ => s
  | .read a, _ => applyRead r a s
  | .write a _, .waitWrite d st => applyWrite r.id a d st s
  | .write a _, .heldWrite d st => applyWrite r.id a d st s
  | .write a d, _ => applyWrite r.id a d .done s
  | .maskedWrite a _ _, .waitWrite d st => applyWrite r.id a d st s
  | .maskedWrite a _ _, .heldWrite d st => applyWrite r.id a d st s
  | .maskedWrite a mask d, _ =>
    if mask = BitVec.allOnes 64 then applyWrite r.id a d .done s
    else if mask = 0 then completeDemand r.id .done zeroLine s
    else applyRmw r a mask d s

/-! ## The loop line (R18, T15) -/

/-- The loop line decoded under the mark of the addressed rank; none where the rank's entries cannot be read
(R18, R111, log 18). -/
def loopDecode (a : LineAddr) (source : ReadSource) (raw : RawLine) (s : State) :
    Option VerdictRecord × State :=
  match readRank (rankOf a) s with
  | (false, s) => (none, s)
  | (true, s) => (some (decodeLine a source (markOf s (rankOf a)) none false raw), s)

/-- A line encoded into the loop line, injection entries for the request's address applied and consumed
(R18). -/
def loopWrite (a : LineAddr) (data : Line) (s : State) : State :=
  let (raw, s) := formWrite a data false s
  { s with cod := { s.cod with loopLine := some raw } }

/-- A READ of the loop line (T15). -/
def loopRead (id : Nat) (v : VerdictRecord) (s : State) : State :=
  match v.verdict with
  | .clean => completeDemand id .clean v.corrected s
  | .corrected => completeDemand id .corrected v.corrected s
  | .uncorrectable => completeDemand id .uncorrectable v.rawData s
  | .poisoned => completeDemand id .poisoned zeroLine s

/-- A MASKED-WRITE of the loop line with a mask neither full nor empty (T15). -/
def loopMerge (id : Nat) (a : LineAddr) (mask : ByteMask) (new : Line) (v : VerdictRecord)
    (s : State) : State :=
  match v.verdict with
  | .clean => completeDemand id .done zeroLine (loopWrite a (merge mask v.corrected new) s)
  | .corrected => completeDemand id .corrected zeroLine (loopWrite a (merge mask v.corrected new) s)
  | _ => completeDemand id .uncorrectable zeroLine s

/-- A demand request in codec-loop mode (T15). -/
def loopAccess (r : Request) (raw : RawLine) (s : State) : State :=
  let s := setPhase r.id .answering s
  match r.body with
  | .manage _ _ => s
  | .read a =>
    match loopDecode a .demand raw s with
    | (some v, s) => loopRead r.id v s
    | (none, s) => completeDemand r.id .halted zeroLine s
  | .write a d => completeDemand r.id .done zeroLine (loopWrite a d s)
  | .maskedWrite a mask d =>
    if mask = BitVec.allOnes 64 then completeDemand r.id .done zeroLine (loopWrite a d s)
    else if mask = 0 then completeDemand r.id .done zeroLine s
    else
      match loopDecode a .rmw raw s with
      | (some v, s) => loopMerge r.id a mask d v s
      | (none, s) => completeDemand r.id .halted zeroLine s

/-! ## Starting (R22, R23) -/

/-- The status of a check that holds at start (T18); in codec-loop mode the third check is not made. -/
def startCheck (a : LineAddr) (s : State) : Option Status :=
  if s.fcu.halted.isSome then some .halted
  else if !lineExists a s then some .range
  else if s.cod.loopLine.isNone ∧ rankState s (rankOf a) ≠ .online then some .notReady
  else none

/-- The request is STARTED, with its age, and its line enters the hold set (R22). -/
def beginDemand (r : Request) (a : LineAddr) (s : State) : State :=
  passMoment
    { (updateRequest r.id (fun q => { q with
          phase := .waitRead, age := s.stamp, hold := some (holdKey s a) }) s) with
      dem := { (updateRequest r.id (fun q => { q with
          phase := .waitRead, age := s.stamp, hold := some (holdKey s a) }) s).dem with
        holdSet := s.dem.holdSet ++ [holdKey s a] } }

/-- The classification attached to a request (R23). -/
def attachClass (id : Nat) (c : Classification) (s : State) : State :=
  updateRequest id (fun q => { q with cls := some c }) s

/-- A classified request is handled: in codec-loop mode on the loop line, else by its holder. A request that
HALTED has ended meanwhile is gone (R18, R24, R39). -/
def handleDemand (id : Nat) (s : State) : State :=
  if s.fcu.halted.isSome then s
  else
    match findRequest id s, s.cod.loopLine with
    | none, _ => s
    | some r, some raw => loopAccess r raw s
    | some r, none => applyDemand r s

/-- A demand request starts: the checks of T18, then its lookup, then its handling (R22–R24). -/
def startDemand (r : Request) (a : LineAddr) (s : State) : State :=
  let s := beginDemand r a s
  match startCheck a s with
  | some status => completeDemand r.id status zeroLine s
  | none =>
    let c := (lookup a s).1
    handleDemand r.id (attachClass r.id c (lookup a s).2)

/-! ## A holder changes (R24, R64, R78, R116, T67) -/

/-- The request waits for a DRAM operation that is not granted, or is held (R24). -/
def Phase.followsHolder : Phase → Bool
  | .waitRead => true
  | .heldRmw => true
  | .waitWrite _ _ => true
  | .heldWrite _ _ => true
  | .retrying => true
  | _ => false

/-- A retry of the request is asked of DRP and not granted (R116). -/
def retryUngranted (id : Nat) (s : State) : Bool :=
  s.fcu.contexts.any fun c => c.work.isFor id && !atPort (.retryRead c.id) s

/-- The retry context of a request discarded. -/
def dropRetry (id : Nat) (s : State) : State :=
  { s with fcu := { s.fcu with contexts := s.fcu.contexts.filter fun c => !c.work.isFor id } }

/-- The demand request that holds a line and follows its holder. -/
def followerOf (a : LineAddr) (s : State) : Option Request :=
  s.dem.requests.find? fun r => r.hold == some (.line a) && r.phase.followsHolder

/-- The holder of a line has changed: the request that holds the line is handled again. A retry not granted is
given up only where the line has gained a holder (R24, R116). -/
def holderChanged (a : LineAddr) (s : State) : State :=
  match followerOf a s with
  | none => s
  | some r =>
    if r.phase = .retrying then
      if retryUngranted r.id s ∧ holder a s ≠ .none then applyDemand r (dropRetry r.id s) else s
    else applyDemand r s

/-- A RETIRE read of the line not granted is withdrawn, and its Spare Retire ends WRONG_STATE (R78). -/
def withdrawRetire (a : LineAddr) (s : State) (w : RetireWork) : State :=
  if w.line = a ∧ ¬atPort (.retireRead w.request) s then
    answer w.request .wrongState [] (endRetire w.request s)
  else s

/-- A line gains a repair entry as its holder (R24, R116, T67). -/
def entryGained (a : LineAddr) (s : State) : State :=
  cursorLineHeld a (dropPatrolRetries (fun b => b == a) (holderChanged a s))

/-- A line gains a slot as its holder (R24, R78, R116, T67). -/
def slotGained (a : LineAddr) (s : State) : State :=
  let s := dropPatrolRetries (fun b => b == a) (holderChanged a s)
  cursorLineHeld a (s.sls.retires.foldl (withdrawRetire a) s)

end Sys2Proof.Machine
end

