-- ==== Sys2Proof/Machine/Repair.lean ====
section
/-! DEFINITION. The Repair Queue's admission, the Spare Line Store's watch and retirements, and the outcome
of a verify read (chapters 4 and 5). -/

namespace Sys2Proof.Machine

/-! ## Admission of repair entries (R54–R57, T36) -/

/-- What the checks of T36 decide. -/
inductive Admission where
  | refused | deferred | admitted
  deriving DecidableEq, Repr

/-- The checks of T36, in order; `overwritten`: a DRAM write of the line was granted after the read that
produced the verdict was. -/
def admission (a : LineAddr) (overwritten : Bool) (s : State) : Admission :=
  if s.fcu.halted.isSome then .refused
  else if (slotHolding a s).isSome then .refused
  else if (entryOf a s).isSome then .refused
  else if overwritten then .refused
  else if rankState s (rankOf a) ≠ .online then .refused
  else if Config.repairCapacity ≤ s.rpq.entries.length then .deferred
  else .admitted

/-- An entry joins the queue as its youngest, and its line gains a holder (R54, R24). -/
def createEntry (a : LineAddr) (kind : RepairKind) (data : Line) (verify : Bool) (st : RepairState)
    (s : State) : State :=
  entryGained a
    (passMoment { s with rpq := { s.rpq with entries := s.rpq.entries ++
      [{ id := s.stamp, line := a, kind := kind, data := data, verify := verify, replayed := false,
         state := st, retired := false }] } })

/-- A Core Reset (DRAIN) is in progress (R182). -/
def draining (s : State) : Bool :=
  match s.mgu.coreReset with
  | some ⟨.drain, _⟩ => true
  | _ => false

/-- A HOT line's REPAIR entry: W is read from the current profile, except during a drain (R56, R136). Where
the read found a fault that halts the part, there is no entry (log 31). -/
def createHot (a : LineAddr) (data : Line) (s : State) : State :=
  if draining s then createEntry a .repair data false .ready s
  else
    let w := (readProfile s.psc.phase s).1.lazyWait
    let s := (readProfile s.psc.phase s).2
    if s.fcu.halted.isSome then s
    else if 1 ≤ w then patrolProceeds (createEntry a .repair data false (.waiting w) s)
    else patrolProceeds (createEntry a .repair data false .ready s)

/-- A REPAIR entry in the first state that the class gives it (R56, T37). -/
def createRepair (a : LineAddr) (data : Line) (cls : RegionClass) (s : State) : State :=
  match cls with
  | .standard => createEntry a .repair data false .ready s
  | .exempt => createEntry a .repair data false .ready s
  | .journal => createEntry a .repair data true .ready s
  | .hot => createHot a data s

/-- Verdicts that RPQ considers (R54). -/
def ReadSource.isRepaired : ReadSource → Bool
  | .demand => true
  | .patrol => true
  | .retry => true
  | _ => false

/-- The class that travels with a verdict; STANDARD where none does. -/
def classOfWork (c : Option Classification) : RegionClass :=
  match c with
  | some x => x.cls
  | none => .standard

/-- RPQ considers a verdict record (R54, R55). -/
def considerRepair (v : VerdictRecord) (s : State) : State :=
  if v.repairable && v.source.isRepaired then
    match admission v.line v.overwritten s with
    | .refused => s
    | .deferred => raise .repairDeferred (.line v.line) s
    | .admitted => createRepair v.line v.corrected (classOfWork v.cls) s
  else s

/-- FCU requests a POISON entry (R57, R120). -/
def requestPoison (a : LineAddr) (data : Line) (overwritten : Bool) (s : State) : State :=
  match admission a overwritten s with
  | .refused => s
  | .deferred => raise .repairDeferred (.line a) s
  | .admitted => createEntry a .poison data false .ready s

/-! ## Choosing a slot (R77, R79) -/

/-- The lowest-numbered FREE slot. -/
def freeSlot (s : State) : Option Nat := (List.range 32).find? fun i => slotAt s i == .free

/-- The last-hit time of a WATCH slot. -/
def Slot.lastHit? : Slot → Option TimeBase
  | .watch _ _ t => some t
  | _ => none

/-- The older of a slot found so far and slot `i`, the earlier number on a tie. -/
def olderWatch (s : State) (best : Option (Nat × TimeBase)) (i : Nat) : Option (Nat × TimeBase) :=
  match (slotAt s i).lastHit?, best with
  | none, _ => best
  | some t, none => some (i, t)
  | some t, some (j, u) => if t < u then some (i, t) else some (j, u)

/-- The WATCH slot with the smallest last-hit time, the lowest-numbered on a tie. -/
def oldestWatch (s : State) : Option Nat :=
  ((List.range 32).foldl (olderWatch s) none).map Prod.fst

/-- The slot that a watch allocation takes (R77). -/
def slotForWatch (s : State) : Option Nat :=
  match freeSlot s with
  | some i => some i
  | none => oldestWatch s

/-- The WATCH slot of a line. -/
def watchOf (a : LineAddr) (s : State) : Option Nat :=
  (List.range 32).find? fun i => (slotAt s i).line? == some a && (slotAt s i).lastHit?.isSome

/-- The slot that a retirement takes: the line's own WATCH slot, else as for a watch (R79). -/
def slotForRetire (a : LineAddr) (s : State) : Option Nat :=
  match watchOf a s with
  | some i => some i
  | none => slotForWatch s

/-! ## Retirement (R64, R78) -/

/-- SLS has made the line of an entry ACTIVE: an entry in WRITING stays until its write finishes, any other is
removed (R64). -/
def retireEntry (a : LineAddr) (s : State) : State :=
  match entryOf a s with
  | none => s
  | some e =>
    match e.state with
    | .writing => updateEntry e.id (fun x => { x with retired := true }) s
    | _ => removeEntry e.id s

/-- A line is retired into slot `i` with some data (R78). -/
def retireLine (i : Nat) (a : LineAddr) (data : Line) (s : State) : State :=
  slotGained a
    (retireEntry a
      (raise .spareRetired (.line a)
        (setSlot i (.active a (freshData data) s.mgu.timeBase) s)))

/-! ## The watch (R75–R77) -/

/-- A verdict record is taken as a watch hit (R75). -/
def isWatchHit (v : VerdictRecord) (s : State) : Bool :=
  v.repairable && v.source != .retire && !v.overwritten && (slotHolding v.line s).isNone &&
    rankState s (rankOf v.line) == .online && s.fcu.halted.isNone

/-- A hit on a line that no slot names: a slot is allocated, or the hit is dropped (R77). -/
def allocateWatch (a : LineAddr) (s : State) : State :=
  match slotForWatch s with
  | some i =>
    setSlot i (.watch a 1 s.mgu.timeBase) { s with sls := { s.sls with allocationFailed := false } }
  | none =>
    let s := if s.sls.allocationFailed then s else raise .spareFull (.line a) s
    { s with sls := { s.sls with allocationFailed := true } }

/-- SLS takes a verdict record (R75–R77). -/
def watchVerdict (v : VerdictRecord) (s : State) : State :=
  if isWatchHit v s then
    match slotNaming v.line s with
    | none => allocateWatch v.line s
    | some i =>
      match slotAt s i with
      | .watch _ hits _ =>
        if s.sls.threshold ≤ hits + 1 then retireLine i v.line v.corrected s
        else setSlot i (.watch v.line (hits + 1) s.mgu.timeBase) s
      | _ => s
  else s

/-! ## Verify outcomes (R61–R63, T38) -/

/-- An entry whose verify failed twice is handed to SLS (R63, R79). -/
def handOff (e : RepairEntry) (s : State) : State :=
  let s := removeEntry e.id s
  match slotForRetire e.line s with
  | some i => retireLine i e.line e.data s
  | none => raise .repairStuck (.line e.line) s

/-- A verify verdict for the entry that requested the read; an entry removed meanwhile is not acted on (T38).
While the part is HALTED a twice-failed entry stays VERIFYING (R71). -/
def verifyOutcome (id : Nat) (v : VerdictRecord) (s : State) : State :=
  match findEntry id s with
  | none => s
  | some e =>
    if e.state ≠ .verifying then s
    else if v.verdict = .clean then removeEntry id s
    else if !e.replayed then updateEntry id (fun x => { x with replayed := true, state := .ready }) s
    else if s.fcu.halted.isSome then s
    else handOff e s

/-! ## Spare Retire (R80, R81) -/

/-- With data in hand, SLS chooses a slot and retires the line: DONE with the slot number, or BUSY
(R81). -/
def placeRetire (id : Nat) (a : LineAddr) (data : Line) (s : State) : State :=
  match slotForRetire a s with
  | some i => answer id .done (packed 1 i) (retireLine i a data s)
  | none => answer id .busy [] s

/-- A Spare Retire whose read decoded CLEAN or CORRECTED looks at its line again (R81). -/
def retireAgain (w : RetireWork) (v : VerdictRecord) (s : State) : State :=
  if rankState s (rankOf w.line) ≠ .online then answer w.request .wrongState [] s
  else if v.overwritten then answer w.request .busy [] s
  else if (slotHolding w.line s).isSome then answer w.request .wrongState [] s
  else
    match entryOf w.line s with
    | none => placeRetire w.request w.line v.corrected s
    | some e =>
      match e.kind with
      | .poison => answer w.request .wrongState [] s
      | .repair => placeRetire w.request w.line e.data s

/-- The Spare Retire in progress of a request. -/
def retireOf (id : Nat) (s : State) : Option RetireWork := s.sls.retires.find? fun w => w.request == id

/-- A RETIRE read's verdict reaches the Spare Retire that asked for it (R81); while the part is HALTED it
completes HALTED and retires nothing (R127). -/
def retireOutcome (id : Nat) (v : VerdictRecord) (s : State) : State :=
  match retireOf id s with
  | none => s
  | some w =>
    let s := endRetire id s
    if s.fcu.halted.isSome then answer id .halted [] s
    else if v.verdict = .clean ∨ v.verdict = .corrected then retireAgain w v s
    else answer id .wrongState [] s

end Sys2Proof.Machine
end

