-- ==== Sys2Proof/Machine/Verdict.lean ====
section
/-! DEFINITION. The end of a granted read: the decode, its consumers (R14), and the work that asked for the
read; the Fault Capture Unit's retries and confirmations (R114–R120). -/

namespace Sys2Proof.Machine

/-! ## Retry contexts (R114, R115, R117) -/

/-- The retry context named `id`. -/
def findContext (id : Nat) (s : State) : Option RetryContext := s.fcu.contexts.find? fun c => c.id == id

/-- A retry context is closed. -/
def closeContext (id : Nat) (s : State) : State :=
  { s with fcu := { s.fcu with contexts := s.fcu.contexts.filter fun c => c.id != id } }

/-- The classification of a work; the default one where it carries none (R43). -/
def workClass (c : Option Classification) (s : State) : Classification :=
  c.getD ⟨none, .standard, s.rgt.defaultLevel⟩

/-- FCU opens a retry context, which asks DRP for a retry read (R115). -/
def openContext (work : RetryWork) (v : VerdictRecord) (s : State) : State :=
  passMoment { s with fcu := { s.fcu with contexts := s.fcu.contexts ++
    [{ id := s.stamp, line := v.line, work := work, cls := workClass v.cls s, first := v.raw,
       ended := false }] } }

/-- The request under a retry that has finished waits for nothing more: its answer is handed on in this
step. -/
def settleAnswer (work : RetryWork) (s : State) : State :=
  match work with
  | .patrol => s
  | .demand id =>
    updateRequest id (fun r => if r.phase = .retrying then { r with phase := .answering } else r) s
  | .rmw id _ _ =>
    updateRequest id (fun r => if r.phase = .retrying then { r with phase := .answering } else r) s

/-- The work of a retry completes HALTED (R39); a patrol visit just ends. -/
def endWorkHalted (work : RetryWork) (s : State) : State :=
  match work with
  | .patrol => s
  | .demand id => completeDemand id .halted zeroLine s
  | .rmw id _ _ => completeDemand id .halted zeroLine s

/-! ## Confirmed lines (R118–R120) -/

/-- The devices whose symbols differ between two reads (R118). -/
def isolationSet (first second : RawLine) : BitVec 10 :=
  (List.finRange 10).foldl
    (fun acc d =>
      if (List.finRange 4).any fun j => first[j][d] != second[j][d] then acc ||| (1#10 <<< d.val)
      else acc) 0

/-- The retry outcome (R118). -/
def isolate (first second : RawLine) : RetryOutcome :=
  if isolationSet first second = 0 then .persistent else .unstable (isolationSet first second)

/-- The capture kind after the context's work (R119). -/
def RetryWork.captureKind : RetryWork → CaptureKind
  | .demand _ => .demandUe
  | .rmw _ _ _ => .rmwUe
  | .patrol => .patrolUe

/-- The held write that goes into the capture (R34). -/
def RetryWork.held : RetryWork → Option (ByteMask × Line)
  | .rmw _ mask data => some (mask, data)
  | _ => none

/-- The capture of a confirmed line (T61). -/
def confirmedCapture (x : RetryContext) (v : VerdictRecord) : Capture :=
  { kind := x.work.captureKind, line := some x.line, region := x.cls.region, phase := 0, time := 0,
    retry := some (isolate x.first v.raw), outcomes := v.outcomes, mark := v.mark.map Fin.val,
    held := x.work.held, table := none }

/-- LINE_UE at the classification's level, naming the record, and the rank's counter (R119, R174). -/
def reportUe (x : RetryContext) (record : Option RecordName) (s : State) : State :=
  countUe (rankOf x.line) (raiseAt .lineUe x.cls.level (.line x.line) record s)

/-- The failed verdict is handed back to the work (R119): the READ carries the retry's raw data bytes, the
read-modify-write is refused (R34). -/
def failWork (work : RetryWork) (raw : Line) (s : State) : State :=
  match work with
  | .patrol => s
  | .demand id => completeDemand id .uncorrectable raw s
  | .rmw id _ _ => completeDemand id .uncorrectable zeroLine s

/-- A confirmed uncorrectable line: capture, event, counter, poisoning, work, in that order (R119, R120). -/
def confirm (x : RetryContext) (v : VerdictRecord) (s : State) : State :=
  let s := capture (confirmedCapture x v) (reportUe x) s
  let s :=
    if s.fcu.halted.isSome ∨ v.verdict = .poisoned then s
    else requestPoison x.line v.rawData v.overwritten s
  failWork x.work v.rawData s

/-- The retry has succeeded: its verdict stands for the work (R117, R27, R33). -/
def retrySucceeds (work : RetryWork) (v : VerdictRecord) (s : State) : State :=
  match work with
  | .patrol => s
  | .demand id => completeDemand id .correctedRetry v.corrected s
  | .rmw id mask data =>
    match findRequest id s with
    | some r =>
      if r.phase = .answering then
        applyWrite id v.line (merge mask v.corrected data) .correctedRetry s
      else s
    | none => s

/-- What becomes of the work of a finished retry whose context is closed: where HALTED began after its grant it
ends with no capture, LINE_UE or POISON request, though a Core Reset (ABORT) may have left HALTED since
(R117–R119, R127). -/
def retryOutcome (x : RetryContext) (v : VerdictRecord) (s : State) : State :=
  if s.fcu.halted.isSome ∨ x.ended then endWorkHalted x.work s
  else if v.verdict = .clean ∨ v.verdict = .corrected then retrySucceeds x.work v s
  else confirm x v s

/-! ## Consumers (R14) -/

/-- COD's events for a verdict (R14). -/
def reportVerdict (v : VerdictRecord) (s : State) : State :=
  match v.correction with
  | none => s
  | some c =>
    let s := raise .lineCorrected (.line v.line) s
    if c.scattered then raise .scattered (.line v.line) s else s

/-- MGU's corrected-lines counter (R176). -/
def countVerdict (v : VerdictRecord) (s : State) : State :=
  if v.verdict = .corrected ∧ s.fcu.halted.isNone then countCorrected (rankOf v.line) s else s

/-- The verdict record goes to COD's events, MGU, DHT, SLS and RPQ, in this order (R14, log 12). -/
def consume (v : VerdictRecord) (s : State) : State :=
  considerRepair v (watchVerdict v (healthVerdict v (countVerdict v (reportVerdict v s))))

/-! ## The requester of a read -/

/-- The capture of a read-modify-write whose RMW read was POISONED (T61). -/
def poisonedRmwCapture (v : VerdictRecord) (mask : ByteMask) (data : Line) : Capture :=
  { kind := .rmwUe, line := some v.line, region := regionOf v.cls, phase := 0, time := 0,
    retry := none, outcomes := v.outcomes, mark := v.mark.map Fin.val, held := some (mask, data),
    table := none }

/-- A READ's completion from its DEMAND verdict (R26, R27, T20). -/
def readOutcome (id : Nat) (v : VerdictRecord) (s : State) : State :=
  match v.verdict with
  | .clean => completeDemand id .clean v.corrected s
  | .corrected => completeDemand id .corrected v.corrected s
  | .poisoned => completePoisonedRead id v.line s
  | .uncorrectable => openContext (.demand id) v (setPhase id .retrying s)

/-- How a read-modify-write goes on from its RMW verdict (R32–R34). -/
def rmwOutcome (id : Nat) (mask : ByteMask) (data : Line) (v : VerdictRecord) (s : State) : State :=
  match v.verdict with
  | .clean => applyWrite id v.line (merge mask v.corrected data) .done s
  | .corrected => applyWrite id v.line (merge mask v.corrected data) .corrected s
  | .poisoned => refuseRmw id (poisonedRmwCapture v mask data) s
  | .uncorrectable => openContext (.rmw id mask data) v (setPhase id .retrying s)

/-- The verdict of a demand read reaches its request, unless that has been completed ABORTED meanwhile
(R38); while the part is HALTED it completes HALTED (R39). -/
def demandOutcome (id : Nat) (v : VerdictRecord) (s : State) : State :=
  match findRequest id s with
  | none => s
  | some r =>
    if r.phase ≠ .readGranted then s
    else if s.fcu.halted.isSome then completeDemand id .halted zeroLine s
    else
      match r.body with
      | .maskedWrite _ mask data => rmwOutcome id mask data v s
      | _ => readOutcome id v s

/-- The verdict of a patrol visit: an UNCORRECTABLE one is retried, unless the part is HALTED, a Core Reset
(ABORT) came since its grant, or its rank has left ONLINE (R114, R116, R147). -/
def visitOutcome (aborted : Bool) (v : VerdictRecord) (s : State) : State :=
  if v.verdict = .uncorrectable ∧ ¬aborted ∧ s.fcu.halted.isNone ∧
      rankState s (rankOf v.line) = .online then
    openContext .patrol v s
  else s

/-- The read source of an operation (T12); none for what is no read. -/
def PortOp.source : PortOp → Option ReadSource
  | .demandRead _ true => some .rmw
  | .demandRead _ false => some .demand
  | .retryRead _ => some .retry
  | .retireRead _ => some .retire
  | .verifyRead _ => some .verify
  | .visitRead _ => some .patrol
  | _ => none

/-- A finished retry: its context is closed before the consumers act (R117, R119). -/
def retryFinish (id : Nat) (v : VerdictRecord) (s : State) : State :=
  match findContext id s with
  | none => consume v s
  | some x => retryOutcome x v (consume v (settleAnswer x.work (closeContext id s)))

/-- The verdict record goes to its consumers, and to the block that asked for the read (R14). -/
def deliver (op : PortOp) (v : VerdictRecord) (s : State) : State :=
  match op with
  | .demandRead id _ => demandOutcome id v (consume v s)
  | .retryRead id => retryFinish id v s
  | .retireRead id => retireOutcome id v (consume v s)
  | .verifyRead id => verifyOutcome id v (consume v s)
  | .visitRead aborted => visitOutcome aborted v (consume v s)
  | _ => s

/-- A read whose mark could not be obtained makes no verdict; its work is ended as HALTED ends work whose
read had been granted (R111). -/
def endUndecoded (op : PortOp) (s : State) : State :=
  match op with
  | .demandRead id _ => completeDemand id .halted zeroLine s
  | .retryRead id =>
    match findContext id s with
    | some x => endWorkHalted x.work (closeContext id s)
    | none => s
  | .retireRead id =>
    match retireOf id s with
    | some _ => answer id .halted [] (endRetire id s)
    | none => s
  | _ => s

/-- A granted read returns its raw line: the mark is obtained, the line decoded and the verdict delivered
(R7, R8, R14, R111). The port is free from now on (R164). -/
def readFinish (g : Granted) (source : ReadSource) (raw : RawLine) (s : State) : State :=
  let s := { s with drp := { s.drp with port := none } }
  match readRank (rankOf g.line) s with
  | (false, s) => endUndecoded g.op s
  | (true, s) =>
    deliver g.op (decodeLine g.line source (markOf s (rankOf g.line)) g.cls g.overwritten raw) s

end Sys2Proof.Machine
end

