-- ==== Sys2Proof/Machine/Arbiter.lean ====
section
/-! DEFINITION. The DRAM port: grants, the end of granted operations, refreshes (chapter 9). -/

namespace Sys2Proof.Machine

/-! ## Grants (R164–R167) -/

/-- The operation occupies the port (R164). -/
def occupy (op : PortOp) (a : LineAddr) (cls : Option Classification) (formed : Option Burst)
    (s : State) : State :=
  { s with drp := { s.drp with
      port := some { op := op, line := a, cls := cls, formed := formed, overwritten := false } } }

/-- A granted DRAM write: the line is formed and sent in its beats (R1, R5), and ungranted patrol retries of the
line are withdrawn (R116). -/
def grantWrite (op : PortOp) (a : LineAddr) (data : Line) (poisoned : Bool) (s : State) : State :=
  let raw := (formWrite a data poisoned s).1
  let s := (formWrite a data poisoned s).2
  occupy op a none (some (onBeats raw)) (dropPatrolRetries (fun b => b == a) s)

/-- A demand write is granted; the request keeps the status it will complete with (R28, R33). -/
def grantDemandWrite (id : Nat) (a : LineAddr) (s : State) : State :=
  match findRequest id s with
  | none => s
  | some r =>
    match r.phase with
    | .waitWrite data status =>
      grantWrite (.demandWrite id) a data false (setPhase id (.writeGranted status) s)
    | _ => s

/-- The write of a READY entry is granted (R59). -/
def grantRepair (id : Nat) (a : LineAddr) (s : State) : State :=
  match findEntry id s with
  | none => s
  | some e =>
    grantWrite (.repairWrite id) a e.data (e.kind == .poison)
      (updateEntry id (fun x => { x with state := .writing }) s)

/-- A release write is granted; where the slot's data is lost the write is made in poison form of the data
bytes as stored (R84, T47). -/
def grantRelease (i age : Nat) (a : LineAddr) (s : State) : State :=
  match readSlot i s with
  | (some d, s) => grantWrite (.releaseWrite i age) a d false s
  | (none, s) =>
    match (slotAt s i).data? with
    | some d => slotDataLost a none none (grantWrite (.releaseWrite i age) a d.asStored true s)
    | none => s

/-- A fill write is granted: the zero line is formed and the fill position rises by one (R160). -/
def grantFill (a : LineAddr) (s : State) : State :=
  let r := rankOf a
  let s := grantWrite .fillWrite a zeroLine false s
  let s := setRank r { rankRec s r with fillPosition := (rankRec s r).fillPosition + 1 } s
  { s with drp := { s.drp with lastFill := some r } }

/-- A refresh is granted: it is due no more, and the rank's countdown is loaded again (R163). -/
def grantRefresh (a : LineAddr) (s : State) : State :=
  let r := rankOf a
  let s := occupy .refresh a none none
    { s with drp := { s.drp with refreshDue := s.drp.refreshDue.erase r } }
  setRank r { rankRec s r with refresh := some Config.refreshInterval } s

/-- A visit is granted: C falls by one, the line is read, the cursor advances; then steal mode is evaluated
and the next line tested (R146). -/
def grantVisit (a : LineAddr) (cls : Option Classification) (s : State) : State :=
  let s := { s with psc := { s.psc with credit := s.psc.credit - 1, passVisited := true } }
  patrolProceeds (evalSteal (advanceCursor false (occupy (.visitRead false) a cls none s)))

/-- The grant history after a grant (R167); while the part is HALTED it keeps its value (R168). -/
def historyAfter (halted : Bool) (op : PortOp) (h : Nat) : Nat :=
  if halted then h
  else
    match op with
    | .visitRead _ => 0
    | _ => min 7 (h + 1)

/-- The effects of a grant, by operation. -/
def grantOp (w : Waiting) (s : State) : State :=
  match w.op with
  | .demandRead id rmw => occupy (.demandRead id rmw) w.line w.cls none (setPhase id .readGranted s)
  | .retryRead id => occupy (.retryRead id) w.line w.cls none s
  | .retireRead id => occupy (.retireRead id) w.line none none s
  | .verifyRead id => occupy (.verifyRead id) w.line none none s
  | .visitRead _ => grantVisit w.line w.cls s
  | .demandWrite id => grantDemandWrite id w.line s
  | .repairWrite id => grantRepair id w.line s
  | .releaseWrite i age => grantRelease i age w.line s
  | .fillWrite => grantFill w.line s
  | .refresh => grantRefresh w.line s

/-- The arbiter grants an operation, and the grant history moves (R165, R167). -/
def grant (w : Waiting) (s : State) : State :=
  grantOp w
    { s with drp := { s.drp with history := historyAfter s.fcu.halted.isSome w.op s.drp.history } }

/-- With the port free, the first waiting operation is granted (R164, R165). -/
def arbiterGrants (s : State) : State :=
  match s.drp.port, firstWaiting (waiting s) with
  | none, some w => grant w s
  | _, _ => s

/-! ## Writes finish (R22, R60, R84, R160, R164) -/

/-- A demand write has finished: its request completes; where the request has been completed already, the line
leaves the hold set once that completion is handed over (R22, R38). -/
def demandWriteDone (id : Nat) (a : LineAddr) (s : State) : State :=
  match findRequest id s with
  | none => releaseHold (.line a) s
  | some r =>
    match r.phase with
    | .writeGranted status => completeDemand id status zeroLine s
    | _ => s

/-- A demand write is held behind the line (R29, R60). -/
def heldBehind (a : LineAddr) (s : State) : Bool :=
  s.dem.requests.any fun r =>
    r.hold == some (.line a) && (match r.phase with | .heldWrite _ _ => true | _ => false)

/-- The write of a WRITING entry has finished (R60). -/
def repairWriteDone (id : Nat) (s : State) : State :=
  match findEntry id s with
  | none => s
  | some e =>
    if heldBehind e.line s then holderChanged e.line (removeEntry id s)
    else if e.retired then removeEntry id s
    else if e.verify then updateEntry id (fun x => { x with state := .verifying }) s
    else removeEntry id s

/-- A release write has finished: the slot of that release becomes FREE, the Spare Release completes DONE, and
what was held behind the slot goes on (R84, R29). A slot that an abort returned to ACTIVE stays so
(R85). -/
def releaseDone (i age : Nat) (s : State) : State :=
  match slotAt s i with
  | .releasing a _ _ (some w) =>
    if w.age = age then holderChanged a (answer w.request .done [] (setSlot i .free s)) else s
  | _ => s

/-- A fill write has finished; that of index depth−1 completes the fill of a rank still FILLING (R160,
R161). -/
def fillWriteDone (a : LineAddr) (s : State) : State :=
  let r := rankOf a
  if rankState s r = .filling ∧ a.index.toNat + 1 = depth s ∧ (rankRec s r).fillPosition = depth s then
    rankCameOnline r (raise .fillDone (.rank r) (setRank r { rankRec s r with state := .online } s))
  else s

/-- What the end of a granted write releases; none where the operation is no write. -/
def writeDone (g : Granted) (s : State) : Option State :=
  match g.op with
  | .demandWrite id => some (demandWriteDone id g.line s)
  | .repairWrite id => some (repairWriteDone id s)
  | .releaseWrite i age => some (releaseDone i age s)
  | .fillWrite => some (fillWriteDone g.line s)
  | _ => none

/-- The port is free. -/
def freePort (s : State) : State := { s with drp := { s.drp with port := none } }

/-! ## The commands of the port -/

/-- ARBITER_GRANT (R165). -/
def execArbiterGrant (s : State) : Host.Outcome State Fault Refusal :=
  .next (if s.link.por then s else arbiterGrants s)

/-- The end of the read at the port, with the raw line that DRAM returned. -/
def dramReadFinishes (raw : RawLine) (s : State) : State :=
  match s.drp.port with
  | none => s
  | some g =>
    match g.op.source with
    | none => s
    | some source => settle (readFinish g source raw s)

/-- DRAM_READ_FINISH, with the beats that the rank's devices returned (R1, R7, R14, R164). -/
def execDramReadFinish (beats : Burst) (s : State) : Host.Outcome State Fault Refusal :=
  .next (if s.link.por then s else dramReadFinishes (fromBeats beats) s)

/-- The end of the write at the port. -/
def dramWriteFinishes (s : State) : State :=
  match s.drp.port with
  | none => s
  | some g =>
    match writeDone g (freePort s) with
    | some t => settle t
    | none => s

/-- DRAM_WRITE_FINISH (R164). -/
def execDramWriteFinish (s : State) : Host.Outcome State Fault Refusal :=
  .next (if s.link.por then s else dramWriteFinishes s)

/-- A rank's running refresh countdown reaches zero: its refresh is due, once (R163). -/
def refreshFallsDue (r : Nat) (s : State) : State :=
  if (rankRec s r).refresh.isSome ∧ r ∉ s.drp.refreshDue then
    setRank r { rankRec s r with refresh := some 0 }
      { s with drp := { s.drp with refreshDue := s.drp.refreshDue ++ [r] } }
  else s

/-- REFRESH_DUE (R163). -/
def execRefreshDue (rank : Fin 4) (s : State) : Host.Outcome State Fault Refusal :=
  .next (if s.link.por then s else refreshFallsDue rank.val s)

/-- The end of the refresh at the port (R163). -/
def refreshFinishes (s : State) : State :=
  match s.drp.port with
  | some g => if g.op = .refresh then settle (freePort s) else s
  | none => s

/-- REFRESH_FINISH (R163). -/
def execRefreshFinish (s : State) : Host.Outcome State Fault Refusal :=
  .next (if s.link.por then s else refreshFinishes s)

end Sys2Proof.Machine
end

