-- ==== Sys2Proof/Machine/Frames.lean ====
section
/-! DEFINITION. Downstream frames, admission, starting demand requests, and what goes upstream
(R19–R22, R37, R38, R193–R197). -/

namespace Sys2Proof.Machine

/-! ## Admission (R19–R21) -/

/-- A request of the buffer carries the tag; orphans are not in the buffer (R21, R40). -/
def tagInUse (tag : Byte) (s : State) : Bool := s.dem.requests.any fun r => r.tag == tag && !r.orphan

/-- An older QUEUED demand request waits for the same place in the hold set (R22). -/
def queuedBefore (key : HoldKey) (s : State) : Bool :=
  s.dem.requests.any fun r =>
    r.phase == .queued && (match r.body.line? with | some a => holdKey s a == key | none => false)

/-- The request as it is taken into the buffer. -/
def newRequest (tag : Byte) (body : RequestBody) (s : State) : Request :=
  { id := s.stamp, tag := tag, body := body, phase := .queued, age := s.stamp, cls := none,
    hold := none, orphan := false }

/-- A request joins the buffer as its youngest. -/
def enqueue (r : Request) (s : State) : State :=
  passMoment { s with dem := { s.dem with requests := s.dem.requests ++ [r] } }

/-- The status of a demand request that arrives during a Core Reset (T23, R37, R38). -/
def resetStatus (f : Flavour) (a : LineAddr) (s : State) : Status :=
  if s.fcu.halted.isSome then .halted
  else
    match f with
    | .abort => .aborted
    | .drain => if lineExists a s then .notReady else .range

/-- A demand request as a Core Reset in progress takes it in. During a drain it is started on arrival, whatever
its line: it takes the line where that is free, and stands beside the line's holder where it is not (R22, R182).
During an abort it is not started (R38). -/
def takeInReset (f : Flavour) (r : Request) (a : LineAddr) (waits : Bool) (s : State) : State :=
  match f with
  | .abort => enqueue r s
  | .drain => if waits then enqueue { r with beside := true } s else beginDemand r a (enqueue r s)

/-- A demand request has been admitted: it completes at once during a Core Reset (R37, R38, R182), starts on
arrival where its line is free, and waits otherwise (R22). -/
def arriveDemand (r : Request) (a : LineAddr) (s : State) : State :=
  let waits := decide (holdKey s a ∈ s.dem.holdSet) || queuedBefore (holdKey s a) s
  match s.mgu.coreReset with
  | some c =>
    completeDemand r.id (resetStatus c.flavour a s) zeroLine (takeInReset c.flavour r a waits s)
  | none => if waits then enqueue r s else startDemand r a (enqueue r s)

/-- DEM admits a good frame: overrun, then tag clash, then the buffer (R20, R21). -/
def admitFrame (bytes : List Byte) (s : State) : State :=
  if Config.bufferCapacity ≤ bufferCount s then raise .rqOverrun .none (countOverrun s)
  else if tagInUse (frameTag bytes) s then raise .tagClash .none s
  else
    let r := newRequest (frameTag bytes) (frameBody bytes) s
    match r.body.line? with
    | some a => arriveDemand r a s
    | none => enqueue r s

/-- An echoed frame is placed in the upstream queue unchanged while that holds fewer than 8 frames
(R197). -/
def echo (bytes : List Byte) (s : State) : State :=
  if s.link.upstream.length < Config.upstreamBound then pushUp (.echoed bytes) s else s

/-- A downstream frame is received, by link state (R188, R193, R197). -/
def receive (bytes : List Byte) (s : State) : State :=
  match s.link.state with
  | .down => s
  | .training _ => s
  | .echo => echo bytes s
  | .active => if goodFrame bytes then admitFrame bytes s else raise .linkCrc .none s

/-- READ: a frame of this kind is received (R19, R25). -/
def execRead (frame : List Byte) (s : State) : Host.Outcome State Fault Refusal :=
  .next (if s.link.por then s else receive frame s)

/-- WRITE: a frame of this kind is received (R19, R28). -/
def execWrite (frame : List Byte) (s : State) : Host.Outcome State Fault Refusal :=
  .next (if s.link.por then s else receive frame s)

/-- MASKED_WRITE: a frame of this kind is received (R19, R30). -/
def execMaskedWrite (frame : List Byte) (s : State) : Host.Outcome State Fault Refusal :=
  .next (if s.link.por then s else receive frame s)

/-- MANAGE: a frame of this kind is received (R19, R194). -/
def execManage (frame : List Byte) (s : State) : Host.Outcome State Fault Refusal :=
  .next (if s.link.por then s else receive frame s)

/-- ECHOED_FRAME: a frame of any bytes is received (R197). -/
def execEchoedFrame (frame : List Byte) (s : State) : Host.Outcome State Fault Refusal :=
  .next (if s.link.por then s else receive frame s)

/-! ## Starting (R22) -/

/-- The oldest QUEUED demand request for a place in the hold set, with its line. -/
def oldestQueued (key : HoldKey) (s : State) : Option (Request × LineAddr) :=
  s.dem.requests.findSome? fun r =>
    match r.body.line? with
    | some a => if r.phase = .queued ∧ holdKey s a = key then some (r, a) else none
    | none => none

/-- A line is out of the hold set: the oldest QUEUED demand request to it starts (R22). -/
def startNext (a : LineAddr) (s : State) : State :=
  if holdKey s a ∈ s.dem.holdSet then s
  else
    match oldestQueued (holdKey s a) s with
    | some (r, b) => startDemand r b s
    | none => s

/-- DEMAND_START (R22). -/
def execDemandStart (line : LineAddr) (s : State) : Host.Outcome State Fault Refusal :=
  .next (if s.link.por then s else startNext line s)

/-! ## Upstream (R195) -/

/-- The transmission of a frame ends, and LNK begins with the next (R195). -/
def frameSent (s : State) : State :=
  { s with link := beginSending { s.link with transmitting := none } }

/-- UPSTREAM_FRAME_SENT (R195). -/
def execUpstreamFrameSent (s : State) : Host.Outcome State Fault Refusal :=
  .next (if s.link.por then s else frameSent s)

/-- A pending completion is handed over: its request leaves; the frame of an orphan, or one handed over while
the link is not ACTIVE, is discarded (R40, R195, log 10). -/
def handOver (c : Completion) (s : State) : State :=
  match findRequest c.request s with
  | none =>
    { s with dem := { s.dem with completions := s.dem.completions.filter fun d => d.request != c.request } }
  | some r => dropRequest r (if r.orphan || s.link.state != .active then s else pushUp c.frame s)

/-- The oldest pending completion is handed over where the queue holds fewer than 8 frames (R195). -/
def handOverNext (s : State) : State :=
  match s.dem.completions with
  | c :: _ => if s.link.upstream.length < Config.upstreamBound then handOver c s else s
  | [] => s

/-- COMPLETION_HANDOVER (R195). -/
def execCompletionHandover (s : State) : Host.Outcome State Fault Refusal :=
  .next (if s.link.por then s else handOverNext s)

end Sys2Proof.Machine
end

