-- ==== Sys2Proof/Machine/LinkUp.lean ====
section
/-! DEFINITION. The POR pin, link training, loss of signal, the receive elastic buffer and its slips, and leaving
ACTIVE (R187–R192, R196). -/

namespace Sys2Proof.Machine

/-! ## Leaving ACTIVE (R40, R196) -/

/-- QUEUED requests are discarded, STARTED ones become orphans (R40). A request whose completion is pending becomes
an orphan too where a drain or an abort completed it before it was started (DESIGN CHOICE, log 48). -/
def orphanRequests (s : State) : State :=
  { s with dem := { s.dem with
      requests := (s.dem.requests.filter fun r => r.phase != .queued || r.orphan).map fun r =>
        { r with orphan := true } } }

/-- The link leaves ACTIVE for another state than ECHO: the slip history and the upstream queue are emptied, a
frame in transmission is abandoned, and the requests are handled by R40 (R196). -/
def leaveActive (dest : LinkState) (s : State) : State :=
  orphanRequests
    { s with link := { s.link with state := dest, slips := [], upstream := [], transmitting := none } }

/-- The link leaves ACTIVE for ECHO: the upstream queue is kept (R196, R197). -/
def leaveForEcho (s : State) : State :=
  orphanRequests { s with link := { s.link with state := .echo, slips := [] } }

/-! ## POR (R187) -/

/-- POR_ASSERTED: the straps are sampled and every block takes its power-on value. -/
def execPorAsserted (pins : StrapPins) (s : State) : Host.Outcome State Fault Refusal :=
  .next (powerOn true pins s.stamp s.pending)

/-- POR_RELEASED: the link stays DOWN (R187). -/
def execPorReleased (s : State) : Host.Outcome State Fault Refusal :=
  .next { s with link := { s.link with por := false } }

/-! ## Training (R188–R190) -/

/-- A signal is detected in DOWN (R190). -/
def signalSeen (s : State) : State :=
  match s.link.state with
  | .down => { s with link := { s.link with state := .training .laneLock } }
  | _ => s

/-- SIGNAL_DETECTED (R190). -/
def execSignalDetected (s : State) : Host.Outcome State Fault Refusal :=
  .next (if s.link.por then s else signalSeen s)

/-- The link becomes DOWN (R190); from ACTIVE with the effects of R196, from ECHO with an emptied upstream
queue (R197). -/
def signalLost (s : State) : State :=
  match s.link.state with
  | .down => s
  | .active => leaveActive .down s
  | _ => { s with link := { s.link with state := .down, upstream := [], transmitting := none } }

/-- LOSS_OF_SIGNAL (R190). -/
def execLossOfSignal (s : State) : Host.Outcome State Fault Refusal :=
  .next (if s.link.por then s else signalLost s)

/-- Every lane in use carries its own number and the width named is the strap's (R189, step 1); the receivers of
lanes not in use are ignored (R187). -/
def lanesAgree (width : Nat) (lanes : List Nat) (s : State) : Bool :=
  let n := s.link.straps.laneCount
  width == n && lanes.take n == List.range n

/-- Step 1 completes, or repeats (R189). -/
def lanesLocked (width : Nat) (lanes : List Nat) (s : State) : State :=
  match s.link.state with
  | .training .laneLock =>
    if lanesAgree width lanes s then { s with link := { s.link with state := .training .deskew } } else s
  | _ => s

/-- LANE_LOCK: the host's pattern names a width and a number on each lane in use (R189). -/
def execLaneLock (width : Nat) (lanes : List Nat) (s : State) : Host.Outcome State Fault Refusal :=
  .next (if s.link.por then s else lanesLocked width lanes s)

/-- Step 2 completes with the elastic buffer at its centre, and ready marks are sent (R189). -/
def lanesAligned (s : State) : State :=
  match s.link.state with
  | .training .deskew => { s with link := { s.link with state := .training .readyExchange, fill := 0 } }
  | _ => s

/-- DESKEW_AND_CENTRING (R189). -/
def execDeskewAndCentring (s : State) : Host.Outcome State Fault Refusal :=
  .next (if s.link.por then s else lanesAligned s)

/-- Step 3 completes: the link becomes ACTIVE with an empty slip history (R189, R192). -/
def marksExchanged (s : State) : State :=
  match s.link.state with
  | .training .readyExchange => { s with link := { s.link with state := .active, slips := [] } }
  | _ => s

/-- READY_EXCHANGE (R189). -/
def execReadyExchange (s : State) : Host.Outcome State Fault Refusal :=
  .next (if s.link.por then s else marksExchanged s)

/-! ## The receive elastic buffer and its slips (R191, R192) -/

/-- The fill after a drift lies more than 12 symbols from the centre: a slip occurs (R191). -/
def driftsOut (symbols : Int) (s : State) : Bool := Config.elasticReach < (s.link.fill + symbols).natAbs

/-- The buffer takes a drift: it absorbs one of up to 12 symbols on either side of its centre, and is re-centred by one
beyond (R191). -/
def takeDrift (symbols : Int) (s : State) : State :=
  { s with link := { s.link with fill := if driftsOut symbols s then 0 else s.link.fill + symbols } }

/-- Both earlier slips lie within the 1,000 µs before `time`, 1,000 µs itself included (R192); LNK's timer never runs
back, so that neither lies after it. -/
def thirdSlip (time : Nat) (slips : List Nat) : Bool :=
  match slips with
  | [p, q] => time ≤ p + Config.slipWindow && time ≤ q + Config.slipWindow
  | _ => false

/-- Some microseconds pass on LNK's internal timer (R192). -/
def timerRuns (elapsed : Nat) (s : State) : State :=
  { s with link := { s.link with timer := s.link.timer + elapsed } }

/-- A slip in ACTIVE, at the time LNK's timer shows: the third within 1,000 µs retrains the link and its event is
dropped; any other is recorded and raised (R191, R192). -/
def slipActive (s : State) : State :=
  if thirdSlip s.link.timer s.link.slips then
    raise .elasticSlip .none (leaveActive (.training .laneLock) s)
  else
    raise .elasticSlip .none
      { s with link := { s.link with slips := (s.link.timer :: s.link.slips).take 2 } }

/-- A drift of the receive elastic buffer, by link state (R191). Within the buffer's reach it is absorbed. Beyond it a
slip occurs: in ACTIVE it is judged against the history, in ECHO the buffer is re-centred alone, and the exchange of
ready marks returns to step 2 (R189). The buffer is not in use in DOWN, nor centred yet in step 1 of training (log 35).
-/
def slip (drift : Drift) (s : State) : State :=
  match s.link.state with
  | .active =>
    let t := takeDrift drift.symbols (timerRuns drift.elapsed s)
    if driftsOut drift.symbols s then slipActive t else t
  | .echo => takeDrift drift.symbols s
  | .training .deskew => takeDrift drift.symbols s
  | .training .readyExchange =>
    let t := takeDrift drift.symbols s
    if driftsOut drift.symbols s then { t with link := { t.link with state := .training .deskew } } else t
  | _ => s

/-- ELASTIC_SLIP: the fill has drifted by some symbols, some microseconds after LNK's timer last moved (R191, R192,
logs 32 and 46). -/
def execElasticSlip (drift : Drift) (s : State) : Host.Outcome State Fault Refusal :=
  .next (if s.link.por then s else slip drift s)

end Sys2Proof.Machine
end

