-- ==== Sys2Proof/Machine/Management.lean ====
section
/-! DEFINITION. Taking a management request (R170–R172), and the requests that act on RGT, PSC's phase table,
DHT, and MGU's own settings and readings. -/

namespace Sys2Proof.Machine

/-! ## Taking a request (R170, R171) -/

/-- The oldest QUEUED management request, with its kind and arguments (R170). -/
def oldestManage (s : State) : Option (Request × Nat × List Byte) :=
  s.dem.requests.findSome? fun r =>
    match r.body, r.phase with
    | .manage kind args, .queued => some (r, kind, args)
    | _, _ => none

/-- The request is served while the part is HALTED (T62). -/
def servedHalted (kind : Nat) (args : List Byte) : Bool :=
  match kind with
  | 7 => true
  | 25 => true
  | 26 => true
  | 31 => true
  | 35 => true
  | 36 => true
  | 37 => args.head? == some 1
  | _ => false

/-- The second, third and fourth check of T80. A Core Reset is in progress until its MANAGE-DONE is handed over, that
of an abort too: a request reached while that frame is pending is BUSY by R171, although R184 has requests behind an
abort taken after its MANAGE-DONE in the ordinary way (DESIGN CHOICE, log 37). -/
def takeCheck (kind : Nat) (args : List Byte) (s : State) : Option Result :=
  if s.mgu.coreReset.isSome ∧ kind ≠ 35 then some .busy
  else if s.fcu.halted.isSome ∧ ¬servedHalted kind args then some .halted
  else if args.length < argumentsNeeded kind then some .range
  else none

/-- A request is taken: it starts, the checks are made, and its owner acts on it (R170, R171). The MANAGE-DONE of any
refusal, an Echo Set's too, is held to the bound of 8 frames: R195 frees "the MANAGE-DONE of Echo Set" from it, and
R197 speaks of the DONE that enters ECHO (DESIGN CHOICE, log 49). -/
def serve (id kind : Nat) (args : List Byte) (effect : Nat → List Byte → State → State) (s : State) :
    State :=
  match takeCheck kind args s with
  | some result => answer id result [] (setPhase id .serving s)
  | none => effect id args (setPhase id .serving s)

/-- MGU takes the oldest QUEUED management request, where that is of this kind (R170). -/
def take (kind : Nat) (effect : Nat → List Byte → State → State) (s : State) : State :=
  match oldestManage s with
  | some (r, k, args) => if k = kind then serve r.id kind args effect s else s
  | none => s

/-- A one-byte argument. -/
def arg (args : List Byte) (i : Nat) : Nat := (byteAt args i).toNat

/-- UNKNOWN_REQUEST: the oldest QUEUED management request is of a kind that is none of T82 (R171). -/
def takeUnknown (s : State) : State :=
  match oldestManage s with
  | some (r, k, _) =>
    if k = 0 ∨ 38 < k then answer r.id .unknown [] (setPhase r.id .serving s) else s
  | none => s

def execUnknownRequest (s : State) : Host.Outcome State Fault Refusal :=
  .next (if s.link.por then s else takeUnknown s)

/-! ## RGT (R44, R48, R49) -/

/-- The entry that a Region Load's arguments spell. -/
def loadedRegion (args : List Byte) (cls : RegionClass) : RegionEntry :=
  { valid := flagOf (byteAt args 1), base := addressOf (field args 2 4),
    rankMask := BitVec.ofNat 2 (arg args 6), indexMask := BitVec.ofNat 27 (argument args 7 4),
    cls := cls, level := clamp 1 7 (arg args 12) }

/-- Region Load (R48). -/
def regionLoad (id : Nat) (args : List Byte) (s : State) : State :=
  match classOf (arg args 11) with
  | none => answer id .range [] s
  | some cls =>
    let e := loadedRegion args cls
    if 15 < arg args 0 ∨ 3 < rankOf e.base ∨ depth s ≤ e.base.index.toNat then answer id .range [] s
    else answer id .done [] (setRegion (arg args 0) ⟨e, .sound⟩ s)

def execRegionLoad (s : State) : Host.Outcome State Fault Refusal :=
  .next (if s.link.por then s else take 1 regionLoad s)

/-- The payload of Region Read (R49). -/
def regionPayload (n : Nat) (s : State) : List Byte :=
  let e := (regionAt s n).value
  packed 1 n ++ packedFlag e.valid ++ packedAddress e.base ++ packed 1 e.rankMask.toNat ++
    packed 4 e.indexMask.toNat ++ [e.cls.code] ++ packed 1 e.level ++ packed 1 s.rgt.defaultLevel

/-- Region Read (R49). -/
def regionRead (id : Nat) (args : List Byte) (s : State) : State :=
  let n := arg args 0
  if 15 < n then answer id .range [] s
  else
    let s := checkRegion s n
    answer id .done (regionPayload n s) s

def execRegionRead (s : State) : Host.Outcome State Fault Refusal :=
  .next (if s.link.por then s else take 2 regionRead s)

/-- Region Default (R44). -/
def regionDefault (id : Nat) (args : List Byte) (s : State) : State :=
  answer id .done [] { s with rgt := { s.rgt with defaultLevel := clamp 1 7 (arg args 0) } }

def execRegionDefault (s : State) : Host.Outcome State Fault Refusal :=
  .next (if s.link.por then s else take 3 regionDefault s)

/-! ## The phase table (R133–R135) -/

/-- The profile that a Phase Load's arguments spell, clamped (R134). -/
def loadedProfile (args : List Byte) : Profile :=
  { period := clamp 1 65535 (argument args 1 2), allowed := flagOf (byteAt args 3),
    steal := clamp 0 Config.creditCeiling (argument args 4 4),
    lazyWait := clamp 0 65535 (argument args 8 2) }

/-- Phase Load; a load of the current profile takes effect at once, but for the countdown (R134). -/
def phaseLoad (id : Nat) (args : List Byte) (s : State) : State :=
  let n := arg args 0
  if 7 < n then answer id .range [] s
  else
    let s := setProfile n ⟨loadedProfile args, .sound⟩ s
    answer id .done [] (if n = s.psc.phase then allowanceChanged (evalSteal s) else s)

def execPhaseLoad (s : State) : Host.Outcome State Fault Refusal :=
  .next (if s.link.por then s else take 4 phaseLoad s)

/-- The payload of Phase Read (R135). -/
def phasePayload (n : Nat) (p : Profile) (s : State) : List Byte :=
  packed 1 n ++ packed 2 p.period ++ packedFlag p.allowed ++ packed 4 p.steal ++
    packed 2 p.lazyWait ++ packed 1 s.psc.phase

/-- Phase Read (R135); defaults that replace a lost current profile take effect (R136). -/
def phaseRead (id : Nat) (args : List Byte) (s : State) : State :=
  let n := arg args 0
  if 7 < n then answer id .range [] s
  else
    let p := (readProfile n s).1
    let s := (readProfile n s).2
    answer id .done (phasePayload n p s) (if n = s.psc.phase then patrolProceeds s else s)

def execPhaseRead (s : State) : Host.Outcome State Fault Refusal :=
  .next (if s.link.por then s else take 5 phaseRead s)

/-- Phase Set (R133). -/
def phaseSet (id : Nat) (args : List Byte) (s : State) : State :=
  let n := arg args 0
  if 7 < n then answer id .range [] s
  else
    let p := (readProfile n s).1
    let s := (readProfile n s).2
    let s := { s with psc := { s.psc with phase := n, tickCountdown := p.period } }
    answer id .done [] (allowanceChanged (evalSteal s))

def execPhaseSet (s : State) : Host.Outcome State Fault Refusal :=
  .next (if s.link.por then s else take 6 phaseSet s)

/-! ## DHT (R93, R103, R104, R109) -/

/-- The entry part of Device Read's payload; the storage-fault indication in its place where the entry's
storage holds an uncorrectable error (R109, R111, T92). -/
def devicePayload (n : Nat) (s : State) : List Byte :=
  match (deviceAt s n).storage with
  | .uncorrectable => packed 1 n ++ [0, 0, 4, 0, 0, 0, 0]
  | _ =>
    let e := (deviceAt s n).value
    packed 1 n ++ packed 2 e.tally ++ [e.state.code] ++ packedFlag e.touched ++
      packedFlag e.capped ++ packed 2 (if e.state = .probation then e.count else 0)

/-- Device Read (R109). -/
def deviceRead (id : Nat) (args : List Byte) (s : State) : State :=
  let r := arg args 0
  let d := arg args 1
  if 3 < r ∨ 9 < d then answer id .range [] s
  else
    let s := (readDevices [entryNumber r d] s).2
    answer id .done
      (devicePayload (entryNumber r d) s ++ packedName ((markOf s r).map Fin.val) ++
        packed 1 s.dht.decayQ ++ packed 2 s.dht.probationK) s

def execDeviceRead (s : State) : Host.Outcome State Fault Refusal :=
  .next (if s.link.por then s else take 7 deviceRead s)

/-- Device Mark (R103). -/
def deviceMark (id : Nat) (args : List Byte) (s : State) : State :=
  let r := arg args 0
  let d := arg args 1
  if 3 < r ∨ rankState s r = .absent ∨ 9 < d then answer id .range [] s
  else
    match readRank r s with
    | (false, s) => answer id .halted [] s
    | (true, s) =>
      if (markOf s r).isSome then answer id .wrongState [] s
      else
        answer id .done []
          (raise .deviceMarked (.device r d)
            (putDevice (entryNumber r d)
              { deviceEntry s (entryNumber r d) with
                tally := 256, state := .marked, capped := false, count := 0 } s))

def execDeviceMark (s : State) : Host.Outcome State Fault Refusal :=
  .next (if s.link.por then s else take 8 deviceMark s)

/-- Device Unmark (R104). -/
def deviceUnmark (id : Nat) (args : List Byte) (s : State) : State :=
  let r := arg args 0
  let d := arg args 1
  if 3 < r ∨ rankState s r = .absent ∨ 9 < d then answer id .range [] s
  else
    match readRank r s with
    | (false, s) => answer id .halted [] s
    | (true, s) =>
      if (deviceEntry s (entryNumber r d)).state ≠ .marked then answer id .wrongState [] s
      else
        answer id .done []
          (putDevice (entryNumber r d)
            { deviceEntry s (entryNumber r d) with state := .probation, count := 0 } s)

def execDeviceUnmark (s : State) : Host.Outcome State Fault Refusal :=
  .next (if s.link.por then s else take 9 deviceUnmark s)

/-- Health Params (R93). -/
def healthParams (id : Nat) (args : List Byte) (s : State) : State :=
  answer id .done []
    { s with dht := { s.dht with
        decayQ := clamp 0 255 (arg args 0), probationK := clamp 1 65535 (argument args 1 2) } }

def execHealthParams (s : State) : Host.Outcome State Fault Refusal :=
  .next (if s.link.por then s else take 10 healthParams s)

/-! ## MGU's own (R175–R180) -/

/-- Alert Mask Set (R175). -/
def alertMaskSet (id : Nat) (args : List Byte) (s : State) : State :=
  answer id .done [] { s with mgu := { s.mgu with mask := clamp 0 7 (arg args 0) } }

def execAlertMaskSet (s : State) : Host.Outcome State Fault Refusal :=
  .next (if s.link.por then s else take 30 alertMaskSet s)

/-- The payload of Counter Read (R177, T86). -/
def counterPayload (c : Counters) : List Byte :=
  (c.corrected.toList.map (packed 4)).flatten ++ (c.ueLines.toList.map (packed 4)).flatten ++
    (c.poisonedReads.toList.map (packed 4)).flatten ++ packed 4 c.lagTicks ++ packed 4 c.overruns ++
    packed 1 c.lostCaptures

/-- Counter Read (R177). -/
def counterRead (id : Nat) (_ : List Byte) (s : State) : State :=
  answer id .done (counterPayload s.mgu.counters) s

def execCounterRead (s : State) : Host.Outcome State Fault Refusal :=
  .next (if s.link.por then s else take 31 counterRead s)

/-- Counter Clear (R177). -/
def counterClear (id : Nat) (_ : List Byte) (s : State) : State :=
  answer id .done [] (s.withCounters fun _ => zeroCounters)

def execCounterClear (s : State) : Host.Outcome State Fault Refusal :=
  .next (if s.link.por then s else take 32 counterClear s)

/-- Time Set (R178). Six bytes spell no value above 2^48−1. -/
def timeSet (id : Nat) (args : List Byte) (s : State) : State :=
  answer id .done []
    { s with mgu := { s.mgu with timeBase := BitVec.ofNat 48 (clamp 0 (2 ^ 48 - 1) (argument args 0 6)) } }

def execTimeSet (s : State) : Host.Outcome State Fault Refusal :=
  .next (if s.link.por then s else take 33 timeSet s)

/-- Time Read (R178). -/
def timeRead (id : Nat) (_ : List Byte) (s : State) : State :=
  answer id .done (packed 6 s.mgu.timeBase.toNat) s

def execTimeRead (s : State) : Host.Outcome State Fault Refusal :=
  .next (if s.link.por then s else take 34 timeRead s)

/-- The cursor in four bytes, 0xFFFFFFFF when parked (T92). -/
def packedCursor (c : Option LineAddr) : List Byte :=
  match c with
  | some a => packedAddress a
  | none => [0xFF, 0xFF, 0xFF, 0xFF]

/-- Core Reset in progress (T92). -/
def coreResetCode (c : Option CoreReset) : Byte :=
  match c with
  | none => 0
  | some ⟨.drain, _⟩ => 1
  | some ⟨.abort, _⟩ => 2

/-- The state of a rank's mark, zero where there is none (T92, log 25). -/
def markStateCode (s : State) (r : Nat) : Byte :=
  match markState s r with
  | some d => d.code
  | none => 0

/-- Entries in a state, by the state's place in WAITING, READY, WRITING, VERIFYING. -/
def RepairState.place : RepairState → Nat
  | .waiting _ => 0
  | .ready => 1
  | .writing => 2
  | .verifying => 3

/-- The summary of the part's state (R179). -/
def statusPayload (s : State) : List Byte :=
  packedFlag s.fcu.halted.isSome ++ packedCause s.fcu.halted ++ [coreResetCode s.mgu.coreReset] ++
    packedFlag s.cod.loopLine.isSome ++
    ([0, 1, 2, 3].map fun r => (rankState s r).code) ++
    ([0, 1, 2, 3].flatMap fun r => packedName ((markOf s r).map Fin.val)) ++
    ([0, 1, 2, 3].map (markStateCode s)) ++
    packed 1 s.rpq.entries.length ++
    ([0, 1, 2, 3].flatMap fun k => packed 1 (s.rpq.entries.countP fun e => e.state.place == k)) ++
    ([0, 1, 2, 3, 4].flatMap fun k =>
      packed 1 (s.sls.slots.toList.countP fun x => x.code == BitVec.ofNat 8 k)) ++
    [s.fcu.recordA.content.code, s.fcu.recordB.content.code, recordCode s.fcu.next] ++
    packedFlag s.psc.running ++ packed 1 s.psc.phase ++ packed 4 s.psc.credit ++
    packed 4 s.psc.lagLimit ++ packedFlag s.psc.steal ++ packedFlag s.psc.lagging ++
    packedCursor s.psc.cursor ++
    packed 1 s.mgu.mask ++ packed 6 s.mgu.timeBase.toNat ++ packed 1 (bufferCount s)

/-- Status Read (R179). -/
def statusRead (id : Nat) (_ : List Byte) (s : State) : State := answer id .done (statusPayload s) s

def execStatusRead (s : State) : Host.Outcome State Fault Refusal :=
  .next (if s.link.por then s else take 35 statusRead s)

/-- The three strap values: present ranks, n and lanes (R180). -/
def strapBytes (s : State) : List Byte :=
  packed 1 s.link.straps.presentRanks ++ packed 1 s.link.straps.depthExponent ++
    packed 1 s.link.straps.laneCount

/-- Identity Read (R180). -/
def identityRead (id : Nat) (_ : List Byte) (s : State) : State :=
  answer id .done
    (packed 2 Config.vendorCode ++ packed 2 Config.partCode ++ packed 1 Config.revision ++ strapBytes s) s

def execIdentityRead (s : State) : Host.Outcome State Fault Refusal :=
  .next (if s.link.por then s else take 36 identityRead s)

end Sys2Proof.Machine
end

