-- ==== Sys2Proof/Machine/Requests.lean ====
section
/-! DEFINITION. The management requests that act on SLS, PSC, DRP, FCU and COD (R15, R17, R80, R83, R89, R126,
R139, R140, R150, R151, R156–R162). -/

namespace Sys2Proof.Machine

/-! ## SLS (R80, R83, R89) -/

/-- The fields of a slot in Spare Read's payload: line, hit count, last-hit time, retire time, zero bytes where
absent (R89, R198). -/
def slotFields (x : Slot) : List Byte :=
  match x with
  | .free => List.replicate 17 0
  | .watch a hits time =>
    packedAddress a ++ packed 1 hits ++ packed 6 time.toNat ++ List.replicate 6 0
  | .active a _ time => packedAddress a ++ List.replicate 7 0 ++ packed 6 time.toNat
  | .failed a _ time => packedAddress a ++ List.replicate 7 0 ++ packed 6 time.toNat
  | .releasing a _ time _ => packedAddress a ++ List.replicate 7 0 ++ packed 6 time.toNat

/-- Spare Read (R89). -/
def spareRead (id : Nat) (args : List Byte) (s : State) : State :=
  let n := arg args 0
  if 31 < n then answer id .range [] s
  else
    answer id .done
      (packed 1 n ++ [(slotAt s n).code] ++ slotFields (slotAt s n) ++ packed 1 s.sls.threshold ++
        packedFlag s.sls.allocationFailed) s

def execSpareRead (s : State) : Host.Outcome State Fault Refusal :=
  .next (if s.link.por then s else take 11 spareRead s)

/-- A RETIRE read is asked of DRP; its age is this moment (R80, R166). -/
def askRetireRead (id : Nat) (a : LineAddr) (s : State) : State :=
  passMoment { s with sls := { s.sls with
    retires := s.sls.retires ++ [{ request := id, line := a, age := s.stamp }] } }

/-- Spare Retire, by the checks of T45 (R80, R81). -/
def spareRetire (id : Nat) (args : List Byte) (s : State) : State :=
  let a := addressOf (field args 0 4)
  if !lineExists a s then answer id .range [] s
  else if rankState s (rankOf a) ≠ .online then answer id .wrongState [] s
  else if (slotHolding a s).isSome then answer id .wrongState [] s
  else
    match entryOf a s with
    | none => askRetireRead id a s
    | some e =>
      match e.kind with
      | .poison => answer id .wrongState [] s
      | .repair => placeRetire id a e.data s

def execSpareRetire (s : State) : Host.Outcome State Fault Refusal :=
  .next (if s.link.por then s else take 12 spareRetire s)

/-- Spare Release by slot state (R83, T46). -/
def releaseSlot (id n : Nat) (s : State) : State :=
  match slotAt s n with
  | .free => answer id .wrongState [] s
  | .watch _ _ _ => answer id .done [] (setSlot n .free s)
  | .active a d t =>
    if rankState s (rankOf a) = .online then
      passMoment (setSlot n (.releasing a d t (some { request := id, age := s.stamp })) s)
    else answer id .wrongState [] s
  | .failed a _ _ => answer id .done [] (holderChanged a (setSlot n .free s))
  | .releasing _ _ _ _ => answer id .wrongState [] s

/-- Spare Release (R83). -/
def spareRelease (id : Nat) (args : List Byte) (s : State) : State :=
  if 31 < arg args 0 then answer id .range [] s else releaseSlot id (arg args 0) s

def execSpareRelease (s : State) : Host.Outcome State Fault Refusal :=
  .next (if s.link.por then s else take 13 spareRelease s)

/-- Spare Params (R89). -/
def spareParams (id : Nat) (args : List Byte) (s : State) : State :=
  answer id .done [] { s with sls := { s.sls with threshold := clamp 2 15 (arg args 0) } }

def execSpareParams (s : State) : Host.Outcome State Fault Refusal :=
  .next (if s.link.por then s else take 14 spareParams s)

/-! ## PSC (R139, R140, R150, R151) -/

/-- Patrol Start; a running patrol is not changed (R150). -/
def patrolStart (id : Nat) (_ : List Byte) (s : State) : State :=
  if s.psc.running then answer id .done [] s
  else answer id .done [] (patrolProceeds { s with psc := { s.psc with running := true } })

def execPatrolStart (s : State) : Host.Outcome State Fault Refusal :=
  .next (if s.link.por then s else take 15 patrolStart s)

/-- Patrol Stop (R150). -/
def patrolStop (id : Nat) (_ : List Byte) (s : State) : State := answer id .done [] (stopPatrol s)

def execPatrolStop (s : State) : Host.Outcome State Fault Refusal :=
  .next (if s.link.por then s else take 16 patrolStop s)

/-- Cursor Read (R151). -/
def cursorRead (id : Nat) (_ : List Byte) (s : State) : State :=
  answer id .done
    (packedCursor s.psc.cursor ++ packedFlag s.psc.wholeSweep ++ packedFlag s.psc.running ++
      packed 4 s.psc.credit ++ packed 4 s.psc.lagLimit ++ packedFlag s.psc.steal ++
      packedFlag s.psc.lagging ++ packed 1 s.psc.phase) s

def execCursorRead (s : State) : Host.Outcome State Fault Refusal :=
  .next (if s.link.por then s else take 17 cursorRead s)

/-- Cursor Set (R151). -/
def cursorSet (id : Nat) (args : List Byte) (s : State) : State :=
  let a := addressOf (field args 0 4)
  if rankState s (rankOf a) ≠ .online ∨ depth s ≤ a.index.toNat then answer id .range [] s
  else answer id .done [] (patrolProceeds (setCursor a s))

def execCursorSet (s : State) : Host.Outcome State Fault Refusal :=
  .next (if s.link.por then s else take 18 cursorSet s)

/-- Pacing Set (R139). -/
def pacingSet (id : Nat) (args : List Byte) (s : State) : State :=
  let limit := clamp 1 Config.creditCeiling (argument args 0 4)
  answer id .done []
    (patrolProceeds (evalSteal
      { s with psc := { s.psc with lagLimit := limit, credit := min s.psc.credit limit } }))

def execPacingSet (s : State) : Host.Outcome State Fault Refusal :=
  .next (if s.link.por then s else take 19 pacingSet s)

/-- Steal mode is left (R140). -/
def leaveSteal (s : State) : State :=
  if s.psc.steal then raise .stealOff .none { s with psc := { s.psc with steal := false } } else s

/-- Pacing Reset (R140). -/
def pacingReset (id : Nat) (_ : List Byte) (s : State) : State :=
  answer id .done [] (leaveSteal { s with psc := { s.psc with credit := 0, lagging := false } })

def execPacingReset (s : State) : Host.Outcome State Fault Refusal :=
  .next (if s.link.por then s else take 20 pacingReset s)

/-! ## DRP (R156, R157, R159, R162) -/

/-- The devices of a rank are active: out of self-refresh, with the refresh countdown running on or started
(R156, R159, R163). -/
def activeRank (st : RankState) (x : RankRec) : RankRec :=
  { x with state := st, selfRefresh := false,
           refresh := some (x.refresh.getD Config.refreshInterval) }

/-- Every slot whose line lies in the rank becomes FREE (R88). -/
def freeRankSlot (r : Nat) (s : State) (i : Nat) : State :=
  match (slotAt s i).line? with
  | some a => if rankOf a = r then setSlot i .free s else s
  | none => s

/-- Rank Fill (R159). -/
def rankFill (id : Nat) (args : List Byte) (s : State) : State :=
  let r := arg args 0
  if rankState s r = .absent then answer id .range [] s
  else if s.cod.loopLine.isSome then answer id .wrongState [] s
  else if rankState s r ≠ .offline then answer id .wrongState [] s
  else
    let s := (List.range 32).foldl (freeRankSlot r) s
    answer id .done []
      (setRank r { activeRank .filling (rankRec s r) with fillPosition := 0 } s)

def execRankFill (s : State) : Host.Outcome State Fault Refusal :=
  .next (if s.link.por then s else take 21 rankFill s)

/-- Rank Online (R156). -/
def rankOnline (id : Nat) (args : List Byte) (s : State) : State :=
  let r := arg args 0
  if rankState s r = .absent then answer id .range [] s
  else if s.cod.loopLine.isSome then answer id .wrongState [] s
  else if rankState s r ≠ .offline then answer id .wrongState [] s
  else answer id .done [] (rankCameOnline r (setRank r (activeRank .online (rankRec s r)) s))

def execRankOnline (s : State) : Host.Outcome State Fault Refusal :=
  .next (if s.link.por then s else take 22 rankOnline s)

/-- A slot holding a line of the rank is RELEASING (R157). -/
def rankReleases (r : Nat) (s : State) : Bool :=
  s.sls.slots.toList.any fun x =>
    match x with
    | .releasing a _ _ _ => rankOf a == r
    | _ => false

/-- Rank Offline, by the checks of R157. -/
def rankOffline (id : Nat) (args : List Byte) (s : State) : State :=
  let r := arg args 0
  match rankState s r with
  | .absent => answer id .range [] s
  | .offline => answer id .wrongState [] s
  | .filling => answer id .done [] (settle (stopFill s r))
  | .online =>
    if s.rpq.entries.any fun e => rankOf e.line == r then answer id .busy [] s
    else if rankReleases r s then answer id .busy [] s
    else
      answer id .done []
        (settle (rankLeftOnline r (setRank r { rankRec s r with state := .offline } s)))

def execRankOffline (s : State) : Host.Outcome State Fault Refusal :=
  .next (if s.link.por then s else take 23 rankOffline s)

/-- The operations of rank `r` waiting at DRP (R162, log 27). -/
def waitingCount (s : State) (r : Nat) : Nat := (waiting s).countP fun w => rankOf w.line == r

/-- Rank Status (R162). -/
def rankStatus (id : Nat) (_ : List Byte) (s : State) : State :=
  answer id .done
    (([0, 1, 2, 3].map fun r => (rankState s r).code) ++
      ([0, 1, 2, 3].flatMap fun r => packedFlag (rankRec s r).selfRefresh) ++
      ([0, 1, 2, 3].flatMap fun r => packed 4 (rankRec s r).fillPosition) ++
      ([0, 1, 2, 3].flatMap fun r => packed 1 (waitingCount s r)) ++ strapBytes s) s

def execRankStatus (s : State) : Host.Outcome State Fault Refusal :=
  .next (if s.link.por then s else take 24 rankStatus s)

/-! ## FCU (R126, R199) -/

/-- Capture Read checks the record's storage (R126). -/
def checkRecord (x : RecordName) (s : State) : State :=
  match (recordAt s x).storage with
  | .sound => s
  | .singleBit =>
    raise .internalCorrected (.table .capture (recordIndex x))
      (setRecord x { recordAt s x with storage := .sound } s)
  | .uncorrectable =>
    raise .tableFault (.table .capture (recordIndex x))
      (setRecord x { recordAt s x with content := .lost } s)

/-- Capture Read; an argument length of 1 is part 0 (R126, R199). -/
def captureRead (id : Nat) (args : List Byte) (s : State) : State :=
  match recordOf (arg args 0) with
  | none => answer id .range [] s
  | some x =>
    if 2 < arg args 1 then answer id .range [] s
    else
      let s := checkRecord x s
      answer id .done ((recordAt s x).content.part (arg args 1)) s

def execCaptureRead (s : State) : Host.Outcome State Fault Refusal :=
  .next (if s.link.por then s else take 25 captureRead s)

/-- Capture Release (R126). -/
def captureRelease (id : Nat) (args : List Byte) (s : State) : State :=
  match recordOf (arg args 0) with
  | none => answer id .range [] s
  | some x =>
    answer id .done [] (setRecord x { recordAt s x with content := .empty, storage := .sound } s)

def execCaptureRelease (s : State) : Host.Outcome State Fault Refusal :=
  .next (if s.link.por then s else take 26 captureRelease s)

/-! ## COD (R15, R17) -/

/-- Injection entry `i` replaced. -/
def setInjection (i : Nat) (x : Option Injection) (s : State) : State :=
  { s with cod := { s.cod with injections := setAt s.cod.injections i x } }

/-- The injection entry that Inject Set's arguments spell (R15). -/
def loadedInjection (args : List Byte) : Injection :=
  { line := addressOf (field args 1 4), device := arg args 5,
    codewords := BitVec.ofNat 4 (arg args 6), pattern := BitVec.ofNat 16 (argument args 7 2),
    count := clamp 1 255 (arg args 9) }

/-- The grounds on which Inject Set is refused RANGE (R15). -/
def injectionRefused (entry : Nat) (e : Injection) (s : State) : Bool :=
  1 < entry || 3 < rankOf e.line || depth s ≤ e.line.index.toNat || 9 < e.device ||
    e.codewords == 0 || e.pattern == 0

/-- Inject Set (R15). -/
def injectSet (id : Nat) (args : List Byte) (s : State) : State :=
  if injectionRefused (arg args 0) (loadedInjection args) s then answer id .range [] s
  else answer id .done [] (setInjection (arg args 0) (some (loadedInjection args)) s)

def execInjectSet (s : State) : Host.Outcome State Fault Refusal :=
  .next (if s.link.por then s else take 27 injectSet s)

/-- Inject Clear (R15). -/
def injectClear (id : Nat) (args : List Byte) (s : State) : State :=
  if 1 < arg args 0 then answer id .range [] s
  else answer id .done [] (setInjection (arg args 0) none s)

def execInjectClear (s : State) : Host.Outcome State Fault Refusal :=
  .next (if s.link.por then s else take 28 injectClear s)

/-- Every rank is OFFLINE or ABSENT (R17). -/
def ranksIdle (s : State) : Bool :=
  [0, 1, 2, 3].all fun r => rankState s r == .offline || rankState s r == .absent

/-- The loop line set. -/
def setLoop (x : Option RawLine) (s : State) : State := { s with cod := { s.cod with loopLine := x } }

/-- Loop Set (R17). -/
def loopSet (id : Nat) (args : List Byte) (s : State) : State :=
  match arg args 0 with
  | 0 => answer id .done [] (setLoop none s)
  | 1 =>
    if !ranksIdle s then answer id .wrongState [] s
    else if s.cod.loopLine.isSome then answer id .done [] s
    else answer id .done [] (setLoop (some zeroRaw) s)
  | _ => answer id .range [] s

def execLoopSet (s : State) : Host.Outcome State Fault Refusal :=
  .next (if s.link.por then s else take 29 loopSet s)

end Sys2Proof.Machine
end

