-- ==== Sys2Proof/Machine/Resets.lean ====
section
/-! DEFINITION. Core Reset of both flavours, the end of a drain, and Echo Set (R181–R185, R197). -/

namespace Sys2Proof.Machine

/-! ## The reset effects (R185) -/

/-- The reset effects; no event is raised for them (R185). -/
def resetEffects (s : State) : State :=
  let s := resetPatrol { s with rpq := { s.rpq with entries := [] } }
  { s with
    cod := { s.cod with injections := Vector.replicate 2 none, loopLine := none }
    drp := { s.drp with history := 7 } }

/-- A Core Reset is in progress from here on (R171). -/
def beginReset (f : Flavour) (id : Nat) (s : State) : State :=
  { s with mgu := { s.mgu with coreReset := some { flavour := f, request := id } } }

/-- MGU takes the oldest QUEUED management request, where that is a Core Reset of the row's flavour: ABORT
where its first argument byte is 1, DRAIN otherwise (log 11). -/
def takeReset (abort : Bool) (effect : Nat → List Byte → State → State) (s : State) : State :=
  match oldestManage s with
  | some (r, k, args) =>
    if k = 37 ∧ (args.head? == some 1) = abort then serve r.id 37 args effect s else s
  | none => s

/-! ## DRAIN (R182) -/

/-- A QUEUED demand request completes NOT-READY, or RANGE where R23 would give that (R37). -/
def drainRequest (s : State) (r : Request) : State :=
  match r.body.line?, r.phase with
  | some a, .queued =>
    completeDemand r.id (if lineExists a s then .notReady else .range) zeroLine s
  | _, _ => s

/-- A WAITING entry becomes READY (R69). -/
def RepairEntry.drained (e : RepairEntry) : RepairEntry :=
  match e.state with
  | .waiting _ => { e with state := .ready }
  | _ => e

/-- Every WAITING entry becomes READY at once (R69). -/
def readyEntries (s : State) : State :=
  { s with rpq := { s.rpq with entries := s.rpq.entries.map RepairEntry.drained } }

/-- A Core Reset (DRAIN) starts (R182); a flavour that is neither is refused RANGE (R181). -/
def coreResetDrain (id : Nat) (args : List Byte) (s : State) : State :=
  if arg args 0 ≠ 0 then answer id .range [] s
  else
    let s := beginReset .drain id s
    settle (stopFills (readyEntries (stopPatrol (s.dem.requests.foldl drainRequest s))))

def execCoreResetDrain (s : State) : Host.Outcome State Fault Refusal :=
  .next (if s.link.por then s else takeReset false coreResetDrain s)

/-- A patrol visit is granted and unfinished. -/
def visitAtPort (s : State) : Bool :=
  match s.drp.port with
  | some g => (match g.op with | .visitRead _ => true | _ => false)
  | none => false

/-- A slot is RELEASING. -/
def someReleasing (s : State) : Bool :=
  s.sls.slots.toList.any fun x => match x with | .releasing .. => true | _ => false

/-- A demand request that is STARTED or orphaned (R182). One that stood QUEUED when a drain or an abort completed
it was never started and holds no line: its pending completion is not waited for (R19, R37, log 41). -/
def Request.isInHand (r : Request) : Bool := r.isDemand && (r.hold.isSome || r.beside || r.orphan)

/-- The six conditions for the end of a drain (R182). -/
def drained (s : State) : Bool :=
  (s.dem.requests.all fun r => !r.isInHand) &&
    s.fcu.contexts.isEmpty && !visitAtPort s && s.rpq.entries.isEmpty && !someReleasing s &&
    s.sls.retires.isEmpty

/-- The request of a drain in progress that has not been answered. -/
def drainRunning (s : State) : Option Nat :=
  match s.mgu.coreReset with
  | some ⟨.drain, id⟩ =>
    match findRequest id s with
    | some r => if r.phase = .serving then some id else none
    | none => none
  | _ => none

/-- The drain ends: the reset effects, and DONE (R182, R185). They are applied in this step alone: where the MANAGE-DONE
is pending for a full upstream queue, a demand read granted before an earlier abort may finish CORRECTED and put an
entry into the queue before that frame goes, though R69 has it not sent while the queue holds an entry (DESIGN CHOICE,
log 53). -/
def drainEnds (s : State) : State :=
  match drainRunning s with
  | some id => if drained s then answer id .done [] (resetEffects s) else s
  | none => s

/-- DRAIN_END (R182). -/
def execDrainEnd (s : State) : Host.Outcome State Fault Refusal :=
  .next (if s.link.por then s else drainEnds s)

/-! ## ABORT (R184) -/

/-- A demand request whose completion is not pending completes ABORTED (R38). -/
def abortRequest (s : State) (r : Request) : State :=
  if r.isDemand then completeDemand r.id .aborted zeroLine s else s

/-- A visit at DRAM goes on, and will not be retried (R114). -/
def abortVisit (s : State) : State :=
  match s.drp.port with
  | some g =>
    match g.op with
    | .visitRead _ =>
      { s with drp := { s.drp with port := some { g with op := .visitRead true } } }
    | _ => s
  | none => s

/-- A RELEASING slot returns to ACTIVE, and its Spare Release completes BUSY (R85, R184). -/
def abortRelease (s : State) (i : Nat) : State :=
  match slotAt s i with
  | .releasing a d t (some w) => answer w.request .busy [] (setSlot i (.active a d t) s)
  | .releasing a d t none => setSlot i (.active a d t) s
  | _ => s

/-- A Spare Retire in progress completes BUSY (R184). -/
def abortRetire (s : State) (w : RetireWork) : State :=
  answer w.request .busy [] (endRetire w.request s)

/-- HALTED is left: every device entry is written afresh in its reset form, and the flag is cleared
(R129). -/
def leaveHalted (s : State) : State :=
  if s.fcu.halted.isSome then
    resetHealth { s with fcu := { s.fcu with halted := none } }
  else s

/-- A Core Reset (ABORT), in the order of R184. The reset effects are applied in this step alone: where the MANAGE-DONE
is pending for a full upstream queue, a verdict that comes before it goes can put an entry into the queue that R70 calls
empty when it is sent (DESIGN CHOICE, log 50), and where HALTED was left the port grants all classes before it goes
(R169; DESIGN CHOICE, log 52). -/
def coreResetAbort (id : Nat) (_ : List Byte) (s : State) : State :=
  let s := beginReset .abort id s
  let s := abortVisit (dropUngrantedRetries (s.dem.requests.foldl abortRequest s))
  let s := { s with rpq := { s.rpq with entries := [] } }
  let s := (List.range 32).foldl abortRelease s
  let s := s.sls.retires.foldl abortRetire s
  let s := stopFills (stopPatrol s)
  let s := leaveHalted (resetEffects s)
  answer id .done [] (settle s)

def execCoreResetAbort (s : State) : Host.Outcome State Fault Refusal :=
  .next (if s.link.por then s else takeReset true coreResetAbort s)

/-! ## Echo Set (R197) -/

/-- Echo Set: its MANAGE-DONE goes into the upstream queue whatever that holds, and the link enters ECHO. -/
def echoSet (id : Nat) (_ : List Byte) (s : State) : State :=
  match findRequest id s with
  | some r => leaveForEcho (dropRequest r (pushUp (.manageDone r.tag .done []) s))
  | none => s

def execEchoSet (s : State) : Host.Outcome State Fault Refusal :=
  .next (if s.link.por then s else take 38 echoSet s)

end Sys2Proof.Machine
end

