-- ==== Sys2Proof/Machine/Time.lean ====
section
/-! DEFINITION. The part's timers, the time base, and errors in its internal storage
(R58, R130, R137, R163, R178). -/

namespace Sys2Proof.Machine

/-! ## Timers -/

/-- TICK (R137, R138). -/
def execTick (s : State) : Host.Outcome State Fault Refusal :=
  .next (if s.link.por then s else tickOccurs s)

/-- A WAITING entry's countdown runs out: the entry is READY (R58); while the part is HALTED the countdown
stands (R71). -/
def lazyWaitEnds (a : LineAddr) (s : State) : State :=
  match entryOf a s with
  | none => s
  | some e =>
    match e.state with
    | .waiting _ =>
      if s.fcu.halted.isSome then s else updateEntry e.id (fun x => { x with state := .ready }) s
    | _ => s

/-- LAZY_WAIT_EXPIRY (R58). -/
def execLazyWaitExpiry (line : LineAddr) (s : State) : Host.Outcome State Fault Refusal :=
  .next (if s.link.por then s else lazyWaitEnds line s)

/-- The time base rises by one, and wraps (R178). -/
def timeBaseRises (s : State) : State := { s with mgu := { s.mgu with timeBase := s.mgu.timeBase + 1 } }

/-- TIME_BASE_ADVANCE (R178). -/
def execTimeBaseAdvance (s : State) : Host.Outcome State Fault Refusal :=
  .next (if s.link.por then s else timeBaseRises s)

/-- The countdown of a WAITING entry falls by one microsecond, not below zero (R58). -/
def RepairEntry.elapsed (e : RepairEntry) : RepairEntry :=
  match e.state with
  | .waiting n => { e with state := .waiting (n - 1) }
  | _ => e

/-- The countdown of a rank falls by one microsecond, not below zero (R163). -/
def RankRec.elapsed (x : RankRec) : RankRec := { x with refresh := x.refresh.map fun n => n - 10 }

/-- One microsecond passes while the block idles: the internal countdowns fall, and LNK's timer rises; lazy waits
stand while the part is HALTED (R71, R137, R163, R192; logs 2 and 46). -/
def elapse (s : State) : State :=
  if s.link.por then s
  else
    { s with
      link := { s.link with timer := s.link.timer + 1 }
      psc := { s.psc with tickCountdown := s.psc.tickCountdown - 1 }
      rpq := { s.rpq with entries :=
        if s.fcu.halted.isSome then s.rpq.entries else s.rpq.entries.map RepairEntry.elapsed }
      drp := { s.drp with ranks := Vector.ofFn fun r => s.drp.ranks[r].elapsed } }

/-! ## Storage errors (R130) -/

/-- The storage of an item after a further error: two bits are beyond correction (R130, log 13). -/
def Storage.struck (x : Storage) (severity : Severity) : Storage :=
  match x, severity with
  | .sound, .singleBit => .singleBit
  | _, _ => .uncorrectable

/-- The data of a slot after an error: an uncorrectable one changes bits of it (R87). -/
def StoredLine.struck (d : StoredLine) (severity : Severity) (flips : Line) : StoredLine :=
  match d.storage.struck severity with
  | .uncorrectable =>
    { d with storage := .uncorrectable, flips := Vector.ofFn fun i => d.flips[i] ^^^ flips[i] }
  | x => { d with storage := x }

/-- An error arises in an item's storage; a slot that holds no data has nothing to err (T43). -/
def errorArises (item : StoredItem) (severity : Severity) (s : State) : State :=
  match item with
  | .region n => setRegion n.val ⟨(regionAt s n.val).value, (regionAt s n.val).storage.struck severity⟩ s
  | .phase n =>
    setProfile n.val ⟨(storedProfile s n.val).value, (storedProfile s n.val).storage.struck severity⟩ s
  | .device n => setDevice n.val ⟨(deviceAt s n.val).value, (deviceAt s n.val).storage.struck severity⟩ s
  | .slot n flips =>
    match (slotAt s n.val).data? with
    | some d => setSlot n.val ((slotAt s n.val).withData (d.struck severity flips)) s
    | none => s
  | .capture x => setRecord x { recordAt s x with storage := (recordAt s x).storage.struck severity } s
  | .captureCheckBack x =>
    setRecord x { recordAt s x with strike := (recordAt s x).strike.struck severity } s

/-- STORAGE_ERROR (R130). -/
def execStorageError (item : StoredItem) (severity : Severity) (s : State) :
    Host.Outcome State Fault Refusal :=
  .next (if s.link.por then s else errorArises item severity s)

end Sys2Proof.Machine
end

