-- ==== Sys2Proof/Machine/Dispatch.lean ====
section
/-! DEFINITION. The meaning of each command: one arm per row of spec/opcode_table.json. -/

namespace Sys2Proof.Machine

def exec (i : Instr) (s : State) : Host.Outcome State Fault Refusal :=
  match i with
  | .porAsserted pins => Sys2Proof.Machine.execPorAsserted pins s
  | .porReleased => Sys2Proof.Machine.execPorReleased s
  | .signalDetected => Sys2Proof.Machine.execSignalDetected s
  | .lossOfSignal => Sys2Proof.Machine.execLossOfSignal s
  | .laneLock width lanes => Sys2Proof.Machine.execLaneLock width lanes s
  | .deskewAndCentring => Sys2Proof.Machine.execDeskewAndCentring s
  | .readyExchange => Sys2Proof.Machine.execReadyExchange s
  | .elasticSlip drift => Sys2Proof.Machine.execElasticSlip drift s
  | .read frame => Sys2Proof.Machine.execRead frame s
  | .write frame => Sys2Proof.Machine.execWrite frame s
  | .maskedWrite frame => Sys2Proof.Machine.execMaskedWrite frame s
  | .manage frame => Sys2Proof.Machine.execManage frame s
  | .echoedFrame frame => Sys2Proof.Machine.execEchoedFrame frame s
  | .upstreamFrameSent => Sys2Proof.Machine.execUpstreamFrameSent s
  | .completionHandover => Sys2Proof.Machine.execCompletionHandover s
  | .demandStart line => Sys2Proof.Machine.execDemandStart line s
  | .arbiterGrant => Sys2Proof.Machine.execArbiterGrant s
  | .dramReadFinish beats => Sys2Proof.Machine.execDramReadFinish beats s
  | .dramWriteFinish => Sys2Proof.Machine.execDramWriteFinish s
  | .refreshDue rank => Sys2Proof.Machine.execRefreshDue rank s
  | .refreshFinish => Sys2Proof.Machine.execRefreshFinish s
  | .tick => Sys2Proof.Machine.execTick s
  | .lazyWaitExpiry line => Sys2Proof.Machine.execLazyWaitExpiry line s
  | .timeBaseAdvance => Sys2Proof.Machine.execTimeBaseAdvance s
  | .drainEnd => Sys2Proof.Machine.execDrainEnd s
  | .regionLoad => Sys2Proof.Machine.execRegionLoad s
  | .regionRead => Sys2Proof.Machine.execRegionRead s
  | .regionDefault => Sys2Proof.Machine.execRegionDefault s
  | .phaseLoad => Sys2Proof.Machine.execPhaseLoad s
  | .phaseRead => Sys2Proof.Machine.execPhaseRead s
  | .phaseSet => Sys2Proof.Machine.execPhaseSet s
  | .deviceRead => Sys2Proof.Machine.execDeviceRead s
  | .deviceMark => Sys2Proof.Machine.execDeviceMark s
  | .deviceUnmark => Sys2Proof.Machine.execDeviceUnmark s
  | .healthParams => Sys2Proof.Machine.execHealthParams s
  | .spareRead => Sys2Proof.Machine.execSpareRead s
  | .spareRetire => Sys2Proof.Machine.execSpareRetire s
  | .spareRelease => Sys2Proof.Machine.execSpareRelease s
  | .spareParams => Sys2Proof.Machine.execSpareParams s
  | .patrolStart => Sys2Proof.Machine.execPatrolStart s
  | .patrolStop => Sys2Proof.Machine.execPatrolStop s
  | .cursorRead => Sys2Proof.Machine.execCursorRead s
  | .cursorSet => Sys2Proof.Machine.execCursorSet s
  | .pacingSet => Sys2Proof.Machine.execPacingSet s
  | .pacingReset => Sys2Proof.Machine.execPacingReset s
  | .rankFill => Sys2Proof.Machine.execRankFill s
  | .rankOnline => Sys2Proof.Machine.execRankOnline s
  | .rankOffline => Sys2Proof.Machine.execRankOffline s
  | .rankStatus => Sys2Proof.Machine.execRankStatus s
  | .captureRead => Sys2Proof.Machine.execCaptureRead s
  | .captureRelease => Sys2Proof.Machine.execCaptureRelease s
  | .injectSet => Sys2Proof.Machine.execInjectSet s
  | .injectClear => Sys2Proof.Machine.execInjectClear s
  | .loopSet => Sys2Proof.Machine.execLoopSet s
  | .alertMaskSet => Sys2Proof.Machine.execAlertMaskSet s
  | .counterRead => Sys2Proof.Machine.execCounterRead s
  | .counterClear => Sys2Proof.Machine.execCounterClear s
  | .timeSet => Sys2Proof.Machine.execTimeSet s
  | .timeRead => Sys2Proof.Machine.execTimeRead s
  | .statusRead => Sys2Proof.Machine.execStatusRead s
  | .identityRead => Sys2Proof.Machine.execIdentityRead s
  | .coreResetDrain => Sys2Proof.Machine.execCoreResetDrain s
  | .coreResetAbort => Sys2Proof.Machine.execCoreResetAbort s
  | .echoSet => Sys2Proof.Machine.execEchoSet s
  | .unknownRequest => Sys2Proof.Machine.execUnknownRequest s
  | .storageError item severity => Sys2Proof.Machine.execStorageError item severity s

end Sys2Proof.Machine
end

