-- ==== Sys2Proof/Machine/Step.lean ====
section
/-! DEFINITION. One step of the part. -/

namespace Sys2Proof.Machine

/-- The command at the front of the queue is executed with the queue's rest; with no command waiting the block
idles for one microsecond (log 2). -/
def step (s : State) : Host.Outcome State Fault Refusal :=
  match s.pending with
  | [] => .next (elapse s)
  | c :: rest => exec c { s with pending := rest }

/-- The command that a table word spells is put at the front of the queue; no word spells one (log 40). -/
def State.withFetchWord (s : State) (nbits w : Nat) : State :=
  match decodeTableWord nbits w with
  | some c => { s with pending := c :: s.pending }
  | none => s

end Sys2Proof.Machine
end

