-- ==== Sys2Proof/Safety.lean ====
section
/-! DEFINITION. What counts as a sound state of the part, and the words in which claims about commands are
stated: when a management request is taken, and the state in which its answer has been handed on. -/

namespace Sys2Proof.Machine

/-! ## Sound states -/

/-- The credit never exceeds the lag limit, and the limit stays in its range (R139). -/
def CreditBounded (s : State) : Prop :=
  s.psc.credit ≤ s.psc.lagLimit ∧ 1 ≤ s.psc.lagLimit ∧ s.psc.lagLimit ≤ 4194303

/-- The grant history is a count 0 to 7 (R167). -/
def HistoryBounded (s : State) : Prop := s.drp.history ≤ 7

/-- The slip history holds at most two slips, none later than LNK's timer (R192), and the fill of the elastic buffer
lies within 12 symbols of its centre (R191). -/
def Link.Fits (l : Link) : Prop :=
  (l.slips.length ≤ 2 ∧ ∀ p ∈ l.slips, p ≤ l.timer) ∧ l.fill.natAbs ≤ Config.elasticReach

/-- Tally, state, capped flag and probation count of a device agree (R92, T50, T51, R98). -/
def DeviceEntry.Fits (e : DeviceEntry) : Prop :=
  e.tally ≤ 256 ∧ (e.tally = 256 ↔ e.state.isMark) ∧
    (e.state = .suspect ↔ 128 ≤ e.tally ∧ e.tally ≤ 255) ∧ (e.state = .sound ↔ e.tally ≤ 127) ∧
    (e.capped → e.tally = 255) ∧ (e.state ≠ .probation → e.count = 0)

/-- Every device entry agrees with itself (R92). -/
def DevicesFit (s : State) : Prop := ∀ n < 40, (deviceEntry s n).Fits

/-- At most one device of a rank is MARKED or in PROBATION (R100). -/
def OneMarkPerRank (s : State) : Prop :=
  ∀ r < 4, ∀ d < 10, ∀ d' < 10, (deviceEntry s (entryNumber r d)).state.isMark →
    (deviceEntry s (entryNumber r d')).state.isMark → d = d'

/-- The requests in the buffer, orphans left out (R40). -/
def bufferedRequests (s : State) : List Request := s.dem.requests.filter fun r => !r.orphan

/-- At most 32 requests stand in the buffer, and no two of them share a tag (R19, R20, R21). -/
def BufferFits (s : State) : Prop :=
  (bufferedRequests s).length ≤ 32 ∧ ((bufferedRequests s).map Request.tag).Nodup

/-- The model's names for requests are distinct and belong to the past (log 38). -/
def RequestsNamed (s : State) : Prop :=
  (s.dem.requests.map Request.id).Nodup ∧ ∀ r ∈ s.dem.requests, r.id < s.stamp

/-- QUEUED requests stand in the buffer only while the link is ACTIVE; they are no orphans and hold no line
(R19, R22, R40). -/
def QueuedFit (s : State) : Prop :=
  ∀ r ∈ s.dem.requests, r.phase = .queued → s.link.state = .active ∧ r.orphan = false ∧ r.hold = none

/-- No line stands twice in the same-line hold set (R22). -/
def HoldSetFits (s : State) : Prop := s.dem.holdSet.Nodup

/-- At most 16 repair entries, in their order of creation, no two for one line (R52). -/
def RepairQueueFits (s : State) : Prop :=
  s.rpq.entries.length ≤ 16 ∧ (s.rpq.entries.map RepairEntry.line).Nodup ∧
    (s.rpq.entries.map RepairEntry.id).Pairwise (· < ·) ∧ ∀ e ∈ s.rpq.entries, e.id < s.stamp

/-- No two slots name the same line (R74). -/
def SlotsFit (s : State) : Prop :=
  ∀ i < 32, ∀ j < 32, ∀ a, (slotAt s i).line? = some a → (slotAt s j).line? = some a → i = j

/-- Beside a slot that holds its line a repair entry stands only in WRITING, and goes when that write
finishes (R60, R64). -/
def OneHolder (s : State) : Prop :=
  ∀ e ∈ s.rpq.entries, (slotHolding e.line s).isSome → e.state = .writing ∧ e.retired = true

/-- The cursor is on a line of an ONLINE rank, and is parked only while no rank is ONLINE (R143). -/
def CursorFits (s : State) : Prop :=
  match s.psc.cursor with
  | some a => rankState s (rankOf a) = .online ∧ a.index.toNat < depth s
  | none => ∀ r < 4, rankState s r ≠ .online

/-- A rank is ABSENT exactly where the RANKS strap leaves it out (R155). -/
def RanksFitStraps (s : State) : Prop :=
  ∀ r < 4, rankState s r = .absent ↔ s.link.straps.presentRanks ≤ r

/-- A profile's numbers lie in their ranges (T66, T83). -/
def Profile.InRange (p : Profile) : Prop :=
  1 ≤ p.period ∧ p.period ≤ 65535 ∧ p.steal ≤ 4194303 ∧ p.lazyWait ≤ 65535

/-- Every setting of Table 83 lies in its range, and the current phase is 0 to 7. -/
def SettingsInRange (s : State) : Prop :=
  (∀ i < 16, 1 ≤ (regionAt s i).value.level ∧ (regionAt s i).value.level ≤ 7) ∧
    (1 ≤ s.rgt.defaultLevel ∧ s.rgt.defaultLevel ≤ 7) ∧
    (∀ n < 8, (profileAt s n).InRange) ∧ s.psc.phase ≤ 7 ∧
    (1 ≤ s.psc.lagLimit ∧ s.psc.lagLimit ≤ 4194303) ∧ s.dht.decayQ ≤ 255 ∧
    (1 ≤ s.dht.probationK ∧ s.dht.probationK ≤ 65535) ∧
    (2 ≤ s.sls.threshold ∧ s.sls.threshold ≤ 15) ∧ s.mgu.mask ≤ 7 ∧
    ∀ i < 2, ∀ e, getAt s.cod.injections i none = some e → 1 ≤ e.count ∧ e.count ≤ 255

/-- Every counter lies at or below its ceiling (R176). -/
def Counters.Bounded (c : Counters) : Prop :=
  (∀ r : Fin 4, c.corrected[r] < 2 ^ 32 ∧ c.ueLines[r] < 2 ^ 32 ∧ c.poisonedReads[r] < 2 ^ 32) ∧
    c.lagTicks < 2 ^ 32 ∧ c.overruns < 2 ^ 32 ∧ c.lostCaptures ≤ 255

/-- A sound state: every invariant of this section. -/
structure Sound (s : State) : Prop where
  credit : CreditBounded s
  history : HistoryBounded s
  link : s.link.Fits
  devices : DevicesFit s
  marks : OneMarkPerRank s
  buffer : BufferFits s
  named : RequestsNamed s
  queued : QueuedFit s
  holds : HoldSetFits s
  repairs : RepairQueueFits s
  slots : SlotsFit s
  holder : OneHolder s
  cursor : CursorFits s
  ranks : RanksFitStraps s
  settings : SettingsInRange s
  counters : s.mgu.counters.Bounded

/-! ## The words of claims -/

/-- `r` is the oldest QUEUED management request, of this kind and with these arguments, and the first four
checks of Table 80 let it pass (R170, R171): a Core Reset in progress, if any, is another request's. The last
three fields hold in every sound state with the link ACTIVE (RequestsNamed, QueuedFit). -/
structure Taken (kind : Nat) (args : List Byte) (r : Request) (s : State) : Prop where
  released : s.link.por = false
  active : s.link.state = .active
  oldest : oldestManage s = some (r, kind, args)
  notReset : ∀ c, s.mgu.coreReset = some c → c.request ≠ r.id
  passes : takeCheck kind args s = none
  named : findRequest r.id s = some r
  buffered : r.orphan = false
  unheld : r.hold = none

/-- A completion of `r` handed to LNK: its frame goes to the end of the upstream queue and its request leaves
the buffer; where a completion is pending already or the queue holds 8 frames, it is pending (R19, R195). That a frame
on the lanes no longer counts toward the 8 is log 7, and that a later completion waits behind a pending one is log 8. -/
def handedOn (r : Request) (f : UpFrame) (s : State) : State :=
  if s.dem.completions = [] ∧ s.link.upstream.length < 8 then
    { s with
      link := beginSending { s.link with upstream := s.link.upstream ++ [f] }
      dem := { s.dem with requests := s.dem.requests.filter fun q => q.id != r.id } }
  else
    { s with dem := { s.dem with
        requests := s.dem.requests.map fun q => if q.id = r.id then { q with phase := .completing } else q
        completions := s.dem.completions ++ [⟨r.id, f⟩] } }

/-- The MANAGE-DONE of `r` handed on (R170), with what logs 7 and 8 settle of a hand-over. -/
def answered (r : Request) (result : Result) (payload : List Byte) (s : State) : State :=
  handedOn r (.manageDone r.tag result payload) s

/-- The answer of a request has been handed on: its frame waits in the upstream queue or is on the lanes (log 7), or it
is a pending completion (R195, log 8). -/
def HandedOn (id : Nat) (f : UpFrame) (s : State) : Prop :=
  f ∈ s.link.upstream ∨ s.link.transmitting = some (onLanes s.link.straps.laneCount f.bytes) ∨
    (⟨id, f⟩ : Completion) ∈ s.dem.completions

/-- `r` is a request of the buffer that nothing has completed yet, the link is ACTIVE, and no Core Reset is this
request's (R19, R40, R171). -/
structure Answerable (r : Request) (s : State) : Prop where
  active : s.link.state = .active
  named : findRequest r.id s = some r
  buffered : r.orphan = false
  unanswered : r.phase ≠ .completing
  notReset : ∀ c, s.mgu.coreReset = some c → c.request ≠ r.id

/-- A completion of the demand request `r`: its frame goes to the end of the upstream queue, its request leaves the
buffer, and its line the hold set unless a write granted to it is at DRAM; where a completion is pending already
or the queue holds 8 frames, it is pending and its line held (R19, R22, R195). Of the hand-over logs 7 and 8 hold, as
of `handedOn`. -/
def finished (r : Request) (f : UpFrame) (s : State) : State :=
  if s.dem.completions = [] ∧ s.link.upstream.length < 8 then
    { s with
      link := beginSending { s.link with upstream := s.link.upstream ++ [f] }
      dem := { s.dem with
        requests := s.dem.requests.filter fun q => q.id != r.id
        holdSet := match r.hold with
          | some key => if portHolds key s then s.dem.holdSet else s.dem.holdSet.erase key
          | none => s.dem.holdSet } }
  else
    { s with dem := { s.dem with
        requests := s.dem.requests.map fun q => if q.id = r.id then { q with phase := .completing } else q
        completions := s.dem.completions ++ [⟨r.id, f⟩] } }

/-- The part with its requests put in a phase by their name. -/
def withPhase (id : Nat) (phase : Phase) (s : State) : State :=
  { s with dem := { s.dem with
      requests := s.dem.requests.map fun q => if q.id = id then { q with phase := phase } else q } }

/-- A frame that LNK and DEM let in: POR released, the link ACTIVE, the frame good, room in the buffer, its tag
free (R20, R21, R193), no Core Reset in progress. -/
structure LetIn (frame : List Byte) (s : State) : Prop where
  released : s.link.por = false
  active : s.link.state = .active
  good : goodFrame frame = true
  room : (bufferedRequests s).length < 32
  free : ∀ r ∈ bufferedRequests s, r.tag ≠ frameTag frame
  noReset : s.mgu.coreReset = none
  named : ∀ r ∈ s.dem.requests, r.id < s.stamp

/-- The storage of every region entry is sound, so that a lookup raises nothing (R50). -/
def RegionsSound (s : State) : Prop := ∀ i < 16, (regionAt s i).storage = .sound

/-- The storage of the ten device entries of a rank is sound, so that a read of them raises nothing (R110). -/
def RankSound (r : Nat) (s : State) : Prop := ∀ d < 10, (deviceAt s (entryNumber r d)).storage = .sound

/-- A demand request to line `a` may start at once and passes the checks of T18, outside codec-loop mode
(R22, R23). A write of the line granted to a demand request would hold the line (`quiet`); a request that still
holds the loop line does not (log 42). -/
structure Startable (a : LineAddr) (s : State) : Prop where
  free : HoldKey.line a ∉ s.dem.holdSet
  quiet : portHolds (.line a) s = false
  first : queuedBefore (.line a) s = false
  served : s.fcu.halted = none
  inside : a.index.toNat < depth s
  online : rankState s (rankOf a) = .online
  loopOff : s.cod.loopLine = none
  regions : RegionsSound s

/-- The request that a let-in demand frame becomes once it has started: named and aged by the model's stamp, its
line in the hold set (R19, R22, R23). -/
def startedRequest (frame : List Byte) (a : LineAddr) (cls : Option Classification) (phase : Phase)
    (s : State) : Request :=
  { id := s.stamp, tag := frameTag frame, body := frameBody frame, phase := phase, age := s.stamp + 1,
    cls := cls, hold := some (.line a), orphan := false }

/-- The state with that request in it. -/
def withStarted (frame : List Byte) (a : LineAddr) (cls : Option Classification) (phase : Phase)
    (s : State) : State :=
  { s with
    dem := { s.dem with
      requests := s.dem.requests ++ [startedRequest frame a cls phase s]
      holdSet := s.dem.holdSet ++ [.line a] }
    stamp := s.stamp + 2 }

/-- The state after a let-in demand frame whose request completes the moment it starts: its completion stands
in the upstream queue and the request is gone, or, with a completion pending already or 8 frames in the queue,
the completion is pending and its line held (R19, R22, R195). Of the hand-over logs 7 and 8 hold, as of
`handedOn`. -/
def completedAtOnce (frame : List Byte) (a : LineAddr) (cls : Option Classification) (f : UpFrame)
    (s : State) : State :=
  if s.dem.completions = [] ∧ s.link.upstream.length < 8 then
    { s with
      link := beginSending { s.link with upstream := s.link.upstream ++ [f] }
      stamp := s.stamp + 2 }
  else
    let t := withStarted frame a cls .completing s
    { t with dem := { t.dem with completions := t.dem.completions ++ [⟨s.stamp, f⟩] } }

/-- `r` is the oldest QUEUED demand request for its place in the hold set, which is free: it is the request that
DEMAND_START starts (R22). In codec-loop mode that place is the loop line, whatever its address `a`. A write of the
line granted to another request would hold the line (`quiet`). The last four fields hold in every sound state with
the link ACTIVE, where a Spare Release is no demand request's. -/
structure StartsNext (r : Request) (a : LineAddr) (s : State) : Prop where
  released : s.link.por = false
  active : s.link.state = .active
  free : holdKey s a ∉ s.dem.holdSet
  quiet : portHolds (holdKey s a) s = false
  oldest : oldestQueued (holdKey s a) s = some (r, a)
  named : findRequest r.id s = some r
  buffered : r.orphan = false
  notReset : ∀ c, s.mgu.coreReset = some c → c.request ≠ r.id
  unreleased : ∀ i < 32, ∀ b d t w, slotAt s i = .releasing b d t (some w) → w.request ≠ r.id

/-- The state in which the QUEUED request `r` is STARTED and stands in a phase: its place in the hold set is taken, its
age is the model's stamp (log 38), and it carries its classification, where a lookup gave it one (R22, R23). -/
def startedIn (r : Request) (key : HoldKey) (cls : Option Classification) (phase : Phase) (s : State) : State :=
  { s with
    dem := { s.dem with
      requests := s.dem.requests.map fun q =>
        if q.id = r.id then
          { q with phase := phase, age := s.stamp, cls := cls.or q.cls, hold := some key }
        else q
      holdSet := s.dem.holdSet ++ [key] }
    stamp := s.stamp + 1 }

/-- The state in which the QUEUED request `r` has started and completed at once: its completion stands in the upstream
queue and the request is gone, or, with a completion pending already or 8 frames in the queue, the completion is
pending and its place held (R19, R22, R195). Of the hand-over logs 7 and 8 hold, as of `handedOn`. -/
def finishedIn (r : Request) (key : HoldKey) (cls : Option Classification) (f : UpFrame) (s : State) : State :=
  if s.dem.completions = [] ∧ s.link.upstream.length < 8 then
    { s with
      link := beginSending { s.link with upstream := s.link.upstream ++ [f] }
      dem := { s.dem with requests := s.dem.requests.filter fun q => q.id != r.id }
      stamp := s.stamp + 1 }
  else
    let t := startedIn r key cls .completing s
    { t with dem := { t.dem with completions := t.dem.completions ++ [⟨r.id, f⟩] } }

/-- No rank is quiescing: every OFFLINE rank is in self-refresh (R158). -/
def NoneQuiescing (s : State) : Prop := ∀ r < 4, rankState s r = .offline → (rankRec s r).selfRefresh

/-- The judgement of steal mode against a threshold S: entered at a credit of S or more, left at S/2 or less, or
where S is 0 (R141). -/
def stealJudged (threshold : Nat) (s : State) : State :=
  if s.psc.steal = false ∧ threshold ≠ 0 ∧ threshold ≤ s.psc.credit then
    raise .stealOn .none { s with psc := { s.psc with steal := true } }
  else if s.psc.steal = true ∧ (s.psc.credit ≤ threshold / 2 ∨ threshold = 0) then
    raise .stealOff .none { s with psc := { s.psc with steal := false } }
  else s

/-- A device entry after a completed sweep of its rank: a SOUND or SUSPECT device that is not touched loses Q, and the
touched flag is clear (R101). -/
def DeviceEntry.aged (q : Nat) (e : DeviceEntry) : DeviceEntry :=
  if e.state.isMark ∨ e.touched then { e with touched := false }
  else
    { e with
      tally := e.tally - q, state := if e.tally - q < 128 then .sound else .suspect, touched := false,
      capped := e.capped && decide (255 ≤ e.tally - q) }

/-- The pass of rank `r` ends. Where it began at index 0 it is a completed sweep: the rank's devices age, and
SWEEP_DONE is raised (R101, R148). -/
def passEnded (r : Nat) (s : State) : State :=
  if s.psc.wholeSweep then
    raise .sweepDone (.rank r)
      { s with dht := { s.dht with devices := Vector.ofFn fun n =>
        if n.val / 10 = r then ⟨s.dht.devices[n].value.aged s.dht.decayQ, .sound⟩ else s.dht.devices[n] } }
  else s

/-- The cursor stands at index 0 of rank `r`, a new pass before it (R143, R148). -/
def passBegun (r : Nat) (phase : CursorPhase) (s : State) : State :=
  { s with psc := { s.psc with
      cursor := some (lineAt r 0), cursorPhase := phase, wholeSweep := true, passVisited := false } }

/-- The ONLINE rank to which the cursor moves after a pass of rank `r`: the next in rising order, wrapping, `r` itself
last (R148). -/
def NextOnline (s : State) (r q : Nat) : Prop :=
  ([(r + 1) % 4, (r + 2) % 4, (r + 3) % 4, r].find? fun p => decide (rankState s p = .online)) = some q

/-- A line is skipped that has a holder or whose class is EXEMPT (R144). -/
def Skipped (s : State) (a : LineAddr) : Prop := holder a s ≠ .none ∨ (classify a s).cls = .exempt

/-- The test of the cursor line `a` and the run of skips behind it, under the tables of `s` (R144, R148): the first
line not skipped is the visit line, `b` being the line after `a`; a pass that ends by a skip after some visit goes on
with the next rank at once; one in which every line was skipped leaves the next rank's first line for the next tick.
The device entries of a rank whose pass ends can be read. The flag tells whether a line of the pass was visited, and
the function what the run does to a state. -/
inductive SkipRun (s : State) : LineAddr → Bool → (State → State) → Prop where
  | visit (a : LineAddr) (visited : Bool) : ¬Skipped s a →
      SkipRun s a visited fun u => { u with psc := { u.psc with
        cursor := some a, cursorPhase := .visitLine (classify a s) } }
  | skip (a b : LineAddr) (visited : Bool) (run : State → State) : Skipped s a →
      b.rank = a.rank → b.index.toNat = a.index.toNat + 1 → b.index.toNat < depth s →
      SkipRun s b visited run → SkipRun s a visited run
  | putOff (a : LineAddr) (q : Nat) : Skipped s a → a.index.toNat + 1 = depth s →
      RankSound (rankOf a) s → NextOnline s (rankOf a) q →
      SkipRun s a false fun u => passBegun q .deferred (passEnded (rankOf a) u)
  | goOn (a : LineAddr) (q : Nat) (run : State → State) : Skipped s a → a.index.toNat + 1 = depth s →
      RankSound (rankOf a) s → NextOnline s (rankOf a) q → SkipRun s (lineAt q 0) false run →
      SkipRun s a true fun u => run (passBegun q .untested (passEnded (rankOf a) u))

/-- The tables that a test of the cursor line reads are sound: the regions and the current profile (R50, R136). -/
structure PatrolTablesSound (s : State) : Prop where
  regions : RegionsSound s
  profile : (storedProfile s s.psc.phase).storage = .sound

/-- PSC has no line to test: the patrol is stopped, its cursor is parked, or its line stands as the visit line or
as one to be tested at a tick (R144, R145). -/
def NoLineToTest (s : State) : Prop :=
  s.psc.running = false ∨ s.psc.cursor = none ∨ s.psc.cursorPhase ≠ .untested

/-- What a Core Reset of either flavour leaves, from the state in which its end, or its abort, is taken: the reset
effects with all that they keep (R185), fills stopped and releases called back (R161, R184). -/
structure ResetEffects (s t : State) : Prop where
  queue : t.rpq.entries = []
  stopped : t.psc.running = false ∧ t.psc.cursorPhase = .untested ∧ t.psc.passVisited = false
  pace : t.psc.credit = 0 ∧ t.psc.steal = false ∧ t.psc.lagging = false ∧ t.psc.phase = 0
  countdown : (storedProfile s 0).storage ≠ .uncorrectable → t.psc.tickCountdown = (profileAt s 0).period
  cursor : t.psc.cursor =
    ((List.range 4).find? fun q => decide (rankState s q = .online)).map fun q => lineAt q 0
  sweep : t.psc.wholeSweep = t.psc.cursor.isSome
  injections : ∀ i < 2, getAt t.cod.injections i none = none
  loopOff : t.cod.loopLine = none
  history : t.drp.history = 7
  regions : t.rgt = s.rgt
  phases : t.psc.profiles = s.psc.profiles ∧ t.psc.lagLimit = s.psc.lagLimit
  health : t.dht.decayQ = s.dht.decayQ ∧ t.dht.probationK = s.dht.probationK
  spares : t.sls.threshold = s.sls.threshold ∧ t.sls.allocationFailed = s.sls.allocationFailed
  slots : ∀ i < 32, slotAt t i =
    match slotAt s i with
    | .releasing a d time _ => .active a d time
    | x => x
  records : (∀ x, recordAt t x = recordAt s x) ∧ t.fcu.next = s.fcu.next
  counters : t.mgu.counters = s.mgu.counters ∧ t.mgu.timeBase = s.mgu.timeBase ∧ t.mgu.mask = s.mgu.mask
  ranks : ∀ q < 4, (rankRec t q).fillPosition = (rankRec s q).fillPosition ∧
    rankState t q = if rankState s q = .filling then .offline else rankState s q
  link : t.link.state = s.link.state
  commands : t.pending = s.pending

/-- The read `g` is at DRAM in a part that is not HALTED, and the device entries of its rank can be read, so that
its end makes a verdict (R7, R8, R110). -/
structure Finishing (g : Granted) (s : State) : Prop where
  released : s.link.por = false
  port : s.drp.port = some g
  served : s.fcu.halted = none
  rank : RankSound (rankOf g.line) s

/-- The verdict record of the read `g` that returns the raw line `raw`, under its rank's mark (R7–R14). -/
def verdictOf (g : Granted) (source : ReadSource) (raw : RawLine) (s : State) : VerdictRecord :=
  decodeLine g.line source (markOf s (rankOf g.line)) g.cls g.overwritten raw

/-- The state in which an uncorrectable first read waits for its retry: FCU holds a new context with the raw line
of that read (R27, R32, R114, R115). -/
def retryOpened (g : Granted) (work : RetryWork) (raw : RawLine) (s : State) : State :=
  { s with
    fcu := { s.fcu with contexts := s.fcu.contexts ++
      [{ id := s.stamp, line := g.line, work := work,
         cls := g.cls.getD ⟨none, .standard, s.rgt.defaultLevel⟩, first := raw, ended := false }] }
    stamp := s.stamp + 1 }

/-- The state in which the retry read of the context `x` named `id` has left the port and the context is closed; its
request waits for the answer (R115, R117). -/
def retryClosed (id : Nat) (x : RetryContext) (s : State) : State :=
  { s with
    drp := { s.drp with port := none }
    fcu := { s.fcu with contexts := s.fcu.contexts.filter fun y => y.id != id }
    dem := { s.dem with
      requests := s.dem.requests.map fun q =>
        if x.work.isFor q.id ∧ q.phase = .retrying then { q with phase := .answering } else q } }

/-- A capture placed in the record that the next pointer names (R124). -/
def placedNext (c : Capture) (s : State) : State :=
  setRecord s.fcu.next
    ⟨.held { c with phase := s.psc.phase, time := s.mgu.timeBase }, .sound, .sound⟩
    { s with fcu := { s.fcu with next := if s.fcu.next = .a then .b else .a } }

/-- The record that the next pointer names is EMPTY, and no error strikes its next write (R124, R125). -/
def NextRecordReady (s : State) : Prop :=
  (recordAt s s.fcu.next).content = .empty ∧ (recordAt s s.fcu.next).strike = .sound

/-- No error strikes the next write of either record (R125). -/
def RecordsReady (s : State) : Prop := ∀ x, (recordAt s x).strike = .sound

/-- A capture asked for, and the event that names the record that took it, or none (R124). -/
def reported (event : EventKind) (level : Nat) (subject : Subject) (c : Capture) (s : State) : State :=
  raiseAt event level subject (placeCapture c s).1 (placeCapture c s).2

/-- An item of a table was found beyond correction: TABLE_FAULT, and a capture that names the item (R51, R136). -/
def itemLost (table : TableId) (index : Nat) (s : State) : State :=
  reported .tableFault 5 (.table table index)
    { kind := .tableFault, line := none, region := none, phase := 0, time := 0, retry := none,
      outcomes := Vector.replicate 4 .notRead, mark := none, held := none, table := some (table, index) } s

/-- The data of a slot of line `a` was found beyond correction: SPARE_FAILED, and a SLOT-FAILED capture (R87). -/
def slotLost (a : LineAddr) (region : Option Nat) (held : Option (ByteMask × Line)) (s : State) : State :=
  reported .spareFailed 6 (.line a)
    { kind := .slotFailed, line := some a, region := region, phase := 0, time := 0, retry := none,
      outcomes := Vector.replicate 4 .notRead, mark := (markOf s (rankOf a)).map Fin.val, held := held,
      table := none } s

/-- A line retired into slot `i` with some data, where no work but its repair entry concerns it: the slot is ACTIVE
from this moment, SPARE_RETIRED is raised, and the entry is gone, or goes with its write in flight
(R64, R78). -/
def retiredInto (i : Nat) (a : LineAddr) (data : Line) (s : State) : State :=
  raise .spareRetired (.line a)
    { s with
      sls := { s.sls with slots := setAt s.sls.slots i (.active a ⟨data, .sound, zeroLine⟩ s.mgu.timeBase) }
      rpq := { s.rpq with entries := match entryOf a s with
        | none => s.rpq.entries
        | some e =>
          if e.state = .writing then
            s.rpq.entries.map fun x => if x.id = e.id then { x with retired := true } else x
          else s.rpq.entries.filter fun x => x.id != e.id } }

/-- No work that follows the holder of line `a` is in hand: no request waits on it, no retry and no Spare Retire is
in progress, and the cursor is elsewhere (R24, R78, R116, T67). -/
structure Unattended (a : LineAddr) (s : State) : Prop where
  follower : followerOf a s = none
  contexts : s.fcu.contexts = []
  retires : s.sls.retires = []
  cursor : s.psc.cursor ≠ some a

/-- What the injection entry `i` XORs into symbol (j, d) of a write of line `a` (R16). -/
def injectedAt (s : State) (a : LineAddr) (i : Nat) (j : Fin 4) (d : Fin 10) : Sym :=
  match getAt s.cod.injections i none with
  | some e => if e.line = a ∧ d.val = e.device ∧ e.codewords.getLsbD j.val then e.pattern else 0
  | none => 0

/-- The injection entry `i` after a write of line `a` (R16). -/
def injectionSpent (s : State) (a : LineAddr) (i : Nat) : Option Injection :=
  match getAt s.cod.injections i none with
  | some e =>
    if e.line = a then if e.count ≤ 1 then none else some { e with count := e.count - 1 } else some e
  | none => none

/-- `t` has the encoding of `data` as its loop line, injection entries for line `a` applied and counted down
(R16, R18). -/
def LoopLineWritten (a : LineAddr) (data : Line) (s t : State) : Prop :=
  (∃ raw : RawLine, t.cod.loopLine = some raw ∧ ∀ (j : Fin 4) (d : Fin 10),
    raw[j][d] = (encode data)[j][d] ^^^ injectedAt s a 0 j d ^^^ injectedAt s a 1 j d) ∧
  ∀ i < 2, getAt t.cod.injections i none = injectionSpent s a i

/-- The slot that a watch allocation takes: the lowest-numbered FREE slot, or, with none FREE, the WATCH slot with the
smallest last-hit time, the lowest-numbered on a tie (R77). -/
def FreeOrOldest (i : Nat) (s : State) : Prop :=
  i < 32 ∧
    ((slotAt s i = .free ∧ ∀ j < i, slotAt s j ≠ .free) ∨
      ∃ b n t, slotAt s i = .watch b n t ∧ (∀ j < 32, slotAt s j ≠ .free) ∧
        ∀ j < 32, ∀ c m u, slotAt s j = .watch c m u → t < u ∨ t = u ∧ i ≤ j)

/-- The slot that a retirement of line `a` takes: the line's own WATCH slot, else as for a watch (R79). -/
def ChosenSlot (a : LineAddr) (i : Nat) (s : State) : Prop :=
  (i < 32 ∧ SlotsFit s ∧ ∃ n t, slotAt s i = .watch a n t) ∨
    ((∀ j < 32, (slotAt s j).line? ≠ some a) ∧ FreeOrOldest i s)

/-- The completion frame of a demand request that ends without data (R36, T24). -/
def completionFrame (r : Request) (status : Status) : UpFrame :=
  match r.body with
  | .read _ => .readDone r.tag status zeroLine
  | _ => .writeDone r.tag status

/-! ## A demand request that starts, by the holder of its line

What comes of it is said once for a request that starts on arrival and for one that DEMAND_START starts: `stands p u` is
`u` with the request STARTED in phase `p`, `ends f u` is `u` with it started and completed by the frame `f`, and `o` is
the outcome. -/

/-- A READ of line `a` by the holder of the line (R24, R25, R26, R86, R87). -/
def ReadHandled (tag : Byte) (a : LineAddr) (stands : Phase → State → State) (ends : UpFrame → State → State)
    (o : Host.Outcome State Fault Refusal) (s : State) : Prop :=
  let poisoned := ends (.readDone tag .poisoned zeroLine)
    (countPoisonedRead (rankOf a) (raise .poisonRead (.line a) s))
  (holder a s = .none → o = .next (stands .waitRead s)) ∧
  (∀ e, holder a s = .entry e → e.kind = .repair → o = .next (ends (.readDone tag .clean e.data) s)) ∧
  (∀ e, holder a s = .entry e → e.kind = .poison → s.dem.completions = [] → o = .next poisoned) ∧
  (∀ i b d t, holder a s = .slot i → d.storage = .sound →
    slotAt s i = .active b d t ∨ (∃ w, slotAt s i = .releasing b d t w) →
    o = .next (ends (.readDone tag .clean d.data) s)) ∧
  (∀ i b d t, holder a s = .slot i → slotAt s i = .failed b d t → s.dem.completions = [] → o = .next poisoned) ∧
  (∀ i b d t, holder a s = .slot i → d.storage = .singleBit → s.dem.completions = [] →
    slotAt s i = .active b d t ∨ (∃ w, slotAt s i = .releasing b d t w) →
    o = .next (ends (.readDone tag .clean d.data)
      (raise .internalCorrected (.table .spare i)
        (setSlot i ((slotAt s i).withData ⟨d.data, .sound, zeroLine⟩) s)))) ∧
  ∀ i b d t, holder a s = .slot i → d.storage = .uncorrectable → s.dem.completions = [] → RecordsReady s →
    let lost := slotLost a (classify a s).region none
    let failed := lost (setSlot i (.failed b d t) s)
    let answers := fun u : State => o = .next
      (ends (.readDone tag .poisoned zeroLine) (countPoisonedRead (rankOf a) (raise .poisonRead (.line a) u)))
    (slotAt s i = .active b d t ∨ slotAt s i = .releasing b d t none → answers failed) ∧
    (∀ w, slotAt s i = .releasing b d t (some w) →
      (atPort (.releaseWrite i w.age) s = true → answers (lost s)) ∧
      (∀ q, atPort (.releaseWrite i w.age) s = false → findRequest w.request s = some q →
        Answerable q s → q.hold = none → answers (answered q .wrongState [] failed)))

/-- A full write of line `a` by the holder of the line (R28, R29, R30, R86). -/
def FullWriteHandled (tag : Byte) (a : LineAddr) (data : Line) (stands : Phase → State → State)
    (ends : UpFrame → State → State) (o : Host.Outcome State Fault Refusal) (s : State) : Prop :=
  (holder a s = .none → o = .next (stands (.waitWrite data .done) s)) ∧
  (∀ e, holder a s = .entry e → e.state = .writing → o = .next (stands (.heldWrite data .done) s)) ∧
  (∀ e, holder a s = .entry e → e.state ≠ .writing →
    o = .next (stands (.waitWrite data .done) (removeEntry e.id s))) ∧
  (∀ i b d t w, holder a s = .slot i → slotAt s i = .releasing b d t w →
    o = .next (stands (.heldWrite data .done) s)) ∧
  ∀ i b d t, holder a s = .slot i → slotAt s i = .active b d t ∨ slotAt s i = .failed b d t →
    o = .next (ends (.writeDone tag .done) (setSlot i (.active b ⟨data, .sound, zeroLine⟩ t) s))

/-- A masked write of line `a` whose mask is not full, by the holder of the line (R30, R31, R33, R34, R86, R87, R123,
R124). -/
def MaskedWriteHandled (tag : Byte) (a : LineAddr) (mask : ByteMask) (data : Line)
    (stands : Phase → State → State) (ends : UpFrame → State → State)
    (o : Host.Outcome State Fault Refusal) (s : State) : Prop :=
  let merged := fun current : Line =>
    (Vector.ofFn fun i => if mask.getLsbD i.val then data[i] else current[i] : Line)
  let done := UpFrame.writeDone tag .done
  let refused := UpFrame.writeDone tag .uncorrectable
  (mask = 0 → o = .next (ends done s)) ∧
  (mask ≠ 0 →
    (holder a s = .none → o = .next (stands .waitRead s)) ∧
    (∀ e, holder a s = .entry e → e.kind = .repair → e.state = .writing →
      o = .next (stands (.heldWrite (merged e.data) .done) s)) ∧
    (∀ e, holder a s = .entry e → e.kind = .repair → e.state ≠ .writing →
      o = .next (stands (.waitWrite (merged e.data) .done) (removeEntry e.id s))) ∧
    (∀ i b d t w, holder a s = .slot i → slotAt s i = .releasing b d t w → o = .next (stands .heldRmw s)) ∧
    (∀ i b d t, holder a s = .slot i → slotAt s i = .active b d t → d.storage = .sound →
      o = .next (ends done (setSlot i (.active b ⟨merged d.data, .sound, zeroLine⟩ t) s))) ∧
    (∀ i b d t, holder a s = .slot i → slotAt s i = .active b d t → s.dem.completions = [] →
      (d.storage = .singleBit → o = .next (ends done
        (setSlot i (.active b ⟨merged d.data, .sound, zeroLine⟩ t)
          (raise .internalCorrected (.table .spare i) s)))) ∧
      (d.storage = .uncorrectable → RecordsReady s → o = .next (ends refused
        (slotLost a (classify a s).region (some (mask, data)) (setSlot i (.failed b d t) s))))) ∧
    ((∃ i b d t, holder a s = .slot i ∧ slotAt s i = .failed b d t) ∨
        (∃ e, holder a s = .entry e ∧ e.kind = .poison) →
      (NextRecordReady s → o = .next (ends refused (placedNext
        { kind := .rmwUe, line := some a, region := (classify a s).region, phase := 0, time := 0,
          retry := none, outcomes := Vector.replicate 4 .notRead,
          mark := (markOf s (rankOf a)).map Fin.val, held := some (mask, data), table := none } s))) ∧
      ((∀ x, (recordAt s x).content ≠ .empty) → s.dem.completions = [] →
        o = .next (ends refused (raise .captureLost (.line a) (s.withCounters fun k =>
          { k with
            lostCaptures := if k.lostCaptures < 255 then k.lostCaptures + 1 else k.lostCaptures }))))))

/-- A demand request in codec-loop mode, whose address `a` exists, by the loop line `raw` under the mark of the
addressed rank (R18, T15). -/
def LoopHandled (tag : Byte) (body : RequestBody) (a : LineAddr) (raw : RawLine)
    (ends : UpFrame → State → State) (o : Host.Outcome State Fault Refusal) (s : State) : Prop :=
  let v := decodeLine a .demand (markOf s (rankOf a)) none false raw
  let wrote := fun status => UpFrame.writeDone tag status
  (body = .read a → o = .next (ends
    (match v.verdict with
      | .clean => .readDone tag .clean v.corrected
      | .corrected => .readDone tag .corrected v.corrected
      | .uncorrectable => .readDone tag .uncorrectable v.rawData
      | .poisoned => .readDone tag .poisoned zeroLine) s)) ∧
  (∀ data, body = .write a data ∨ body = .maskedWrite a (BitVec.allOnes 64) data →
    ∃ cod, o = .next (ends (wrote .done) { s with cod := cod }) ∧
      LoopLineWritten a data s { s with cod := cod }) ∧
  ∀ mask data, body = .maskedWrite a mask data → mask ≠ BitVec.allOnes 64 →
    (mask = 0 → o = .next (ends (wrote .done) s)) ∧
    (mask ≠ 0 →
      (v.verdict = .uncorrectable ∨ v.verdict = .poisoned → o = .next (ends (wrote .uncorrectable) s)) ∧
      (∀ status, (v.verdict = .clean ∧ status = .done) ∨ (v.verdict = .corrected ∧ status = .corrected) →
        ∃ cod, o = .next (ends (wrote status) { s with cod := cod }) ∧
          LoopLineWritten a
            (Vector.ofFn fun i => if mask.getLsbD i.val then data[i] else v.corrected[i]) s
            { s with cod := cod }))

/-! ## Errors in the storage of a table's item -/

/-- The storage of region entry `i` holds an error, or is sound (R50, R51). -/
def regionErr (i : Nat) (x : Storage) (s : State) : State :=
  { s with rgt := { s.rgt with entries := setAt s.rgt.entries i ⟨(regionAt s i).value, x⟩ } }

/-- Region entry `i` in its empty form, written afresh (R51). -/
def regionEmptied (i : Nat) (s : State) : State :=
  { s with rgt := { s.rgt with
      entries := setAt s.rgt.entries i ⟨⟨false, ⟨0, 0⟩, 0, 0, .standard, 6⟩, .sound⟩ } }

/-- The storage of profile `n` holds an error, or is sound (R136). -/
def profileErr (n : Nat) (x : Storage) (s : State) : State :=
  { s with psc := { s.psc with profiles := setAt s.psc.profiles n ⟨profileAt s n, x⟩ } }

/-- Profile `n` at the defaults of T66, written afresh (R136). -/
def profileDefaulted (n : Nat) (s : State) : State :=
  { s with psc := { s.psc with profiles := setAt s.psc.profiles n ⟨⟨320, true, 262144, 20⟩, .sound⟩ } }

/-- The storage of device entry `n` holds an error, or is sound (R110, R111). -/
def deviceErr (n : Nat) (x : Storage) (s : State) : State :=
  { s with dht := { s.dht with devices := setAt s.dht.devices n ⟨deviceEntry s n, x⟩ } }

end Sys2Proof.Machine
end

