-- ==== Sys2Proof/WellFormed.lean ====
section
/-! DEFINITION. Which commands the outside world can send: the relations between a row and its operands that
the types do not say. -/

namespace Sys2Proof

/-- A frame that arrives whole is of its row's kind (T93). One that LNK judges bad may carry any bytes
(R193). -/
def frameFits (kind : Byte) (frame : List Byte) : Bool :=
  !Machine.goodFrame frame || frame.head? == some kind

/-- The host's pattern stands on the lanes in use, 4 or 8 of them (T89, R189). -/
def lanesFit (lanes : List Nat) : Bool := lanes.length == 4 || lanes.length == 8

/-- Ranks are numbered 0 to 3 (00, 3.1): a repair entry names no other (R55). -/
def rankFits (a : LineAddr) : Bool := a.rank.toNat < 4

/-- An error that the check corrects changes no data that a read shows (R86). -/
def errorFits (item : StoredItem) (severity : Severity) : Bool :=
  match item, severity with
  | .slot _ flips, .singleBit => flips == zeroLine
  | _, _ => true

/-- The command is one that the outside world can send. -/
def Instr.wellFormed : Instr → Bool
  | .porAsserted _ => true
  | .porReleased => true
  | .signalDetected => true
  | .lossOfSignal => true
  | .laneLock _ lanes => lanesFit lanes
  | .deskewAndCentring => true
  | .readyExchange => true
  | .elasticSlip _ => true
  | .read frame => frameFits 0x10 frame
  | .write frame => frameFits 0x11 frame
  | .maskedWrite frame => frameFits 0x12 frame
  | .manage frame => frameFits 0x13 frame
  | .echoedFrame _ => true
  | .upstreamFrameSent => true
  | .completionHandover => true
  | .demandStart _ => true
  | .arbiterGrant => true
  | .dramReadFinish _ => true
  | .dramWriteFinish => true
  | .refreshDue _ => true
  | .refreshFinish => true
  | .tick => true
  | .lazyWaitExpiry line => rankFits line
  | .timeBaseAdvance => true
  | .drainEnd => true
  | .regionLoad => true
  | .regionRead => true
  | .regionDefault => true
  | .phaseLoad => true
  | .phaseRead => true
  | .phaseSet => true
  | .deviceRead => true
  | .deviceMark => true
  | .deviceUnmark => true
  | .healthParams => true
  | .spareRead => true
  | .spareRetire => true
  | .spareRelease => true
  | .spareParams => true
  | .patrolStart => true
  | .patrolStop => true
  | .cursorRead => true
  | .cursorSet => true
  | .pacingSet => true
  | .pacingReset => true
  | .rankFill => true
  | .rankOnline => true
  | .rankOffline => true
  | .rankStatus => true
  | .captureRead => true
  | .captureRelease => true
  | .injectSet => true
  | .injectClear => true
  | .loopSet => true
  | .alertMaskSet => true
  | .counterRead => true
  | .counterClear => true
  | .timeSet => true
  | .timeRead => true
  | .statusRead => true
  | .identityRead => true
  | .coreResetDrain => true
  | .coreResetAbort => true
  | .echoSet => true
  | .unknownRequest => true
  | .storageError item severity => errorFits item severity

end Sys2Proof
end

