-- ==== Sys2Proof/Certificates/Slice0/Obligations.lean ====
section
/-! DEFINITION. The statements about the part. -/

open Sys2Proof Sys2Proof.Machine

/-! ## The queue of commands -/

/-- A step runs the command at the front of the queue, with the queue's rest. That a row is one step is log 1.
-/
def Obligations.StepRunsTheFrontCommand : Prop :=
  ∀ (c : Instr) (s : State), step { s with pending := c :: s.pending } = exec c s

/-- Every command, in every state, answers a next state whose queue is the queue it found. That a command
whose condition fails changes nothing, and stops nothing, is log 1. -/
def Obligations.CommandsKeepTheQueue : Prop :=
  ∀ (c : Instr) (s : State), ∃ t, exec c s = .next t ∧ t.pending = s.pending

/-- With no command waiting one microsecond passes (the model's choice, logs 2 and 46): LNK's timer rises and the
countdowns fall, those of lazy waits only while the part is not HALTED; nothing else changes, and nothing at all
while POR is asserted. -/
def Obligations.IdleStepElapsesOneMicrosecond : Prop :=
  ∀ s : State, s.pending = [] →
    (s.link.por = true → step s = .next s) ∧
    (s.link.por = false → ∃ t, step s = .next t ∧
      t.link = { s.link with timer := s.link.timer + 1 } ∧
      t.psc.tickCountdown = s.psc.tickCountdown - 1 ∧
      (∀ r < 4, (rankRec t r).refresh = (rankRec s r).refresh.map (· - 10) ∧
        rankState t r = rankState s r ∧ (rankRec t r).selfRefresh = (rankRec s r).selfRefresh ∧
        (rankRec t r).fillPosition = (rankRec s r).fillPosition) ∧
      (s.fcu.halted.isSome → t.rpq = s.rpq) ∧
      (s.fcu.halted = none → t.rpq.entries = s.rpq.entries.map fun e =>
        match e.state with
        | .waiting n => { e with state := .waiting (n - 1) }
        | _ => e) ∧
      t = { s with link := t.link, psc := { s.psc with tickCountdown := t.psc.tickCountdown },
                   rpq := t.rpq, drp := { s.drp with ranks := t.drp.ranks } })

/-- The strap levels change at the assertion of POR and at no other command (R187). -/
def Obligations.StrapsHeldUntilPor : Prop :=
  ∀ (c : Instr) (s t : State), exec c s = .next t →
    t.link.straps = match c with | .porAsserted pins => pins | _ => s.link.straps

/-! ## The POR pin and the link -/

/-- POR_ASSERTED takes every block to its power-on value, samples the straps and keeps the queue; POR_RELEASED changes
the pin alone (R187). That at power-on nothing is in progress (no Spare Retire, no retry, no last fill, no line
tested or visited) and all storage is sound is log 33, that LNK's timer starts at 0 is log 46, and that the
elastic buffer's fill starts at its centre is log 32. -/
def Obligations.PorAssertedAndReleased : Prop :=
  (∀ (pins : StrapPins) (s : State), ∃ t, exec (.porAsserted pins) s = .next t ∧
    t.link = { por := true, straps := pins, state := .down, fill := 0, timer := 0, slips := [],
               upstream := [], transmitting := none } ∧
    t.dem = { requests := [], holdSet := [], completions := [] } ∧
    (∀ i < 16, regionAt t i = ⟨⟨false, ⟨0, 0⟩, 0, 0, .standard, 6⟩, .sound⟩) ∧ t.rgt.defaultLevel = 6 ∧
    t.cod = { injections := Vector.replicate 2 none, loopLine := none } ∧
    (∀ n < 40, deviceAt t n = ⟨⟨0, .sound, false, false, 0⟩, .sound⟩) ∧
    t.dht.decayQ = 32 ∧ t.dht.probationK = 1024 ∧ t.rpq.entries = [] ∧
    (∀ i < 32, slotAt t i = .free) ∧ t.sls.threshold = 3 ∧ t.sls.allocationFailed = false ∧
    t.sls.retires = [] ∧ (∀ x, recordAt t x = ⟨.empty, .sound, .sound⟩) ∧ t.fcu.next = .a ∧ t.fcu.halted = none ∧
    t.fcu.contexts = [] ∧
    (∀ n < 8, storedProfile t n = ⟨⟨320, true, 262144, 20⟩, .sound⟩) ∧ t.psc.phase = 0 ∧
    t.psc.tickCountdown = 320 ∧ t.psc.running = false ∧ t.psc.cursor = none ∧
    t.psc.cursorPhase = .untested ∧ t.psc.passVisited = false ∧
    t.psc.wholeSweep = false ∧ t.psc.credit = 0 ∧ t.psc.lagLimit = 1048576 ∧
    t.psc.steal = false ∧ t.psc.lagging = false ∧
    (∀ r < 4, rankRec t r =
      if r < pins.presentRanks then ⟨.offline, true, 0, none⟩ else ⟨.absent, false, 0, none⟩) ∧
    t.drp.history = 7 ∧ t.drp.lastFill = none ∧ t.drp.port = none ∧ t.drp.refreshDue = [] ∧
    t.mgu = { mask := 3, counters := zeroCounters, timeBase := 0, coreReset := none } ∧
    t.pending = s.pending) ∧
  (∀ s : State, exec .porReleased s = .next { s with link := { s.link with por := false } })

/-- While POR is asserted no command but those of the pin changes anything (R187). -/
def Obligations.PorHoldsThePart : Prop :=
  ∀ (c : Instr) (s : State), s.link.por = true → (∀ pins, c ≠ .porAsserted pins) →
    c ≠ .porReleased → exec c s = .next s

/-- The training exchange step by step: a signal takes DOWN to lane lock; a pattern that names the strap's width and,
on every lane in use, that lane's own number completes step 1, whatever the lanes not in use carry, and any other
repeats it; step 2 ends with the elastic buffer at its centre, and the exchange of ready marks then makes the link
ACTIVE with an empty slip history. Each in any other link state changes nothing (R187–R190). -/
def Obligations.TrainingExchange : Prop :=
  ∀ s : State, s.link.por = false →
    (exec .signalDetected s = .next (if s.link.state = .down then
      { s with link := { s.link with state := .training .laneLock } } else s)) ∧
    (∀ width lanes, exec (.laneLock width lanes) s = .next
      (if s.link.state = .training .laneLock ∧ width = s.link.straps.laneCount ∧
          lanes.take s.link.straps.laneCount = List.range s.link.straps.laneCount then
        { s with link := { s.link with state := .training .deskew } } else s)) ∧
    (exec .deskewAndCentring s = .next (if s.link.state = .training .deskew then
      { s with link := { s.link with state := .training .readyExchange, fill := 0 } } else s)) ∧
    (exec .readyExchange s = .next (if s.link.state = .training .readyExchange then
      { s with link := { s.link with state := .active, slips := [] } } else s))

/-- A loss of signal takes the link to DOWN. From ACTIVE the slip history and the upstream queue are emptied, the
frame on the lanes is abandoned, QUEUED requests are discarded and the others become orphans; from ECHO and from
training the upstream queue is emptied; DOWN stays as it is (R40, R190, R196, R197). Two things are the model's
choice: that a request never started, whose completion by a drain or an abort is pending, becomes an orphan too is
log 48, and what a loss in ECHO or in training abandons is log 36. -/
def Obligations.LossOfSignal : Prop :=
  ∀ s : State, s.link.por = false →
    exec .lossOfSignal s = .next
      (match s.link.state with
       | .down => s
       | .active =>
         { s with
           link := { s.link with state := .down, slips := [], upstream := [], transmitting := none }
           dem := { s.dem with
             requests := (s.dem.requests.filter fun r =>
               decide (r.phase ≠ .queued ∨ r.orphan = true)).map fun r =>
                 { r with orphan := true } } }
       | _ => { s with link := { s.link with state := .down, upstream := [], transmitting := none } })

/-- The receive elastic buffer drifts by some symbols. A drift that leaves its fill within 12 symbols of its centre is
absorbed; one beyond is a slip, and the buffer is re-centred. A slip in ACTIVE, `elapsed` microseconds after LNK's
timer last moved: where two earlier slips lie within the last 1,000 µs on that timer the link leaves ACTIVE for
training and no event is raised; otherwise the slip is recorded with the timer's time, the latest two being kept,
and ELASTIC_SLIP is raised. In the ready exchange it returns training to deskew; in ECHO and in deskew it does no
more; in DOWN there is none (R40, R189, R191, R192, R196). In leaving ACTIVE, QUEUED requests are discarded and
the others become orphans; that one never started, whose completion by a drain or an abort is pending, becomes an
orphan too is the model's choice (log 48). That in the first step of training nothing changes is log 35; that the
command brings the drift, and that a slip in training too leaves the fill at the centre, is log 32; that it says
how far the timer has run is log 46. -/
def Obligations.ElasticSlip : Prop :=
  ∀ (drift : Drift) (s : State), s.link.por = false →
    let fill := s.link.fill + drift.symbols
    let out := 12 < fill.natAbs
    let moved := { s with link := { s.link with fill := if out then 0 else fill } }
    exec (.elasticSlip drift) s = .next
      (match s.link.state with
       | .active =>
         let now := s.link.timer + drift.elapsed
         let timed := { moved with link := { moved.link with timer := now } }
         if ¬out then timed
         else if s.link.slips.length = 2 ∧ ∀ p ∈ s.link.slips, now ≤ p + 1000 then
           { timed with
             link := { timed.link with
               state := .training .laneLock, slips := [], upstream := [], transmitting := none }
             dem := { s.dem with
               requests := (s.dem.requests.filter fun r =>
                 decide (r.phase ≠ .queued ∨ r.orphan = true)).map fun r =>
                   { r with orphan := true } } }
         else raise .elasticSlip .none
           { timed with link := { timed.link with slips := (now :: s.link.slips).take 2 } }
       | .echo => moved
       | .training .deskew => moved
       | .training .readyExchange =>
         if out then { moved with link := { moved.link with state := .training .deskew } } else moved
       | _ => s)

/-! ## Frames from the host, and admission -/

/-- Every request that a host can form as a frame is good, and LNK reads its tag, its kind and its fields back as they
were. The part's own frames hold the fields of T94 at their places, with the codes of T92, and end with the frame
check of the bytes before it, computed bit by bit from 0xFFFF with the polynomial 0x1021; an echoed frame goes up as
it came. Byte i of a frame travels on lane i modulo the width, as the byte i / width of that lane; lanes not in use
carry nothing; and LNK gathers the frame again from the lanes in use (R187, R193, R194, R197, R198). That the payload
bytes of a MANAGE-DONE beyond its length byte are 0 is log 54. -/
def Obligations.HostFramesAreReadBack : Prop :=
  (∀ (tag : Byte) (body : RequestBody),
    (∀ kind args, body = .manage kind args → kind < 256 ∧ args.length ≤ 64) →
    goodFrame (hostFrame tag body) = true ∧ frameTag (hostFrame tag body) = tag ∧
      frameBody (hostFrame tag body) = body) ∧
  (∀ bytes : List Byte, frameCheck bytes =
    (bytes.flatMap fun b => [7, 6, 5, 4, 3, 2, 1, 0].map fun i => b.getLsbD i).foldl
      (fun (c : Sym) bit => if c.msb = bit then c <<< 1 else (c <<< 1) ^^^ 0x1021#16) 0xFFFF#16) ∧
  (∀ f : UpFrame, (∀ bytes, f ≠ .echoed bytes) → 2 ≤ f.bytes.length ∧
    argument f.bytes (f.bytes.length - 2) 2 = (frameCheck (f.bytes.take (f.bytes.length - 2))).toNat) ∧
  (∀ (tag : Byte) (status : Status) (data : Line),
    let b := (UpFrame.readDone tag status data).bytes
    b.length = 69 ∧ field b 0 3 = [0x20, tag, status.code] ∧ ∀ i : Fin 64, byteAt b (3 + i.val) = data[i]) ∧
  (∀ (tag : Byte) (status : Status),
    let b := (UpFrame.writeDone tag status).bytes
    b.length = 5 ∧ field b 0 3 = [0x21, tag, status.code]) ∧
  (∀ (tag : Byte) (result : Result) (payload : List Byte), payload.length ≤ 64 →
    let b := (UpFrame.manageDone tag result payload).bytes
    b.length = 70 ∧ field b 0 4 = [0x22, tag, result.code, BitVec.ofNat 8 payload.length] ∧
      ∀ i < 64, byteAt b (4 + i) = payload.getD i 0) ∧
  (∀ (event : EventKind) (level : Nat) (subject : Subject) (record : Option RecordName) (time : TimeBase),
    let b := (UpFrame.alert event level subject record time).bytes
    b.length = 18 ∧ field b 0 3 = [0x23, event.code, BitVec.ofNat 8 level] ∧
      (match subject with
        | .none => field b 3 6 = [0, 0, 0, 0, 0, 0]
        | .rank r => field b 3 6 = [1, BitVec.ofNat 8 r, 0, 0, 0, 0]
        | .device r d => field b 3 6 = [2, BitVec.ofNat 8 r, BitVec.ofNat 8 d, 0, 0, 0]
        | .line a => byteAt b 3 = 3 ∧ addressOf (field b 4 4) = a ∧ byteAt b 8 = 0
        | .table x i => field b 3 6 = [4, x.code, BitVec.ofNat 8 i, 0, 0, 0]) ∧
      byteAt b 9 = (match record with | some .a => 0 | some .b => 1 | none => 0xFF) ∧
      argument b 10 6 = time.toNat) ∧
  (∀ bytes, (UpFrame.echoed bytes).bytes = bytes) ∧
  ([Status.clean, .done, .corrected, .correctedRetry, .poisoned, .uncorrectable, .notReady, .range, .aborted,
      .halted].map Status.code = [0, 1, 2, 3, 4, 5, 6, 7, 8, 9] ∧
    [Result.done, .busy, .wrongState, .range, .halted, .unknown].map Result.code = [0, 1, 2, 3, 4, 5] ∧
    [TableId.region, .phase, .health, .spare, .capture].map TableId.code = [1, 2, 3, 4, 5] ∧
    [EventKind.lineCorrected, .scattered, .poisonRead, .rqOverrun, .tagClash, .internalCorrected, .tableFault,
        .repairDeferred, .repairStuck, .spareRetired, .spareFull, .spareFailed, .deviceSuspect, .deviceMarked,
        .deviceSecond, .probationPass, .probationFail, .lineUe, .captureLost, .halted, .sweepDone, .patrolLag,
        .stealOn, .stealOff, .fillDone, .fillStopped, .linkCrc, .elasticSlip].map EventKind.code =
      [1, 2, 3, 4, 5, 6, 7, 8, 9, 10, 11, 12, 13, 14, 15, 16, 17, 18, 19, 20, 21, 22, 23, 24, 25, 26, 27, 28]) ∧
  ∀ (width : Nat) (frame : List Byte), width = 4 ∨ width = 8 →
    let lanes := onLanes width frame
    lanes.length = 8 ∧
      (∀ i < frame.length, (lanes.getD (i % width) []).getD (i / width) 0 = frame.getD i 0) ∧
      (∀ k, width ≤ k → lanes.getD k [] = []) ∧ fromLanes width lanes = frame

/-- With the link DOWN or in training a frame changes nothing. In ACTIVE a frame that is not good raises
LINK_CRC; a good one that meets 32 requests raises RQ_OVERRUN and moves its counter, whatever its tag; one
whose tag is in use raises TAG_CLASH. None of them is taken (R20, R21, R188, R193). -/
def Obligations.FramesTurnedAway : Prop :=
  ∀ (frame : List Byte) (s : State), s.link.por = false →
    ∀ c ∈ [Instr.read frame, .write frame, .maskedWrite frame, .manage frame, .echoedFrame frame],
      (s.link.state = .down ∨ (∃ x, s.link.state = .training x) → exec c s = .next s) ∧
      (s.link.state = .active → goodFrame frame = false → exec c s = .next (raise .linkCrc .none s)) ∧
      (s.link.state = .active → goodFrame frame = true → 32 ≤ (bufferedRequests s).length →
        exec c s = .next (raise .rqOverrun .none
          (s.withCounters fun k =>
          { k with overruns := if k.overruns < 2 ^ 32 - 1 then k.overruns + 1 else k.overruns }))) ∧
      (s.link.state = .active → goodFrame frame = true → (bufferedRequests s).length < 32 →
        (∃ r ∈ bufferedRequests s, r.tag = frameTag frame) →
          exec c s = .next (raise .tagClash .none s))

/-- A let-in MANAGE frame, during a Core Reset too, and a let-in demand frame whose line is held or waited for, joins
the buffer as its youngest request, QUEUED; nothing else changes. In codec-loop mode every demand request waits for
the one loop line (R18, R19, R22, R37, R38). `stamp` is the model's own count (log 38). That a newcomer waits behind
an older request of a free line is log 9. -/
def Obligations.FramesThatQueue : Prop :=
  ∀ (frame : List Byte) (s : State), LetIn frame s →
    let queued := { s with
      dem := { s.dem with requests := s.dem.requests ++
        [{ id := s.stamp, tag := frameTag frame, body := frameBody frame, phase := .queued,
           age := s.stamp, cls := none, hold := none, orphan := false }] }
      stamp := s.stamp + 1 }
    (∀ kind args, frameBody frame = .manage kind args → exec (.manage frame) s = .next queued ∧
      ∀ reset : CoreReset,
        exec (.manage frame) { s with mgu := { s.mgu with coreReset := some reset } } =
          .next { queued with mgu := { s.mgu with coreReset := some reset } }) ∧
    (∀ a, (frameBody frame).line? = some a → s.cod.loopLine = none →
      HoldKey.line a ∈ s.dem.holdSet ∨ queuedBefore (.line a) s = true →
      ∀ c ∈ [Instr.read frame, .write frame, .maskedWrite frame], exec c s = .next queued) ∧
    (∀ a, (frameBody frame).line? = some a → s.cod.loopLine.isSome →
      HoldKey.loopLine ∈ s.dem.holdSet ∨ queuedBefore .loopLine s = true →
      ∀ c ∈ [Instr.read frame, .write frame, .maskedWrite frame], exec c s = .next queued)

/-! ## Demand requests by the holder of their line -/

/-- A READ that starts on arrival takes its data from the line's holder: from an ACTIVE or RELEASING slot or a
REPAIR entry it completes CLEAN at once, from a FAILED slot or a POISON entry POISONED with its event and its
counter, and with no holder it waits for a DRAM read. A single-bit error of the slot's data is corrected and written
back, with INTERNAL_CORRECTED. Data beyond correction is lost, with SPARE_FAILED and its capture: the READ completes
POISONED, an ACTIVE slot is FAILED, and so is a RELEASING one whose release write is not granted, its Spare Release
answered WRONG_STATE; where that write is granted the slot stays RELEASING (R24, R25, R26, R86, R87). That events go
up before the READ-DONE is log 12, and that the last case counts as a poisoned READ is log 44. -/
def Obligations.ReadByHolder : Prop :=
  ∀ (frame : List Byte) (a : LineAddr) (s : State), LetIn frame s → Startable a s →
    frameBody frame = .read a →
    let cls := some (classify a s)
    ReadHandled (frameTag frame) a (withStarted frame a cls) (completedAtOnce frame a cls)
      (exec (.read frame) s) s

/-- A full write that starts on arrival, be it a WRITE or a MASKED_WRITE with all 64 flags set, goes by the line's
holder: a slot in ACTIVE or FAILED takes the data, its storage written afresh whatever its condition was, and is
ACTIVE, and the write completes DONE; behind a RELEASING slot or a WRITING entry it is held; any other entry is
removed and, as with no holder, the write waits for DRAM (R28, R29, R30, R86). -/
def Obligations.FullWriteByHolder : Prop :=
  ∀ (frame : List Byte) (a : LineAddr) (data : Line) (s : State), LetIn frame s → Startable a s →
    ∀ c, (c = .write frame ∧ frameBody frame = .write a data) ∨
      (c = .maskedWrite frame ∧ frameBody frame = .maskedWrite a (BitVec.allOnes 64) data) →
    let cls := some (classify a s)
    FullWriteHandled (frameTag frame) a data (withStarted frame a cls) (completedAtOnce frame a cls)
      (exec c s) s

/-- A MASKED_WRITE that starts on arrival: with no flag set it completes DONE and touches nothing; with some
flags set it merges its bytes into the current line, byte by byte, in an ACTIVE slot or, from a REPAIR entry,
on to DRAM or behind that entry's write; with no holder it waits for its DRAM read, and behind a RELEASING
slot for the release. A FAILED slot or a POISON entry refuses it UNCORRECTABLE: its mask and bytes go into an RMW-UE
capture, or, with both records HELD, are lost with CAPTURE_LOST. A single-bit error of the ACTIVE slot's data is
corrected first, with INTERNAL_CORRECTED; data beyond correction makes the slot FAILED, with SPARE_FAILED, and refuses
the write UNCORRECTABLE, its mask and bytes in the SLOT-FAILED capture (R30, R31, R33, R34, R86, R87, R123, R124).
That events go up before the completion is log 12. -/
def Obligations.MaskedWriteByHolder : Prop :=
  ∀ (frame : List Byte) (a : LineAddr) (mask : ByteMask) (data : Line) (s : State), LetIn frame s →
    Startable a s → frameBody frame = .maskedWrite a mask data → mask ≠ BitVec.allOnes 64 →
    let cls := some (classify a s)
    MaskedWriteHandled (frameTag frame) a mask data (withStarted frame a cls) (completedAtOnce frame a cls)
      (exec (.maskedWrite frame) s) s

/-- A demand frame that a check of T18 meets at its start completes at once with that check's status, the first that
holds, a READ carrying 64 zero bytes; it makes no lookup and no DRAM operation. One that comes during a Core Reset
completes at once: HALTED in a part that is HALTED, else ABORTED during an abort, and RANGE or NOT-READY during a
drain. During a drain it completes at its start, and holds its line where that is free (R22, R23, R37, R38, R182).
Two things are the model's choice (log 41): that one whose line is held or waited for during a drain is STARTED
beside the line's holder, and that one that arrives during an abort is never started and holds no line. -/
def Obligations.RefusedAtStart : Prop :=
  (∀ (frame : List Byte) (a : LineAddr) (s : State), LetIn frame s →
    HoldKey.line a ∉ s.dem.holdSet → portHolds (.line a) s = false →
    queuedBefore (.line a) s = false → s.cod.loopLine = none →
    let exists_ := rankState s (rankOf a) ≠ .absent ∧ a.index.toNat < depth s
    ∀ status, (s.fcu.halted.isSome ∧ status = .halted) ∨
        (s.fcu.halted = none ∧ ¬exists_ ∧ status = .range) ∨
        (s.fcu.halted = none ∧ exists_ ∧ rankState s (rankOf a) ≠ .online ∧ status = .notReady) →
      (frameBody frame = .read a → exec (.read frame) s =
        .next (completedAtOnce frame a none (.readDone (frameTag frame) status zeroLine) s)) ∧
      (∀ data, frameBody frame = .write a data → exec (.write frame) s =
        .next (completedAtOnce frame a none (.writeDone (frameTag frame) status) s)) ∧
      (∀ mask data, frameBody frame = .maskedWrite a mask data → exec (.maskedWrite frame) s =
        .next (completedAtOnce frame a none (.writeDone (frameTag frame) status) s))) ∧
  ∀ (frame : List Byte) (a : LineAddr) (s : State) (flavour : Flavour) (id : Nat) (status : Status),
    LetIn frame s → (frameBody frame).line? = some a →
    let exists_ := rankState s (rankOf a) ≠ .absent ∧ a.index.toNat < depth s
    (s.fcu.halted.isSome ∧ status = .halted) ∨
      (s.fcu.halted = none ∧ flavour = .abort ∧ status = .aborted) ∨
      (s.fcu.halted = none ∧ flavour = .drain ∧ ¬exists_ ∧ status = .range) ∨
      (s.fcu.halted = none ∧ flavour = .drain ∧ exists_ ∧ status = .notReady) →
    id ≠ s.stamp →
    let key := if s.cod.loopLine.isSome then HoldKey.loopLine else .line a
    let resetting := { s with mgu := { s.mgu with coreReset := some ⟨flavour, id⟩ } }
    let arrived : Request :=
      { id := s.stamp, tag := frameTag frame, body := frameBody frame, phase := .queued, age := s.stamp,
        cls := none, hold := none, orphan := false }
    let done := match frameBody frame with
      | .read _ => UpFrame.readDone (frameTag frame) status zeroLine
      | _ => UpFrame.writeDone (frameTag frame) status
    ∀ c ∈ [Instr.read frame, .write frame, .maskedWrite frame],
      (flavour = .abort ∨ key ∈ s.dem.holdSet ∨ queuedBefore key s = true →
        exec c resetting = .next (handedOn arrived done { resetting with
          dem := { s.dem with
            requests := s.dem.requests ++ [{ arrived with beside := decide (flavour = .drain) }] }
          stamp := s.stamp + 1 })) ∧
      (flavour = .drain → key ∉ s.dem.holdSet → queuedBefore key s = false →
        let started := { arrived with age := s.stamp + 1, hold := some key }
        exec c resetting = .next (finished started done { resetting with
          dem := { s.dem with
            requests := s.dem.requests ++ [started]
            holdSet := s.dem.holdSet ++ [key] }
          stamp := s.stamp + 2 }))

/-- DEMAND_START starts the oldest QUEUED demand request to a line that has left the hold set: with no holder of the
line it takes its age and its classification, its line enters the hold set, and it waits for a DRAM read or, with a
full write, a DRAM write. While the line is held, or with none waiting for it, nothing changes. In codec-loop mode a
request that starts is served by the loop line at once: a READ by its decode under the addressed rank's mark, a full
write by encoding its bytes into the loop line, any other masked write by merging into a CLEAN or CORRECTED decode,
and an address there is not completes RANGE. A request that DEMAND_START starts and that a check of T18 meets
completes at once with the status of the first that holds; it makes no lookup. With a holder of its line it is handled
by that as one that starts on arrival is (`ReadHandled`, `FullWriteHandled`, `MaskedWriteHandled`), with no flag set
in its mask it completes DONE, and in codec-loop mode the loop line serves it (`LoopHandled`) (R18, R22, R23, R24,
R25, R26, R28, R29, R30, R31, R33, R34, R86, R87). That a start is a step of its own is log 9; that a request of the
other mode, still in hand, holds up none is log 42; that its age is the model's stamp is log 38; that events go up
before a completion is log 12, and that a READ that finds the data of a slot with a granted release lost counts as
poisoned is log 44. -/
def Obligations.DemandStartsWhenItsLineIsFree : Prop :=
  (∀ (a : LineAddr) (s : State), s.link.por = false → s.cod.loopLine = none →
    (HoldKey.line a ∈ s.dem.holdSet ∨ oldestQueued (.line a) s = none →
      exec (.demandStart a) s = .next s) ∧
    ∀ r phase, HoldKey.line a ∉ s.dem.holdSet → oldestQueued (.line a) s = some (r, a) →
      findRequest r.id s = some r → s.fcu.halted = none → RegionsSound s →
      rankState s (rankOf a) = .online → a.index.toNat < depth s → holder a s = .none →
      (match r.body with
        | .read _ => phase = .waitRead
        | .write _ data => phase = .waitWrite data .done
        | .maskedWrite _ mask data =>
          mask ≠ 0 ∧ phase = if mask = BitVec.allOnes 64 then .waitWrite data .done else .waitRead
        | .manage _ _ => False) →
      exec (.demandStart a) s = .next
        { s with
          dem := { s.dem with
            requests := s.dem.requests.map fun q =>
              if q.id = r.id then
                { q with phase := phase, age := s.stamp, cls := some (classify a s),
                         hold := some (.line a) }
              else q
            holdSet := s.dem.holdSet ++ [.line a] }
          stamp := s.stamp + 1 }) ∧
  (∀ (r : Request) (a b : LineAddr) (s : State), StartsNext r a s → b = a ∨ s.cod.loopLine.isSome →
    let o := exec (.demandStart b) s
    let exists_ := rankState s (rankOf a) ≠ .absent ∧ a.index.toNat < depth s
    (∀ status, (s.fcu.halted.isSome ∧ status = .halted) ∨
        (s.fcu.halted = none ∧ ¬exists_ ∧ status = .range) ∨
        (s.fcu.halted = none ∧ exists_ ∧ s.cod.loopLine = none ∧ rankState s (rankOf a) ≠ .online ∧
          status = .notReady) →
      o = .next (finishedIn r (holdKey s a) none (completionFrame r status) s)) ∧
    (s.fcu.halted = none → RegionsSound s → exists_ →
      let stands := startedIn r (holdKey s a) (some (classify a s))
      let ends := finishedIn r (holdKey s a) (some (classify a s))
      (s.cod.loopLine = none → rankState s (rankOf a) = .online →
        (r.body = .read a → ReadHandled r.tag a stands ends o s) ∧
        (∀ data, r.body = .write a data ∨ r.body = .maskedWrite a (BitVec.allOnes 64) data →
          FullWriteHandled r.tag a data stands ends o s) ∧
        (∀ mask data, r.body = .maskedWrite a mask data → mask ≠ BitVec.allOnes 64 →
          MaskedWriteHandled r.tag a mask data stands ends o s)) ∧
      (∀ raw, s.cod.loopLine = some raw → RankSound (rankOf a) s →
        LoopHandled r.tag r.body a raw ends o s))) ∧
  ∀ (frame : List Byte) (a : LineAddr) (raw : RawLine) (s : State), LetIn frame s →
    s.cod.loopLine = some raw → HoldKey.loopLine ∉ s.dem.holdSet → queuedBefore .loopLine s = false →
    s.fcu.halted = none → RegionsSound s → RankSound (rankOf a) s → s.dem.completions = [] →
    s.link.upstream.length < 8 → (frameBody frame).line? = some a →
    let exists_ := rankState s (rankOf a) ≠ .absent ∧ a.index.toNat < depth s
    let answered := fun (f : UpFrame) (u : State) => { u with
      link := beginSending { s.link with upstream := s.link.upstream ++ [f] }
      stamp := s.stamp + 2 }
    ∀ c ∈ [Instr.read frame, .write frame, .maskedWrite frame],
      (¬exists_ → exec c s = .next (answered
        (match frameBody frame with
          | .read _ => .readDone (frameTag frame) .range zeroLine
          | _ => .writeDone (frameTag frame) .range) s)) ∧
      (exists_ → LoopHandled (frameTag frame) (frameBody frame) a raw answered (exec c s) s)

/-! ## Upstream -/

/-- In ECHO a frame of any bytes goes into the upstream queue unchanged while that holds fewer than 8 frames. When the
frame on the lanes has been sent, the oldest waiting one follows in ACTIVE and in ECHO, in the queue's order. Echo
Set's MANAGE-DONE goes into the queue whatever that holds, and the link leaves ACTIVE for ECHO: QUEUED requests
are discarded, the others become orphans, and the queue is kept (R40, R195, R196, R197). That the frame being sent
is no longer in the queue, and goes on, is logs 7 and 36; that a request never started, whose completion by a
drain or an abort is pending, becomes an orphan too is the model's choice (log 48). -/
def Obligations.EchoAndTransmission : Prop :=
  ∀ s : State, s.link.por = false →
    (∀ frame, s.link.state = .echo →
      ∀ c ∈ [Instr.read frame, .write frame, .maskedWrite frame, .manage frame, .echoedFrame frame],
        exec c s = .next (if s.link.upstream.length < 8 then
          { s with
            link := beginSending { s.link with upstream := s.link.upstream ++ [.echoed frame] } }
          else s)) ∧
    exec .upstreamFrameSent s = .next
      (if s.link.state = .active ∨ s.link.state = .echo then
        { s with link := { s.link with
          transmitting := s.link.upstream.head?.map fun f => onLanes s.link.straps.laneCount f.bytes
          upstream := s.link.upstream.tail } }
      else { s with link := { s.link with transmitting := none } }) ∧
    ∀ args r, Taken 38 args r s →
      exec .echoSet s = .next { s with
        link := { beginSending
          { s.link with upstream := s.link.upstream ++ [.manageDone r.tag .done []] } with
            state := .echo, slips := [] }
        dem := { s.dem with
          requests := (s.dem.requests.filter fun q =>
            decide (q.id ≠ r.id ∧ (q.phase ≠ .queued ∨ q.orphan = true))).map fun q =>
              { q with orphan := true }
          completions := s.dem.completions.filter fun d => d.request != r.id } }

/-- The oldest pending completion is handed over once the queue holds fewer than 8 frames: its frame goes up,
unless its request is an orphan or the link is not ACTIVE; the request leaves the buffer, and its line the
hold set unless a write granted to it is still at DRAM; a Core Reset it answers is over. Otherwise nothing
changes (R19, R22, R40, R171, R195). That an orphan's completion is discarded then, and not before, is log 10.
-/
def Obligations.CompletionIsHandedOver : Prop :=
  ∀ s : State, s.link.por = false →
    (s.dem.completions = [] ∨ 8 ≤ s.link.upstream.length →
      exec .completionHandover s = .next s) ∧
    ∀ c rest r, s.dem.completions = c :: rest → s.link.upstream.length < 8 →
      findRequest c.request s = some r →
      exec .completionHandover s = .next
        { s with
          link := if r.orphan = true ∨ s.link.state ≠ .active then s.link
            else beginSending { s.link with upstream := s.link.upstream ++ [c.frame] }
          dem := {
            requests := s.dem.requests.filter fun q => q.id != r.id
            holdSet := match r.hold with
              | some key => if portHolds key s then s.dem.holdSet else s.dem.holdSet.erase key
              | none => s.dem.holdSet
            completions := s.dem.completions.filter fun d => d.request != r.id }
          mgu := { s.mgu with coreReset := s.mgu.coreReset.filter fun x => x.request != r.id } }

/-! ## The DRAM port -/

/-- With the port free the arbiter grants the waiting operation that comes first by class, then by age: it is
the one at the port afterwards, and the grant history is 0 after a visit and else one more, at most 7; in HALTED it
keeps its value. The classes, the first first: due refreshes, in the order they fell due; retry reads, by their
contexts; a visit in steal mode with the history at 7; the reads and writes of demand requests and RETIRE reads, by
the moment each started or was taken; repair writes, verify reads and release writes, by the moment the entry was
created or the release taken; fill writes, by rank after the last one filled; any other visit. There waits, each for
its line: every due refresh, and outside HALTED what each request, retry context, Spare Retire, repair entry, release,
fill and visit asks for and has not at the port (R25, R32, R53, R80, R84, R115, R145, R160, R163–R168). That an abort
that leaves HALTED ends the bound to refreshes in its own step, its MANAGE-DONE pending or not, is log 52. -/
def Obligations.FirstWaitingOperationIsGranted : Prop :=
  (∀ s : State, s.link.por = false → RequestsNamed s → RepairQueueFits s → s.drp.port = none →
    waiting s ≠ [] →
    ∃ w ∈ waiting s, (∀ v ∈ waiting s, w.order < v.order ∨ (w.order = v.order ∧ w.age ≤ v.age)) ∧
      ∃ t g, exec .arbiterGrant s = .next t ∧ t.drp.port = some g ∧ g.op = w.op ∧ g.line = w.line ∧
        g.overwritten = false ∧
        (t.drp.history = if s.fcu.halted.isSome then s.drp.history else
          match w.op with | .visitRead _ => 0 | _ => min 7 (s.drp.history + 1)) ∧
      (w.op = .refresh → ∃ r rest, s.drp.refreshDue = r :: rest ∧ w.line = lineAt r 0) ∧
      ∀ v ∈ waiting s,
        match v.op with
        | .refresh => v.order = 1
        | .retryRead id => v.order = 2 ∧ v.age = id
        | .visitRead _ => v.order = if s.psc.steal = true ∧ s.drp.history = 7 then 3 else 7
        | .demandRead id _ => v.order = 4 ∧ ∃ r ∈ s.dem.requests, r.id = id ∧ v.age = r.age
        | .demandWrite id => v.order = 4 ∧ ∃ r ∈ s.dem.requests, r.id = id ∧ v.age = r.age
        | .retireRead id => v.order = 4 ∧ ∃ x ∈ s.sls.retires, x.request = id ∧ v.age = x.age
        | .repairWrite id => v.order = 5 ∧ v.age = id
        | .verifyRead id => v.order = 5 ∧ v.age = id
        | .releaseWrite _ age => v.order = 5 ∧ v.age = age
        | .fillWrite => v.order = 6 ∧ v.age = match s.drp.lastFill with
          | some last => (rankOf v.line + 3 - last) % 4
          | none => rankOf v.line) ∧
  ∀ s : State,
    let waits := fun (op : PortOp) (a : LineAddr) => ∃ w ∈ waiting s, w.op = op ∧ w.line = a
    (∀ r ∈ s.drp.refreshDue, waits .refresh (lineAt r 0)) ∧
    (s.fcu.halted.isSome → ∀ w ∈ waiting s, w.op = .refresh) ∧
    (s.fcu.halted = none →
      (∀ r ∈ s.dem.requests, ∀ a, r.body.line? = some a →
        (r.phase = .waitRead → (∀ mask data, r.body ≠ .maskedWrite a mask data) →
          waits (.demandRead r.id false) a) ∧
        (r.phase = .waitRead → (∃ mask data, r.body = .maskedWrite a mask data) →
          waits (.demandRead r.id true) a) ∧
        ∀ data status, r.phase = .waitWrite data status → waits (.demandWrite r.id) a) ∧
      (∀ x ∈ s.fcu.contexts, atPort (.retryRead x.id) s = false → waits (.retryRead x.id) x.line) ∧
      (∀ x ∈ s.sls.retires, atPort (.retireRead x.request) s = false → waits (.retireRead x.request) x.line) ∧
      (∀ e ∈ s.rpq.entries, (e.state = .ready → waits (.repairWrite e.id) e.line) ∧
        (e.state = .verifying → atPort (.verifyRead e.id) s = false → waits (.verifyRead e.id) e.line)) ∧
      (∀ i < 32, ∀ a d t k, slotAt s i = .releasing a d t (some k) → atPort (.releaseWrite i k.age) s = false →
        waits (.releaseWrite i k.age) a) ∧
      (∀ q < 4, rankState s q = .filling → (rankRec s q).fillPosition < depth s →
        waits .fillWrite (lineAt q (rankRec s q).fillPosition)) ∧
      ∀ a cls, s.psc.cursor = some a → s.psc.cursorPhase = .visitLine cls → 1 ≤ s.psc.credit →
        s.psc.running = true → (currentProfile s).allowed = true → waits (.visitRead false) a)

/-- With an operation at DRAM, or with nothing waiting, no grant is made. A granted demand, retry, RETIRE or
verify read goes to the port with the classification of its work, and a demand request's read is granted;
nothing else changes but the grant history (R25, R32, R164, R167). -/
def Obligations.ReadIsGranted : Prop :=
  ∀ s : State, s.link.por = false →
    (s.drp.port.isSome ∨ waiting s = [] → exec .arbiterGrant s = .next s) ∧
    ∀ w, s.drp.port = none → firstWaiting (waiting s) = some w →
      let port := { s.drp with
        port := some ⟨w.op, w.line, w.cls, none, false⟩, history := min 7 (s.drp.history + 1) }
      (∀ id rmw, w.op = .demandRead id rmw → exec .arbiterGrant s = .next
        { s with drp := port, dem := { s.dem with requests := s.dem.requests.map fun q =>
          if q.id = id then { q with phase := .readGranted } else q } }) ∧
      (∀ id, w.op = .retryRead id ∨ w.op = .retireRead id ∨ w.op = .verifyRead id →
        exec .arbiterGrant s = .next { s with drp := port })

/-- A granted DRAM write carries the encoding of its data, in poison form for a POISON entry, with each armed
injection entry of the line XOR-ed in and counted down; it withdraws ungranted patrol retries of the line. The
demand request, repair entry or fill that asked for it moves on. It goes to the devices in eight beats, each
symbol in two, its high byte first; the data bytes stand in the beats as T95 places them. A release write whose
slot has a single-bit error is formed of the corrected data, which are written back, with INTERNAL_CORRECTED; one
whose data is lost is made in poison form of the bytes as stored, with SPARE_FAILED and its capture (R1, R4, R5,
R6, R16, R33, R59, R84, R86, R87, R116, R160). -/
def Obligations.WriteIsFormedAtItsGrant : Prop :=
  (∀ (data : Line) (b : Fin 8) (d : Fin 8),
    (onBeats (encode data))[b][d.val] = data[16 * (b.val / 2) + 2 * d.val + b.val % 2]) ∧
  ∀ (s : State) (w : Waiting), s.link.por = false → s.drp.port = none →
    firstWaiting (waiting s) = some w →
    let injected := fun (i : Nat) (j : Fin 4) (d : Fin 10) =>
      match getAt s.cod.injections i none with
      | some e => if e.line = w.line ∧ d.val = e.device ∧ e.codewords.getLsbD j.val then e.pattern else 0#16
      | none => 0#16
    let spent := fun i : Nat =>
      match getAt s.cod.injections i none with
      | some e =>
        if e.line = w.line then if e.count ≤ 1 then none else some { e with count := e.count - 1 }
        else some e
      | none => none
    let formed := fun (t : State) (base : RawLine) => ∃ beats : Burst,
      t.drp.port = some ⟨w.op, w.line, none, some beats, false⟩ ∧
      (∀ (j : Fin 4) (d : Fin 10), (beats[2 * j.val][d] ++ beats[2 * j.val + 1][d] : Sym) =
        base[j][d] ^^^ injected 0 j d ^^^ injected 1 j d) ∧
      (∀ i < 2, getAt t.cod.injections i none = spent i) ∧
      t.fcu.contexts = s.fcu.contexts.filter fun c => !(c.work == .patrol && c.line == w.line)
    (∀ id r data status, w.op = .demandWrite id → findRequest id s = some r →
      r.phase = .waitWrite data status →
      ∃ t, exec .arbiterGrant s = .next t ∧ formed t (encode data) ∧
        t.dem.requests = s.dem.requests.map fun q =>
          if q.id = id then { q with phase := .writeGranted status } else q) ∧
    (∀ id e, w.op = .repairWrite id → findEntry id s = some e →
      ∃ t, exec .arbiterGrant s = .next t ∧
        formed t (if e.kind = .poison then poison (encode e.data) else encode e.data) ∧
        t.rpq.entries = s.rpq.entries.map fun x =>
          if x.id = id then { x with state := .writing } else x) ∧
    (∀ i age b d time work, w.op = .releaseWrite i age → slotAt s i = .releasing b d time work →
      (d.storage = .sound →
        ∃ t, exec .arbiterGrant s = .next t ∧ formed t (encode d.data) ∧ t.sls = s.sls) ∧
      (d.storage = .singleBit →
        ∃ t, exec .arbiterGrant s = .next t ∧ formed t (encode d.data) ∧
          t.sls = { s.sls with
            slots := setAt s.sls.slots i (.releasing b ⟨d.data, .sound, zeroLine⟩ time work) } ∧
          t.link = (raise .internalCorrected (.table .spare i) s).link) ∧
      (d.storage = .uncorrectable → RecordsReady s →
        ∃ g, exec .arbiterGrant s = .next (slotLost w.line none none g) ∧
          formed g (poison (encode (Vector.ofFn fun k => d.data[k] ^^^ d.flips[k]))) ∧
          g.sls = s.sls ∧ g.link = s.link)) ∧
    (w.op = .fillWrite → rankOf w.line < 4 →
      ∃ t, exec .arbiterGrant s = .next t ∧ formed t (encode zeroLine) ∧
        rankRec t (rankOf w.line) = { rankRec s (rankOf w.line) with
          fillPosition := (rankRec s (rankOf w.line)).fillPosition + 1 } ∧
        t.drp.lastFill = some (rankOf w.line))

/-- A granted visit spends one credit, reads its line with the classification its test obtained, takes the grant
history to 0 and moves the cursor on; then steal mode is judged, and the next line is tested, with the run of
skips behind it (`SkipRun`): a line is skipped that has a holder or is EXEMPT, and the first that is not is the
visit line. At the last index of a rank, by the grant or by a skip, the pass ends and the cursor moves to index 0
of the next ONLINE rank; where the pass began at index 0 the sweep is complete: every SOUND or SUSPECT device of
the rank that is not touched loses Q, the touched flags of the rank are cleared, and SWEEP_DONE is raised. After a
pass in which every line was skipped the test waits for the next tick. When the visit's read finishes
UNCORRECTABLE, FCU opens a retry, unless an abort came since the grant or the rank has left ONLINE; any other
verdict ends the visit; the mark that an abort leaves is log 39, and the order of a visit's events, and of the
judgement and the test, is log 12 (R101, R114, R141, R144, R146, R147, R148, R167). -/
def Obligations.VisitIsGranted : Prop :=
  (∀ (s : State) (a : LineAddr) (cls : Classification) (w : Waiting), s.link.por = false →
    s.drp.port = none → firstWaiting (waiting s) = some w → w.op = .visitRead false →
    s.psc.cursor = some a → s.psc.cursorPhase = .visitLine cls → PatrolTablesSound s →
    let threshold := (currentProfile s).steal
    let granted := { s with
      psc := { s.psc with credit := s.psc.credit - 1, passVisited := true }
      drp := { s.drp with port := some ⟨.visitRead false, a, some cls, none, false⟩, history := 0 } }
    (∀ run, a.index.toNat + 1 < depth s → SkipRun s { a with index := a.index + 1 } true run →
      exec .arbiterGrant s = .next (run (stealJudged threshold granted))) ∧
    ∀ q run, a.index.toNat + 1 = depth s → RankSound (rankOf a) s → NextOnline s (rankOf a) q →
      SkipRun s (lineAt q 0) false run →
      exec .arbiterGrant s = .next
        (run (stealJudged threshold (passBegun q .untested (passEnded (rankOf a) granted))))) ∧
  ∀ (s : State) (g : Granted) (aborted : Bool) (beats : Burst), Finishing g s →
    g.op = .visitRead aborted →
    let raw := fromBeats beats
    let v := verdictOf g .patrol raw s
    let used := consume v { s with drp := { s.drp with port := none } }
    exec (.dramReadFinish beats) s = .next (settle
      (if v.verdict = .uncorrectable ∧ aborted = false ∧ rankState s (rankOf g.line) = .online then
        retryOpened g .patrol raw { s with drp := { s.drp with port := none } }
      else used))

/-- While the part is HALTED the arbiter grants due refreshes alone, in the order they fell due; a granted
refresh is due no more and its rank's countdown is loaded with 3.6 µs; the grant history keeps its value
(R163, R168). -/
def Obligations.HaltedGrantsRefreshesOnly : Prop :=
  ∀ s : State, s.link.por = false → s.fcu.halted.isSome → s.drp.port = none →
    (s.drp.refreshDue = [] → exec .arbiterGrant s = .next s) ∧
    ∀ r rest, s.drp.refreshDue = r :: rest → r < 4 → exec .arbiterGrant s = .next
      { s with drp := { s.drp with
        port := some ⟨.refresh, lineAt r 0, none, none, false⟩
        refreshDue := rest
        ranks := setAt s.drp.ranks r { rankRec s r with refresh := some 36 } } }

/-- A running refresh countdown that ends makes the rank's refresh due, once; the end of a refresh frees the
port and changes nothing else where no rank is quiescing (R163, R164). That the command is not bound to the
modelled countdown is log 3, and that an end with no refresh at the port changes nothing is log 1. -/
def Obligations.RefreshFallsDueAndFinishes : Prop :=
  ∀ s : State, s.link.por = false →
    (∀ r : Fin 4, exec (.refreshDue r) s = .next
      (if (rankRec s r.val).refresh.isSome ∧ r.val ∉ s.drp.refreshDue then
        { s with drp := { s.drp with
          ranks := setAt s.drp.ranks r.val { rankRec s r.val with refresh := some 0 }
          refreshDue := s.drp.refreshDue ++ [r.val] } }
      else s)) ∧
    (∀ g, s.drp.port = some g → g.op ≠ .refresh → exec .refreshFinish s = .next s) ∧
    (s.drp.port = none → exec .refreshFinish s = .next s) ∧
    (∀ g, s.drp.port = some g → g.op = .refresh → NoneQuiescing s →
      exec .refreshFinish s = .next { s with drp := { s.drp with port := none } })

/-- A read gathers its forty symbols from eight beats, two to a codeword, and a line that comes back in the beats it
was sent in is the line that was sent. The end of a demand read whose line decodes CLEAN under a readable rank with no
mark answers its READ CLEAN with the data that was encoded: the port is free, the request and its hold are gone, and
nothing is counted, tallied, watched or repaired. In general the verdict goes to its consumers, who act on a CORRECTED
verdict alone or under a mark, and then to its request. A READ completes CLEAN or CORRECTED with the corrected data,
POISONED with zero bytes, its event and its counter, or is retried. A read-modify-write merges its bytes into the
corrected data and waits to write DONE or CORRECTED, is retried, or, with the line POISONED, is refused UNCORRECTABLE,
its held write in an RMW-UE capture. Any read that finishes with a single-bit error in one of its rank's ten device
entries ends as it would with the entry sound, after the error is corrected, written back and reported. With one entry
beyond correction there is no verdict and no consumer acts: the part enters HALTED naming the entry, a demand read's
request completes HALTED, and what else asked for the read is ended by HALTED (R1, R4, R9, R11, R14, R26, R27, R32,
R33, R34, R39, R110, R111, R114, R115, R127, R164). That the consumers act before the request, and an event goes up
before the completion, is log 12; that DHT acts on a verdict that comes after an abort has left HALTED, the read
granted before it, is log 51. -/
def Obligations.CleanReadCompletes : Prop :=
  (∀ (beats : Burst) (j : Fin 4) (d : Fin 10),
    (fromBeats beats)[j][d] = beats[2 * j.val][d] ++ beats[2 * j.val + 1][d]) ∧
  (∀ raw : RawLine, fromBeats (onBeats raw) = raw) ∧
  (∀ (s : State) (g : Granted) (id : Nat) (r : Request) (a : LineAddr) (data : Line),
    s.link.por = false → s.link.state = .active → s.fcu.halted = none → NoneQuiescing s →
    s.drp.port = some g → g.op = .demandRead id false → RankSound (rankOf g.line) s →
    markOf s (rankOf g.line) = none → findRequest id s = some r → r.phase = .readGranted →
    r.body = .read a → r.orphan = false → r.hold = some (.line a) → s.mgu.coreReset = none →
    s.dem.completions = [] → s.link.upstream.length < 8 →
    exec (.dramReadFinish (onBeats (encode data))) s = .next
      { s with
        link := beginSending
          { s.link with upstream := s.link.upstream ++ [.readDone r.tag .clean data] }
        dem := { s.dem with
          requests := s.dem.requests.filter fun q => q.id != id
          holdSet := s.dem.holdSet.erase (.line a) }
        drp := { s.drp with port := none } }) ∧
  (∀ (s : State) (g : Granted) (id : Nat) (rmw : Bool) (beats : Burst), Finishing g s →
    g.op = .demandRead id rmw →
    let raw := fromBeats beats
    let v := verdictOf g (if rmw then .rmw else .demand) raw s
    let free := { s with drp := { s.drp with port := none } }
    let used := consume v free
    (v.verdict = .uncorrectable ∨ v.verdict = .poisoned ∨
      (v.verdict = .clean ∧ markOf s (rankOf g.line) = none) → used = free) ∧
    ∀ r, r.id = id → Answerable r used → r.phase = .readGranted → used.fcu.halted = none →
      (∀ a, r.body = .read a →
        (v.verdict = .clean → exec (.dramReadFinish beats) s =
          .next (settle (finished r (.readDone r.tag .clean v.corrected) used))) ∧
        (v.verdict = .corrected → exec (.dramReadFinish beats) s =
          .next (settle (finished r (.readDone r.tag .corrected v.corrected) used))) ∧
        (v.verdict = .poisoned → exec (.dramReadFinish beats) s =
          .next (settle (finished r (.readDone r.tag .poisoned zeroLine)
            (countPoisonedRead (rankOf g.line) (raise .poisonRead (.line g.line) free))))) ∧
        (v.verdict = .uncorrectable → exec (.dramReadFinish beats) s =
          .next (settle (retryOpened g (.demand id) raw (withPhase id .retrying free))))) ∧
      (∀ a mask data, r.body = .maskedWrite a mask data → holder g.line used = .none →
        let merged : Line := Vector.ofFn fun i => if mask.getLsbD i.val then data[i] else v.corrected[i]
        (v.verdict = .clean → exec (.dramReadFinish beats) s =
          .next (settle (withPhase id (.waitWrite merged .done) used))) ∧
        (v.verdict = .corrected → exec (.dramReadFinish beats) s =
          .next (settle (withPhase id (.waitWrite merged .corrected) used))) ∧
        (v.verdict = .poisoned → NextRecordReady s → exec (.dramReadFinish beats) s =
          .next (settle (finished r (.writeDone r.tag .uncorrectable) (withPhase id .answering (placedNext
            { kind := .rmwUe, line := some g.line, region := g.cls.bind fun c => c.region, phase := 0,
              time := 0, retry := none, outcomes := v.outcomes,
              mark := (markOf s (rankOf g.line)).map Fin.val, held := some (mask, data), table := none }
            free))))) ∧
        (v.verdict = .uncorrectable → exec (.dramReadFinish beats) s =
          .next (settle (retryOpened g (.rmw id mask data) raw (withPhase id .retrying free)))))) ∧
  ∀ (s : State) (g : Granted) (k : Nat) (beats : Burst), s.link.por = false → s.drp.port = some g →
    (∃ source, g.op.source = some source) → RankSound (rankOf g.line) s → rankOf g.line < 4 → k < 10 →
    let n := entryNumber (rankOf g.line) k
    exec (.dramReadFinish beats) (deviceErr n .singleBit s) =
      exec (.dramReadFinish beats) (raise .internalCorrected (.table .health n) s) ∧
    (s.fcu.halted = none →
      let faulty := deviceErr n .uncorrectable s
      let entered := enterHalted ⟨.health, n⟩ { faulty with drp := { s.drp with port := none } }
      (∀ id rmw r, g.op = .demandRead id rmw → r.id = id → Answerable r entered →
        exec (.dramReadFinish beats) faulty =
          .next (settle (finished r (completionFrame r .halted) entered))) ∧
      ((∀ id rmw, g.op ≠ .demandRead id rmw) →
        exec (.dramReadFinish beats) faulty = .next (settle entered)))

/-- The end of a write frees the port. A demand write completes its request with the status it carries; the entry of a
repair write leaves, or becomes VERIFYING where its line is verified and SLS has not retired it; a release frees
its slot and completes DONE; a write held behind either then waits for DRAM, and a read-modify-write for its read;
the last fill write brings its rank ONLINE with FILL_DONE, and a parked cursor to its index 0. RPQ makes a REPAIR
entry of a CORRECTED verdict of a DEMAND, PATROL or RETRY read that is not erasure-only: none where the part is
HALTED, the line has a holder or was overwritten, or its rank is not ONLINE; REPAIR_DEFERRED with 16 entries; else
the youngest entry, READY, or WAITING W for a HOT line outside a drain, and to be verified for a JOURNAL line. The
end of a verify read removes the entry where it is CLEAN, makes it READY once more where it is not, and the second
time hands the line to a slot, or, with every slot held, raises REPAIR_STUCK (R22, R29, R31, R33, R54, R55, R56,
R60, R61, R62, R63, R84, R149, R160, R164). Names and ages are the model's stamps (log 38). The order of events
and answers is log 12. -/
def Obligations.WriteCompletes : Prop :=
  (∀ (s : State) (g : Granted), s.link.por = false → s.link.state = .active → NoneQuiescing s →
    s.mgu.coreReset = none → s.drp.port = some g → s.dem.completions = [] →
    s.link.upstream.length < 8 →
    let free := { s with drp := { s.drp with port := none } }
    (∀ id r status, g.op = .demandWrite id → findRequest id s = some r →
      r.phase = .writeGranted status → (∀ a, r.body ≠ .read a) → r.orphan = false →
      r.hold = some (.line g.line) →
      exec .dramWriteFinish s = .next
        { free with
          link := beginSending
            { s.link with upstream := s.link.upstream ++ [.writeDone r.tag status] }
          dem := { s.dem with
            requests := s.dem.requests.filter fun q => q.id != id
            holdSet := s.dem.holdSet.erase (.line g.line) } }) ∧
    (∀ id e, g.op = .repairWrite id → findEntry id s = some e →
      (∀ q ∈ s.dem.requests, q.hold = some (.line e.line) → ∀ d st, q.phase ≠ .heldWrite d st) →
      exec .dramWriteFinish s = .next
        { free with rpq := { s.rpq with
            entries := if e.verify = true ∧ e.retired = false then
                (s.rpq.entries.map fun x => if x.id = id then { x with state := .verifying } else x)
              else (s.rpq.entries.filter fun x => x.id != id) } }) ∧
    (∀ id e q d status, g.op = .repairWrite id → findEntry id s = some e →
      (∀ i < 32, (slotAt s i).line? = some e.line → (slotAt s i).holds = false) →
      (∀ x ∈ s.rpq.entries, x.line = e.line → x.id = id) →
      followerOf e.line s = some q → q.phase = .heldWrite d status → q.body.line? = some e.line →
      (∀ a, q.body ≠ .read a) →
      exec .dramWriteFinish s = .next
        { withPhase q.id (.waitWrite d status) free with
          rpq := { s.rpq with entries := s.rpq.entries.filter fun x => x.id != id } }) ∧
    (∀ i b d time work r, g.op = .releaseWrite i work.age →
      slotAt s i = .releasing b d time (some work) → findRequest work.request s = some r →
      r.phase = .serving → r.orphan = false → r.hold = none →
      let released := answered r .done [] (setSlot i .free free)
      (followerOf b s = none → exec .dramWriteFinish s = .next released) ∧
      (∀ q, followerOf b s = some q → q.id ≠ r.id → q.body.line? = some b → SlotsFit s →
        (∀ x ∈ s.rpq.entries, x.line ≠ b) →
        (∀ data status, q.phase = .heldWrite data status → (∀ a, q.body ≠ .read a) →
          exec .dramWriteFinish s = .next (withPhase q.id (.waitWrite data status) released)) ∧
        (∀ mask data, q.phase = .heldRmw → q.body = .maskedWrite b mask data → mask ≠ 0 →
          mask ≠ BitVec.allOnes 64 →
          exec .dramWriteFinish s = .next (withPhase q.id .waitRead released)))) ∧
    (g.op = .fillWrite → g.line.index.toNat + 1 < depth s → exec .dramWriteFinish s = .next free) ∧
    (g.op = .fillWrite →
      let q := rankOf g.line
      (rankState s q ≠ .filling → exec .dramWriteFinish s = .next free) ∧
      (rankState s q = .filling → g.line.index.toNat + 1 = depth s →
        (rankRec s q).fillPosition = depth s →
        let online := raise .fillDone (.rank q) { free with
          drp := { free.drp with ranks := setAt s.drp.ranks q { rankRec s q with state := .online } } }
        (s.psc.cursor.isSome → exec .dramWriteFinish s = .next online) ∧
        (s.psc.cursor = none → s.psc.running = false → exec .dramWriteFinish s = .next
          { online with psc := { s.psc with
              cursor := some (lineAt q 0), cursorPhase := .untested, wholeSweep := true,
              passVisited := false } })))) ∧
  (∀ (v : VerdictRecord) (s : State),
    let cls := (v.cls.map Classification.cls).getD .standard
    let barred := s.fcu.halted.isSome ∨ (∃ i < 32, (slotAt s i).line? = some v.line ∧ (slotAt s i).holds = true) ∨
      (∃ e ∈ s.rpq.entries, e.line = v.line) ∨ v.overwritten = true ∨
      rankState s (rankOf v.line) ≠ .online
    let joined := fun state : RepairState => { s with
      rpq := { s.rpq with entries := s.rpq.entries ++
        [{ id := s.stamp, line := v.line, kind := .repair, data := v.corrected,
           verify := decide (cls = .journal), replayed := false, state := state, retired := false }] }
      stamp := s.stamp + 1 }
    let drains := ∃ id, s.mgu.coreReset = some ⟨.drain, id⟩
    (v.repairable = false ∨ v.source = .rmw ∨ v.source = .verify ∨ v.source = .retire →
      considerRepair v s = s) ∧
    (v.repairable = true → v.source = .demand ∨ v.source = .patrol ∨ v.source = .retry →
      (barred → considerRepair v s = s) ∧
      (¬barred → 16 ≤ s.rpq.entries.length →
        considerRepair v s = raise .repairDeferred (.line v.line) s) ∧
      (¬barred → s.rpq.entries.length < 16 → followerOf v.line s = none → s.fcu.contexts = [] →
        s.psc.cursor ≠ some v.line →
        (cls ≠ .hot ∨ drains → considerRepair v s = joined .ready) ∧
        (cls = .hot → ¬drains → (storedProfile s s.psc.phase).storage = .sound → NoLineToTest s →
          let w := (currentProfile s).lazyWait
          considerRepair v s = joined (if w = 0 then .ready else .waiting w))))) ∧
  ∀ (s : State) (g : Granted) (id : Nat) (beats : Burst) (e : RepairEntry), Finishing g s →
    g.op = .verifyRead id →
    let raw := fromBeats beats
    let v := verdictOf g .verify raw s
    let used := consume v { s with drp := { s.drp with port := none } }
    let removed := { used with rpq := { used.rpq with entries := used.rpq.entries.filter fun x => x.id != id } }
    findEntry id used = some e → e.state = .verifying → used.fcu.halted = none →
    (v.verdict = .clean → exec (.dramReadFinish beats) s = .next (settle removed)) ∧
    (v.verdict ≠ .clean → e.replayed = false → exec (.dramReadFinish beats) s = .next (settle
      { used with rpq := { used.rpq with entries := used.rpq.entries.map fun x =>
        if x.id = id then { x with replayed := true, state := .ready } else x } })) ∧
    (v.verdict ≠ .clean → e.replayed = true →
      (∀ i, ChosenSlot e.line i used → Unattended e.line used →
        (∀ x ∈ used.rpq.entries, x.line = e.line → x.id = id) →
        exec (.dramReadFinish beats) s = .next (settle (retiredInto i e.line e.data removed))) ∧
      ((∀ i < 32, (slotAt used i).holds = true) →
        exec (.dramReadFinish beats) s = .next (settle (raise .repairStuck (.line e.line) removed))))

/-! ## The line code -/

/-- Where every wrong symbol of an encoded line lies in one device, the decode without a mark gives the line
back: each codeword is CLEAN where its symbol is right and FIXED with the error pattern where it is wrong, and
the line is CLEAN or CORRECTED accordingly (R3, R4, R9, R11, R12). -/
def Obligations.SingleDeviceErrorsAreCorrected : Prop :=
  ∀ (a : LineAddr) (source : ReadSource) (cls : Option Classification) (overwritten : Bool)
    (data : Line) (device : Fin 10) (error : Fin 4 → Sym),
    let raw : RawLine := Vector.ofFn fun j => Vector.ofFn fun d =>
      if d = device then (encode data)[j][d] ^^^ error j else (encode data)[j][d]
    let v := decodeLine a source none cls overwritten raw
    v.corrected = data ∧
      (∀ j : Fin 4, v.outcomes[j] = if error j = 0 then .clean else .fixed device (error j)) ∧
      v.verdict = if ∀ j, error j = 0 then .clean else .corrected

/-- With the wrong device marked, the decode fills it: whatever its symbols are, the line comes back, each
codeword FILLED with its error pattern, and the line is CORRECTED where some pattern is not zero and CLEAN
where all are (R10, R11, R12). -/
def Obligations.MarkedDeviceIsFilled : Prop :=
  ∀ (a : LineAddr) (source : ReadSource) (cls : Option Classification) (overwritten : Bool)
    (data : Line) (device : Fin 10) (error : Fin 4 → Sym),
    let raw : RawLine := Vector.ofFn fun j => Vector.ofFn fun d =>
      if d = device then (encode data)[j][d] ^^^ error j else (encode data)[j][d]
    let v := decodeLine a source (some device) cls overwritten raw
    v.corrected = data ∧ (∀ j : Fin 4, v.outcomes[j] = .filled (error j)) ∧
      v.verdict = if ∀ j, error j = 0 then .clean else .corrected

/-- A line in poison form decodes POISONED, every codeword a poison mark, whatever its data and whatever device
of the rank is marked; the raw data bytes are the bytes that were encoded (R6, R9, R10, R11). -/
def Obligations.PoisonFormDecodesPoisoned : Prop :=
  ∀ (a : LineAddr) (source : ReadSource) (mark : Option (Fin 10)) (cls : Option Classification)
    (overwritten : Bool) (data : Line),
    let v := decodeLine a source mark cls overwritten (poison (encode data))
    v.verdict = .poisoned ∧ (∀ j : Fin 4, v.outcomes[j] = .poisonMark) ∧ v.rawData = data

/-! ## Management requests: settings and readings -/

/-- The requests that set a number, each clamped to its range, and Counter Clear, change that setting alone and
complete DONE. An event is judged against the mask that stands: with the link ACTIVE and its level above the mask
or 7 it becomes one ALERT frame, with its kind, level, subject, capture record and the time base, at the end of
the upstream queue, and from there on to the lanes where they are idle; below level 7 it is dropped where the
queue has no room for it; and any other event changes nothing. The levels are those of T85, but for LINE_UE, which
brings its own (R44, R89, R93, R172, R173, R174, R175, R177, R178, R195). That the frame on the lanes no longer
counts, and that pending completions claim room first, is logs 7 and 8. -/
def Obligations.SettingsTakeEffect : Prop :=
  (∀ (args : List Byte) (r : Request) (s : State),
    (Taken 3 args r s → exec .regionDefault s = .next (answered r .done []
      { s with rgt := { s.rgt with defaultLevel := max 1 (min 7 (byteAt args 0).toNat) } })) ∧
    (Taken 10 args r s → exec .healthParams s = .next (answered r .done []
      { s with dht := { s.dht with
        decayQ := (byteAt args 0).toNat, probationK := max 1 (argument args 1 2) } })) ∧
    (Taken 14 args r s → exec .spareParams s = .next (answered r .done []
      { s with sls := { s.sls with threshold := max 2 (min 15 (byteAt args 0).toNat) } })) ∧
    (Taken 30 args r s → exec .alertMaskSet s = .next (answered r .done []
      { s with mgu := { s.mgu with mask := min 7 (byteAt args 0).toNat } })) ∧
    (Taken 33 args r s → exec .timeSet s = .next (answered r .done []
      { s with mgu := { s.mgu with timeBase := BitVec.ofNat 48 (argument args 0 6) } })) ∧
    (Taken 32 args r s → exec .counterClear s = .next (answered r .done []
      { s with mgu := { s.mgu with counters := zeroCounters } }))) ∧
  (∀ (kind : EventKind) (level : Nat) (subject : Subject) (record : Option RecordName) (s : State),
    let queue := s.link.upstream ++ [.alert kind level subject record s.mgu.timeBase]
    let claims := s.dem.completions.countP fun c => s.dem.requests.any fun r => r.id == c.request && !r.orphan
    let passes := s.link.state = .active ∧ (s.mgu.mask < level ∨ level = 7) ∧
      (level = 7 ∨ s.link.upstream.length + claims < 8)
    (¬passes → raiseAt kind level subject record s = s) ∧
    (passes → raiseAt kind level subject record s = { s with link := { s.link with
      upstream := if s.link.transmitting.isSome then queue else queue.tail
      transmitting := if s.link.transmitting.isSome then s.link.transmitting
        else queue.head?.map fun f => onLanes s.link.straps.laneCount f.bytes } })) ∧
  (∀ (kind : EventKind) (subject : Subject) (s : State),
    raise kind subject s = raiseAt kind kind.level subject none s) ∧
  [EventKind.lineCorrected, .scattered, .poisonRead, .rqOverrun, .tagClash, .internalCorrected, .tableFault,
      .repairDeferred, .repairStuck, .spareRetired, .spareFull, .spareFailed, .deviceSuspect, .deviceMarked,
      .deviceSecond, .probationPass, .probationFail].map EventKind.level =
    [1, 3, 4, 5, 5, 1, 5, 2, 4, 3, 4, 6, 3, 5, 6, 2, 4] ∧
  [EventKind.captureLost, .halted, .sweepDone, .patrolLag, .stealOn, .stealOff, .fillDone, .fillStopped, .linkCrc,
    .elasticSlip].map EventKind.level = [6, 7, 1, 4, 2, 1, 2, 2, 3, 4]

/-- Counter Read and Time Read return the counters and the time base, each number in the bytes of T92, and change
nothing. The counters of UE lines and of poisoned reads rise by one for their rank, up to 2^32 - 1, and touch no
other (R176, R177, R178, R198, T86). -/
def Obligations.CounterAndTimeRead : Prop :=
  (∀ (args : List Byte) (r : Request) (s : State),
    (Taken 31 args r s → s.mgu.counters.Bounded →
      ∃ p, exec .counterRead s = .next (answered r .done p s) ∧ p.length = 57 ∧
        (∀ i : Fin 4, argument p (4 * i.val) 4 = s.mgu.counters.corrected[i] ∧
          argument p (16 + 4 * i.val) 4 = s.mgu.counters.ueLines[i] ∧
          argument p (32 + 4 * i.val) 4 = s.mgu.counters.poisonedReads[i]) ∧
        argument p 48 4 = s.mgu.counters.lagTicks ∧ argument p 52 4 = s.mgu.counters.overruns ∧
        argument p 56 1 = s.mgu.counters.lostCaptures) ∧
    (Taken 34 args r s →
      ∃ p, exec .timeRead s = .next (answered r .done p s) ∧ p.length = 6 ∧
        argument p 0 6 = s.mgu.timeBase.toNat)) ∧
  ∀ (q : Nat) (s : State),
    let risen := fun (v : Vector Nat 4) => (Vector.ofFn fun r =>
      if r.val = q ∧ v[r] < 2 ^ 32 - 1 then v[r] + 1 else v[r] : Vector Nat 4)
    let counted := fun c : Counters => { s with mgu := { s.mgu with counters := c } }
    countUe q s = counted { s.mgu.counters with ueLines := risen s.mgu.counters.ueLines } ∧
    countPoisonedRead q s = counted { s.mgu.counters with poisonedReads := risen s.mgu.counters.poisonedReads }

/-- Status Read returns the part's state byte by byte as T92 lays it out, and changes nothing; no check of T80 refuses
it, so that it is served in HALTED and during a Core Reset too (R128, R171, R179, R198). That the state of a mark
there is not reads 0 is log 25. -/
def Obligations.StatusRead : Prop :=
  (∀ (args : List Byte) (s : State), takeCheck 35 args s = none) ∧
  ∀ (args : List Byte) (r : Request) (s : State), Taken 35 args r s → Sound s →
    ∃ p, exec .statusRead s = .next (answered r .done p s) ∧ p.length = 54 ∧
      (byteAt p 0 = 1 ↔ s.fcu.halted.isSome) ∧
      (∀ c, s.fcu.halted = some c → byteAt p 1 = c.table.code ∧ byteAt p 2 = BitVec.ofNat 8 c.index) ∧
      (s.fcu.halted = none → byteAt p 1 = 0xFF ∧ byteAt p 2 = 0xFF) ∧
      (byteAt p 3 = match s.mgu.coreReset with
        | none => 0
        | some ⟨.drain, _⟩ => 1
        | some ⟨.abort, _⟩ => 2) ∧ (byteAt p 4 = 1 ↔ s.cod.loopLine.isSome) ∧
      (∀ q < 4, byteAt p (5 + q) = (rankState s q).code) ∧
      (∀ q < 4, byteAt p (9 + q) = ((markOf s q).map fun d => BitVec.ofNat 8 d.val).getD 0xFF) ∧
      (∀ q < 4, byteAt p (13 + q) = ((markState s q).map DeviceState.code).getD 0) ∧
      argument p 17 1 = s.rpq.entries.length ∧
      (∀ k < 4, argument p (18 + k) 1 = s.rpq.entries.countP fun e => e.state.place = k) ∧
      (∀ k < 5, argument p (22 + k) 1 =
        s.sls.slots.toList.countP fun x => x.code = BitVec.ofNat 8 k) ∧
      byteAt p 27 = s.fcu.recordA.content.code ∧ byteAt p 28 = s.fcu.recordB.content.code ∧
      (byteAt p 29 = 0 ↔ s.fcu.next = .a) ∧ (byteAt p 30 = 1 ↔ s.psc.running) ∧
      argument p 31 1 = s.psc.phase ∧ argument p 32 4 = s.psc.credit ∧
      argument p 36 4 = s.psc.lagLimit ∧ (byteAt p 40 = 1 ↔ s.psc.steal) ∧
      (byteAt p 41 = 1 ↔ s.psc.lagging) ∧
      (∀ a, s.psc.cursor = some a → addressOf (field p 42 4) = a) ∧
      (s.psc.cursor = none → argument p 42 4 = 0xFFFFFFFF) ∧ argument p 46 1 = s.mgu.mask ∧
      argument p 47 6 = s.mgu.timeBase.toNat ∧ argument p 53 1 = (bufferedRequests s).length

/-- Identity Read completes DONE with the vendor code 0x4E17, the part code 418, the revision 2 and the three
strap values; it is served in HALTED, and the straps, hence the payload, stay the same at every command but
the assertion of POR (R180). -/
def Obligations.IdentityRead : Prop :=
  (∀ (args : List Byte) (r : Request) (s : State), Taken 36 args r s →
    exec .identityRead s = .next (answered r .done
      [0x4E, 0x17, 0x01, 0xA2, 0x02, BitVec.ofNat 8 s.link.straps.presentRanks,
        BitVec.ofNat 8 s.link.straps.depthExponent, BitVec.ofNat 8 s.link.straps.laneCount] s)) ∧
  (∀ s : State, s.fcu.halted.isSome → s.mgu.coreReset = none → takeCheck 36 [] s = none) ∧
  ∀ (c : Instr) (s t : State), (∀ pins, c ≠ .porAsserted pins) → exec c s = .next t →
    t.link.straps = s.link.straps

/-- Region Read, Phase Read, Device Read and Spare Read return the fields of the item they name, as T92 lays them out,
and change nothing where its storage is sound; an item there is not is refused RANGE. A single-bit error of a
region, a profile or a device entry is corrected and written back, with INTERNAL_CORRECTED. A region or a profile
beyond correction is returned to its empty form or its defaults, with TABLE_FAULT and its capture, and the read
shows that; of a lost current profile steal mode is judged anew. A device entry beyond correction keeps its fault,
the part enters HALTED, and the payload holds the storage-fault indication (R49, R50, R51, R89, R109, R110, R111,
R135, R136, R198). That steal mode is judged with the patrol stopped is log 43, that it is not in HALTED is log
21, and that bytes of absent fields are 0 is log 25. -/
def Obligations.TableReads : Prop :=
  ∀ (args : List Byte) (r : Request) (s : State),
    let n := (byteAt args 0).toNat
    let m := (byteAt args 1).toNat
    (Taken 2 args r s →
      let shows := fun (e : RegionEntry) (p : List Byte) => p.length = 14 ∧
        byteAt p 0 = byteAt args 0 ∧ (byteAt p 1 = 1 ↔ e.valid) ∧
        addressOf (field p 2 4) = e.base ∧ argument p 6 1 = e.rankMask.toNat ∧
        argument p 7 4 = e.indexMask.toNat ∧ byteAt p 11 = e.cls.code ∧
        byteAt p 12 = BitVec.ofNat 8 e.level ∧ byteAt p 13 = BitVec.ofNat 8 s.rgt.defaultLevel
      let e := (regionAt s n).value
      let empty : RegionEntry := ⟨false, ⟨0, 0⟩, 0, 0, .standard, 6⟩
      let put := fun x : RegionEntry =>
        { s with rgt := { s.rgt with entries := setAt s.rgt.entries n ⟨x, .sound⟩ } }
      (15 < n → exec .regionRead s = .next (answered r .range [] s)) ∧
      (n ≤ 15 → (regionAt s n).storage = .sound →
        ∃ p, exec .regionRead s = .next (answered r .done p s) ∧ shows e p) ∧
      (n ≤ 15 → (regionAt s n).storage = .singleBit →
        ∃ p, exec .regionRead s = .next (answered r .done p
          (raise .internalCorrected (.table .region n) (put e))) ∧ shows e p) ∧
      (n ≤ 15 → (regionAt s n).storage = .uncorrectable → RecordsReady s →
        ∃ p, exec .regionRead s = .next (answered r .done p (itemLost .region n (put empty))) ∧
          shows empty p)) ∧
    (Taken 5 args r s →
      let shows := fun (x : Profile) (p : List Byte) => p.length = 11 ∧
        byteAt p 0 = byteAt args 0 ∧ argument p 1 2 = x.period ∧
        (byteAt p 3 = 1 ↔ x.allowed) ∧ argument p 4 4 = x.steal ∧
        argument p 8 2 = x.lazyWait ∧ byteAt p 10 = BitVec.ofNat 8 s.psc.phase
      let x := profileAt s n
      let default : Profile := ⟨320, true, 262144, 20⟩
      let put := fun x : Profile =>
        { s with psc := { s.psc with profiles := setAt s.psc.profiles n ⟨x, .sound⟩ } }
      (7 < n → exec .phaseRead s = .next (answered r .range [] s)) ∧
      (n ≤ 7 → n ≠ s.psc.phase ∨ s.psc.running = false →
        ((storedProfile s n).storage = .sound → x.InRange →
          ∃ p, exec .phaseRead s = .next (answered r .done p s) ∧ shows x p) ∧
        ((storedProfile s n).storage = .singleBit → x.InRange →
          ∃ p, exec .phaseRead s = .next (answered r .done p
            (raise .internalCorrected (.table .phase n) (put x))) ∧ shows x p) ∧
        ((storedProfile s n).storage = .uncorrectable → RecordsReady s →
          let lost := itemLost .phase n (put default)
          ∃ p, exec .phaseRead s = .next (answered r .done p
            (if n = s.psc.phase ∧ s.fcu.halted = none then stealJudged 262144 lost else lost)) ∧
            shows default p))) ∧
    (Taken 7 args r s →
      let k := entryNumber n m
      let e := deviceEntry s k
      let rest := fun p : List Byte => p.length = 12 ∧ byteAt p 0 = BitVec.ofNat 8 (10 * n + m) ∧
        byteAt p 9 = BitVec.ofNat 8 s.dht.decayQ ∧ argument p 10 2 = s.dht.probationK % 65536
      let shows := fun p : List Byte => rest p ∧ argument p 1 2 = e.tally % 65536 ∧
        byteAt p 3 = e.state.code ∧ (byteAt p 4 = 1 ↔ e.touched) ∧ (byteAt p 5 = 1 ↔ e.capped) ∧
        argument p 6 2 = (if e.state = .probation then e.count % 65536 else 0) ∧
        byteAt p 8 = ((markOf s n).map fun d => BitVec.ofNat 8 d.val).getD 0xFF
      let faulty := fun p : List Byte => rest p ∧ byteAt p 3 = 4 ∧
        ∀ i ∈ [1, 2, 4, 5, 6, 7], byteAt p i = 0
      (3 < n ∨ 9 < m → exec .deviceRead s = .next (answered r .range [] s)) ∧
      (n ≤ 3 → m ≤ 9 → (deviceAt s k).storage = .sound →
        ∃ p, exec .deviceRead s = .next (answered r .done p s) ∧ shows p) ∧
      (n ≤ 3 → m ≤ 9 → (deviceAt s k).storage = .singleBit →
        ∃ p, exec .deviceRead s = .next (answered r .done p
          (raise .internalCorrected (.table .health k)
            { s with dht := { s.dht with devices := setAt s.dht.devices k ⟨e, .sound⟩ } })) ∧ shows p) ∧
      (n ≤ 3 → m ≤ 9 → (deviceAt s k).storage = .uncorrectable →
        (s.fcu.halted.isSome → ∃ p, exec .deviceRead s = .next (answered r .done p s) ∧ faulty p) ∧
        (s.fcu.halted = none → RequestsNamed s →
          (∀ w ∈ s.sls.retires, w.request ≠ r.id) →
          (∀ i < 32, ∀ a d t w, slotAt s i = .releasing a d t (some w) → w.request ≠ r.id) →
          ∃ t p, exec .deviceRead s = .next t ∧ t.fcu.halted = some ⟨.health, k⟩ ∧ t.dht = s.dht ∧
            HandedOn r.id (.manageDone r.tag .done p) t ∧ faulty p))) ∧
    (Taken 11 args r s →
      (31 < n → exec .spareRead s = .next (answered r .range [] s)) ∧
      (n ≤ 31 →
        ∃ p, exec .spareRead s = .next (answered r .done p s) ∧ p.length = 21 ∧
          byteAt p 0 = byteAt args 0 ∧ byteAt p 1 = (slotAt s n).code ∧
          (∀ a, (slotAt s n).line? = some a → addressOf (field p 2 4) = a) ∧
          (∀ a hits t, slotAt s n = .watch a hits t →
            byteAt p 6 = BitVec.ofNat 8 hits ∧ argument p 7 6 = t.toNat) ∧
          (∀ a d t, slotAt s n = .active a d t ∨ slotAt s n = .failed a d t ∨
            (∃ w, slotAt s n = .releasing a d t w) → argument p 13 6 = t.toNat) ∧
          byteAt p 19 = BitVec.ofNat 8 s.sls.threshold ∧
          (byteAt p 20 = 1 ↔ s.sls.allocationFailed)))

/-- Cursor Read and Rank Status return the patrol's and the ranks' state as T92 lays it out, and change
nothing (R151, R162, R198). That a due refresh counts as waiting is log 27; the order of the fields per rank
is log 25. -/
def Obligations.CursorAndRankReads : Prop :=
  ∀ (args : List Byte) (r : Request) (s : State), Sound s →
    (Taken 17 args r s →
      ∃ p, exec .cursorRead s = .next (answered r .done p s) ∧ p.length = 17 ∧
        (∀ a, s.psc.cursor = some a → addressOf (field p 0 4) = a) ∧
        (s.psc.cursor = none → argument p 0 4 = 0xFFFFFFFF) ∧
        (byteAt p 4 = 1 ↔ s.psc.wholeSweep) ∧ (byteAt p 5 = 1 ↔ s.psc.running) ∧
        argument p 6 4 = s.psc.credit ∧ argument p 10 4 = s.psc.lagLimit ∧
        (byteAt p 14 = 1 ↔ s.psc.steal) ∧ (byteAt p 15 = 1 ↔ s.psc.lagging) ∧
        argument p 16 1 = s.psc.phase) ∧
    (Taken 24 args r s →
      ∃ p, exec .rankStatus s = .next (answered r .done p s) ∧ p.length = 31 ∧
        (∀ q < 4, byteAt p q = (rankState s q).code ∧
          (byteAt p (4 + q) = 1 ↔ (rankRec s q).selfRefresh) ∧
          argument p (8 + 4 * q) 4 = (rankRec s q).fillPosition % 2 ^ 32 ∧
          argument p (24 + q) 1 = ((waiting s).countP fun w => rankOf w.line = q) % 256) ∧
        argument p 28 1 = s.link.straps.presentRanks ∧
        argument p 29 1 = s.link.straps.depthExponent ∧
        argument p 30 1 = s.link.straps.laneCount)

/-! ## The patrol's pace, timers and storage errors -/

/-- A tick with the patrol running and allowed, a cursor line and no HALTED earns one credit and clears the lagging
flag, then steal mode is judged; at the lag limit it is lost: the lag-tick counter rises, the flag is set, and
PATROL_LAG is raised on the first of a run. Any tick reloads the countdown with P, and a test put off to it is put off
no longer; a tick that neither earns nor is lost does nothing else. A cursor line that waits for its test is tested at
a tick that counts, with the run of skips behind it (`SkipRun`): the first line with no holder and not EXEMPT is the
visit line; a pass that ends by a skip ends as that of a visit does, and where every line of it was skipped the test
is put off to the next tick. The tick reads the current profile with its check. It ends as it would with the profile
sound after a single-bit error is corrected, written back and reported; a profile beyond correction is returned to its
defaults with TABLE_FAULT and its capture, steal mode is judged against their S, and the tick goes on with them. A
checked read of any profile does the same, with steal mode judged for the current one alone (R101, R136, R137, R138,
R141, R144, R145, R148). That the command is not bound to the modelled countdown is log 3; the order of a tick's
events, and of the judgement and the test, is log 12; that steal mode is judged anew with the patrol stopped or a
drain running too is log 43, and that it keeps its value in HALTED is log 21. -/
def Obligations.TickEarnsOrIsLost : Prop :=
  (∀ s : State, s.link.por = false → (storedProfile s s.psc.phase).storage = .sound →
    let p := currentProfile s
    let counts := s.psc.running = true ∧ p.allowed = true ∧ s.psc.cursor.isSome ∧ s.fcu.halted = none
    let ticked := { s with psc := { s.psc with tickCountdown := p.period } }
    (¬counts → exec .tick s = .next { ticked with psc := { ticked.psc with
      cursorPhase := if s.psc.cursorPhase = .deferred then .untested else s.psc.cursorPhase } }) ∧
    ∀ run : State → State,
      (∃ cls, s.psc.cursorPhase = .visitLine cls ∧ run = id) ∨
        (∃ a, s.psc.cursor = some a ∧ (s.psc.cursorPhase = .untested ∨ s.psc.cursorPhase = .deferred) ∧
          RegionsSound s ∧ SkipRun s a s.psc.passVisited run) →
      (counts → s.psc.credit < s.psc.lagLimit →
        exec .tick s = .next (run (stealJudged p.steal
          { ticked with psc := { ticked.psc with credit := s.psc.credit + 1, lagging := false } }))) ∧
      (counts → s.psc.lagLimit ≤ s.psc.credit →
        let n := s.mgu.counters.lagTicks
        let lost := { ticked with
          psc := { ticked.psc with lagging := true }
          mgu := { s.mgu with counters := { s.mgu.counters with
            lagTicks := if n < 2 ^ 32 - 1 then n + 1 else n } } }
        exec .tick s = .next (run (if s.psc.lagging then lost else raise .patrolLag .none lost)))) ∧
  ∀ (s : State) (n : Nat), n < 8 →
    let judged := fun u : State =>
      if n = s.psc.phase ∧ s.fcu.halted = none then stealJudged 262144 u else u
    let corrected := raise .internalCorrected (.table .phase n) s
    let defaulted := judged (itemLost .phase n (profileDefaulted n s))
    let reads := fun x (p : Profile) (t : State) => readProfile n (profileErr n x s) = (p, t)
    reads .sound (profileAt s n) (profileErr n .sound s) ∧
    ((storedProfile s n).storage = .sound →
      reads .singleBit (profileAt s n) corrected ∧
      (s.psc.phase = n → s.link.por = false →
        exec .tick (profileErr n .singleBit s) = exec .tick corrected)) ∧
    (RecordsReady s →
      reads .uncorrectable ⟨320, true, 262144, 20⟩ defaulted ∧
      (s.psc.phase = n → s.link.por = false →
        exec .tick (profileErr n .uncorrectable s) = exec .tick defaulted))

/-- The end of a lazy wait makes the line's WAITING entry READY, unless the part is HALTED; the time base counts
one microsecond and wraps. A storage error turns sound storage single-bit and anything else uncorrectable, in
the item it strikes alone; that a second error is beyond correction is the model's choice (log 13), and so is
the error that strikes between a capture's write and its check-back (log 14); that a lazy wait ends whatever its
countdown shows is log 3 (R58, R71, R130, R178). -/
def Obligations.TimersAndStorageErrors : Prop :=
  ∀ s : State, s.link.por = false →
    (∀ a, RepairQueueFits s → exec (.lazyWaitExpiry a) s = .next
      (if s.fcu.halted.isSome then s
      else { s with rpq := { s.rpq with entries := s.rpq.entries.map fun e =>
        match e.state with
        | .waiting _ => if e.line = a then { e with state := .ready } else e
        | _ => e } })) ∧
    exec .timeBaseAdvance s =
      .next { s with mgu := { s.mgu with timeBase := BitVec.ofNat 48 (s.mgu.timeBase.toNat + 1) } } ∧
    ∀ severity : Severity,
      let worse := fun x : Storage =>
        if x = .sound ∧ severity = .singleBit then Storage.singleBit else Storage.uncorrectable
      (∀ n : Fin 16, exec (.storageError (.region n) severity) s =
        .next { s with rgt := { s.rgt with
          entries := s.rgt.entries.set n ⟨s.rgt.entries[n].value, worse s.rgt.entries[n].storage⟩ } }) ∧
      (∀ n : Fin 8, exec (.storageError (.phase n) severity) s =
        .next { s with psc := { s.psc with
          profiles := s.psc.profiles.set n
            ⟨s.psc.profiles[n].value, worse s.psc.profiles[n].storage⟩ } }) ∧
      (∀ n : Fin 40, exec (.storageError (.device n) severity) s =
        .next { s with dht := { s.dht with
          devices := s.dht.devices.set n
            ⟨s.dht.devices[n].value, worse s.dht.devices[n].storage⟩ } }) ∧
      (∀ (n : Fin 32) (flips : Line), (slotAt s n).data? = none →
        exec (.storageError (.slot n flips) severity) s = .next s) ∧
      (∀ (n : Fin 32) (flips : Line) (d : StoredLine), (slotAt s n).data? = some d →
        exec (.storageError (.slot n flips) severity) s =
          .next (setSlot n ((slotAt s n).withData
            (if worse d.storage = .singleBit then { d with storage := .singleBit }
            else { d with storage := .uncorrectable,
                          flips := Vector.ofFn fun i => d.flips[i] ^^^ flips[i] })) s)) ∧
      (∀ x, exec (.storageError (.capture x) severity) s =
        .next (setRecord x { recordAt s x with storage := worse (recordAt s x).storage } s)) ∧
      (∀ x, exec (.storageError (.captureCheckBack x) severity) s =
        .next (setRecord x { recordAt s x with strike := worse (recordAt s x).strike } s))

/-! ## Management requests that load and set -/

/-- The order of the checks on a request that is taken: BUSY during a Core Reset for all but Status Read, then HALTED
for all but those served in HALTED, then RANGE for an argument too short; a refused request changes nothing else.
A command of a kind that is not the oldest QUEUED request's changes nothing, and a kind that is none of T82 is
answered UNKNOWN whatever the state (R128, R170, R171). That a Core Reset of neither flavour is taken by the DRAIN
row is log 11, and that a command of another kind changes nothing is log 1. Two things are the model's choice:
that a Core Reset whose MANAGE-DONE is pending still answers BUSY is log 37, and that a refused Echo Set's
MANAGE-DONE waits for room like any other is log 49. -/
def Obligations.TakeChecksInOrder : Prop :=
  ∀ s : State, s.link.por = false →
    let commands : List (Nat × Instr) :=
      [(1, .regionLoad), (2, .regionRead), (3, .regionDefault), (4, .phaseLoad), (5, .phaseRead),
       (6, .phaseSet), (7, .deviceRead), (8, .deviceMark), (9, .deviceUnmark), (10, .healthParams),
       (11, .spareRead), (12, .spareRetire), (13, .spareRelease), (14, .spareParams),
       (15, .patrolStart), (16, .patrolStop), (17, .cursorRead), (18, .cursorSet), (19, .pacingSet),
       (20, .pacingReset), (21, .rankFill), (22, .rankOnline), (23, .rankOffline), (24, .rankStatus),
       (25, .captureRead), (26, .captureRelease), (27, .injectSet), (28, .injectClear),
       (29, .loopSet), (30, .alertMaskSet), (31, .counterRead), (32, .counterClear), (33, .timeSet),
       (34, .timeRead), (35, .statusRead), (36, .identityRead), (38, .echoSet)]
    (∀ p ∈ commands, (∀ r k args, oldestManage s = some (r, k, args) → k ≠ p.1) →
      exec p.2 s = .next s) ∧
    (∀ c ∈ [Instr.coreResetDrain, .coreResetAbort], (∀ r k args, oldestManage s = some (r, k, args) → k ≠ 37) →
      exec c s = .next s) ∧
    ∀ r k args, oldestManage s = some (r, k, args) → s.link.state = .active →
      findRequest r.id s = some r → r.orphan = false → r.hold = none →
      (∀ c, s.mgu.coreReset = some c → c.request ≠ r.id) →
      (k = 0 ∨ 38 < k → exec .unknownRequest s = .next (answered r .unknown [] s)) ∧
      (1 ≤ k → k ≤ 38 → exec .unknownRequest s = .next s) ∧
      ∀ p ∈ commands ++ [(37, if args.head? = some 1 then .coreResetAbort else .coreResetDrain)],
        p.1 = k →
        (s.mgu.coreReset.isSome → k ≠ 35 → exec p.2 s = .next (answered r .busy [] s)) ∧
        (s.mgu.coreReset = none → s.fcu.halted.isSome → k ∉ [7, 25, 26, 31, 35, 36] →
          ¬(k = 37 ∧ args.head? = some 1) → exec p.2 s = .next (answered r .halted [] s)) ∧
        (s.mgu.coreReset = none → s.fcu.halted = none → args.length < argumentsNeeded k →
          exec p.2 s = .next (answered r .range [] s))

/-- Region Load, Inject Set, Inject Clear and Loop Set replace the item they name whole, and complete DONE, or
are refused and change nothing (R15, R17, R48). That bits above the flags of a mask are dropped is log 26. -/
def Obligations.LoadsReplaceTheirItem : Prop :=
  ∀ (args : List Byte) (r : Request) (s : State),
    let n := (byteAt args 0).toNat
    (Taken 1 args r s →
      let base := addressOf (field args 2 4)
      (15 < n ∨ 3 < rankOf base ∨ depth s ≤ base.index.toNat ∨ 3 < (byteAt args 11).toNat →
        exec .regionLoad s = .next (answered r .range [] s)) ∧
      ∀ cls : RegionClass, n ≤ 15 → rankOf base ≤ 3 → base.index.toNat < depth s →
        byteAt args 11 = cls.code →
        exec .regionLoad s = .next (answered r .done []
          (setRegion n
            ⟨{ valid := decide (byteAt args 1 ≠ 0), base := base,
               rankMask := (byteAt args 6).setWidth 2, indexMask := BitVec.ofNat 27 (argument args 7 4),
               cls := cls, level := max 1 (min 7 (byteAt args 12).toNat) }, .sound⟩ s))) ∧
    (Taken 27 args r s →
      let line := addressOf (field args 1 4)
      let codewords := (byteAt args 6).setWidth 4
      let pattern := BitVec.ofNat 16 (argument args 7 2)
      let refused := 1 < n ∨ 3 < rankOf line ∨ depth s ≤ line.index.toNat ∨
        9 < (byteAt args 5).toNat ∨ codewords = 0 ∨ pattern = 0
      (refused → exec .injectSet s = .next (answered r .range [] s)) ∧
      (¬refused → exec .injectSet s = .next (answered r .done []
        { s with cod := { s.cod with injections := setAt s.cod.injections n (some
          { line := line, device := (byteAt args 5).toNat, codewords := codewords, pattern := pattern,
            count := max 1 (byteAt args 9).toNat }) } }))) ∧
    (Taken 28 args r s →
      exec .injectClear s = .next
        (if 1 < n then answered r .range [] s
        else answered r .done []
          { s with cod := { s.cod with injections := setAt s.cod.injections n none } })) ∧
    (Taken 29 args r s →
      let idle := ∀ q < 4, rankState s q = .offline ∨ rankState s q = .absent
      (n = 0 → exec .loopSet s = .next (answered r .done [] (setLoop none s))) ∧
      (n = 1 → ¬idle → exec .loopSet s = .next (answered r .wrongState [] s)) ∧
      (n = 1 → idle → s.cod.loopLine = none →
        exec .loopSet s = .next (answered r .done [] (setLoop (some (encode zeroLine)) s))) ∧
      (n = 1 → idle → s.cod.loopLine.isSome → exec .loopSet s = .next (answered r .done [] s)) ∧
      (1 < n → exec .loopSet s = .next (answered r .range [] s)))

/-- Phase Load replaces a profile, each number clamped; Phase Set makes a profile current and reloads the tick
countdown. Where the profile loaded or set is the current one, steal mode is judged by its S, and where it
disallows patrol the cursor line stands untested; PSC tests nothing while it has no line to test (R133, R134,
R141, R145). That a test put off to a tick is forgotten then is log 34. The order of events and answers is log 12. -/
def Obligations.PhaseLoadAndSet : Prop :=
  ∀ (args : List Byte) (r : Request) (s : State),
    let n := (byteAt args 0).toNat
    let allowance := fun (p : Profile) (u : State) =>
      if p.allowed then u else { u with psc := { u.psc with cursorPhase := .untested } }
    (Taken 4 args r s →
      let p : Profile :=
        { period := max 1 (argument args 1 2), allowed := decide (byteAt args 3 ≠ 0),
          steal := min 4194303 (argument args 4 4), lazyWait := argument args 8 2 }
      let loaded := setProfile n ⟨p, .sound⟩ s
      (7 < n → exec .phaseLoad s = .next (answered r .range [] s)) ∧
      (n ≤ 7 → n ≠ s.psc.phase → exec .phaseLoad s = .next (answered r .done [] loaded)) ∧
      (n ≤ 7 → n = s.psc.phase → p.allowed = false ∨ NoLineToTest s →
        exec .phaseLoad s = .next (answered r .done [] (allowance p (stealJudged p.steal loaded))))) ∧
    (Taken 6 args r s →
      let p := profileAt s n
      let current := { s with psc := { s.psc with phase := n, tickCountdown := p.period } }
      (7 < n → exec .phaseSet s = .next (answered r .range [] s)) ∧
      (n ≤ 7 → (storedProfile s n).storage = .sound → p.allowed = false ∨ NoLineToTest s →
        exec .phaseSet s = .next (answered r .done [] (allowance p (stealJudged p.steal current)))))

/-- Device Mark makes a device of a rank with no mark MARKED, with DEVICE_MARKED; Device Unmark puts a MARKED device
in PROBATION with count 0. Each is refused RANGE for a rank or device there is not and WRONG_STATE otherwise; no
other device entry changes. Where an entry of the rank holds an uncorrectable error the part enters HALTED with
that entry as the cause, the request is answered HALTED, and no device entry changes but that the single-bit
errors of that rank are corrected (R103, R104, R110, R111). The order of events and answers is log 12. -/
def Obligations.MarkAndUnmark : Prop :=
  ∀ (args : List Byte) (r : Request) (s : State),
    let q := (byteAt args 0).toNat
    let d := (byteAt args 1).toNat
    let outside := 3 < q ∨ rankState s q = .absent ∨ 9 < d
    let e := deviceEntry s (entryNumber q d)
    let put := fun x : DeviceEntry =>
      { s with dht := { s.dht with devices := setAt s.dht.devices (entryNumber q d) ⟨x, .sound⟩ } }
    (Taken 8 args r s →
      (outside → exec .deviceMark s = .next (answered r .range [] s)) ∧
      (¬outside → RankSound q s → (markOf s q).isSome →
        exec .deviceMark s = .next (answered r .wrongState [] s)) ∧
      (¬outside → RankSound q s → markOf s q = none →
        exec .deviceMark s = .next (answered r .done [] (raise .deviceMarked (.device q d)
          (put { e with tally := 256, state := .marked, capped := false, count := 0 }))))) ∧
    (Taken 9 args r s →
      (outside → exec .deviceUnmark s = .next (answered r .range [] s)) ∧
      (¬outside → RankSound q s → e.state ≠ .marked →
        exec .deviceUnmark s = .next (answered r .wrongState [] s)) ∧
      (¬outside → RankSound q s → e.state = .marked →
        exec .deviceUnmark s = .next (answered r .done [] (put { e with state := .probation, count := 0 })))) ∧
    (∀ k c, (k = 8 ∧ c = Instr.deviceMark) ∨ (k = 9 ∧ c = Instr.deviceUnmark) → Taken k args r s →
      ¬outside → (∃ i < 10, (deviceAt s (entryNumber q i)).storage = .uncorrectable) → RequestsNamed s →
      ∃ t cause, exec c s = .next t ∧ t.fcu.halted = some cause ∧ cause.table = .health ∧
        (deviceAt s cause.index).storage = .uncorrectable ∧ cause.index / 10 = q ∧
        HandedOn r.id (.manageDone r.tag .halted []) t ∧
        ∀ n < 40, (deviceAt t n).value = (deviceAt s n).value ∧
          ((deviceAt t n).storage = (deviceAt s n).storage ∨
            n / 10 = q ∧ (deviceAt s n).storage = .singleBit ∧ (deviceAt t n).storage = .sound))

/-- Spare Retire and Spare Release by the state of the line and of the slot: refusals in their order; a line with no
holder has its RETIRE read asked for; a REPAIR entry's data goes to a slot at once, or BUSY answers where every
slot is taken; a WATCH or FAILED slot is freed, an ACTIVE one of an ONLINE rank begins its release. When a RETIRE
read finishes the line is looked at again: WRONG_STATE where its data is lost, its rank has left ONLINE or it has
a holder other than a REPAIR entry, BUSY where it was overwritten or no slot can be had; else the line is ACTIVE
in the slot chosen, and the request is answered DONE with its number. A watch hit takes a slot for a new line,
counts one more hit, or at the threshold retires the line; with no slot to take it is dropped, with SPARE_FULL the
first time; a verdict that is no hit does nothing. What a release write carries, sound storage or not, is stated
in `WriteIsFormedAtItsGrant`; names and ages are the model's stamps, log 38 (R64, R75, R76, R77, R78, R79, R80,
R81, R83). The order of events and answers is log 12. -/
def Obligations.SpareRetireAndRelease : Prop :=
  (∀ (args : List Byte) (r : Request) (s : State),
    let a := addressOf (field args 0 4)
    let n := (byteAt args 0).toNat
    let serving := { s with dem := { s.dem with requests := s.dem.requests.map fun q =>
      if q.id = r.id then { q with phase := .serving } else q } }
    (Taken 12 args r s →
      let inside := rankState s (rankOf a) ≠ .absent ∧ a.index.toNat < depth s
      let online := rankState s (rankOf a) = .online
      (¬inside → exec .spareRetire s = .next (answered r .range [] s)) ∧
      (inside → ¬online → exec .spareRetire s = .next (answered r .wrongState [] s)) ∧
      (inside → online → (∃ i, holder a s = .slot i) ∨ (∃ e, holder a s = .entry e ∧ e.kind = .poison) →
        exec .spareRetire s = .next (answered r .wrongState [] s)) ∧
      (inside → online → holder a s = .none →
        exec .spareRetire s = .next { serving with
          sls := { s.sls with retires := s.sls.retires ++ [⟨r.id, a, s.stamp⟩] }
          stamp := s.stamp + 1 }) ∧
      (∀ e, inside → online → holder a s = .entry e → e.kind = .repair →
        (∀ i < 32, (slotAt s i).holds = true) →
        exec .spareRetire s = .next (answered r .busy [] s)) ∧
      (∀ e i, inside → online → holder a s = .entry e → e.kind = .repair → e.state ≠ .writing → i < 32 →
        slotAt s i = .free → (∀ j < i, slotAt s j ≠ .free) → (∀ j < 32, (slotAt s j).line? ≠ some a) →
        s.sls.retires = [] → s.fcu.contexts = [] → s.psc.cursor ≠ some a → followerOf a s = none →
        exec .spareRetire s = .next (answered r .done [BitVec.ofNat 8 i]
          (raise .spareRetired (.line a)
            { s with
              sls := { s.sls with
                slots := setAt s.sls.slots i (.active a ⟨e.data, .sound, zeroLine⟩ s.mgu.timeBase) }
              rpq := { s.rpq with entries := s.rpq.entries.filter fun x => x.id != e.id } })))) ∧
    (Taken 13 args r s →
      (31 < n → exec .spareRelease s = .next (answered r .range [] s)) ∧
      (n ≤ 31 →
        (slotAt s n = .free → exec .spareRelease s = .next (answered r .wrongState [] s)) ∧
        (∀ b hits t, slotAt s n = .watch b hits t →
          exec .spareRelease s = .next (answered r .done [] (setSlot n .free s))) ∧
        (∀ b d t, slotAt s n = .active b d t → rankState s (rankOf b) ≠ .online →
          exec .spareRelease s = .next (answered r .wrongState [] s)) ∧
        (∀ b d t, slotAt s n = .active b d t → rankState s (rankOf b) = .online →
          exec .spareRelease s = .next { setSlot n (.releasing b d t (some ⟨r.id, s.stamp⟩)) serving with
            stamp := s.stamp + 1 }) ∧
        (∀ b d t, slotAt s n = .failed b d t → followerOf b s = none →
          exec .spareRelease s = .next (answered r .done [] (setSlot n .free s))) ∧
        (∀ b d t w, slotAt s n = .releasing b d t w →
          exec .spareRelease s = .next (answered r .wrongState [] s))))) ∧
  (∀ (s : State) (g : Granted) (w : RetireWork) (r : Request) (beats : Burst), Finishing g s →
    g.op = .retireRead r.id →
    let raw := fromBeats beats
    let v := verdictOf g .retire raw s
    let used := consume v { s with drp := { s.drp with port := none } }
    let ended := { used with sls := { used.sls with
      retires := used.sls.retires.filter fun x => x.request != r.id } }
    let lost := v.verdict = .uncorrectable ∨ v.verdict = .poisoned
    let online := rankState used (rankOf w.line) = .online
    let answers := fun (t : State) => exec (.dramReadFinish beats) s = .next (settle t)
    (used.sls.retires.find? fun x => x.request == r.id) = some w → Answerable r used → r.hold = none →
      used.fcu.halted = none →
      (lost ∨ ¬online → answers (answered r .wrongState [] ended)) ∧
      (¬lost → online → v.overwritten = true → answers (answered r .busy [] ended)) ∧
      (¬lost → online → v.overwritten = false →
        ((∃ i, holder w.line used = .slot i) ∨ (∃ e, holder w.line used = .entry e ∧ e.kind = .poison) →
          answers (answered r .wrongState [] ended)) ∧
        ∀ data, (holder w.line used = .none ∧ data = v.corrected) ∨
            (∃ e, holder w.line used = .entry e ∧ e.kind = .repair ∧ data = e.data) →
          (∀ i, ChosenSlot w.line i used → Unattended w.line ended →
            answers (answered r .done [BitVec.ofNat 8 i] (retiredInto i w.line data ended))) ∧
          ((∀ i < 32, (slotAt used i).holds = true) → answers (answered r .busy [] ended)))) ∧
  ∀ (v : VerdictRecord) (s : State),
    let hit := v.repairable = true ∧ v.source ≠ .retire ∧ v.overwritten = false ∧
      (∀ i < 32, (slotAt s i).line? = some v.line → (slotAt s i).holds = false) ∧
      rankState s (rankOf v.line) = .online ∧ s.fcu.halted = none
    let unnamed := ∀ i < 32, (slotAt s i).line? ≠ some v.line
    (¬hit → watchVerdict v s = s) ∧
    (hit → unnamed → ∀ i, FreeOrOldest i s → watchVerdict v s = { s with sls := { s.sls with
      slots := setAt s.sls.slots i (.watch v.line 1 s.mgu.timeBase), allocationFailed := false } }) ∧
    (hit → (∀ i < 32, (slotAt s i).holds = true) →
      let failed := { s with sls := { s.sls with allocationFailed := true } }
      watchVerdict v s = if s.sls.allocationFailed = true then s else raise .spareFull (.line v.line) failed) ∧
    (∀ i hits t, hit → SlotsFit s → i < 32 → slotAt s i = .watch v.line hits t →
      (hits + 1 < s.sls.threshold →
        watchVerdict v s = setSlot i (.watch v.line (hits + 1) s.mgu.timeBase) s) ∧
      (s.sls.threshold ≤ hits + 1 → Unattended v.line s →
        watchVerdict v s = retiredInto i v.line v.corrected s))

/-- Patrol Start, Patrol Stop, Cursor Set, Pacing Set and Pacing Reset. A line that the patrol comes to while running
and allowed, under sound tables, is tested, with the run of skips behind it (`SkipRun`): the first with no holder
and not EXEMPT is the visit line (R101, R139, R140, R141, R144, R145, R148, R150, R151). The order of events and
answers is log 12. -/
def Obligations.PatrolRequests : Prop :=
  ∀ (args : List Byte) (r : Request) (s : State),
    let a := addressOf (field args 0 4)
    let tested := PatrolTablesSound s ∧ (currentProfile s).allowed = true
    (Taken 15 args r s →
      (s.psc.running = true → exec .patrolStart s = .next (answered r .done [] s)) ∧
      (s.psc.running = false → s.psc.cursor = none →
        exec .patrolStart s = .next (answered r .done [] { s with psc := { s.psc with running := true } })) ∧
      (∀ b run, s.psc.running = false → s.psc.cursor = some b → s.psc.cursorPhase = .untested → tested →
        SkipRun s b s.psc.passVisited run →
        exec .patrolStart s = .next (answered r .done []
          (run { s with psc := { s.psc with running := true } })))) ∧
    (Taken 16 args r s → exec .patrolStop s = .next (answered r .done []
      { s with psc := { s.psc with running := false, cursorPhase := .untested } })) ∧
    (Taken 18 args r s →
      let moved := { s.psc with
        cursor := some a, cursorPhase := .untested, wholeSweep := decide (a.index = 0), passVisited := false }
      (rankState s (rankOf a) ≠ .online ∨ depth s ≤ a.index.toNat →
        exec .cursorSet s = .next (answered r .range [] s)) ∧
      (rankState s (rankOf a) = .online → a.index.toNat < depth s → s.psc.running = false →
        exec .cursorSet s = .next (answered r .done [] { s with psc := moved })) ∧
      (∀ run, rankState s (rankOf a) = .online → a.index.toNat < depth s → s.psc.running = true → tested →
        SkipRun s a false run →
        exec .cursorSet s = .next (answered r .done [] (run { s with psc := moved })))) ∧
    (Taken 19 args r s → (storedProfile s s.psc.phase).storage = .sound → NoLineToTest s →
      let limit := max 1 (min 4194303 (argument args 0 4))
      exec .pacingSet s = .next (answered r .done [] (stealJudged (currentProfile s).steal
        { s with psc := { s.psc with lagLimit := limit, credit := min s.psc.credit limit } }))) ∧
    (Taken 20 args r s →
      let cleared := { s with psc := { s.psc with credit := 0, lagging := false, steal := false } }
      exec .pacingReset s = .next (answered r .done []
        (if s.psc.steal then raise .stealOff .none cleared else cleared)))

/-- Rank Fill, Rank Online and Rank Offline by the rank's state: refusals in their order; a fill frees the slots of
the rank and starts at position 0; a rank that comes ONLINE moves a parked cursor to its index 0; a FILLING rank
made OFFLINE raises FILL_STOPPED. Where the cursor stands in a rank made OFFLINE its pass is abandoned, with no
decay, no SWEEP_DONE and the touched flags kept: the cursor moves to index 0 of the next ONLINE rank, where the
test goes on, or is parked with none. A rank OFFLINE with no operation left, refreshes aside, is in self-refresh
after it, its countdown stopped; one with an operation left is not (R88, R144, R149, R156, R157, R158, R159, R161,
R163). That a refresh at DRAM still counts as an operation is log 29. The order of events and answers is log 12. -/
def Obligations.RankRequests : Prop :=
  ∀ (args : List Byte) (r : Request) (s : State),
    let q := (byteAt args 0).toNat
    let put := fun (x : RankRec) (u : State) =>
      { u with drp := { u.drp with ranks := setAt u.drp.ranks q x } }
    let refreshed := some ((rankRec s q).refresh.getD 36)
    (∀ k c, (k = 21 ∧ c = Instr.rankFill) ∨ (k = 22 ∧ c = Instr.rankOnline) → Taken k args r s →
      (rankState s q = .absent → exec c s = .next (answered r .range [] s)) ∧
      (rankState s q ≠ .absent → s.cod.loopLine.isSome ∨ rankState s q ≠ .offline →
        exec c s = .next (answered r .wrongState [] s))) ∧
    (Taken 21 args r s → rankState s q = .offline → s.cod.loopLine = none →
      ∃ t, exec .rankFill s = .next (answered r .done [] t) ∧
        (∀ i < 32, slotAt t i =
          if ((slotAt s i).line?.map rankOf) = some q then .free else slotAt s i) ∧
        t = put ⟨.filling, false, 0, refreshed⟩
          { s with sls := { s.sls with slots := t.sls.slots } }) ∧
    (Taken 22 args r s → rankState s q = .offline → s.cod.loopLine = none →
      let online := put ⟨.online, false, (rankRec s q).fillPosition, refreshed⟩ s
      (s.psc.cursor.isSome → exec .rankOnline s = .next (answered r .done [] online)) ∧
      (s.psc.cursor = none → s.psc.running = false →
        exec .rankOnline s = .next (answered r .done []
          { online with psc := { s.psc with
            cursor := some (lineAt q 0), cursorPhase := .untested, wholeSweep := true,
            passVisited := false } }))) ∧
    (Taken 23 args r s →
      let offline := put { rankRec s q with state := .offline } s
      (rankState s q = .absent → exec .rankOffline s = .next (answered r .range [] s)) ∧
      (rankState s q = .offline → exec .rankOffline s = .next (answered r .wrongState [] s)) ∧
      (rankState s q = .filling → RequestsNamed s →
        exec .rankOffline s = .next (answered r .done [] (settle (raise .fillStopped (.rank q) offline)))) ∧
      (rankState s q = .online → (∃ e ∈ s.rpq.entries, rankOf e.line = q) →
        exec .rankOffline s = .next (answered r .busy [] s)) ∧
      (rankState s q = .online → (∃ i < 32, ∃ a d t w, slotAt s i = .releasing a d t w ∧ rankOf a = q) →
        exec .rankOffline s = .next (answered r .busy [] s)) ∧
      (rankState s q = .online → (∀ e ∈ s.rpq.entries, rankOf e.line ≠ q) →
        (∀ i < 32, ∀ a d t w, slotAt s i = .releasing a d t w → rankOf a ≠ q) → s.fcu.contexts = [] →
        RequestsNamed s →
        let next := [(q + 1) % 4, (q + 2) % 4, (q + 3) % 4, q].find? fun p =>
          decide (rankState offline p = .online)
        let answers := fun u : State => exec .rankOffline s = .next (answered r .done [] (settle u))
        ((∀ a, s.psc.cursor = some a → rankOf a ≠ q) → answers offline) ∧
        ((∃ a, s.psc.cursor = some a ∧ rankOf a = q) →
          (next = none → answers { offline with psc := { s.psc with
            cursor := none, cursorPhase := .untested, wholeSweep := false, passVisited := false } }) ∧
          ∀ p, next = some p →
            (s.psc.running = false ∨ PatrolTablesSound s ∧ (currentProfile s).allowed = false →
              answers (passBegun p .untested offline)) ∧
            ∀ run, s.psc.running = true → PatrolTablesSound s → (currentProfile s).allowed = true →
              s.fcu.halted = none → SkipRun offline (lineAt p 0) false run →
              answers (run (passBegun p .untested offline))))) ∧
    (∀ k < 4, rankState s k = .offline → (rankRec s k).selfRefresh = false →
      (rankBusy s k = true → rankRec (settle s) k = rankRec s k) ∧
      (rankBusy s k = false →
        rankRec (settle s) k = { rankRec s k with selfRefresh := true, refresh := none } ∧
        k ∉ (settle s).drp.refreshDue))

/-- Capture Read answers DONE with a part of the record: the state byte alone for an EMPTY record's head, the head of
a HELD one with every field of T96, its held write in two more parts; a record whose contents are lost answers its
state alone. The read corrects a single-bit error and finds an uncorrectable one, with their events. Capture Release
empties the record and moves no pointer. A capture goes to the record the next pointer names if that is EMPTY, else to
the other, and is lost with CAPTURE_LOST where neither is; in HALTED it is not made. A record just written is read
back. With no error, or with a single-bit one, which is corrected and reported by INTERNAL_CORRECTED naming the
record, the placement is complete. With an error beyond correction the record stays HELD with its contents lost, the
next pointer moves past it all the same, the event that accompanies the capture is raised naming it, and the part then
enters HALTED with the record as cause: so for any capture, for the TABLE_FAULT of an item of a table, and at a Region
Read, which is answered DONE all the same (R119, R122, R124, R125, R126, R127, R199). That an error between the write
and its check-back is armed beforehand, by a field of the model's own, is log 14; that an unread fault shows as lost
once found is log 15; the bytes of absent fields, and the device and weight of a FILLED outcome, are log 25. -/
def Obligations.CapturesArePlacedReadAndReleased : Prop :=
  [CaptureKind.demandUe, .patrolUe, .rmwUe, .slotFailed, .tableFault].map CaptureKind.code = [1, 2, 3, 4, 5] ∧
  (∀ (args : List Byte) (r : Request) (s : State),
    let n := (byteAt args 0).toNat
    let m := (byteAt args 1).toNat
    (Taken 25 args r s →
      (1 < n ∨ 2 < m → exec .captureRead s = .next (answered r .range [] s)) ∧
      ∀ x, byteAt args 0 = recordCode x → m ≤ 2 →
        let content := (recordAt s x).content
        let subject := Subject.table .capture (recordIndex x)
        ((recordAt s x).storage = .sound →
          (content = .empty →
            exec .captureRead s = .next (answered r .done (if m = 0 then [0] else []) s)) ∧
          (content = .lost → exec .captureRead s = .next (answered r .done [2] s)) ∧
          (∀ c, content = .held c → m = 0 →
            ∃ p, exec .captureRead s = .next (answered r .done p s) ∧ p.length = 41 ∧
              byteAt p 0 = 1 ∧ byteAt p 1 = c.kind.code ∧
              (∀ i < 8, (byteAt p 2).getLsbD i = true ↔ (i = 0 ∧ c.line.isSome) ∨ (i = 1 ∧ c.retry.isSome) ∨
                (i = 2 ∧ c.held.isSome) ∨ (i = 3 ∧ c.table.isSome)) ∧
              (∀ a, c.line = some a → addressOf (field p 3 4) = a) ∧
              (c.line = none → field p 3 4 = [0, 0, 0, 0]) ∧
              byteAt p 7 = (c.region.map fun i => BitVec.ofNat 8 i).getD 0xFF ∧
              byteAt p 8 = BitVec.ofNat 8 c.phase ∧ argument p 9 6 = c.time.toNat ∧
              (match c.retry with
                | some (.unstable devices) => byteAt p 15 = 1 ∧ argument p 16 2 = devices.toNat
                | _ => field p 15 3 = [0, 0, 0]) ∧
              (∀ j : Fin 4, match c.outcomes[j] with
                | .clean => field p (18 + 5 * j.val) 5 = [0, 0xFF, 0, 0, 0]
                | .fixed d x => field p (18 + 5 * j.val) 2 = [1, BitVec.ofNat 8 d.val] ∧
                    argument p (20 + 5 * j.val) 2 = x.toNat ∧
                    argument p (22 + 5 * j.val) 1 = (List.range 16).countP fun i => x.getLsbD i
                | .filled x => field p (18 + 5 * j.val) 2 = [2, 0xFF] ∧
                    argument p (20 + 5 * j.val) 2 = x.toNat ∧ byteAt p (22 + 5 * j.val) = 0
                | .poisonMark => field p (18 + 5 * j.val) 5 = [3, 0xFF, 0, 0, 0]
                | .uncorrectable => field p (18 + 5 * j.val) 5 = [4, 0xFF, 0, 0, 0]
                | .notRead => field p (18 + 5 * j.val) 5 = [5, 0xFF, 0, 0, 0]) ∧
              byteAt p 38 = (c.mark.map fun i => BitVec.ofNat 8 i).getD 0xFF ∧
              (match c.table with
                | some (x, i) => field p 39 2 = [x.code, BitVec.ofNat 8 i]
                | none => field p 39 2 = [0, 0])) ∧
          (∀ c mask data, content = .held c → c.held = some (mask, data) →
            (m = 1 → ∃ p, exec .captureRead s = .next (answered r .done p s) ∧
              maskOf (field p 0 8) = mask ∧ ∀ i : Fin 32, byteAt p (8 + i.val) = data[i.val]) ∧
            (m = 2 → ∃ p, exec .captureRead s = .next (answered r .done p s) ∧ p.length = 32 ∧
              ∀ i : Fin 32, byteAt p i.val = data[32 + i.val])) ∧
          (∀ c, content = .held c → c.held = none → 0 < m →
            exec .captureRead s = .next (answered r .done [] s))) ∧
        ((recordAt s x).storage = .singleBit →
          exec .captureRead s = .next (answered r .done (content.part m)
            (raise .internalCorrected subject (setRecord x { recordAt s x with storage := .sound } s)))) ∧
        ((recordAt s x).storage = .uncorrectable →
          exec .captureRead s = .next (answered r .done [2]
            (raise .tableFault subject (setRecord x { recordAt s x with content := .lost } s))))) ∧
    (Taken 26 args r s →
      (1 < n → exec .captureRelease s = .next (answered r .range [] s)) ∧
      ∀ x, byteAt args 0 = recordCode x →
        exec .captureRelease s = .next (answered r .done []
          (setRecord x { recordAt s x with content := .empty, storage := .sound } s)))) ∧
  (∀ (args : List Byte) (r : Request) (s : State), Taken 2 args r s →
    let n := (byteAt args 0).toNat
    n ≤ 15 → (regionAt s n).storage = .uncorrectable → s.fcu.halted = none →
    (recordAt s s.fcu.next).content = .empty → (recordAt s s.fcu.next).strike = .uncorrectable →
    RequestsNamed s → (∀ w ∈ s.sls.retires, w.request ≠ r.id) →
    (∀ i < 32, ∀ a d t w, slotAt s i = .releasing a d t (some w) → w.request ≠ r.id) →
    ∃ t p, exec .regionRead s = .next t ∧ t.fcu.halted = some ⟨.capture, recordIndex s.fcu.next⟩ ∧
      recordAt t s.fcu.next = ⟨.lost, .uncorrectable, .sound⟩ ∧
      t.fcu.next = (if s.fcu.next = .a then .b else .a) ∧
      regionAt t n = ⟨⟨false, ⟨0, 0⟩, 0, 0, .standard, 6⟩, .sound⟩ ∧
      HandedOn r.id (.manageDone r.tag .done p) t) ∧
  ∀ (c : Capture) (s : State),
    (s.fcu.halted.isSome → placeCapture c s = (none, s)) ∧
    (s.fcu.halted = none → (∀ x, (recordAt s x).strike = .sound) →
      let other := if s.fcu.next = .a then RecordName.b else .a
      let written := fun x rest : RecordName =>
        setRecord x ⟨.held { c with phase := s.psc.phase, time := s.mgu.timeBase }, .sound, .sound⟩
          { s with fcu := { s.fcu with next := rest } }
      ((recordAt s s.fcu.next).content = .empty →
        placeCapture c s = (some s.fcu.next, written s.fcu.next other)) ∧
      ((recordAt s s.fcu.next).content ≠ .empty → (recordAt s other).content = .empty →
        placeCapture c s = (some other, written other s.fcu.next)) ∧
      ((∀ x, (recordAt s x).content ≠ .empty) →
        placeCapture c s = (none, raise .captureLost c.subject (s.withCounters fun k =>
          { k with lostCaptures := if k.lostCaptures < 255 then k.lostCaptures + 1 else k.lostCaptures })))) ∧
    (s.fcu.halted = none → ∀ x : RecordName,
      let other := fun y : RecordName => if y = .a then RecordName.b else .a
      (x = s.fcu.next ∧ (recordAt s x).content = .empty) ∨
        (x = other s.fcu.next ∧ (recordAt s s.fcu.next).content ≠ .empty ∧ (recordAt s x).content = .empty) →
      let written := fun record : CaptureRecord =>
        setRecord x record { s with fcu := { s.fcu with next := other x } }
      let whole := written ⟨.held { c with phase := s.psc.phase, time := s.mgu.timeBase }, .sound, .sound⟩
      let corrected := raise .internalCorrected (.table .capture (recordIndex x)) whole
      let lost := written ⟨.lost, .uncorrectable, .sound⟩
      let enters := enterHalted ⟨.capture, recordIndex x⟩
      ((recordAt s x).strike = .sound → ∀ report, capture c report s = report (some x) whole) ∧
      ((recordAt s x).strike = .singleBit →
        placeCapture c s = (some x, corrected) ∧
        ∀ report, capture c report s = report (some x) corrected) ∧
      ((recordAt s x).strike = .uncorrectable →
        placeCapture c s = (some x, lost) ∧
        (∀ report, capture c report s = enters (report (some x) lost)) ∧
        ∀ table index,
          c = { kind := .tableFault, line := none, region := none, phase := 0, time := 0, retry := none,
                outcomes := Vector.replicate 4 .notRead, mark := none, held := none,
                table := some (table, index) } →
          tableFault table index s = enters (raiseAt .tableFault 5 (.table table index) (some x) lost)))

/-! ## Core Reset and HALTED -/

/-- A Core Reset (DRAIN) is in progress once taken: the patrol and the fills are stopped, every WAITING entry is
READY, every QUEUED demand request is answered NOT-READY, or RANGE where its line does not exist, and nothing else of
the tables changes; a flavour that is neither is refused RANGE. DRAIN_END, once the six conditions hold, applies the
reset effects and answers DONE; before, it changes nothing. Where the drain's request is an orphan, or the link is not
ACTIVE, DRAIN_END applies the reset effects all the same and ends the Core Reset, and the MANAGE-DONE is discarded:
the request leaves and nothing goes upstream. Of the requests it completed, that those completed before they were
started are not waited for, and those that arrived during it are, is the model's choice (log 41); so is it that one of
the first becomes an orphan and is then waited for (log 48), and that a MANAGE-DONE pending for a full upstream queue
goes although a read granted before an earlier abort has put an entry in the repair queue meanwhile (log 53) (R23,
R37, R40, R69, R161, R181, R182, R183, R185). -/
def Obligations.DrainStartsAndEnds : Prop :=
  (∀ (args : List Byte) (r : Request) (s : State), Taken 37 args r s → RequestsNamed s →
    args.head? ≠ some 1 →
    (byteAt args 0 ≠ 0 → exec .coreResetDrain s = .next (answered r .range [] s)) ∧
    (byteAt args 0 = 0 → ∃ t, exec .coreResetDrain s = .next t ∧
      t.mgu = { s.mgu with coreReset := some ⟨.drain, r.id⟩ } ∧
      t.psc = { s.psc with running := false, cursorPhase := .untested } ∧
      t.rpq.entries = (s.rpq.entries.map fun e =>
        match e.state with
        | .waiting _ => { e with state := .ready }
        | _ => e) ∧
      (∀ q < 4, (rankRec t q).fillPosition = (rankRec s q).fillPosition ∧
        rankState t q = if rankState s q = .filling then .offline else rankState s q) ∧
      (∀ q ∈ t.dem.requests, q.isDemand = true → q.phase ≠ .queued) ∧
      (∀ q ∈ s.dem.requests, ∀ a, q.body.line? = some a → q.phase = .queued → q.orphan = false →
        HandedOn q.id (completionFrame q
          (if rankState s (rankOf a) ≠ .absent ∧ a.index.toNat < depth s then .notReady else .range)) t) ∧
      t.rgt = s.rgt ∧ t.cod = s.cod ∧ t.dht = s.dht ∧ t.sls = s.sls ∧ t.fcu = s.fcu ∧
      t.drp.port = s.drp.port ∧ t.pending = s.pending)) ∧
  ∀ (r : Request) (s : State), s.link.por = false →
    s.mgu.coreReset = some ⟨.drain, r.id⟩ → findRequest r.id s = some r → r.phase = .serving →
    r.hold = none →
    let finished := (∀ q ∈ s.dem.requests, q.isDemand = true → q.hold = none ∧ q.beside = false ∧ q.orphan = false) ∧
      s.fcu.contexts = [] ∧ (∀ g, s.drp.port = some g → ∀ b, g.op ≠ .visitRead b) ∧
      s.rpq.entries = [] ∧ (∀ i < 32, ∀ a d t w, slotAt s i ≠ .releasing a d t w) ∧ s.sls.retires = []
    (¬finished → exec .drainEnd s = .next s) ∧
    (finished → (∀ q < 4, rankState s q ≠ .filling) → s.link.state = .active → r.orphan = false →
      ∃ t u, exec .drainEnd s = .next t ∧ ResetEffects s u ∧
        u.link = s.link ∧ u.dem = s.dem ∧ u.dht = s.dht ∧ u.fcu = s.fcu ∧
        u.mgu = { s.mgu with
          coreReset := if s.dem.completions = [] ∧ s.link.upstream.length < 8 then none else s.mgu.coreReset } ∧
        t = answered r .done [] u) ∧
    (finished → (∀ q < 4, rankState s q ≠ .filling) → r.orphan = true ∨ s.link.state ≠ .active →
      ∃ t, exec .drainEnd s = .next t ∧ ResetEffects s t ∧
        t.link = s.link ∧ t.dht = s.dht ∧ t.fcu = s.fcu ∧ t.mgu = { s.mgu with coreReset := none } ∧
        t.dem = { s.dem with
          requests := s.dem.requests.filter fun q => q.id != r.id
          completions := s.dem.completions.filter fun c => c.request != r.id })

/-- A Core Reset (ABORT), in HALTED or not: every demand request not completed yet is answered ABORTED, every Spare
Retire and Spare Release in progress BUSY, every ungranted retry is ended, what is at DRAM goes on, the reset
effects hold, HALTED is left with every device entry in its reset form, and the request is answered DONE; the mark
of a visit at DRAM is log 39, and that the reset effects are not applied again where the MANAGE-DONE is pending is
log 50, and that the port is free for all classes then is log 52 (R38, R85, R113, R116, R129, R184, R185). -/
def Obligations.AbortLeavesHalted : Prop :=
  ∀ (args : List Byte) (r : Request) (s : State), Taken 37 args r s → args.head? = some 1 →
    RequestsNamed s → (∀ w ∈ s.sls.retires, w.request ≠ r.id) →
    (∀ i < 32, ∀ a d t w, slotAt s i = .releasing a d t (some w) → w.request ≠ r.id) →
    ∃ t, exec .coreResetAbort s = .next t ∧ ResetEffects s t ∧ t.fcu.halted = none ∧
      (s.fcu.halted.isSome → ∀ n < 40, deviceAt t n = ⟨⟨0, .sound, false, false, 0⟩, .sound⟩) ∧
      (s.fcu.halted = none → t.dht = s.dht) ∧ t.sls.retires = [] ∧
      t.fcu.contexts = (s.fcu.contexts.filter fun x => atPort (.retryRead x.id) s) ∧
      (s.drp.port = none → t.drp.port = none) ∧
      (∀ g, s.drp.port = some g → (∀ b, g.op ≠ .visitRead b) → t.drp.port = some g) ∧
      (∀ g b, s.drp.port = some g → g.op = .visitRead b →
        t.drp.port = some { g with op := .visitRead true }) ∧
      (∀ q ∈ t.dem.requests, q.isDemand = true ∨ q.id = r.id → q.phase = .completing) ∧
      (∀ q ∈ s.dem.requests, q.orphan = false → q.phase ≠ .completing →
        (q.isDemand = true → HandedOn q.id (completionFrame q .aborted) t) ∧
        (q.isDemand = false → (∃ w ∈ s.sls.retires, w.request = q.id) ∨
            (∃ i < 32, ∃ a d time w, slotAt s i = .releasing a d time (some w) ∧ w.request = q.id) →
          HandedOn q.id (.manageDone q.tag .busy []) t)) ∧
      HandedOn r.id (.manageDone r.tag .done []) t

/-- A part that enters HALTED ends its work: demand requests that wait for a grant or a holder, Spare Releases and
Spare Retires whose operation is not granted, and a drain in progress are answered HALTED; ungranted retries are
discarded, and one that is at DRAM will confirm nothing (its mark is log 45); the patrol and the fills are stopped,
and what is at DRAM, the repair entries and the tables stay. With no work in hand it is the flag, the stopped patrol
and the HALTED event alone; in HALTED a further cause changes nothing, and a demand read or a retry that was granted
before answers its request HALTED when it finishes, with no merge and no write, be the device entries of its rank
readable or not, and a Spare Retire's request is then answered HALTED with no slot taken. A read that finds device
entries beyond correction makes the part enter HALTED: the lowest-numbered of them is its cause, the single-bit errors
of the rank are corrected, the faulty entries keep their faults, nothing is counted, watched or repaired, and no work
that asked for a read is left in hand (R39, R71, R85, R110, R111, R116, R127, R152, R161, R168, R183). The order of
events and answers is log 12; that all the rank's single-bit errors are corrected first, and the lowest-numbered
faulty entry is named, is log 20. -/
def Obligations.EnteringHaltedEndsTheWork : Prop :=
  (∀ (cause : HaltCause) (s : State),
    (s.fcu.halted.isSome → enterHalted cause s = s) ∧
    (s.fcu.halted = none →
      let t := enterHalted cause s
      t.fcu = { s.fcu with
        halted := some cause
        contexts := (s.fcu.contexts.filter fun x => atPort (.retryRead x.id) s).map fun x =>
          { x with ended := true } } ∧
      t.psc = { s.psc with running := false, cursorPhase := .untested } ∧
      t.sls.retires = (s.sls.retires.filter fun w => atPort (.retireRead w.request) s) ∧
      (∀ i < 32, slotAt t i =
        match slotAt s i with
        | .releasing a d time (some w) =>
          .releasing a d time (if atPort (.releaseWrite i w.age) s then some w else none)
        | x => x) ∧
      (∀ q < 4, (rankRec t q).fillPosition = (rankRec s q).fillPosition ∧
        rankState t q = if rankState s q = .filling then .offline else rankState s q) ∧
      t.rgt = s.rgt ∧ t.cod = s.cod ∧ t.dht = s.dht ∧ t.rpq = s.rpq ∧ t.drp.port = s.drp.port ∧
      t.drp.history = s.drp.history ∧ t.mgu.counters = s.mgu.counters ∧ t.pending = s.pending ∧
      (RequestsNamed s → ∀ q ∈ t.dem.requests, q.isDemand = true →
        q.phase ≠ .waitRead ∧ q.phase ≠ .heldRmw ∧
          ∀ data status, q.phase ≠ .waitWrite data status ∧ q.phase ≠ .heldWrite data status) ∧
      (RequestsNamed s → s.link.state = .active → ∀ q ∈ s.dem.requests, q.orphan = false →
        q.phase ≠ .completing →
        (q.isDemand = true → q.phase = .waitRead ∨ q.phase = .heldRmw ∨
            (∃ data status, q.phase = .waitWrite data status ∨ q.phase = .heldWrite data status) ∨
            (q.phase = .retrying ∧
              ∀ x ∈ s.fcu.contexts, x.work.isFor q.id = true → atPort (.retryRead x.id) s = false) →
          HandedOn q.id (completionFrame q .halted) t) ∧
        (q.isDemand = false →
          (∃ w ∈ s.sls.retires, w.request = q.id ∧ atPort (.retireRead q.id) s = false) ∨
            (∃ i < 32, ∃ a d time w, slotAt s i = .releasing a d time (some w) ∧ w.request = q.id ∧
              atPort (.releaseWrite i w.age) s = false) ∨
            s.mgu.coreReset = some ⟨.drain, q.id⟩ →
          HandedOn q.id (.manageDone q.tag .halted []) t)) ∧
      (s.dem.requests = [] → s.sls.retires = [] → s.fcu.contexts = [] → s.mgu.coreReset = none →
        (∀ i < 32, ∀ a d time w, slotAt s i ≠ .releasing a d time (some w)) → NoneQuiescing s →
        (∀ q < 4, rankState s q ≠ .filling) →
        t = raise .halted (.table cause.table cause.index)
          { s with
            fcu := { s.fcu with halted := some cause }
            psc := { s.psc with running := false, cursorPhase := .untested } }))) ∧
  (∀ (s : State) (g : Granted) (beats : Burst) (r : Request), s.link.por = false → s.drp.port = some g →
    s.fcu.halted.isSome → RankSound (rankOf g.line) s →
    let raw := fromBeats beats
    let ends := fun used => exec (.dramReadFinish beats) s =
      .next (settle (finished r (completionFrame r .halted) used))
    (∀ rmw, g.op = .demandRead r.id rmw → r.phase = .readGranted →
      let used := consume (verdictOf g (if rmw then .rmw else .demand) raw s)
        { s with drp := { s.drp with port := none } }
      Answerable r used → ends used) ∧
    (∀ id x, g.op = .retryRead id → (s.fcu.contexts.find? fun y => y.id == id) = some x →
      x.work.isFor r.id = true →
      let used := consume (verdictOf g .retry raw s) (retryClosed id x s)
      Answerable r used → ends used) ∧
    ∀ w, g.op = .retireRead r.id → (s.sls.retires.find? fun x => x.request == r.id) = some w →
      let used := consume (verdictOf g .retire raw s) { s with drp := { s.drp with port := none } }
      Answerable r used → r.hold = none →
        exec (.dramReadFinish beats) s = .next (settle (answered r .halted []
          { used with sls := { used.sls with
            retires := used.sls.retires.filter fun x => x.request != r.id } }))) ∧
  (∀ (s : State) (g : Granted) (beats : Burst) (r : Request) (k : Nat), s.link.por = false →
    s.drp.port = some g → s.fcu.halted.isSome → RankSound (rankOf g.line) s → rankOf g.line < 4 → k < 10 →
    let faulty := deviceErr (entryNumber (rankOf g.line) k) .uncorrectable s
    let freed := { faulty with drp := { s.drp with port := none } }
    let run := exec (.dramReadFinish beats) faulty
    (∀ rmw, g.op = .demandRead r.id rmw → Answerable r freed →
      run = .next (settle (finished r (completionFrame r .halted) freed))) ∧
    (∀ id x, g.op = .retryRead id → (s.fcu.contexts.find? fun y => y.id == id) = some x →
      let closed := { freed with fcu := { s.fcu with
        contexts := s.fcu.contexts.filter fun y => y.id != id } }
      (x.work = .patrol → run = .next (settle closed)) ∧
      (x.work.isFor r.id = true → Answerable r closed →
        run = .next (settle (finished r (completionFrame r .halted) closed)))) ∧
    (∀ w, g.op = .retireRead r.id → (s.sls.retires.find? fun x => x.request == r.id) = some w →
      Answerable r freed → r.hold = none →
      run = .next (settle (answered r .halted []
        { freed with sls := { s.sls with retires := s.sls.retires.filter fun x => x.request != r.id } }))) ∧
    ((∃ id, g.op = .verifyRead id) ∨ (∃ b, g.op = .visitRead b) → run = .next (settle freed))) ∧
  ∀ (s : State) (g : Granted) (beats : Burst) (k : Nat), s.link.por = false → s.drp.port = some g →
    (∃ source, g.op.source = some source) → s.fcu.halted = none → rankOf g.line < 4 → k < 10 →
    let entry := fun j => entryNumber (rankOf g.line) j
    (deviceAt s (entry k)).storage = .uncorrectable →
    (∀ j < k, (deviceAt s (entry j)).storage ≠ .uncorrectable) →
    ∃ t, exec (.dramReadFinish beats) s = .next t ∧ t.fcu.halted = some ⟨.health, entry k⟩ ∧
      t.drp.port = none ∧ t.fcu.contexts = [] ∧ t.sls.retires = [] ∧ t.rpq = s.rpq ∧ t.cod = s.cod ∧
      t.mgu.counters = s.mgu.counters ∧ (∀ x, recordAt t x = recordAt s x) ∧
      (∀ i < 32, ∀ a hits time, slotAt t i = .watch a hits time ↔ slotAt s i = .watch a hits time) ∧
      (∀ j < 10, deviceAt t (entry j) =
        if (deviceAt s (entry j)).storage = .uncorrectable then deviceAt s (entry j)
        else ⟨deviceEntry s (entry j), .sound⟩) ∧
      (RequestsNamed s → s.link.state = .active → ∀ q ∈ s.dem.requests, q.isDemand = true →
        q.orphan = false →
        q.phase = .retrying ∨ (∃ rmw, g.op = .demandRead q.id rmw ∧ q.phase = .readGranted ∧
          s.sls.retires = [] ∧ s.mgu.coreReset = none ∧
          ∀ i < 32, ∀ a d time w, slotAt s i ≠ .releasing a d time (some w)) →
        HandedOn q.id (completionFrame q .halted) t)

/-- At any step the flag of HALTED, once set, keeps its cause, unless the command is a Core Reset (ABORT) or the
assertion of POR; and the fields of a HELD capture record stay as they are or are found lost, unless the
command is a Capture Release or the assertion of POR (R122, R126, R129). -/
def Obligations.HaltedAndCapturesPersist : Prop :=
  ∀ s t : State, step s = .next t →
    (∀ cause, s.fcu.halted = some cause →
      t.fcu.halted = some cause ∨ (∃ rest, s.pending = .coreResetAbort :: rest) ∨
        ∃ pins rest, s.pending = .porAsserted pins :: rest) ∧
    ∀ x c, (recordAt s x).content = .held c →
      (recordAt t x).content = .held c ∨ (recordAt t x).content = .lost ∨
        (∃ rest, s.pending = .captureRelease :: rest) ∨ ∃ pins rest, s.pending = .porAsserted pins :: rest

/-- A granted operation stays at the port, with its line, until it finishes or POR is asserted; the one mark a
visit takes meanwhile is that an abort was taken (R164; the mark is log 39). -/
def Obligations.GrantedOperationsAreNotCutShort : Prop :=
  ∀ (s t : State) (g : Granted), step s = .next t → s.drp.port = some g →
    (∀ c rest, s.pending = c :: rest →
      (∀ beats, c ≠ .dramReadFinish beats) ∧ c ≠ .dramWriteFinish ∧ c ≠ .refreshFinish ∧
        ∀ pins, c ≠ .porAsserted pins) →
    t.drp.port = some g ∨ ∃ b, g.op = .visitRead b ∧ t.drp.port = some { g with op := .visitRead true }

/-! ## Rules of the line code, the regions and the capture unit -/

/-- The line verdict of a decode is the first case of Table 11 that its four codeword outcomes meet: two poison
marks, else an uncorrectable codeword or one poison mark, else a fixed codeword or a fill that is not zero,
else CLEAN (R11). -/
def Obligations.LineVerdictByTheFirstCase : Prop :=
  (∀ (a : LineAddr) (source : ReadSource) (mark : Option (Fin 10)) (cls : Option Classification)
      (overwritten : Bool) (raw : RawLine),
    let v := decodeLine a source mark cls overwritten raw
    let o := fun j : Fin 4 => v.outcomes[j]
    let poisonedTwice := ∃ i j : Fin 4, i ≠ j ∧ o i = .poisonMark ∧ o j = .poisonMark
    let lost := ∃ j, o j = .uncorrectable ∨ o j = .poisonMark
    let mended := ∃ j, (∃ d p, o j = .fixed d p) ∨ ∃ p, p ≠ 0 ∧ o j = .filled p
    (poisonedTwice → v.verdict = .poisoned) ∧
    (¬poisonedTwice → lost → v.verdict = .uncorrectable) ∧
    (¬poisonedTwice → ¬lost → mended → v.verdict = .corrected) ∧
    (¬poisonedTwice → ¬lost → ¬mended → v.verdict = .clean)) ∧
  lineVerdict [.poisonMark, .clean, .clean, .clean] = .uncorrectable ∧
  lineVerdict [.poisonMark, .poisonMark, .uncorrectable, .clean] = .poisoned ∧
  lineVerdict [.filled 0, .filled 0, .filled 0, .filled 0] = .clean

/-- A line matches an entry when the entry is valid and every rank bit and every index bit that its masks select is
the same in the line and in the base; with both masks 0 every line of the module matches, with every bit selected the
base alone, index mask 1 over an odd base every odd index, and rank mask 1 over base rank 1 the ranks 1 and 3; a
selected index bit at or above the depth always agrees. A lookup under sound storage changes nothing and gives the
number, class and UE level of the lowest-numbered entry that the line matches, and where it matches none, no number,
STANDARD and the default UE level. A lookup reads all sixteen entries with their checks: it leaves each with a
single-bit error corrected and sound, each beyond correction in its empty form, and selects among the entries as it
leaves them. A single-bit error in one entry is reported by INTERNAL_CORRECTED, one beyond correction by TABLE_FAULT
with its capture, and a READ or a started request whose start makes the lookup goes on with what it found (R42, R43,
R50, R51). -/
def Obligations.RegionMatching : Prop :=
  (∀ (e : RegionEntry) (a : LineAddr),
    (e.matches a = true ↔ e.valid = true ∧
      (∀ i < 2, e.rankMask.getLsbD i = true → a.rank.getLsbD i = e.base.rank.getLsbD i) ∧
      (∀ i < 27, e.indexMask.getLsbD i = true → a.index.getLsbD i = e.base.index.getLsbD i)) ∧
    (e.valid = true → e.rankMask = 0 → e.indexMask = 0 → e.matches a = true) ∧
    (e.valid = true → e.rankMask = 3 → e.indexMask = BitVec.allOnes 27 → rankOf a < 4 →
      rankOf e.base < 4 → (e.matches a = true ↔ a = e.base)) ∧
    (e.valid = true → e.rankMask = 0 → e.indexMask = 1 → e.base.index.getLsbD 0 = true →
      (e.matches a = true ↔ a.index.toNat % 2 = 1)) ∧
    (e.valid = true → e.rankMask = 1 → rankOf e.base = 1 → e.indexMask = 0 → rankOf a < 4 →
      (e.matches a = true ↔ rankOf a = 1 ∨ rankOf a = 3)) ∧
    ∀ (s : State) (i : Nat), a.index.toNat < depth s → e.base.index.toNat < depth s →
      s.link.straps.depthExponent ≤ i → a.index.getLsbD i = e.base.index.getLsbD i) ∧
  (∀ (a : LineAddr) (s : State), RegionsSound s →
    let e := fun i => (regionAt s i).value
    lookup a s = (classify a s, s) ∧
    (∀ i < 16, (e i).matches a = true → (∀ j < i, (e j).matches a = false) →
      classify a s = ⟨some i, (e i).cls, (e i).level⟩) ∧
    ((∀ i < 16, (e i).matches a = false) → classify a s = ⟨none, .standard, s.rgt.defaultLevel⟩)) ∧
  (∀ (a : LineAddr) (s : State),
    let found := (lookup a s).1
    let t := (lookup a s).2
    let e := fun i => (regionAt t i).value
    (∀ i < 16, regionAt t i =
      if (regionAt s i).storage = .uncorrectable then ⟨⟨false, ⟨0, 0⟩, 0, 0, .standard, 6⟩, .sound⟩
      else ⟨(regionAt s i).value, .sound⟩) ∧
    (∀ i < 16, (e i).matches a = true → (∀ j < i, (e j).matches a = false) →
      found = ⟨some i, (e i).cls, (e i).level⟩) ∧
    ((∀ i < 16, (e i).matches a = false) → found = ⟨none, .standard, s.rgt.defaultLevel⟩)) ∧
  ∀ (a : LineAddr) (i : Nat) (s : State), RegionsSound s → i < 16 →
    let corrected := raise .internalCorrected (.table .region i) s
    let emptied := itemLost .region i (regionEmptied i s)
    lookup a (regionErr i .singleBit s) = (classify a s, corrected) ∧
    (RecordsReady s → lookup a (regionErr i .uncorrectable s) = (classify a emptied, emptied)) ∧
    (holder a s = .none → s.dem.completions = [] →
      (∀ frame, LetIn frame s → Startable a s → frameBody frame = .read a →
        exec (.read frame) (regionErr i .singleBit s) =
          .next (withStarted frame a (some (classify a s)) .waitRead corrected) ∧
        (RecordsReady s → exec (.read frame) (regionErr i .uncorrectable s) =
          .next (withStarted frame a (some (classify a emptied)) .waitRead emptied))) ∧
      ∀ r, StartsNext r a s → s.fcu.halted = none → s.cod.loopLine = none →
        rankState s (rankOf a) = .online → a.index.toNat < depth s → r.body = .read a →
        exec (.demandStart a) (regionErr i .singleBit s) =
          .next (startedIn r (.line a) (some (classify a s)) .waitRead corrected) ∧
        (RecordsReady s → exec (.demandStart a) (regionErr i .uncorrectable s) =
          .next (startedIn r (.line a) (some (classify a emptied)) .waitRead emptied)))

/-- A retry whose verdict is UNCORRECTABLE or POISONED confirms the line, and the isolation set of its capture names a
device exactly when one of its four symbols differs between the two raw reads: none is PERSISTENT, some is UNSTABLE
with that set. With an EMPTY record next and no holder of the line, the capture is placed, LINE_UE names it, the
rank's counter rises, an UNCORRECTABLE line gets its POISON entry, and the work ends: a visit just so, a READ
UNCORRECTABLE with the retry's raw data, a read-modify-write refused. When a retry read finishes its context is
closed. CLEAN or CORRECTED, its verdict stands for the work: a READ completes CORRECTED-RETRY with the corrected data,
a read-modify-write merges into that. Where HALTED began after the retry's grant the verdict confirms nothing, even if
an abort has left HALTED since. The capture is a DEMAND-UE, an RMW-UE or a PATROL-UE by the context's work: it holds
the line, the region of its classification, the phase and the time of its placement, the retry's outcome, codeword
outcomes and mark, and the held write of a read-modify-write. A single-bit error that its check-back finds is
corrected and reported before the event; with one beyond correction the event names the record and the counter moves,
then the part enters HALTED with the record as cause, no POISON entry is asked for, and the work is handed its failed
verdict all the same (R27, R33, R34, R117, R118, R119, R120, R122, R123, R124, R125, R127). The entry's name is the
model's own stamp (log 38); that the retry of work that HALTED ended is marked until it finishes is log 45; that DHT
acts on the verdict of a retry granted before HALTED that comes after an abort has left it is log 51; that the error
before a check-back is armed beforehand is log 14. The order of events and answers is log 12. -/
def Obligations.ConfirmedLinesAreIsolated : Prop :=
  (∀ first second : RawLine,
    (∀ d : Fin 10, (isolationSet first second).getLsbD d.val = true ↔
      ∃ j : Fin 4, first[j][d] ≠ second[j][d]) ∧
    (first = second → isolate first second = .persistent) ∧
    (first ≠ second → isolate first second = .unstable (isolationSet first second))) ∧
  (∀ (x : RetryContext) (v : VerdictRecord) (s : State), s.fcu.halted = none →
    v.verdict = .uncorrectable ∨ v.verdict = .poisoned → x.ended = false →
    retryOutcome x v s = confirm x v s ∧ (confirmedCapture x v).retry = some (isolate x.first v.raw)) ∧
  (∀ (x : RetryContext) (v : VerdictRecord) (s : State) (failed : State → State), s.fcu.halted = none →
    let hands := fun u : State => (x.work = .patrol ∧ failed = id) ∨
      (∃ r a, x.work = .demand r.id ∧ Answerable r u ∧ r.body = .read a ∧
        failed = finished r (.readDone r.tag .uncorrectable v.rawData)) ∨
      (∃ r a mask data, x.work = .rmw r.id mask data ∧ Answerable r u ∧
        r.body = .maskedWrite a mask data ∧ failed = finished r (.writeDone r.tag .uncorrectable))
    (recordAt s s.fcu.next).content = .empty →
    let record : Capture :=
      { kind := match x.work with
          | .demand _ => .demandUe
          | .rmw _ _ _ => .rmwUe
          | .patrol => .patrolUe
        line := some x.line, region := x.cls.region, phase := s.psc.phase, time := s.mgu.timeBase
        retry := some (isolate x.first v.raw), outcomes := v.outcomes, mark := v.mark.map Fin.val
        held := match x.work with
          | .rmw _ mask data => some (mask, data)
          | _ => none
        table := none }
    let written := fun content storage => setRecord s.fcu.next ⟨content, storage, .sound⟩
      { s with fcu := { s.fcu with next := if s.fcu.next = .a then .b else .a } }
    let strike := (recordAt s s.fcu.next).strike
    let subject := Subject.table .capture (recordIndex s.fcu.next)
    let placed :=
      if strike = .singleBit then raise .internalCorrected subject (written (.held record) .sound)
      else written (.held record) .sound
    let reportedIn := fun u : State => countUe (rankOf x.line)
      (raiseAt .lineUe x.cls.level (.line x.line) (some s.fcu.next) u)
    let reported := reportedIn placed
    (strike ≠ .uncorrectable → hands s → v.verdict = .poisoned → confirm x v s = failed reported) ∧
    (strike ≠ .uncorrectable → hands s →
      v.verdict = .uncorrectable → v.overwritten = false → holder x.line s = .none →
      rankState s (rankOf x.line) = .online → s.rpq.entries.length < 16 →
      followerOf x.line s = none → s.fcu.contexts = [] → s.psc.cursor ≠ some x.line →
      confirm x v s = failed
        { reported with
          rpq := { s.rpq with entries := s.rpq.entries ++
            [{ id := s.stamp, line := x.line, kind := .poison, data := v.rawData, verify := false,
               replayed := false, state := .ready, retired := false }] }
          stamp := s.stamp + 1 }) ∧
    (strike = .uncorrectable →
      let entered := enterHalted ⟨.capture, recordIndex s.fcu.next⟩ (reportedIn (written .lost .uncorrectable))
      hands entered → confirm x v s = failed entered)) ∧
  ∀ (s : State) (g : Granted) (id : Nat) (x : RetryContext) (beats : Burst), Finishing g s →
    g.op = .retryRead id → (s.fcu.contexts.find? fun y => y.id == id) = some x →
    let raw := fromBeats beats
    let v := verdictOf g .retry raw s
    let closed := retryClosed id x s
    let used := consume v closed
    let answers := fun (t : State) => exec (.dramReadFinish beats) s = .next (settle t)
    used.fcu.halted = none →
    (x.ended = true → (∀ q ∈ used.dem.requests, x.work.isFor q.id = true → q.phase = .completing) →
      answers used) ∧
    (x.ended = false → v.verdict = .uncorrectable ∨ v.verdict = .poisoned → answers (confirm x v closed)) ∧
    (x.ended = false → v.verdict = .clean ∨ v.verdict = .corrected →
      (x.work = .patrol → answers used) ∧
      (∀ r a, x.work = .demand r.id → Answerable r used → r.body = .read a →
        answers (finished r (.readDone r.tag .correctedRetry v.corrected) used)) ∧
      (∀ r mask data, x.work = .rmw r.id mask data → Answerable r used → r.phase = .answering →
        holder g.line used = .none →
        answers (withPhase r.id (.waitWrite
          (Vector.ofFn fun i => if mask.getLsbD i.val then data[i] else v.corrected[i])
          .correctedRetry) used)))

/-- Where every wrong symbol lies in one device, the verdict charges that device: 8 where two codewords or three bits
are wrong, else the number of wrong bits. Its tally and state rise, with DEVICE_SUSPECT on leaving SOUND; at 256 it
becomes its rank's mark, with DEVICE_MARKED, or is held at 255 where the rank has one, with DEVICE_SECOND the first
time. The touched flag is set where the tally rose; that an increment held at 255 sets it only where the tally stood
below 255, and else leaves it as it was, is the model's choice (log 19). A CORRECTED verdict raises LINE_CORRECTED,
and SCATTERED with two fixed devices or more, and moves its rank's counter, before DHT, SLS and RPQ take it. Where it
was decoded under the mark of a device in PROBATION, a CLEAN verdict counts one and at K lifts the mark with
PROBATION_PASS, a CORRECTED one returns the device to MARKED with PROBATION_FAIL, any other does nothing. In HALTED
DHT does not act. A verdict acted on, and a decay, read the rank's entries: a single-bit error is corrected and
reported and the work goes on; where an entry is beyond correction the part enters HALTED naming it, and the verdict
or the decay is abandoned whole (R13, R14, R92, R94, R95, R96, R97, R98, R105, R106, R107, R110, R111, R112, R176).
The order of the consumers is log 12; that DHT acts on a verdict that comes after an abort has left HALTED, the read
granted before it, is log 51. -/
def Obligations.TalliesRise : Prop :=
  (∀ (a : LineAddr) (source : ReadSource) (cls : Option Classification) (data : Line)
    (device : Fin 10) (error : Fin 4 → Sym) (s : State),
    (∃ j, error j ≠ 0) → s.fcu.halted = none → RankSound (rankOf a) s → rankOf a < 4 → DevicesFit s →
    let raw : RawLine := Vector.ofFn fun j => Vector.ofFn fun d =>
      if d = device then (encode data)[j][d] ^^^ error j else (encode data)[j][d]
    let v := decodeLine a source none cls false raw
    let k := (List.finRange 4).countP fun j => error j != 0
    let bits := ((List.finRange 4).map fun j => patternWeight (error j)).sum
    let charge := if 2 ≤ k ∨ 3 ≤ bits then 8 else bits
    let e := deviceEntry s (entryNumber (rankOf a) device.val)
    let subject := Subject.device (rankOf a) device.val
    let put := fun x : DeviceEntry => { s with dht := { s.dht with
      devices := setAt s.dht.devices (entryNumber (rankOf a) device.val) ⟨x, .sound⟩ } }
    v.correction = some { fixed := [⟨device, k, bits⟩], fill := none, erasureOnly := false,
                          scattered := false } ∧
    (e.state.isMark → healthVerdict v s = s) ∧
    (e.state.isMark = false → e.tally + charge < 256 →
      let risen := put { e with
        tally := e.tally + charge, touched := true,
        state := if e.tally + charge < 128 then .sound else .suspect }
      healthVerdict v s =
        if e.state = .sound ∧ 128 ≤ e.tally + charge then raise .deviceSuspect subject risen else risen) ∧
    (e.state.isMark = false → 256 ≤ e.tally + charge → markOf s (rankOf a) = none →
      healthVerdict v s = raise .deviceMarked subject
        (put { e with tally := 256, state := .marked, touched := true, capped := false, count := 0 })) ∧
    (e.state.isMark = false → 256 ≤ e.tally + charge → (markOf s (rankOf a)).isSome →
      let held := put { e with
        tally := 255, state := .suspect, touched := if e.tally < 255 then true else e.touched, capped := true }
      healthVerdict v s = if e.capped then held else raise .deviceSecond subject held)) ∧
  (∀ (a : LineAddr) (source : ReadSource) (cls : Option Classification) (overwritten : Bool)
    (raw : RawLine) (mark : Option (Fin 10)) (s : State), s.fcu.halted = none → RankSound (rankOf a) s →
    let v := decodeLine a source mark cls overwritten raw
    (∀ c, v.correction = some c →
      let corrected := raise .lineCorrected (.line a) s
      let reported := if 2 ≤ c.fixed.length then raise .scattered (.line a) corrected else corrected
      let counts := s.mgu.counters.corrected
      let risen : Vector Nat 4 := Vector.ofFn fun q =>
        if q.val = rankOf a ∧ counts[q] < 2 ^ 32 - 1 then counts[q] + 1 else counts[q]
      let counted := reported.withCounters fun k => { k with corrected := risen }
      consume v s = considerRepair v (watchVerdict v (healthVerdict v counted))) ∧
    (v.correction = none ↔ v.verdict ≠ .corrected) ∧
    (v.verdict = .uncorrectable ∨ v.verdict = .poisoned ∨ (v.verdict = .clean ∧ mark = none) →
      consume v s = s) ∧
    ∀ m, mark = some m → rankOf a < 4 →
      let e := deviceEntry s (entryNumber (rankOf a) m.val)
      let subject := Subject.device (rankOf a) m.val
      let put := fun x : DeviceEntry => { s with dht := { s.dht with
        devices := setAt s.dht.devices (entryNumber (rankOf a) m.val) ⟨x, .sound⟩ } }
      (e.state ≠ .probation → healthVerdict v s = s) ∧
      (e.state = .probation → v.verdict = .clean → healthVerdict v s =
        if s.dht.probationK ≤ e.count + 1 then raise .probationPass subject (put ⟨0, .sound, false, false, 0⟩)
        else put { e with count := e.count + 1 }) ∧
      (e.state = .probation → v.verdict = .corrected → healthVerdict v s = raise .probationFail subject
        (put { e with tally := 256, state := .marked, count := 0 })) ∧
      (v.verdict = .uncorrectable ∨ v.verdict = .poisoned → healthVerdict v s = s)) ∧
  ∀ (v : VerdictRecord) (r k : Nat) (s : State), r < 4 → k < 10 → RankSound r s →
    let n := entryNumber r k
    let corrected := raise .internalCorrected (.table .health n) s
    let faulty := deviceErr n .uncorrectable s
    (s.fcu.halted.isSome → healthVerdict v s = s) ∧
    (decayRank r (deviceErr n .singleBit s) = decayRank r corrected) ∧
    (decayRank r faulty = enterHalted ⟨.health, n⟩ faulty) ∧
    (s.fcu.halted = none → rankOf v.line = r →
      healthVerdict v (deviceErr n .singleBit s) = healthVerdict v corrected ∧
      healthVerdict v faulty = enterHalted ⟨.health, n⟩ faulty)

/-! ## What every step keeps -/

/-- The state after reset is sound. Its straps are the model's choice (log 5). -/
def Obligations.ResetIsSound : Prop := Sound State.reset

/-- Every step keeps the credit within the lag limit, the grant history within 7, every setting in its range, every
counter below its ceiling, the cursor on a line of an ONLINE rank or parked with none, the ABSENT ranks those the
strap leaves out, the slip history at two slips, none later than LNK's timer, and the elastic buffer's fill within
12 symbols of its centre (R139, R143, R155, R167, R172, R176, R191, R192). -/
def Obligations.PaceSettingsAndCursorStaySound : Prop :=
  ∀ s t : State, step s = .next t →
    (CreditBounded s → CreditBounded t) ∧ (HistoryBounded s → HistoryBounded t) ∧
    (SettingsInRange s → SettingsInRange t) ∧ (s.mgu.counters.Bounded → t.mgu.counters.Bounded) ∧
    (CursorFits s → CursorFits t) ∧ (RanksFitStraps s → RanksFitStraps t) ∧
    (s.link.Fits → t.link.Fits)

/-- Every step keeps each device entry in agreement with itself, and at most one mark in a rank (R92, R98, R100). -/
def Obligations.DeviceTableStaysSound : Prop :=
  ∀ s t : State, step s = .next t →
    (DevicesFit s → DevicesFit t) ∧ (OneMarkPerRank s → OneMarkPerRank t)

/-- Every step keeps at most 32 requests with distinct tags in the buffer, distinct names, QUEUED requests only in
ACTIVE, and no line twice in the hold set (R19, R20, R21, R22, R40). -/
def Obligations.RequestBufferStaysSound : Prop :=
  ∀ s t : State, step s = .next t →
    (BufferFits s → BufferFits t) ∧ (RequestsNamed s → RequestsNamed t) ∧
    (QueuedFit s → QueuedFit t) ∧ (HoldSetFits s → HoldSetFits t)

/-- Every step keeps at most 16 repair entries, one to a line, one slot to a line, and one holder to a line but for
an entry whose write is in flight (R52, R60, R64, R74). -/
def Obligations.RepairQueueAndSlotsStaySound : Prop :=
  ∀ s t : State, step s = .next t → RepairQueueFits s → SlotsFit s → OneHolder s →
    RepairQueueFits t ∧ SlotsFit t ∧ OneHolder t
end

