-- ==== Sys2Proof/Laws/State.lean ====
section
/-! SUPPORT. What each update of State leaves and what it writes: one lemma per field, true by `rfl`, so that no
proof unfolds a record update. -/

namespace Sys2Proof.Machine

/-! ### withCounters -/

@[simp] theorem withCounters_link (f : Counters → Counters) (s : State) : (s.withCounters f).link = s.link := rfl
@[simp] theorem withCounters_dem (f : Counters → Counters) (s : State) : (s.withCounters f).dem = s.dem := rfl
@[simp] theorem withCounters_rgt (f : Counters → Counters) (s : State) : (s.withCounters f).rgt = s.rgt := rfl
@[simp] theorem withCounters_cod (f : Counters → Counters) (s : State) : (s.withCounters f).cod = s.cod := rfl
@[simp] theorem withCounters_dht (f : Counters → Counters) (s : State) : (s.withCounters f).dht = s.dht := rfl
@[simp] theorem withCounters_rpq (f : Counters → Counters) (s : State) : (s.withCounters f).rpq = s.rpq := rfl
@[simp] theorem withCounters_sls (f : Counters → Counters) (s : State) : (s.withCounters f).sls = s.sls := rfl
@[simp] theorem withCounters_fcu (f : Counters → Counters) (s : State) : (s.withCounters f).fcu = s.fcu := rfl
@[simp] theorem withCounters_psc (f : Counters → Counters) (s : State) : (s.withCounters f).psc = s.psc := rfl
@[simp] theorem withCounters_drp (f : Counters → Counters) (s : State) : (s.withCounters f).drp = s.drp := rfl
@[simp] theorem withCounters_mgu_mask (f : Counters → Counters) (s : State) :
    (s.withCounters f).mgu.mask = s.mgu.mask := rfl
@[simp] theorem withCounters_mgu_counters (f : Counters → Counters) (s : State) :
    (s.withCounters f).mgu.counters = f s.mgu.counters := rfl
@[simp] theorem withCounters_mgu_timeBase (f : Counters → Counters) (s : State) :
    (s.withCounters f).mgu.timeBase = s.mgu.timeBase := rfl
@[simp] theorem withCounters_mgu_coreReset (f : Counters → Counters) (s : State) :
    (s.withCounters f).mgu.coreReset = s.mgu.coreReset := rfl
@[simp] theorem withCounters_stamp (f : Counters → Counters) (s : State) : (s.withCounters f).stamp = s.stamp := rfl
@[simp] theorem withCounters_pending (f : Counters → Counters) (s : State) : (s.withCounters f).pending = s.pending := rfl

/-! ### setRank -/

@[simp] theorem setRank_link (r : Nat) (x : RankRec) (s : State) : (setRank r x s).link = s.link := rfl
@[simp] theorem setRank_dem (r : Nat) (x : RankRec) (s : State) : (setRank r x s).dem = s.dem := rfl
@[simp] theorem setRank_rgt (r : Nat) (x : RankRec) (s : State) : (setRank r x s).rgt = s.rgt := rfl
@[simp] theorem setRank_cod (r : Nat) (x : RankRec) (s : State) : (setRank r x s).cod = s.cod := rfl
@[simp] theorem setRank_dht (r : Nat) (x : RankRec) (s : State) : (setRank r x s).dht = s.dht := rfl
@[simp] theorem setRank_rpq (r : Nat) (x : RankRec) (s : State) : (setRank r x s).rpq = s.rpq := rfl
@[simp] theorem setRank_sls (r : Nat) (x : RankRec) (s : State) : (setRank r x s).sls = s.sls := rfl
@[simp] theorem setRank_fcu (r : Nat) (x : RankRec) (s : State) : (setRank r x s).fcu = s.fcu := rfl
@[simp] theorem setRank_psc (r : Nat) (x : RankRec) (s : State) : (setRank r x s).psc = s.psc := rfl
@[simp] theorem setRank_drp_ranks (r : Nat) (x : RankRec) (s : State) :
    (setRank r x s).drp.ranks = setAt s.drp.ranks r x := rfl
@[simp] theorem setRank_drp_lastFill (r : Nat) (x : RankRec) (s : State) :
    (setRank r x s).drp.lastFill = s.drp.lastFill := rfl
@[simp] theorem setRank_drp_history (r : Nat) (x : RankRec) (s : State) :
    (setRank r x s).drp.history = s.drp.history := rfl
@[simp] theorem setRank_drp_port (r : Nat) (x : RankRec) (s : State) :
    (setRank r x s).drp.port = s.drp.port := rfl
@[simp] theorem setRank_drp_refreshDue (r : Nat) (x : RankRec) (s : State) :
    (setRank r x s).drp.refreshDue = s.drp.refreshDue := rfl
@[simp] theorem setRank_mgu (r : Nat) (x : RankRec) (s : State) : (setRank r x s).mgu = s.mgu := rfl
@[simp] theorem setRank_stamp (r : Nat) (x : RankRec) (s : State) : (setRank r x s).stamp = s.stamp := rfl
@[simp] theorem setRank_pending (r : Nat) (x : RankRec) (s : State) : (setRank r x s).pending = s.pending := rfl

/-! ### updateRequest -/

@[simp] theorem updateRequest_link (id : Nat) (f : Request → Request) (s : State) : (updateRequest id f s).link = s.link := rfl
@[simp] theorem updateRequest_dem_requests (id : Nat) (f : Request → Request) (s : State) :
    (updateRequest id f s).dem.requests = s.dem.requests.map fun r => if r.id = id then f r else r := rfl
@[simp] theorem updateRequest_dem_holdSet (id : Nat) (f : Request → Request) (s : State) :
    (updateRequest id f s).dem.holdSet = s.dem.holdSet := rfl
@[simp] theorem updateRequest_dem_completions (id : Nat) (f : Request → Request) (s : State) :
    (updateRequest id f s).dem.completions = s.dem.completions := rfl
@[simp] theorem updateRequest_rgt (id : Nat) (f : Request → Request) (s : State) : (updateRequest id f s).rgt = s.rgt := rfl
@[simp] theorem updateRequest_cod (id : Nat) (f : Request → Request) (s : State) : (updateRequest id f s).cod = s.cod := rfl
@[simp] theorem updateRequest_dht (id : Nat) (f : Request → Request) (s : State) : (updateRequest id f s).dht = s.dht := rfl
@[simp] theorem updateRequest_rpq (id : Nat) (f : Request → Request) (s : State) : (updateRequest id f s).rpq = s.rpq := rfl
@[simp] theorem updateRequest_sls (id : Nat) (f : Request → Request) (s : State) : (updateRequest id f s).sls = s.sls := rfl
@[simp] theorem updateRequest_fcu (id : Nat) (f : Request → Request) (s : State) : (updateRequest id f s).fcu = s.fcu := rfl
@[simp] theorem updateRequest_psc (id : Nat) (f : Request → Request) (s : State) : (updateRequest id f s).psc = s.psc := rfl
@[simp] theorem updateRequest_drp (id : Nat) (f : Request → Request) (s : State) : (updateRequest id f s).drp = s.drp := rfl
@[simp] theorem updateRequest_mgu (id : Nat) (f : Request → Request) (s : State) : (updateRequest id f s).mgu = s.mgu := rfl
@[simp] theorem updateRequest_stamp (id : Nat) (f : Request → Request) (s : State) : (updateRequest id f s).stamp = s.stamp := rfl
@[simp] theorem updateRequest_pending (id : Nat) (f : Request → Request) (s : State) : (updateRequest id f s).pending = s.pending := rfl

/-! ### setPhase -/

@[simp] theorem setPhase_link (id : Nat) (p : Phase) (s : State) : (setPhase id p s).link = s.link := rfl
@[simp] theorem setPhase_dem_requests (id : Nat) (p : Phase) (s : State) :
    (setPhase id p s).dem.requests = s.dem.requests.map fun r => if r.id = id then { r with phase := p } else r := rfl
@[simp] theorem setPhase_dem_holdSet (id : Nat) (p : Phase) (s : State) :
    (setPhase id p s).dem.holdSet = s.dem.holdSet := rfl
@[simp] theorem setPhase_dem_completions (id : Nat) (p : Phase) (s : State) :
    (setPhase id p s).dem.completions = s.dem.completions := rfl
@[simp] theorem setPhase_rgt (id : Nat) (p : Phase) (s : State) : (setPhase id p s).rgt = s.rgt := rfl
@[simp] theorem setPhase_cod (id : Nat) (p : Phase) (s : State) : (setPhase id p s).cod = s.cod := rfl
@[simp] theorem setPhase_dht (id : Nat) (p : Phase) (s : State) : (setPhase id p s).dht = s.dht := rfl
@[simp] theorem setPhase_rpq (id : Nat) (p : Phase) (s : State) : (setPhase id p s).rpq = s.rpq := rfl
@[simp] theorem setPhase_sls (id : Nat) (p : Phase) (s : State) : (setPhase id p s).sls = s.sls := rfl
@[simp] theorem setPhase_fcu (id : Nat) (p : Phase) (s : State) : (setPhase id p s).fcu = s.fcu := rfl
@[simp] theorem setPhase_psc (id : Nat) (p : Phase) (s : State) : (setPhase id p s).psc = s.psc := rfl
@[simp] theorem setPhase_drp (id : Nat) (p : Phase) (s : State) : (setPhase id p s).drp = s.drp := rfl
@[simp] theorem setPhase_mgu (id : Nat) (p : Phase) (s : State) : (setPhase id p s).mgu = s.mgu := rfl
@[simp] theorem setPhase_stamp (id : Nat) (p : Phase) (s : State) : (setPhase id p s).stamp = s.stamp := rfl
@[simp] theorem setPhase_pending (id : Nat) (p : Phase) (s : State) : (setPhase id p s).pending = s.pending := rfl

/-! ### attachClass -/

@[simp] theorem attachClass_link (id : Nat) (c : Classification) (s : State) : (attachClass id c s).link = s.link := rfl
@[simp] theorem attachClass_dem_requests (id : Nat) (c : Classification) (s : State) :
    (attachClass id c s).dem.requests = s.dem.requests.map fun r => if r.id = id then { r with cls := some c } else r := rfl
@[simp] theorem attachClass_dem_holdSet (id : Nat) (c : Classification) (s : State) :
    (attachClass id c s).dem.holdSet = s.dem.holdSet := rfl
@[simp] theorem attachClass_dem_completions (id : Nat) (c : Classification) (s : State) :
    (attachClass id c s).dem.completions = s.dem.completions := rfl
@[simp] theorem attachClass_rgt (id : Nat) (c : Classification) (s : State) : (attachClass id c s).rgt = s.rgt := rfl
@[simp] theorem attachClass_cod (id : Nat) (c : Classification) (s : State) : (attachClass id c s).cod = s.cod := rfl
@[simp] theorem attachClass_dht (id : Nat) (c : Classification) (s : State) : (attachClass id c s).dht = s.dht := rfl
@[simp] theorem attachClass_rpq (id : Nat) (c : Classification) (s : State) : (attachClass id c s).rpq = s.rpq := rfl
@[simp] theorem attachClass_sls (id : Nat) (c : Classification) (s : State) : (attachClass id c s).sls = s.sls := rfl
@[simp] theorem attachClass_fcu (id : Nat) (c : Classification) (s : State) : (attachClass id c s).fcu = s.fcu := rfl
@[simp] theorem attachClass_psc (id : Nat) (c : Classification) (s : State) : (attachClass id c s).psc = s.psc := rfl
@[simp] theorem attachClass_drp (id : Nat) (c : Classification) (s : State) : (attachClass id c s).drp = s.drp := rfl
@[simp] theorem attachClass_mgu (id : Nat) (c : Classification) (s : State) : (attachClass id c s).mgu = s.mgu := rfl
@[simp] theorem attachClass_stamp (id : Nat) (c : Classification) (s : State) : (attachClass id c s).stamp = s.stamp := rfl
@[simp] theorem attachClass_pending (id : Nat) (c : Classification) (s : State) : (attachClass id c s).pending = s.pending := rfl

/-! ### setSlot -/

@[simp] theorem setSlot_link (i : Nat) (x : Slot) (s : State) : (setSlot i x s).link = s.link := rfl
@[simp] theorem setSlot_dem (i : Nat) (x : Slot) (s : State) : (setSlot i x s).dem = s.dem := rfl
@[simp] theorem setSlot_rgt (i : Nat) (x : Slot) (s : State) : (setSlot i x s).rgt = s.rgt := rfl
@[simp] theorem setSlot_cod (i : Nat) (x : Slot) (s : State) : (setSlot i x s).cod = s.cod := rfl
@[simp] theorem setSlot_dht (i : Nat) (x : Slot) (s : State) : (setSlot i x s).dht = s.dht := rfl
@[simp] theorem setSlot_rpq (i : Nat) (x : Slot) (s : State) : (setSlot i x s).rpq = s.rpq := rfl
@[simp] theorem setSlot_sls_slots (i : Nat) (x : Slot) (s : State) :
    (setSlot i x s).sls.slots = setAt s.sls.slots i x := rfl
@[simp] theorem setSlot_sls_threshold (i : Nat) (x : Slot) (s : State) :
    (setSlot i x s).sls.threshold = s.sls.threshold := rfl
@[simp] theorem setSlot_sls_allocationFailed (i : Nat) (x : Slot) (s : State) :
    (setSlot i x s).sls.allocationFailed = s.sls.allocationFailed := rfl
@[simp] theorem setSlot_sls_retires (i : Nat) (x : Slot) (s : State) :
    (setSlot i x s).sls.retires = s.sls.retires := rfl
@[simp] theorem setSlot_fcu (i : Nat) (x : Slot) (s : State) : (setSlot i x s).fcu = s.fcu := rfl
@[simp] theorem setSlot_psc (i : Nat) (x : Slot) (s : State) : (setSlot i x s).psc = s.psc := rfl
@[simp] theorem setSlot_drp (i : Nat) (x : Slot) (s : State) : (setSlot i x s).drp = s.drp := rfl
@[simp] theorem setSlot_mgu (i : Nat) (x : Slot) (s : State) : (setSlot i x s).mgu = s.mgu := rfl
@[simp] theorem setSlot_stamp (i : Nat) (x : Slot) (s : State) : (setSlot i x s).stamp = s.stamp := rfl
@[simp] theorem setSlot_pending (i : Nat) (x : Slot) (s : State) : (setSlot i x s).pending = s.pending := rfl

/-! ### endRetire -/

@[simp] theorem endRetire_link (id : Nat) (s : State) : (endRetire id s).link = s.link := rfl
@[simp] theorem endRetire_dem (id : Nat) (s : State) : (endRetire id s).dem = s.dem := rfl
@[simp] theorem endRetire_rgt (id : Nat) (s : State) : (endRetire id s).rgt = s.rgt := rfl
@[simp] theorem endRetire_cod (id : Nat) (s : State) : (endRetire id s).cod = s.cod := rfl
@[simp] theorem endRetire_dht (id : Nat) (s : State) : (endRetire id s).dht = s.dht := rfl
@[simp] theorem endRetire_rpq (id : Nat) (s : State) : (endRetire id s).rpq = s.rpq := rfl
@[simp] theorem endRetire_sls_slots (id : Nat) (s : State) :
    (endRetire id s).sls.slots = s.sls.slots := rfl
@[simp] theorem endRetire_sls_threshold (id : Nat) (s : State) :
    (endRetire id s).sls.threshold = s.sls.threshold := rfl
@[simp] theorem endRetire_sls_allocationFailed (id : Nat) (s : State) :
    (endRetire id s).sls.allocationFailed = s.sls.allocationFailed := rfl
@[simp] theorem endRetire_sls_retires (id : Nat) (s : State) :
    (endRetire id s).sls.retires = s.sls.retires.filter fun w => w.request != id := rfl
@[simp] theorem endRetire_fcu (id : Nat) (s : State) : (endRetire id s).fcu = s.fcu := rfl
@[simp] theorem endRetire_psc (id : Nat) (s : State) : (endRetire id s).psc = s.psc := rfl
@[simp] theorem endRetire_drp (id : Nat) (s : State) : (endRetire id s).drp = s.drp := rfl
@[simp] theorem endRetire_mgu (id : Nat) (s : State) : (endRetire id s).mgu = s.mgu := rfl
@[simp] theorem endRetire_stamp (id : Nat) (s : State) : (endRetire id s).stamp = s.stamp := rfl
@[simp] theorem endRetire_pending (id : Nat) (s : State) : (endRetire id s).pending = s.pending := rfl

/-! ### removeEntry -/

@[simp] theorem removeEntry_link (id : Nat) (s : State) : (removeEntry id s).link = s.link := rfl
@[simp] theorem removeEntry_dem (id : Nat) (s : State) : (removeEntry id s).dem = s.dem := rfl
@[simp] theorem removeEntry_rgt (id : Nat) (s : State) : (removeEntry id s).rgt = s.rgt := rfl
@[simp] theorem removeEntry_cod (id : Nat) (s : State) : (removeEntry id s).cod = s.cod := rfl
@[simp] theorem removeEntry_dht (id : Nat) (s : State) : (removeEntry id s).dht = s.dht := rfl
@[simp] theorem removeEntry_rpq_entries (id : Nat) (s : State) :
    (removeEntry id s).rpq.entries = s.rpq.entries.filter fun e => e.id != id := rfl
@[simp] theorem removeEntry_sls (id : Nat) (s : State) : (removeEntry id s).sls = s.sls := rfl
@[simp] theorem removeEntry_fcu (id : Nat) (s : State) : (removeEntry id s).fcu = s.fcu := rfl
@[simp] theorem removeEntry_psc (id : Nat) (s : State) : (removeEntry id s).psc = s.psc := rfl
@[simp] theorem removeEntry_drp (id : Nat) (s : State) : (removeEntry id s).drp = s.drp := rfl
@[simp] theorem removeEntry_mgu (id : Nat) (s : State) : (removeEntry id s).mgu = s.mgu := rfl
@[simp] theorem removeEntry_stamp (id : Nat) (s : State) : (removeEntry id s).stamp = s.stamp := rfl
@[simp] theorem removeEntry_pending (id : Nat) (s : State) : (removeEntry id s).pending = s.pending := rfl

/-! ### updateEntry -/

@[simp] theorem updateEntry_link (id : Nat) (f : RepairEntry → RepairEntry) (s : State) : (updateEntry id f s).link = s.link := rfl
@[simp] theorem updateEntry_dem (id : Nat) (f : RepairEntry → RepairEntry) (s : State) : (updateEntry id f s).dem = s.dem := rfl
@[simp] theorem updateEntry_rgt (id : Nat) (f : RepairEntry → RepairEntry) (s : State) : (updateEntry id f s).rgt = s.rgt := rfl
@[simp] theorem updateEntry_cod (id : Nat) (f : RepairEntry → RepairEntry) (s : State) : (updateEntry id f s).cod = s.cod := rfl
@[simp] theorem updateEntry_dht (id : Nat) (f : RepairEntry → RepairEntry) (s : State) : (updateEntry id f s).dht = s.dht := rfl
@[simp] theorem updateEntry_rpq_entries (id : Nat) (f : RepairEntry → RepairEntry) (s : State) :
    (updateEntry id f s).rpq.entries = s.rpq.entries.map fun e => if e.id = id then f e else e := rfl
@[simp] theorem updateEntry_sls (id : Nat) (f : RepairEntry → RepairEntry) (s : State) : (updateEntry id f s).sls = s.sls := rfl
@[simp] theorem updateEntry_fcu (id : Nat) (f : RepairEntry → RepairEntry) (s : State) : (updateEntry id f s).fcu = s.fcu := rfl
@[simp] theorem updateEntry_psc (id : Nat) (f : RepairEntry → RepairEntry) (s : State) : (updateEntry id f s).psc = s.psc := rfl
@[simp] theorem updateEntry_drp (id : Nat) (f : RepairEntry → RepairEntry) (s : State) : (updateEntry id f s).drp = s.drp := rfl
@[simp] theorem updateEntry_mgu (id : Nat) (f : RepairEntry → RepairEntry) (s : State) : (updateEntry id f s).mgu = s.mgu := rfl
@[simp] theorem updateEntry_stamp (id : Nat) (f : RepairEntry → RepairEntry) (s : State) : (updateEntry id f s).stamp = s.stamp := rfl
@[simp] theorem updateEntry_pending (id : Nat) (f : RepairEntry → RepairEntry) (s : State) : (updateEntry id f s).pending = s.pending := rfl

/-! ### setRegion -/

@[simp] theorem setRegion_link (i : Nat) (x : Stored RegionEntry) (s : State) : (setRegion i x s).link = s.link := rfl
@[simp] theorem setRegion_dem (i : Nat) (x : Stored RegionEntry) (s : State) : (setRegion i x s).dem = s.dem := rfl
@[simp] theorem setRegion_rgt_entries (i : Nat) (x : Stored RegionEntry) (s : State) :
    (setRegion i x s).rgt.entries = setAt s.rgt.entries i x := rfl
@[simp] theorem setRegion_rgt_defaultLevel (i : Nat) (x : Stored RegionEntry) (s : State) :
    (setRegion i x s).rgt.defaultLevel = s.rgt.defaultLevel := rfl
@[simp] theorem setRegion_cod (i : Nat) (x : Stored RegionEntry) (s : State) : (setRegion i x s).cod = s.cod := rfl
@[simp] theorem setRegion_dht (i : Nat) (x : Stored RegionEntry) (s : State) : (setRegion i x s).dht = s.dht := rfl
@[simp] theorem setRegion_rpq (i : Nat) (x : Stored RegionEntry) (s : State) : (setRegion i x s).rpq = s.rpq := rfl
@[simp] theorem setRegion_sls (i : Nat) (x : Stored RegionEntry) (s : State) : (setRegion i x s).sls = s.sls := rfl
@[simp] theorem setRegion_fcu (i : Nat) (x : Stored RegionEntry) (s : State) : (setRegion i x s).fcu = s.fcu := rfl
@[simp] theorem setRegion_psc (i : Nat) (x : Stored RegionEntry) (s : State) : (setRegion i x s).psc = s.psc := rfl
@[simp] theorem setRegion_drp (i : Nat) (x : Stored RegionEntry) (s : State) : (setRegion i x s).drp = s.drp := rfl
@[simp] theorem setRegion_mgu (i : Nat) (x : Stored RegionEntry) (s : State) : (setRegion i x s).mgu = s.mgu := rfl
@[simp] theorem setRegion_stamp (i : Nat) (x : Stored RegionEntry) (s : State) : (setRegion i x s).stamp = s.stamp := rfl
@[simp] theorem setRegion_pending (i : Nat) (x : Stored RegionEntry) (s : State) : (setRegion i x s).pending = s.pending := rfl

/-! ### setProfile -/

@[simp] theorem setProfile_link (n : Nat) (x : Stored Profile) (s : State) : (setProfile n x s).link = s.link := rfl
@[simp] theorem setProfile_dem (n : Nat) (x : Stored Profile) (s : State) : (setProfile n x s).dem = s.dem := rfl
@[simp] theorem setProfile_rgt (n : Nat) (x : Stored Profile) (s : State) : (setProfile n x s).rgt = s.rgt := rfl
@[simp] theorem setProfile_cod (n : Nat) (x : Stored Profile) (s : State) : (setProfile n x s).cod = s.cod := rfl
@[simp] theorem setProfile_dht (n : Nat) (x : Stored Profile) (s : State) : (setProfile n x s).dht = s.dht := rfl
@[simp] theorem setProfile_rpq (n : Nat) (x : Stored Profile) (s : State) : (setProfile n x s).rpq = s.rpq := rfl
@[simp] theorem setProfile_sls (n : Nat) (x : Stored Profile) (s : State) : (setProfile n x s).sls = s.sls := rfl
@[simp] theorem setProfile_fcu (n : Nat) (x : Stored Profile) (s : State) : (setProfile n x s).fcu = s.fcu := rfl
@[simp] theorem setProfile_psc_profiles (n : Nat) (x : Stored Profile) (s : State) :
    (setProfile n x s).psc.profiles = setAt s.psc.profiles n x := rfl
@[simp] theorem setProfile_psc_phase (n : Nat) (x : Stored Profile) (s : State) :
    (setProfile n x s).psc.phase = s.psc.phase := rfl
@[simp] theorem setProfile_psc_tickCountdown (n : Nat) (x : Stored Profile) (s : State) :
    (setProfile n x s).psc.tickCountdown = s.psc.tickCountdown := rfl
@[simp] theorem setProfile_psc_running (n : Nat) (x : Stored Profile) (s : State) :
    (setProfile n x s).psc.running = s.psc.running := rfl
@[simp] theorem setProfile_psc_cursor (n : Nat) (x : Stored Profile) (s : State) :
    (setProfile n x s).psc.cursor = s.psc.cursor := rfl
@[simp] theorem setProfile_psc_cursorPhase (n : Nat) (x : Stored Profile) (s : State) :
    (setProfile n x s).psc.cursorPhase = s.psc.cursorPhase := rfl
@[simp] theorem setProfile_psc_wholeSweep (n : Nat) (x : Stored Profile) (s : State) :
    (setProfile n x s).psc.wholeSweep = s.psc.wholeSweep := rfl
@[simp] theorem setProfile_psc_passVisited (n : Nat) (x : Stored Profile) (s : State) :
    (setProfile n x s).psc.passVisited = s.psc.passVisited := rfl
@[simp] theorem setProfile_psc_credit (n : Nat) (x : Stored Profile) (s : State) :
    (setProfile n x s).psc.credit = s.psc.credit := rfl
@[simp] theorem setProfile_psc_lagLimit (n : Nat) (x : Stored Profile) (s : State) :
    (setProfile n x s).psc.lagLimit = s.psc.lagLimit := rfl
@[simp] theorem setProfile_psc_steal (n : Nat) (x : Stored Profile) (s : State) :
    (setProfile n x s).psc.steal = s.psc.steal := rfl
@[simp] theorem setProfile_psc_lagging (n : Nat) (x : Stored Profile) (s : State) :
    (setProfile n x s).psc.lagging = s.psc.lagging := rfl
@[simp] theorem setProfile_drp (n : Nat) (x : Stored Profile) (s : State) : (setProfile n x s).drp = s.drp := rfl
@[simp] theorem setProfile_mgu (n : Nat) (x : Stored Profile) (s : State) : (setProfile n x s).mgu = s.mgu := rfl
@[simp] theorem setProfile_stamp (n : Nat) (x : Stored Profile) (s : State) : (setProfile n x s).stamp = s.stamp := rfl
@[simp] theorem setProfile_pending (n : Nat) (x : Stored Profile) (s : State) : (setProfile n x s).pending = s.pending := rfl

/-! ### setDevice -/

@[simp] theorem setDevice_link (n : Nat) (x : Stored DeviceEntry) (s : State) : (setDevice n x s).link = s.link := rfl
@[simp] theorem setDevice_dem (n : Nat) (x : Stored DeviceEntry) (s : State) : (setDevice n x s).dem = s.dem := rfl
@[simp] theorem setDevice_rgt (n : Nat) (x : Stored DeviceEntry) (s : State) : (setDevice n x s).rgt = s.rgt := rfl
@[simp] theorem setDevice_cod (n : Nat) (x : Stored DeviceEntry) (s : State) : (setDevice n x s).cod = s.cod := rfl
@[simp] theorem setDevice_dht_devices (n : Nat) (x : Stored DeviceEntry) (s : State) :
    (setDevice n x s).dht.devices = setAt s.dht.devices n x := rfl
@[simp] theorem setDevice_dht_decayQ (n : Nat) (x : Stored DeviceEntry) (s : State) :
    (setDevice n x s).dht.decayQ = s.dht.decayQ := rfl
@[simp] theorem setDevice_dht_probationK (n : Nat) (x : Stored DeviceEntry) (s : State) :
    (setDevice n x s).dht.probationK = s.dht.probationK := rfl
@[simp] theorem setDevice_rpq (n : Nat) (x : Stored DeviceEntry) (s : State) : (setDevice n x s).rpq = s.rpq := rfl
@[simp] theorem setDevice_sls (n : Nat) (x : Stored DeviceEntry) (s : State) : (setDevice n x s).sls = s.sls := rfl
@[simp] theorem setDevice_fcu (n : Nat) (x : Stored DeviceEntry) (s : State) : (setDevice n x s).fcu = s.fcu := rfl
@[simp] theorem setDevice_psc (n : Nat) (x : Stored DeviceEntry) (s : State) : (setDevice n x s).psc = s.psc := rfl
@[simp] theorem setDevice_drp (n : Nat) (x : Stored DeviceEntry) (s : State) : (setDevice n x s).drp = s.drp := rfl
@[simp] theorem setDevice_mgu (n : Nat) (x : Stored DeviceEntry) (s : State) : (setDevice n x s).mgu = s.mgu := rfl
@[simp] theorem setDevice_stamp (n : Nat) (x : Stored DeviceEntry) (s : State) : (setDevice n x s).stamp = s.stamp := rfl
@[simp] theorem setDevice_pending (n : Nat) (x : Stored DeviceEntry) (s : State) : (setDevice n x s).pending = s.pending := rfl

/-! ### putDevice -/

@[simp] theorem putDevice_link (n : Nat) (e : DeviceEntry) (s : State) : (putDevice n e s).link = s.link := rfl
@[simp] theorem putDevice_dem (n : Nat) (e : DeviceEntry) (s : State) : (putDevice n e s).dem = s.dem := rfl
@[simp] theorem putDevice_rgt (n : Nat) (e : DeviceEntry) (s : State) : (putDevice n e s).rgt = s.rgt := rfl
@[simp] theorem putDevice_cod (n : Nat) (e : DeviceEntry) (s : State) : (putDevice n e s).cod = s.cod := rfl
@[simp] theorem putDevice_dht_devices (n : Nat) (e : DeviceEntry) (s : State) :
    (putDevice n e s).dht.devices = setAt s.dht.devices n ⟨e, .sound⟩ := rfl
@[simp] theorem putDevice_dht_decayQ (n : Nat) (e : DeviceEntry) (s : State) :
    (putDevice n e s).dht.decayQ = s.dht.decayQ := rfl
@[simp] theorem putDevice_dht_probationK (n : Nat) (e : DeviceEntry) (s : State) :
    (putDevice n e s).dht.probationK = s.dht.probationK := rfl
@[simp] theorem putDevice_rpq (n : Nat) (e : DeviceEntry) (s : State) : (putDevice n e s).rpq = s.rpq := rfl
@[simp] theorem putDevice_sls (n : Nat) (e : DeviceEntry) (s : State) : (putDevice n e s).sls = s.sls := rfl
@[simp] theorem putDevice_fcu (n : Nat) (e : DeviceEntry) (s : State) : (putDevice n e s).fcu = s.fcu := rfl
@[simp] theorem putDevice_psc (n : Nat) (e : DeviceEntry) (s : State) : (putDevice n e s).psc = s.psc := rfl
@[simp] theorem putDevice_drp (n : Nat) (e : DeviceEntry) (s : State) : (putDevice n e s).drp = s.drp := rfl
@[simp] theorem putDevice_mgu (n : Nat) (e : DeviceEntry) (s : State) : (putDevice n e s).mgu = s.mgu := rfl
@[simp] theorem putDevice_stamp (n : Nat) (e : DeviceEntry) (s : State) : (putDevice n e s).stamp = s.stamp := rfl
@[simp] theorem putDevice_pending (n : Nat) (e : DeviceEntry) (s : State) : (putDevice n e s).pending = s.pending := rfl

/-! ### resetHealth -/

@[simp] theorem resetHealth_link (s : State) : (resetHealth s).link = s.link := rfl
@[simp] theorem resetHealth_dem (s : State) : (resetHealth s).dem = s.dem := rfl
@[simp] theorem resetHealth_rgt (s : State) : (resetHealth s).rgt = s.rgt := rfl
@[simp] theorem resetHealth_cod (s : State) : (resetHealth s).cod = s.cod := rfl
@[simp] theorem resetHealth_dht_devices (s : State) :
    (resetHealth s).dht.devices = Vector.replicate 40 ⟨resetDevice, .sound⟩ := rfl
@[simp] theorem resetHealth_dht_decayQ (s : State) :
    (resetHealth s).dht.decayQ = s.dht.decayQ := rfl
@[simp] theorem resetHealth_dht_probationK (s : State) :
    (resetHealth s).dht.probationK = s.dht.probationK := rfl
@[simp] theorem resetHealth_rpq (s : State) : (resetHealth s).rpq = s.rpq := rfl
@[simp] theorem resetHealth_sls (s : State) : (resetHealth s).sls = s.sls := rfl
@[simp] theorem resetHealth_fcu (s : State) : (resetHealth s).fcu = s.fcu := rfl
@[simp] theorem resetHealth_psc (s : State) : (resetHealth s).psc = s.psc := rfl
@[simp] theorem resetHealth_drp (s : State) : (resetHealth s).drp = s.drp := rfl
@[simp] theorem resetHealth_mgu (s : State) : (resetHealth s).mgu = s.mgu := rfl
@[simp] theorem resetHealth_stamp (s : State) : (resetHealth s).stamp = s.stamp := rfl
@[simp] theorem resetHealth_pending (s : State) : (resetHealth s).pending = s.pending := rfl

/-! ### setInjection -/

@[simp] theorem setInjection_link (i : Nat) (x : Option Injection) (s : State) : (setInjection i x s).link = s.link := rfl
@[simp] theorem setInjection_dem (i : Nat) (x : Option Injection) (s : State) : (setInjection i x s).dem = s.dem := rfl
@[simp] theorem setInjection_rgt (i : Nat) (x : Option Injection) (s : State) : (setInjection i x s).rgt = s.rgt := rfl
@[simp] theorem setInjection_cod_injections (i : Nat) (x : Option Injection) (s : State) :
    (setInjection i x s).cod.injections = setAt s.cod.injections i x := rfl
@[simp] theorem setInjection_cod_loopLine (i : Nat) (x : Option Injection) (s : State) :
    (setInjection i x s).cod.loopLine = s.cod.loopLine := rfl
@[simp] theorem setInjection_dht (i : Nat) (x : Option Injection) (s : State) : (setInjection i x s).dht = s.dht := rfl
@[simp] theorem setInjection_rpq (i : Nat) (x : Option Injection) (s : State) : (setInjection i x s).rpq = s.rpq := rfl
@[simp] theorem setInjection_sls (i : Nat) (x : Option Injection) (s : State) : (setInjection i x s).sls = s.sls := rfl
@[simp] theorem setInjection_fcu (i : Nat) (x : Option Injection) (s : State) : (setInjection i x s).fcu = s.fcu := rfl
@[simp] theorem setInjection_psc (i : Nat) (x : Option Injection) (s : State) : (setInjection i x s).psc = s.psc := rfl
@[simp] theorem setInjection_drp (i : Nat) (x : Option Injection) (s : State) : (setInjection i x s).drp = s.drp := rfl
@[simp] theorem setInjection_mgu (i : Nat) (x : Option Injection) (s : State) : (setInjection i x s).mgu = s.mgu := rfl
@[simp] theorem setInjection_stamp (i : Nat) (x : Option Injection) (s : State) : (setInjection i x s).stamp = s.stamp := rfl
@[simp] theorem setInjection_pending (i : Nat) (x : Option Injection) (s : State) : (setInjection i x s).pending = s.pending := rfl

/-! ### setLoop -/

@[simp] theorem setLoop_link (x : Option RawLine) (s : State) : (setLoop x s).link = s.link := rfl
@[simp] theorem setLoop_dem (x : Option RawLine) (s : State) : (setLoop x s).dem = s.dem := rfl
@[simp] theorem setLoop_rgt (x : Option RawLine) (s : State) : (setLoop x s).rgt = s.rgt := rfl
@[simp] theorem setLoop_cod_injections (x : Option RawLine) (s : State) :
    (setLoop x s).cod.injections = s.cod.injections := rfl
@[simp] theorem setLoop_cod_loopLine (x : Option RawLine) (s : State) :
    (setLoop x s).cod.loopLine = x := rfl
@[simp] theorem setLoop_dht (x : Option RawLine) (s : State) : (setLoop x s).dht = s.dht := rfl
@[simp] theorem setLoop_rpq (x : Option RawLine) (s : State) : (setLoop x s).rpq = s.rpq := rfl
@[simp] theorem setLoop_sls (x : Option RawLine) (s : State) : (setLoop x s).sls = s.sls := rfl
@[simp] theorem setLoop_fcu (x : Option RawLine) (s : State) : (setLoop x s).fcu = s.fcu := rfl
@[simp] theorem setLoop_psc (x : Option RawLine) (s : State) : (setLoop x s).psc = s.psc := rfl
@[simp] theorem setLoop_drp (x : Option RawLine) (s : State) : (setLoop x s).drp = s.drp := rfl
@[simp] theorem setLoop_mgu (x : Option RawLine) (s : State) : (setLoop x s).mgu = s.mgu := rfl
@[simp] theorem setLoop_stamp (x : Option RawLine) (s : State) : (setLoop x s).stamp = s.stamp := rfl
@[simp] theorem setLoop_pending (x : Option RawLine) (s : State) : (setLoop x s).pending = s.pending := rfl

/-! ### closeContext -/

@[simp] theorem closeContext_link (id : Nat) (s : State) : (closeContext id s).link = s.link := rfl
@[simp] theorem closeContext_dem (id : Nat) (s : State) : (closeContext id s).dem = s.dem := rfl
@[simp] theorem closeContext_rgt (id : Nat) (s : State) : (closeContext id s).rgt = s.rgt := rfl
@[simp] theorem closeContext_cod (id : Nat) (s : State) : (closeContext id s).cod = s.cod := rfl
@[simp] theorem closeContext_dht (id : Nat) (s : State) : (closeContext id s).dht = s.dht := rfl
@[simp] theorem closeContext_rpq (id : Nat) (s : State) : (closeContext id s).rpq = s.rpq := rfl
@[simp] theorem closeContext_sls (id : Nat) (s : State) : (closeContext id s).sls = s.sls := rfl
@[simp] theorem closeContext_fcu_recordA (id : Nat) (s : State) :
    (closeContext id s).fcu.recordA = s.fcu.recordA := rfl
@[simp] theorem closeContext_fcu_recordB (id : Nat) (s : State) :
    (closeContext id s).fcu.recordB = s.fcu.recordB := rfl
@[simp] theorem closeContext_fcu_next (id : Nat) (s : State) :
    (closeContext id s).fcu.next = s.fcu.next := rfl
@[simp] theorem closeContext_fcu_halted (id : Nat) (s : State) :
    (closeContext id s).fcu.halted = s.fcu.halted := rfl
@[simp] theorem closeContext_fcu_contexts (id : Nat) (s : State) :
    (closeContext id s).fcu.contexts = s.fcu.contexts.filter fun c => c.id != id := rfl
@[simp] theorem closeContext_psc (id : Nat) (s : State) : (closeContext id s).psc = s.psc := rfl
@[simp] theorem closeContext_drp (id : Nat) (s : State) : (closeContext id s).drp = s.drp := rfl
@[simp] theorem closeContext_mgu (id : Nat) (s : State) : (closeContext id s).mgu = s.mgu := rfl
@[simp] theorem closeContext_stamp (id : Nat) (s : State) : (closeContext id s).stamp = s.stamp := rfl
@[simp] theorem closeContext_pending (id : Nat) (s : State) : (closeContext id s).pending = s.pending := rfl

/-! ### stopPatrol -/

@[simp] theorem stopPatrol_link (s : State) : (stopPatrol s).link = s.link := rfl
@[simp] theorem stopPatrol_dem (s : State) : (stopPatrol s).dem = s.dem := rfl
@[simp] theorem stopPatrol_rgt (s : State) : (stopPatrol s).rgt = s.rgt := rfl
@[simp] theorem stopPatrol_cod (s : State) : (stopPatrol s).cod = s.cod := rfl
@[simp] theorem stopPatrol_dht (s : State) : (stopPatrol s).dht = s.dht := rfl
@[simp] theorem stopPatrol_rpq (s : State) : (stopPatrol s).rpq = s.rpq := rfl
@[simp] theorem stopPatrol_sls (s : State) : (stopPatrol s).sls = s.sls := rfl
@[simp] theorem stopPatrol_fcu (s : State) : (stopPatrol s).fcu = s.fcu := rfl
@[simp] theorem stopPatrol_psc_profiles (s : State) :
    (stopPatrol s).psc.profiles = s.psc.profiles := rfl
@[simp] theorem stopPatrol_psc_phase (s : State) :
    (stopPatrol s).psc.phase = s.psc.phase := rfl
@[simp] theorem stopPatrol_psc_tickCountdown (s : State) :
    (stopPatrol s).psc.tickCountdown = s.psc.tickCountdown := rfl
@[simp] theorem stopPatrol_psc_running (s : State) :
    (stopPatrol s).psc.running = false := rfl
@[simp] theorem stopPatrol_psc_cursor (s : State) :
    (stopPatrol s).psc.cursor = s.psc.cursor := rfl
@[simp] theorem stopPatrol_psc_cursorPhase (s : State) :
    (stopPatrol s).psc.cursorPhase = .untested := rfl
@[simp] theorem stopPatrol_psc_wholeSweep (s : State) :
    (stopPatrol s).psc.wholeSweep = s.psc.wholeSweep := rfl
@[simp] theorem stopPatrol_psc_passVisited (s : State) :
    (stopPatrol s).psc.passVisited = s.psc.passVisited := rfl
@[simp] theorem stopPatrol_psc_credit (s : State) :
    (stopPatrol s).psc.credit = s.psc.credit := rfl
@[simp] theorem stopPatrol_psc_lagLimit (s : State) :
    (stopPatrol s).psc.lagLimit = s.psc.lagLimit := rfl
@[simp] theorem stopPatrol_psc_steal (s : State) :
    (stopPatrol s).psc.steal = s.psc.steal := rfl
@[simp] theorem stopPatrol_psc_lagging (s : State) :
    (stopPatrol s).psc.lagging = s.psc.lagging := rfl
@[simp] theorem stopPatrol_drp (s : State) : (stopPatrol s).drp = s.drp := rfl
@[simp] theorem stopPatrol_mgu (s : State) : (stopPatrol s).mgu = s.mgu := rfl
@[simp] theorem stopPatrol_stamp (s : State) : (stopPatrol s).stamp = s.stamp := rfl
@[simp] theorem stopPatrol_pending (s : State) : (stopPatrol s).pending = s.pending := rfl

/-! ### setCursor -/

@[simp] theorem setCursor_link (a : LineAddr) (s : State) : (setCursor a s).link = s.link := rfl
@[simp] theorem setCursor_dem (a : LineAddr) (s : State) : (setCursor a s).dem = s.dem := rfl
@[simp] theorem setCursor_rgt (a : LineAddr) (s : State) : (setCursor a s).rgt = s.rgt := rfl
@[simp] theorem setCursor_cod (a : LineAddr) (s : State) : (setCursor a s).cod = s.cod := rfl
@[simp] theorem setCursor_dht (a : LineAddr) (s : State) : (setCursor a s).dht = s.dht := rfl
@[simp] theorem setCursor_rpq (a : LineAddr) (s : State) : (setCursor a s).rpq = s.rpq := rfl
@[simp] theorem setCursor_sls (a : LineAddr) (s : State) : (setCursor a s).sls = s.sls := rfl
@[simp] theorem setCursor_fcu (a : LineAddr) (s : State) : (setCursor a s).fcu = s.fcu := rfl
@[simp] theorem setCursor_psc_profiles (a : LineAddr) (s : State) :
    (setCursor a s).psc.profiles = s.psc.profiles := rfl
@[simp] theorem setCursor_psc_phase (a : LineAddr) (s : State) :
    (setCursor a s).psc.phase = s.psc.phase := rfl
@[simp] theorem setCursor_psc_tickCountdown (a : LineAddr) (s : State) :
    (setCursor a s).psc.tickCountdown = s.psc.tickCountdown := rfl
@[simp] theorem setCursor_psc_running (a : LineAddr) (s : State) :
    (setCursor a s).psc.running = s.psc.running := rfl
@[simp] theorem setCursor_psc_cursor (a : LineAddr) (s : State) :
    (setCursor a s).psc.cursor = some a := rfl
@[simp] theorem setCursor_psc_cursorPhase (a : LineAddr) (s : State) :
    (setCursor a s).psc.cursorPhase = .untested := rfl
@[simp] theorem setCursor_psc_wholeSweep (a : LineAddr) (s : State) :
    (setCursor a s).psc.wholeSweep = (a.index == 0) := rfl
@[simp] theorem setCursor_psc_passVisited (a : LineAddr) (s : State) :
    (setCursor a s).psc.passVisited = false := rfl
@[simp] theorem setCursor_psc_credit (a : LineAddr) (s : State) :
    (setCursor a s).psc.credit = s.psc.credit := rfl
@[simp] theorem setCursor_psc_lagLimit (a : LineAddr) (s : State) :
    (setCursor a s).psc.lagLimit = s.psc.lagLimit := rfl
@[simp] theorem setCursor_psc_steal (a : LineAddr) (s : State) :
    (setCursor a s).psc.steal = s.psc.steal := rfl
@[simp] theorem setCursor_psc_lagging (a : LineAddr) (s : State) :
    (setCursor a s).psc.lagging = s.psc.lagging := rfl
@[simp] theorem setCursor_drp (a : LineAddr) (s : State) : (setCursor a s).drp = s.drp := rfl
@[simp] theorem setCursor_mgu (a : LineAddr) (s : State) : (setCursor a s).mgu = s.mgu := rfl
@[simp] theorem setCursor_stamp (a : LineAddr) (s : State) : (setCursor a s).stamp = s.stamp := rfl
@[simp] theorem setCursor_pending (a : LineAddr) (s : State) : (setCursor a s).pending = s.pending := rfl

/-! ### parkCursor -/

@[simp] theorem parkCursor_link (s : State) : (parkCursor s).link = s.link := rfl
@[simp] theorem parkCursor_dem (s : State) : (parkCursor s).dem = s.dem := rfl
@[simp] theorem parkCursor_rgt (s : State) : (parkCursor s).rgt = s.rgt := rfl
@[simp] theorem parkCursor_cod (s : State) : (parkCursor s).cod = s.cod := rfl
@[simp] theorem parkCursor_dht (s : State) : (parkCursor s).dht = s.dht := rfl
@[simp] theorem parkCursor_rpq (s : State) : (parkCursor s).rpq = s.rpq := rfl
@[simp] theorem parkCursor_sls (s : State) : (parkCursor s).sls = s.sls := rfl
@[simp] theorem parkCursor_fcu (s : State) : (parkCursor s).fcu = s.fcu := rfl
@[simp] theorem parkCursor_psc_profiles (s : State) :
    (parkCursor s).psc.profiles = s.psc.profiles := rfl
@[simp] theorem parkCursor_psc_phase (s : State) :
    (parkCursor s).psc.phase = s.psc.phase := rfl
@[simp] theorem parkCursor_psc_tickCountdown (s : State) :
    (parkCursor s).psc.tickCountdown = s.psc.tickCountdown := rfl
@[simp] theorem parkCursor_psc_running (s : State) :
    (parkCursor s).psc.running = s.psc.running := rfl
@[simp] theorem parkCursor_psc_cursor (s : State) :
    (parkCursor s).psc.cursor = none := rfl
@[simp] theorem parkCursor_psc_cursorPhase (s : State) :
    (parkCursor s).psc.cursorPhase = .untested := rfl
@[simp] theorem parkCursor_psc_wholeSweep (s : State) :
    (parkCursor s).psc.wholeSweep = false := rfl
@[simp] theorem parkCursor_psc_passVisited (s : State) :
    (parkCursor s).psc.passVisited = false := rfl
@[simp] theorem parkCursor_psc_credit (s : State) :
    (parkCursor s).psc.credit = s.psc.credit := rfl
@[simp] theorem parkCursor_psc_lagLimit (s : State) :
    (parkCursor s).psc.lagLimit = s.psc.lagLimit := rfl
@[simp] theorem parkCursor_psc_steal (s : State) :
    (parkCursor s).psc.steal = s.psc.steal := rfl
@[simp] theorem parkCursor_psc_lagging (s : State) :
    (parkCursor s).psc.lagging = s.psc.lagging := rfl
@[simp] theorem parkCursor_drp (s : State) : (parkCursor s).drp = s.drp := rfl
@[simp] theorem parkCursor_mgu (s : State) : (parkCursor s).mgu = s.mgu := rfl
@[simp] theorem parkCursor_stamp (s : State) : (parkCursor s).stamp = s.stamp := rfl
@[simp] theorem parkCursor_pending (s : State) : (parkCursor s).pending = s.pending := rfl

/-! ### occupy -/

@[simp] theorem occupy_link (op : PortOp) (a : LineAddr) (c : Option Classification) (w : Option Burst) (s : State) : (occupy op a c w s).link = s.link := rfl
@[simp] theorem occupy_dem (op : PortOp) (a : LineAddr) (c : Option Classification) (w : Option Burst) (s : State) : (occupy op a c w s).dem = s.dem := rfl
@[simp] theorem occupy_rgt (op : PortOp) (a : LineAddr) (c : Option Classification) (w : Option Burst) (s : State) : (occupy op a c w s).rgt = s.rgt := rfl
@[simp] theorem occupy_cod (op : PortOp) (a : LineAddr) (c : Option Classification) (w : Option Burst) (s : State) : (occupy op a c w s).cod = s.cod := rfl
@[simp] theorem occupy_dht (op : PortOp) (a : LineAddr) (c : Option Classification) (w : Option Burst) (s : State) : (occupy op a c w s).dht = s.dht := rfl
@[simp] theorem occupy_rpq (op : PortOp) (a : LineAddr) (c : Option Classification) (w : Option Burst) (s : State) : (occupy op a c w s).rpq = s.rpq := rfl
@[simp] theorem occupy_sls (op : PortOp) (a : LineAddr) (c : Option Classification) (w : Option Burst) (s : State) : (occupy op a c w s).sls = s.sls := rfl
@[simp] theorem occupy_fcu (op : PortOp) (a : LineAddr) (c : Option Classification) (w : Option Burst) (s : State) : (occupy op a c w s).fcu = s.fcu := rfl
@[simp] theorem occupy_psc (op : PortOp) (a : LineAddr) (c : Option Classification) (w : Option Burst) (s : State) : (occupy op a c w s).psc = s.psc := rfl
@[simp] theorem occupy_drp_ranks (op : PortOp) (a : LineAddr) (c : Option Classification) (w : Option Burst) (s : State) :
    (occupy op a c w s).drp.ranks = s.drp.ranks := rfl
@[simp] theorem occupy_drp_lastFill (op : PortOp) (a : LineAddr) (c : Option Classification) (w : Option Burst) (s : State) :
    (occupy op a c w s).drp.lastFill = s.drp.lastFill := rfl
@[simp] theorem occupy_drp_history (op : PortOp) (a : LineAddr) (c : Option Classification) (w : Option Burst) (s : State) :
    (occupy op a c w s).drp.history = s.drp.history := rfl
@[simp] theorem occupy_drp_port (op : PortOp) (a : LineAddr) (c : Option Classification) (w : Option Burst) (s : State) :
    (occupy op a c w s).drp.port = some { op := op, line := a, cls := c, formed := w, overwritten := false } := rfl
@[simp] theorem occupy_drp_refreshDue (op : PortOp) (a : LineAddr) (c : Option Classification) (w : Option Burst) (s : State) :
    (occupy op a c w s).drp.refreshDue = s.drp.refreshDue := rfl
@[simp] theorem occupy_mgu (op : PortOp) (a : LineAddr) (c : Option Classification) (w : Option Burst) (s : State) : (occupy op a c w s).mgu = s.mgu := rfl
@[simp] theorem occupy_stamp (op : PortOp) (a : LineAddr) (c : Option Classification) (w : Option Burst) (s : State) : (occupy op a c w s).stamp = s.stamp := rfl
@[simp] theorem occupy_pending (op : PortOp) (a : LineAddr) (c : Option Classification) (w : Option Burst) (s : State) : (occupy op a c w s).pending = s.pending := rfl

/-! ### freePort -/

@[simp] theorem freePort_link (s : State) : (freePort s).link = s.link := rfl
@[simp] theorem freePort_dem (s : State) : (freePort s).dem = s.dem := rfl
@[simp] theorem freePort_rgt (s : State) : (freePort s).rgt = s.rgt := rfl
@[simp] theorem freePort_cod (s : State) : (freePort s).cod = s.cod := rfl
@[simp] theorem freePort_dht (s : State) : (freePort s).dht = s.dht := rfl
@[simp] theorem freePort_rpq (s : State) : (freePort s).rpq = s.rpq := rfl
@[simp] theorem freePort_sls (s : State) : (freePort s).sls = s.sls := rfl
@[simp] theorem freePort_fcu (s : State) : (freePort s).fcu = s.fcu := rfl
@[simp] theorem freePort_psc (s : State) : (freePort s).psc = s.psc := rfl
@[simp] theorem freePort_drp_ranks (s : State) :
    (freePort s).drp.ranks = s.drp.ranks := rfl
@[simp] theorem freePort_drp_lastFill (s : State) :
    (freePort s).drp.lastFill = s.drp.lastFill := rfl
@[simp] theorem freePort_drp_history (s : State) :
    (freePort s).drp.history = s.drp.history := rfl
@[simp] theorem freePort_drp_port (s : State) :
    (freePort s).drp.port = none := rfl
@[simp] theorem freePort_drp_refreshDue (s : State) :
    (freePort s).drp.refreshDue = s.drp.refreshDue := rfl
@[simp] theorem freePort_mgu (s : State) : (freePort s).mgu = s.mgu := rfl
@[simp] theorem freePort_stamp (s : State) : (freePort s).stamp = s.stamp := rfl
@[simp] theorem freePort_pending (s : State) : (freePort s).pending = s.pending := rfl

/-! ### beginReset -/

@[simp] theorem beginReset_link (f : Flavour) (id : Nat) (s : State) : (beginReset f id s).link = s.link := rfl
@[simp] theorem beginReset_dem (f : Flavour) (id : Nat) (s : State) : (beginReset f id s).dem = s.dem := rfl
@[simp] theorem beginReset_rgt (f : Flavour) (id : Nat) (s : State) : (beginReset f id s).rgt = s.rgt := rfl
@[simp] theorem beginReset_cod (f : Flavour) (id : Nat) (s : State) : (beginReset f id s).cod = s.cod := rfl
@[simp] theorem beginReset_dht (f : Flavour) (id : Nat) (s : State) : (beginReset f id s).dht = s.dht := rfl
@[simp] theorem beginReset_rpq (f : Flavour) (id : Nat) (s : State) : (beginReset f id s).rpq = s.rpq := rfl
@[simp] theorem beginReset_sls (f : Flavour) (id : Nat) (s : State) : (beginReset f id s).sls = s.sls := rfl
@[simp] theorem beginReset_fcu (f : Flavour) (id : Nat) (s : State) : (beginReset f id s).fcu = s.fcu := rfl
@[simp] theorem beginReset_psc (f : Flavour) (id : Nat) (s : State) : (beginReset f id s).psc = s.psc := rfl
@[simp] theorem beginReset_drp (f : Flavour) (id : Nat) (s : State) : (beginReset f id s).drp = s.drp := rfl
@[simp] theorem beginReset_mgu_mask (f : Flavour) (id : Nat) (s : State) :
    (beginReset f id s).mgu.mask = s.mgu.mask := rfl
@[simp] theorem beginReset_mgu_counters (f : Flavour) (id : Nat) (s : State) :
    (beginReset f id s).mgu.counters = s.mgu.counters := rfl
@[simp] theorem beginReset_mgu_timeBase (f : Flavour) (id : Nat) (s : State) :
    (beginReset f id s).mgu.timeBase = s.mgu.timeBase := rfl
@[simp] theorem beginReset_mgu_coreReset (f : Flavour) (id : Nat) (s : State) :
    (beginReset f id s).mgu.coreReset = some { flavour := f, request := id } := rfl
@[simp] theorem beginReset_stamp (f : Flavour) (id : Nat) (s : State) : (beginReset f id s).stamp = s.stamp := rfl
@[simp] theorem beginReset_pending (f : Flavour) (id : Nat) (s : State) : (beginReset f id s).pending = s.pending := rfl

/-! ### readyEntries -/

@[simp] theorem readyEntries_link (s : State) : (readyEntries s).link = s.link := rfl
@[simp] theorem readyEntries_dem (s : State) : (readyEntries s).dem = s.dem := rfl
@[simp] theorem readyEntries_rgt (s : State) : (readyEntries s).rgt = s.rgt := rfl
@[simp] theorem readyEntries_cod (s : State) : (readyEntries s).cod = s.cod := rfl
@[simp] theorem readyEntries_dht (s : State) : (readyEntries s).dht = s.dht := rfl
@[simp] theorem readyEntries_rpq_entries (s : State) :
    (readyEntries s).rpq.entries = s.rpq.entries.map RepairEntry.drained := rfl
@[simp] theorem readyEntries_sls (s : State) : (readyEntries s).sls = s.sls := rfl
@[simp] theorem readyEntries_fcu (s : State) : (readyEntries s).fcu = s.fcu := rfl
@[simp] theorem readyEntries_psc (s : State) : (readyEntries s).psc = s.psc := rfl
@[simp] theorem readyEntries_drp (s : State) : (readyEntries s).drp = s.drp := rfl
@[simp] theorem readyEntries_mgu (s : State) : (readyEntries s).mgu = s.mgu := rfl
@[simp] theorem readyEntries_stamp (s : State) : (readyEntries s).stamp = s.stamp := rfl
@[simp] theorem readyEntries_pending (s : State) : (readyEntries s).pending = s.pending := rfl

/-! ### endGrantedRetries -/

@[simp] theorem endGrantedRetries_link (s : State) : (endGrantedRetries s).link = s.link := rfl
@[simp] theorem endGrantedRetries_dem (s : State) : (endGrantedRetries s).dem = s.dem := rfl
@[simp] theorem endGrantedRetries_rgt (s : State) : (endGrantedRetries s).rgt = s.rgt := rfl
@[simp] theorem endGrantedRetries_cod (s : State) : (endGrantedRetries s).cod = s.cod := rfl
@[simp] theorem endGrantedRetries_dht (s : State) : (endGrantedRetries s).dht = s.dht := rfl
@[simp] theorem endGrantedRetries_rpq (s : State) : (endGrantedRetries s).rpq = s.rpq := rfl
@[simp] theorem endGrantedRetries_sls (s : State) : (endGrantedRetries s).sls = s.sls := rfl
@[simp] theorem endGrantedRetries_fcu_recordA (s : State) :
    (endGrantedRetries s).fcu.recordA = s.fcu.recordA := rfl
@[simp] theorem endGrantedRetries_fcu_recordB (s : State) :
    (endGrantedRetries s).fcu.recordB = s.fcu.recordB := rfl
@[simp] theorem endGrantedRetries_fcu_next (s : State) :
    (endGrantedRetries s).fcu.next = s.fcu.next := rfl
@[simp] theorem endGrantedRetries_fcu_halted (s : State) :
    (endGrantedRetries s).fcu.halted = s.fcu.halted := rfl
@[simp] theorem endGrantedRetries_fcu_contexts (s : State) :
    (endGrantedRetries s).fcu.contexts = s.fcu.contexts.map fun c => { c with ended := true } := rfl
@[simp] theorem endGrantedRetries_psc (s : State) : (endGrantedRetries s).psc = s.psc := rfl
@[simp] theorem endGrantedRetries_drp (s : State) : (endGrantedRetries s).drp = s.drp := rfl
@[simp] theorem endGrantedRetries_mgu (s : State) : (endGrantedRetries s).mgu = s.mgu := rfl
@[simp] theorem endGrantedRetries_stamp (s : State) : (endGrantedRetries s).stamp = s.stamp := rfl
@[simp] theorem endGrantedRetries_pending (s : State) : (endGrantedRetries s).pending = s.pending := rfl

/-! ### timerRuns -/

@[simp] theorem timerRuns_link_por (n : Nat) (s : State) :
    (timerRuns n s).link.por = s.link.por := rfl
@[simp] theorem timerRuns_link_straps (n : Nat) (s : State) :
    (timerRuns n s).link.straps = s.link.straps := rfl
@[simp] theorem timerRuns_link_state (n : Nat) (s : State) :
    (timerRuns n s).link.state = s.link.state := rfl
@[simp] theorem timerRuns_link_fill (n : Nat) (s : State) :
    (timerRuns n s).link.fill = s.link.fill := rfl
@[simp] theorem timerRuns_link_timer (n : Nat) (s : State) :
    (timerRuns n s).link.timer = s.link.timer + n := rfl
@[simp] theorem timerRuns_link_slips (n : Nat) (s : State) :
    (timerRuns n s).link.slips = s.link.slips := rfl
@[simp] theorem timerRuns_link_upstream (n : Nat) (s : State) :
    (timerRuns n s).link.upstream = s.link.upstream := rfl
@[simp] theorem timerRuns_link_transmitting (n : Nat) (s : State) :
    (timerRuns n s).link.transmitting = s.link.transmitting := rfl
@[simp] theorem timerRuns_dem (n : Nat) (s : State) : (timerRuns n s).dem = s.dem := rfl
@[simp] theorem timerRuns_rgt (n : Nat) (s : State) : (timerRuns n s).rgt = s.rgt := rfl
@[simp] theorem timerRuns_cod (n : Nat) (s : State) : (timerRuns n s).cod = s.cod := rfl
@[simp] theorem timerRuns_dht (n : Nat) (s : State) : (timerRuns n s).dht = s.dht := rfl
@[simp] theorem timerRuns_rpq (n : Nat) (s : State) : (timerRuns n s).rpq = s.rpq := rfl
@[simp] theorem timerRuns_sls (n : Nat) (s : State) : (timerRuns n s).sls = s.sls := rfl
@[simp] theorem timerRuns_fcu (n : Nat) (s : State) : (timerRuns n s).fcu = s.fcu := rfl
@[simp] theorem timerRuns_psc (n : Nat) (s : State) : (timerRuns n s).psc = s.psc := rfl
@[simp] theorem timerRuns_drp (n : Nat) (s : State) : (timerRuns n s).drp = s.drp := rfl
@[simp] theorem timerRuns_mgu (n : Nat) (s : State) : (timerRuns n s).mgu = s.mgu := rfl
@[simp] theorem timerRuns_stamp (n : Nat) (s : State) : (timerRuns n s).stamp = s.stamp := rfl
@[simp] theorem timerRuns_pending (n : Nat) (s : State) : (timerRuns n s).pending = s.pending := rfl

/-! ### takeDrift -/

@[simp] theorem takeDrift_link_fill (n : Int) (s : State) :
    (takeDrift n s).link.fill = if driftsOut n s then 0 else s.link.fill + n := rfl
@[simp] theorem takeDrift_link_por (n : Int) (s : State) :
    (takeDrift n s).link.por = s.link.por := rfl
@[simp] theorem takeDrift_link_straps (n : Int) (s : State) :
    (takeDrift n s).link.straps = s.link.straps := rfl
@[simp] theorem takeDrift_link_state (n : Int) (s : State) :
    (takeDrift n s).link.state = s.link.state := rfl
@[simp] theorem takeDrift_link_timer (n : Int) (s : State) :
    (takeDrift n s).link.timer = s.link.timer := rfl
@[simp] theorem takeDrift_link_slips (n : Int) (s : State) :
    (takeDrift n s).link.slips = s.link.slips := rfl
@[simp] theorem takeDrift_link_upstream (n : Int) (s : State) :
    (takeDrift n s).link.upstream = s.link.upstream := rfl
@[simp] theorem takeDrift_link_transmitting (n : Int) (s : State) :
    (takeDrift n s).link.transmitting = s.link.transmitting := rfl
@[simp] theorem takeDrift_dem (n : Int) (s : State) : (takeDrift n s).dem = s.dem := rfl
@[simp] theorem takeDrift_rgt (n : Int) (s : State) : (takeDrift n s).rgt = s.rgt := rfl
@[simp] theorem takeDrift_cod (n : Int) (s : State) : (takeDrift n s).cod = s.cod := rfl
@[simp] theorem takeDrift_dht (n : Int) (s : State) : (takeDrift n s).dht = s.dht := rfl
@[simp] theorem takeDrift_rpq (n : Int) (s : State) : (takeDrift n s).rpq = s.rpq := rfl
@[simp] theorem takeDrift_sls (n : Int) (s : State) : (takeDrift n s).sls = s.sls := rfl
@[simp] theorem takeDrift_fcu (n : Int) (s : State) : (takeDrift n s).fcu = s.fcu := rfl
@[simp] theorem takeDrift_psc (n : Int) (s : State) : (takeDrift n s).psc = s.psc := rfl
@[simp] theorem takeDrift_drp (n : Int) (s : State) : (takeDrift n s).drp = s.drp := rfl
@[simp] theorem takeDrift_mgu (n : Int) (s : State) : (takeDrift n s).mgu = s.mgu := rfl
@[simp] theorem takeDrift_stamp (n : Int) (s : State) : (takeDrift n s).stamp = s.stamp := rfl
@[simp] theorem takeDrift_pending (n : Int) (s : State) : (takeDrift n s).pending = s.pending := rfl

/-! ### passMoment -/

@[simp] theorem passMoment_link (s : State) : (passMoment s).link = s.link := rfl
@[simp] theorem passMoment_dem (s : State) : (passMoment s).dem = s.dem := rfl
@[simp] theorem passMoment_rgt (s : State) : (passMoment s).rgt = s.rgt := rfl
@[simp] theorem passMoment_cod (s : State) : (passMoment s).cod = s.cod := rfl
@[simp] theorem passMoment_dht (s : State) : (passMoment s).dht = s.dht := rfl
@[simp] theorem passMoment_rpq (s : State) : (passMoment s).rpq = s.rpq := rfl
@[simp] theorem passMoment_sls (s : State) : (passMoment s).sls = s.sls := rfl
@[simp] theorem passMoment_fcu (s : State) : (passMoment s).fcu = s.fcu := rfl
@[simp] theorem passMoment_psc (s : State) : (passMoment s).psc = s.psc := rfl
@[simp] theorem passMoment_drp (s : State) : (passMoment s).drp = s.drp := rfl
@[simp] theorem passMoment_mgu (s : State) : (passMoment s).mgu = s.mgu := rfl
@[simp] theorem passMoment_stamp (s : State) : (passMoment s).stamp = s.stamp + 1 := rfl
@[simp] theorem passMoment_pending (s : State) : (passMoment s).pending = s.pending := rfl

/-! ### setRecord -/

@[simp] theorem setRecord_link (x : RecordName) (c : CaptureRecord) (s : State) : (setRecord x c s).link = s.link := by cases x <;> rfl
@[simp] theorem setRecord_dem (x : RecordName) (c : CaptureRecord) (s : State) : (setRecord x c s).dem = s.dem := by cases x <;> rfl
@[simp] theorem setRecord_rgt (x : RecordName) (c : CaptureRecord) (s : State) : (setRecord x c s).rgt = s.rgt := by cases x <;> rfl
@[simp] theorem setRecord_cod (x : RecordName) (c : CaptureRecord) (s : State) : (setRecord x c s).cod = s.cod := by cases x <;> rfl
@[simp] theorem setRecord_dht (x : RecordName) (c : CaptureRecord) (s : State) : (setRecord x c s).dht = s.dht := by cases x <;> rfl
@[simp] theorem setRecord_rpq (x : RecordName) (c : CaptureRecord) (s : State) : (setRecord x c s).rpq = s.rpq := by cases x <;> rfl
@[simp] theorem setRecord_sls (x : RecordName) (c : CaptureRecord) (s : State) : (setRecord x c s).sls = s.sls := by cases x <;> rfl
@[simp] theorem setRecord_psc (x : RecordName) (c : CaptureRecord) (s : State) : (setRecord x c s).psc = s.psc := by cases x <;> rfl
@[simp] theorem setRecord_drp (x : RecordName) (c : CaptureRecord) (s : State) : (setRecord x c s).drp = s.drp := by cases x <;> rfl
@[simp] theorem setRecord_mgu (x : RecordName) (c : CaptureRecord) (s : State) : (setRecord x c s).mgu = s.mgu := by cases x <;> rfl
@[simp] theorem setRecord_stamp (x : RecordName) (c : CaptureRecord) (s : State) : (setRecord x c s).stamp = s.stamp := by cases x <;> rfl
@[simp] theorem setRecord_pending (x : RecordName) (c : CaptureRecord) (s : State) : (setRecord x c s).pending = s.pending := by cases x <;> rfl
@[simp] theorem setRecord_fcu_next (x : RecordName) (c : CaptureRecord) (s : State) : (setRecord x c s).fcu.next = s.fcu.next := by cases x <;> rfl
@[simp] theorem setRecord_fcu_halted (x : RecordName) (c : CaptureRecord) (s : State) : (setRecord x c s).fcu.halted = s.fcu.halted := by cases x <;> rfl
@[simp] theorem setRecord_fcu_contexts (x : RecordName) (c : CaptureRecord) (s : State) : (setRecord x c s).fcu.contexts = s.fcu.contexts := by cases x <;> rfl

end Sys2Proof.Machine
end

