-- ==== Sys2Proof/Laws/Tables.lean ====
section
/-! SUPPORT. Tables read and written by number, and what follows for slots, ranks and device entries. -/

namespace Sys2Proof.Machine

variable {α : Type} {n : Nat}

/-! ## getAt and setAt -/

theorem getAt_of_lt (v : Vector α n) {i : Nat} (d : α) (h : i < n) : getAt v i d = v[i] := by
  simp [getAt, h]

theorem getAt_of_ge (v : Vector α n) {i : Nat} (d : α) (h : n ≤ i) : getAt v i d = d := by
  simp [getAt, Nat.not_lt.mpr h]

theorem setAt_of_ge (v : Vector α n) {i : Nat} (x : α) (h : n ≤ i) : setAt v i x = v := by
  simp [setAt, Nat.not_lt.mpr h]

/-- An item written is read back. -/
theorem getAt_setAt_same (v : Vector α n) {i : Nat} (x d : α) (h : i < n) :
    getAt (setAt v i x) i d = x := by
  simp [getAt, setAt, h]

/-- The other items stay. -/
theorem getAt_setAt_other (v : Vector α n) {i j : Nat} (x d : α) (h : i ≠ j) :
    getAt (setAt v i x) j d = getAt v j d := by
  unfold getAt setAt
  split
  · split
    · rw [Vector.getElem_set_ne _ _ h]
    · rfl
  · rfl

/-- Reading after writing, in one equation. -/
theorem getAt_setAt (v : Vector α n) (i j : Nat) (x d : α) :
    getAt (setAt v i x) j d = if i = j ∧ i < n then x else getAt v j d := by
  by_cases h : i = j
  · subst h
    by_cases hi : i < n
    · simp [getAt_setAt_same v x d hi, hi]
    · simp [setAt_of_ge v x (Nat.not_lt.mp hi), hi]
  · simp [getAt_setAt_other v x d h, h]

theorem getAt_replicate (x d : α) (i : Nat) (h : i < n) : getAt (Vector.replicate n x) i d = x := by
  simp [getAt, h]

/-- Writing what stands there changes nothing. -/
theorem setAt_getAt (v : Vector α n) (i : Nat) (d : α) : setAt v i (getAt v i d) = v := by
  unfold setAt getAt
  split
  · simp
  · rfl

/-! ## Slots, ranks, device entries, region entries, profiles -/

theorem slotAt_setSlot (s : State) (i j : Nat) (x : Slot) :
    slotAt (setSlot i x s) j = if i = j ∧ i < 32 then x else slotAt s j := getAt_setAt ..

theorem rankRec_setRank (s : State) (r q : Nat) (x : RankRec) :
    rankRec (setRank r x s) q = if r = q ∧ r < 4 then x else rankRec s q := getAt_setAt ..

theorem rankState_setRank (s : State) (r q : Nat) (x : RankRec) :
    rankState (setRank r x s) q = if r = q ∧ r < 4 then x.state else rankState s q := by
  unfold rankState
  rw [rankRec_setRank]
  split <;> rfl

theorem deviceAt_setDevice (s : State) (i j : Nat) (x : Stored DeviceEntry) :
    deviceAt (setDevice i x s) j = if i = j ∧ i < 40 then x else deviceAt s j := getAt_setAt ..

theorem deviceEntry_setDevice (s : State) (i j : Nat) (x : Stored DeviceEntry) :
    deviceEntry (setDevice i x s) j = if i = j ∧ i < 40 then x.value else deviceEntry s j := by
  unfold deviceEntry
  rw [deviceAt_setDevice]
  split <;> rfl

theorem regionAt_setRegion (s : State) (i j : Nat) (x : Stored RegionEntry) :
    regionAt (setRegion i x s) j = if i = j ∧ i < 16 then x else regionAt s j := getAt_setAt ..

theorem storedProfile_setProfile (s : State) (i j : Nat) (x : Stored Profile) :
    storedProfile (setProfile i x s) j = if i = j ∧ i < 8 then x else storedProfile s j :=
  getAt_setAt ..

/-- A rank numbered 4 or above is ABSENT (R194). -/
theorem rankState_of_ge (s : State) {r : Nat} (h : 4 ≤ r) : rankState s r = .absent := by
  simp [rankState, rankRec, getAt_of_ge _ _ h, powerOnRank]

theorem slotAt_of_ge (s : State) {i : Nat} (h : 32 ≤ i) : slotAt s i = .free := getAt_of_ge _ _ h

/-! ## Finding -/

/-- No slot found: none of the 32 meets the search. -/
theorem find_slot_none {p : Nat → Bool} (h : (List.range 32).find? p = none) :
    ∀ i < 32, p i = false := by
  intro i hi
  have := List.find?_eq_none.mp h i (List.mem_range.mpr hi)
  simpa using this

/-- A slot found: it is one of the 32, and meets the search. -/
theorem find_slot_some {p : Nat → Bool} {i : Nat} (h : (List.range 32).find? p = some i) :
    i < 32 ∧ p i = true :=
  ⟨List.mem_range.mp (List.mem_of_find?_eq_some h), List.find?_some h⟩

theorem slotHolding_none {a : LineAddr} {s : State} (h : slotHolding a s = none) :
    ∀ i < 32, (slotAt s i).line? = some a → (slotAt s i).holds = false := by
  intro i hi hl
  have := find_slot_none h i hi
  simpa [hl] using this

theorem slotHolding_some {a : LineAddr} {s : State} {i : Nat} (h : slotHolding a s = some i) :
    i < 32 ∧ (slotAt s i).line? = some a ∧ (slotAt s i).holds = true := by
  have := find_slot_some h
  simpa using this

theorem slotHolding_isSome {a : LineAddr} {s : State} :
    (slotHolding a s).isSome ↔
      ∃ i < 32, (slotAt s i).line? = some a ∧ (slotAt s i).holds = true := by
  constructor
  · intro h
    obtain ⟨i, hi⟩ := Option.isSome_iff_exists.mp h
    exact ⟨i, slotHolding_some hi⟩
  · rintro ⟨i, hi, hl, hh⟩
    by_contra hn
    have h : slotHolding a s = none := by simpa using hn
    have := slotHolding_none h i hi hl
    simp [hh] at this

theorem entryOf_none {a : LineAddr} {s : State} (h : entryOf a s = none) :
    ∀ e ∈ s.rpq.entries, e.line ≠ a := by
  intro e he
  have := List.find?_eq_none.mp h e he
  simpa using this

theorem entryOf_some {a : LineAddr} {s : State} {e : RepairEntry} (h : entryOf a s = some e) :
    e ∈ s.rpq.entries ∧ e.line = a :=
  ⟨List.mem_of_find?_eq_some h, by simpa using List.find?_some h⟩

theorem findEntry_some {id : Nat} {s : State} {e : RepairEntry} (h : findEntry id s = some e) :
    e ∈ s.rpq.entries ∧ e.id = id :=
  ⟨List.mem_of_find?_eq_some h, by simpa using List.find?_some h⟩

theorem findRequest_some {id : Nat} {s : State} {r : Request} (h : findRequest id s = some r) :
    r ∈ s.dem.requests ∧ r.id = id :=
  ⟨List.mem_of_find?_eq_some h, by simpa using List.find?_some h⟩

theorem freeSlot_some {s : State} {i : Nat} (h : freeSlot s = some i) : i < 32 ∧ slotAt s i = .free := by
  have := find_slot_some h
  simpa using this

/-- The search for the oldest WATCH answers a WATCH slot among those looked at. -/
theorem olderWatch_fold {s : State} (l : List Nat) (b : Option (Nat × TimeBase)) {i : Nat} {t : TimeBase}
    (h : l.foldl (olderWatch s) b = some (i, t)) :
    b = some (i, t) ∨ (i ∈ l ∧ (slotAt s i).lastHit? = some t) := by
  induction l generalizing b with
  | nil => exact .inl h
  | cons j l ih =>
    rcases ih _ h with hb | ⟨hm, ht⟩
    · unfold olderWatch at hb
      split at hb
      · exact .inl hb
      · simp only [Option.some.injEq, Prod.mk.injEq] at hb
        obtain ⟨rfl, rfl⟩ := hb
        exact .inr ⟨List.mem_cons_self, ‹_›⟩
      · split at hb
        · simp only [Option.some.injEq, Prod.mk.injEq] at hb
          obtain ⟨rfl, rfl⟩ := hb
          exact .inr ⟨List.mem_cons_self, ‹_›⟩
        · exact .inl hb
    · exact .inr ⟨List.mem_cons_of_mem _ hm, ht⟩

theorem oldestWatch_some {s : State} {i : Nat} (h : oldestWatch s = some i) :
    i < 32 ∧ ∃ a hits t, slotAt s i = .watch a hits t := by
  unfold oldestWatch at h
  obtain ⟨⟨j, t⟩, hj, rfl⟩ := Option.map_eq_some_iff.mp h
  rcases olderWatch_fold _ _ hj with hb | ⟨hm, ht⟩
  · simp at hb
  · refine ⟨List.mem_range.mp hm, ?_⟩
    cases hs : slotAt s j <;> simp [hs, Slot.lastHit?] at ht
    exact ⟨_, _, _, rfl⟩

/-- A slot taken for a watch or a retirement is FREE or WATCH: it holds no line (R77, R79). -/
theorem slotForWatch_some {s : State} {i : Nat} (h : slotForWatch s = some i) :
    i < 32 ∧ (slotAt s i).holds = false := by
  unfold slotForWatch at h
  split at h
  · cases h
    exact ⟨(freeSlot_some ‹_›).1, by simp [(freeSlot_some ‹_›).2, Slot.holds]⟩
  · obtain ⟨hi, a, n, t, hw⟩ := oldestWatch_some h
    exact ⟨hi, by simp [hw, Slot.holds]⟩

theorem watchOf_some {a : LineAddr} {s : State} {i : Nat} (h : watchOf a s = some i) :
    i < 32 ∧ (slotAt s i).line? = some a ∧ (slotAt s i).holds = false := by
  have h' := find_slot_some h
  refine ⟨h'.1, ?_⟩
  obtain ⟨hl, hh⟩ := by simpa using h'.2
  refine ⟨hl, ?_⟩
  cases hs : slotAt s i <;> simp_all [Slot.lastHit?, Slot.holds]

theorem watchOf_none {a : LineAddr} {s : State} (h : watchOf a s = none) :
    ∀ i < 32, (slotAt s i).line? = some a → (slotAt s i).holds = true := by
  intro i hi hl
  have := find_slot_none h i hi
  cases hs : slotAt s i <;> simp_all [Slot.lastHit?, Slot.holds, Slot.line?]

/-- What SLS knows of the slot it takes for a retirement of a line that no slot holds: it holds nothing, and it
is the one slot naming the line where any does (R74, R79). -/
theorem slotForRetire_some {a : LineAddr} {s : State} {i : Nat} (h : slotForRetire a s = some i) :
    i < 32 ∧ (slotAt s i).holds = false ∧
      ((slotAt s i).line? = some a ∨
        ∀ j < 32, (slotAt s j).line? = some a → (slotAt s j).holds = true) := by
  unfold slotForRetire at h
  split at h
  · cases h
    obtain ⟨hi, hl, hh⟩ := watchOf_some ‹_›
    exact ⟨hi, hh, .inl hl⟩
  · obtain ⟨hi, hh⟩ := slotForWatch_some h
    exact ⟨hi, hh, .inr (watchOf_none ‹_›)⟩

/-! ## Device entries that can be read -/

/-- No entry of the rank holds an uncorrectable error. -/
def Readable (r : Nat) (s : State) : Prop :=
  ∀ d < 10, (deviceAt s (entryNumber r d)).storage ≠ .uncorrectable

/-- A readable rank shows its entries as they stand. -/
theorem stateSeen_of_readable {r d : Nat} {s : State} (h : Readable r s) (hd : d < 10) :
    stateSeen s (entryNumber r d) = (deviceEntry s (entryNumber r d)).state := by
  unfold stateSeen deviceEntry
  have := h d hd
  split <;> simp_all

/-- In a readable rank with no mark found, no entry is MARKED or in PROBATION. -/
theorem no_mark_of_readable {r : Nat} {s : State} (h : Readable r s) (hm : markOf s r = none) :
    ∀ d < 10, (deviceEntry s (entryNumber r d)).state.isMark = false := by
  intro d hd
  have := List.find?_eq_none.mp hm ⟨d, hd⟩ (List.mem_finRange _)
  simpa [stateSeen_of_readable h hd] using this

theorem readable_of_faultyAmong {r : Nat} {s : State} (h : faultyAmong (rankEntries r) s = none) :
    Readable r s := by
  intro d hd
  have := List.find?_eq_none.mp h (entryNumber r d)
    (List.mem_map.mpr ⟨d, List.mem_range.mpr hd, rfl⟩)
  simpa using this

end Sys2Proof.Machine
end

