-- ==== Sys2Proof/Laws/Bytes.lean ====
section
/-! SUPPORT. Numbers, addresses, masks, lines and frames as bytes, and back (R193, R198). -/

namespace Sys2Proof.Machine

/-- `n` bytes are `n` bytes. -/
theorem length_packed (n v) : (packed n v).length = n := by
  induction n generalizing v with
  | zero => rfl
  | succ n ih => simp [packed, ih]

/-- The number of some bytes, read on from another number. -/
theorem number_from (l : List Byte) (x : Nat) :
    l.foldl (fun acc b => acc * 256 + b.toNat) x = x * 256 ^ l.length + number l := by
  unfold number
  induction l generalizing x with
  | nil => simp
  | cons b l ih =>
    simp only [List.foldl_cons, List.length_cons]
    rw [ih, ih (0 * 256 + b.toNat)]
    ring

/-- A number comes back from its bytes. -/
theorem number_packed (n v : Nat) : number (packed n v) = v % 256 ^ n := by
  induction n generalizing v with
  | zero => simp [packed, number, Nat.mod_one]
  | succ n ih =>
    have : number (packed (n+1) v) = (v / 256 ^ n % 256) * 256 ^ n + number (packed n v) := by
      rw [packed]
      unfold number
      rw [List.foldl_cons, number_from, length_packed]
      simp [number]
    rw [this, ih, pow_succ, Nat.mod_mul]
    ring

/-- Some bytes give a number below 256 to their count. -/
theorem number_lt (l : List Byte) : number l < 256 ^ l.length := by
  induction l with
  | nil => simp [number]
  | cons b l ih =>
    have : number (b :: l) = b.toNat * 256 ^ l.length + number l := by
      unfold number; rw [List.foldl_cons, number_from]; simp [number]
    rw [this, List.length_cons, pow_succ]
    have := b.isLt
    nlinarith

/-- An argument lies below 256 to its length. -/
theorem argument_lt (args : List Byte) (k n : Nat) : argument args k n < 256 ^ n := by
  refine lt_of_lt_of_le (number_lt _) (Nat.pow_le_pow_right (by omega) ?_)
  simp [field]

/-- An argument whose bytes are those of a number is that number. -/
theorem argument_of_field (p : List Byte) (k n v : Nat) (h : field p k n = packed n v)
    (hv : v < 256 ^ n) : argument p k n = v := by
  unfold argument; rw [h, number_packed, Nat.mod_eq_of_lt hv]

/-- The same for a number that need not fit. -/
theorem argument_of_field_mod (p : List Byte) (k n v : Nat)
    (h : field p k n = packed n v) : argument p k n = v % 256 ^ n := by
  unfold argument; rw [h, number_packed]

/-- A line address comes back from its word. -/
theorem addressOf_packedAddress (a : LineAddr) : addressOf (packedAddress a) = a := by
  unfold addressOf packedAddress
  have h : number (packed 4 (a.rank.toNat * 2 ^ 27 + a.index.toNat)) =
      a.rank.toNat * 2 ^ 27 + a.index.toNat := by
    rw [number_packed]; apply Nat.mod_eq_of_lt
    have := a.rank.isLt; have := a.index.isLt; omega
  rw [h]
  have h1 := a.index.isLt
  have e : (a.rank.toNat * 2 ^ 27 + a.index.toNat) / 2 ^ 27 = a.rank.toNat := by omega
  rw [e]
  cases a with
  | mk r i =>
    congr 1
    · exact BitVec.eq_of_toNat_eq (by simp)
    · apply BitVec.eq_of_toNat_eq; simp at h1 ⊢; omega

/-- A byte mask comes back from its bytes. -/
theorem maskOf_packedMask (m : ByteMask) : maskOf (packedMask m) = m := by
  unfold maskOf packedMask
  apply BitVec.eq_of_toNat_eq
  have h := m.isLt
  simp [List.range, List.range.loop]
  omega

/-- A line comes back from its bytes. -/
theorem lineOf_toList (d : Line) (l : List Byte) : lineOf ((d.toList ++ l).take 64) = d := by
  have : (d.toList ++ l).take 64 = d.toList := by
    rw [List.take_append_of_le_length (by simp)]; exact List.take_of_length_le (by simp)
  rw [this]
  unfold lineOf
  apply Vector.ext
  intro i hi
  simp [List.getD]

/-- A line address word is four bytes. -/
theorem length_packedAddress (a) : (packedAddress a).length = 4 := length_packed _ _

/-- A byte mask is eight bytes. -/
theorem length_packedMask (a) : (packedMask a).length = 8 := by simp [packedMask]

/-- A body of its kind's length, with its check, is a good frame. -/
theorem goodFrame_checked (k : Byte) (body : List Byte) (h : downstreamLength k = some (body.length + 3)) :
    goodFrame (checked (k :: body)) = true := by
  have hl : (checked (k :: body)).length = body.length + 3 := by
    simp [checked, length_packed]
  have ht : (checked (k :: body)).take ((checked (k :: body)).length - 2) = k :: body := by
    rw [hl]; simp [checked]
  have hc : ∃ rest, checked (k :: body) = k :: rest := ⟨_, rfl⟩
  unfold goodFrame
  obtain ⟨rest, hr⟩ := hc
  rw [hr] at ht hl ⊢
  simp only
  rw [ht, h, hl, ← hr]
  simp

/-- A byte of the second of two lists. -/
theorem byteAt_append_right (a b : List Byte) (n i : Nat) (h : a.length = n) : byteAt (a ++ b)
    (n + i) = byteAt b i := by
  unfold byteAt; rw [← h]; simp [List.getD, List.getElem?_append_right]

/-- A clamped number by `max` and `min`. -/
theorem clamp_eq (a b n : Nat) (h : a ≤ b) : clamp a b n = max a (min b n) := by
  unfold clamp; split
  · omega
  · split <;> omega

/-- Four items in order. -/
theorem toList_four {α} (v : Vector α 4) : v.toList = [v[0], v[1], v[2], v[3]] := by
  apply List.ext_getElem
  · simp
  · intro i h1 h2
    have h3 : i < 4 := by simpa using h1
    interval_cases i <;> simp

/-- A lane in use carries its share of a frame's bytes. -/
theorem length_laneBytes {width k : Nat} (hk : k < width) (bytes : List Byte) :
    (laneBytes width bytes k).length = (bytes.length + (width - 1 - k)) / width := by
  simp [laneBytes, hk]

/-- Byte i of a frame is the byte i / width of lane i modulo the width (R193). -/
theorem laneBytes_getD {width : Nat} (hw : width = 4 ∨ width = 8) (bytes : List Byte) (i : Nat)
    (hi : i < bytes.length) : (laneBytes width bytes (i % width)).getD (i / width) 0 = bytes.getD i 0 := by
  have hk : i % width < width := Nat.mod_lt _ (by omega)
  have h1 : i / width < (bytes.length + (width - 1 - i % width)) / width := by
    rcases hw with rfl | rfl <;> omega
  simp [laneBytes, hk, List.getD_eq_getElem?_getD, h1, Nat.div_add_mod]

/-- A frame comes back from the lanes it was dealt out to (R193). -/
theorem fromLanes_onLanes {width : Nat} (hw : width = 4 ∨ width = 8) (bytes : List Byte) :
    fromLanes width (onLanes width bytes) = bytes := by
  have hsum : (((onLanes width bytes).take width).map List.length).sum = bytes.length := by
    have share : ∀ r < width, ((List.range width).map fun k => (r + (width - 1 - k)) / width).sum = r := by
      rcases hw with rfl | rfl <;> decide
    have split : ∀ k, (bytes.length + (width - 1 - k)) / width =
        bytes.length / width + (bytes.length % width + (width - 1 - k)) / width := by
      intro k
      conv_lhs => rw [← Nat.div_add_mod bytes.length width, Nat.add_assoc,
        Nat.mul_add_div (by omega)]
    have h := share (bytes.length % width) (Nat.mod_lt _ (by omega))
    have h' := Nat.div_add_mod bytes.length width
    rcases hw with rfl | rfl <;>
      simp only [onLanes, List.range_succ, List.range_zero, List.nil_append, List.cons_append,
        List.map_cons, List.map_nil, List.take_succ_cons, List.take_zero, List.sum_cons, List.sum_nil,
        length_laneBytes, Nat.reduceLT, split] at h ⊢ <;> linarith
  apply List.ext_getElem
  · simp only [fromLanes, List.length_map, List.length_range]; exact hsum
  · intro i h1 h2
    have hk : i % width < 8 := lt_of_lt_of_le (Nat.mod_lt _ (by omega)) (by omega)
    have h3 : (onLanes width bytes).getD (i % width) [] = laneBytes width bytes (i % width) := by
      simp [onLanes, List.getD_eq_getElem?_getD, hk]
    simp only [fromLanes, List.getElem_map, List.getElem_range]
    rw [h3, laneBytes_getD hw _ _ h2, List.getD_eq_getElem _ _ h2]

/-- A lane not in use carries nothing (R187). -/
theorem laneBytes_rest {width k : Nat} (hk : width ≤ k) (bytes : List Byte) :
    laneBytes width bytes k = [] := by simp [laneBytes, Nat.not_lt.mpr hk]

end Sys2Proof.Machine
end

