-- ==== Sys2Proof/Laws/Moves.lean ====
section
/-! SUPPORT. What a command can do to the state, said once: `Moves kinds s t` tells that `t` comes from `s` by
elementary changes of the kinds listed, each with the guard under which the model makes it. The files
Laws/Moves…lean show which kinds every operation needs; an invariant, or a field that some kinds leave
alone, is then a case analysis over the constructors below. -/

namespace Sys2Proof.Machine

/-- Kinds of elementary change. -/
inductive Kind where
  /-- the upstream queue and the frame on the lanes -/
  | link
  /-- a link state other than ACTIVE gives way to another -/
  | train
  /-- ACTIVE is left -/
  | leave
  /-- requests change phase, hold or classification, or leave; completions; holds given up; the Core
  Reset in progress -/
  | requests
  /-- a request is taken into the buffer -/
  | arrive
  /-- a demand request starts -/
  | begins
  | stamp
  | regions
  | cod
  | devices
  /-- settings of Table 83 that are no table's -/
  | settings
  /-- repair entries change or leave -/
  | repairs
  /-- a repair entry is created -/
  | create
  /-- a slot changes but for its line and whether it holds it -/
  | slotData
  /-- a slot becomes FREE or WATCH -/
  | slots
  /-- a line is retired -/
  | retire
  | retires
  | records
  /-- a capture record is released -/
  | release
  | halt
  | unhalt
  | contexts
  | psc
  | cursor
  /-- a rank changes, but not to or from ONLINE -/
  | ranks
  /-- a rank becomes ONLINE or leaves ONLINE -/
  | online
  | drp
  /-- the grant history -/
  | history
  /-- an operation is granted -/
  | grant
  /-- the port becomes free -/
  | finish
  /-- the visit at the port is marked as aborted -/
  | abort
  | counters
  | time
  deriving DecidableEq, Repr

/-- A request changed in no more than its phase, age, classification and hold; it does not become QUEUED, and
one that stays QUEUED keeps its hold. -/
def KeepsRequest (f : Request → Request) : Prop :=
  ∀ q, (f q).id = q.id ∧ (f q).tag = q.tag ∧ (f q).body = q.body ∧ (f q).orphan = q.orphan ∧
    ((f q).phase = .queued → q.phase = .queued ∧ (f q).hold = q.hold)

/-- A repair entry changed in no more than its state, countdown and flags (R52). It does not come out of WRITING
unless it was in it, and a retired one stays where it is. -/
def KeepsEntry (f : RepairEntry → RepairEntry) : Prop :=
  ∀ e, (f e).id = e.id ∧ (f e).line = e.line ∧ (f e).kind = e.kind ∧ (f e).data = e.data ∧
    (f e).verify = e.verify

/-- What an elementary change of a device entry keeps (R92, R97, R98, R103): the agreement of its fields, and
that a device becomes its rank's mark only where the rank has none. -/
def KeepsDevice (n : Nat) (x : Stored DeviceEntry) (s : State) : Prop :=
  ((deviceEntry s n).Fits → x.value.Fits) ∧
    (x.value.state.isMark → (deviceEntry s n).state.isMark ∨
      ∃ r d, n = entryNumber r d ∧ d < 10 ∧
        ∀ d' < 10, (deviceEntry s (entryNumber r d')).state.isMark = false)

/-- Rank `r` becomes `x`, an ONLINE rank; a parked cursor moves to its index 0 (R149). -/
def withOnline (r : Nat) (x : RankRec) (s : State) : State :=
  if s.psc.cursor.isNone then setCursor (lineAt r 0) (setRank r x s) else setRank r x s

/-- Rank `r` becomes `x`, an OFFLINE rank; a cursor on it moves on (R149). -/
def withOffline (r : Nat) (x : RankRec) (s : State) : State :=
  match s.psc.cursor with
  | some a => if rankOf a = r then cursorToFirst (ranksAfter r) (setRank r x s) else setRank r x s
  | none => setRank r x s

/-- `Moves K s t`: `t` comes from `s` by elementary changes of kinds in `K`. -/
inductive Moves (K : List Kind) (s : State) : State → Prop
  | refl : Moves K s s
  | link {u} (m : Moves K s u) (h : .link ∈ K) (l : Link) (hp : l.por = u.link.por)
      (hs : l.straps = u.link.straps) (hf : u.link.Fits → l.Fits)
      (ht : l.state = u.link.state) : Moves K s { u with link := l }
  | train {u} (m : Moves K s u) (h : .train ∈ K) (l : Link) (hp : l.por = u.link.por)
      (hs : l.straps = u.link.straps) (hf : u.link.Fits → l.Fits)
      (hn : u.link.state ≠ .active) : Moves K s { u with link := l }
  | leave {u} (m : Moves K s u) (h : .leave ∈ K) (l : Link) (hp : l.por = u.link.por)
      (hs : l.straps = u.link.straps) (hf : u.link.Fits → l.Fits) :
      Moves K s (orphanRequests { u with link := l })
  | requests {u} (m : Moves K s u) (h : .requests ∈ K) (f : Request → Request) (hf : KeepsRequest f) :
      Moves K s { u with dem := { u.dem with requests := u.dem.requests.map f } }
  | leaves {u} (m : Moves K s u) (h : .requests ∈ K) (p : Request → Bool) :
      Moves K s { u with dem := { u.dem with requests := u.dem.requests.filter p } }
  | completions {u} (m : Moves K s u) (h : .requests ∈ K) (cs : List Completion) :
      Moves K s { u with dem := { u.dem with completions := cs } }
  | unhold {u} (m : Moves K s u) (h : .requests ∈ K) (k : HoldKey) :
      Moves K s { u with dem := { u.dem with holdSet := u.dem.holdSet.erase k } }
  | coreReset {u} (m : Moves K s u) (h : .requests ∈ K) (c : Option CoreReset) :
      Moves K s { u with mgu := { u.mgu with coreReset := c } }
  | arrive {u} (m : Moves K s u) (h : .arrive ∈ K) (r : Request) (hi : r.id = u.stamp)
      (ho : r.orphan = false) (hh : r.hold = none) (ha : u.link.state = .active)
      (hr : bufferCount u < 32) (ht : tagInUse r.tag u = false) : Moves K s (enqueue r u)
  | begins {u} (m : Moves K s u) (h : .begins ∈ K) (r : Request) (a : LineAddr)
      (hk : holdKey u a ∉ u.dem.holdSet) : Moves K s (beginDemand r a u)
  | stamp {u} (m : Moves K s u) (h : .stamp ∈ K) : Moves K s (passMoment u)
  | region {u} (m : Moves K s u) (h : .regions ∈ K) (i : Nat) (x : Stored RegionEntry)
      (hx : x.value = (regionAt u i).value ∨ 1 ≤ x.value.level ∧ x.value.level ≤ 7) :
      Moves K s (setRegion i x u)
  | default {u} (m : Moves K s u) (h : .settings ∈ K) (n : Nat) (hn : 1 ≤ n ∧ n ≤ 7) :
      Moves K s { u with rgt := { u.rgt with defaultLevel := n } }
  | inject {u} (m : Moves K s u) (h : .cod ∈ K) (v : Vector (Option Injection) 2)
      (hv : ∀ i < 2, ∀ e, getAt v i none = some e → (1 ≤ e.count ∧ e.count ≤ 255) ∨
        ∃ e', getAt u.cod.injections i none = some e' ∧ e.count ≤ e'.count ∧
          (1 ≤ e'.count → 1 ≤ e.count)) :
      Moves K s { u with cod := { u.cod with injections := v } }
  | loop {u} (m : Moves K s u) (h : .cod ∈ K) (x : Option RawLine) : Moves K s (setLoop x u)
  | device {u} (m : Moves K s u) (h : .devices ∈ K) (n : Nat) (x : Stored DeviceEntry)
      (hx : KeepsDevice n x u) : Moves K s (setDevice n x u)
  | health {u} (m : Moves K s u) (h : .devices ∈ K) : Moves K s (resetHealth u)
  | params {u} (m : Moves K s u) (h : .settings ∈ K) (q k : Nat) (hq : q ≤ 255)
      (hk : 1 ≤ k ∧ k ≤ 65535) :
      Moves K s { u with dht := { u.dht with decayQ := q, probationK := k } }
  | repairs {u} (m : Moves K s u) (h : .repairs ∈ K) (f : RepairEntry → RepairEntry)
      (hf : KeepsEntry f)
      (hr : ∀ e ∈ u.rpq.entries, (e.state = .writing ∧ e.retired = true →
        (f e).state = .writing ∧ (f e).retired = true)) :
      Moves K s { u with rpq := { u.rpq with entries := u.rpq.entries.map f } }
  | notRetired {u} (m : Moves K s u) (h : .repairs ∈ K) (e : RepairEntry)
      (f : RepairEntry → RepairEntry) (he : e ∈ u.rpq.entries)
      (hw : ¬(e.state = .writing ∧ e.retired = true)) (hf : KeepsEntry f) :
      Moves K s (updateEntry e.id f u)
  | unrepair {u} (m : Moves K s u) (h : .repairs ∈ K) (p : RepairEntry → Bool) :
      Moves K s { u with rpq := { u.rpq with entries := u.rpq.entries.filter p } }
  | create {u} (m : Moves K s u) (h : .create ∈ K) (e : RepairEntry) (hi : e.id = u.stamp)
      (hr : u.rpq.entries.length < 16) (he : entryOf e.line u = none)
      (hs : slotHolding e.line u = none) :
      Moves K s (passMoment { u with rpq := { u.rpq with entries := u.rpq.entries ++ [e] } })
  | slotData {u} (m : Moves K s u) (h : .slotData ∈ K) (i : Nat) (x : Slot)
      (hl : x.line? = (slotAt u i).line?) (hh : x.holds = (slotAt u i).holds) :
      Moves K s (setSlot i x u)
  | freed {u} (m : Moves K s u) (h : .slots ∈ K) (i : Nat) : Moves K s (setSlot i .free u)
  | watch {u} (m : Moves K s u) (h : .slots ∈ K) (i : Nat) (a : LineAddr) (n : Nat) (t : TimeBase)
      (hh : (slotAt u i).holds = false)
      (hl : (slotAt u i).line? = some a ∨ ∀ j < 32, (slotAt u j).line? ≠ some a) :
      Moves K s (setSlot i (.watch a n t) u)
  | retire {u} (m : Moves K s u) (h : .retire ∈ K) (i : Nat) (a : LineAddr) (d : StoredLine)
      (t : TimeBase) (hi : i < 32) (hh : (slotAt u i).holds = false) (hn : slotHolding a u = none)
      (hl : (slotAt u i).line? = some a ∨ ∀ j < 32, (slotAt u j).line? ≠ some a) :
      Moves K s (retireEntry a (setSlot i (.active a d t) u))
  | handOff {u} (m : Moves K s u) (h : .retire ∈ K) (e : RepairEntry) (i : Nat) (d : StoredLine)
      (t : TimeBase) (he : e ∈ u.rpq.entries) (hv : e.state = .verifying) (hi : i < 32)
      (hh : (slotAt u i).holds = false)
      (hl : (slotAt u i).line? = some e.line ∨
        ∀ j < 32, (slotAt u j).line? = some e.line → (slotAt u j).holds = true) :
      Moves K s (retireEntry e.line (setSlot i (.active e.line d t) (removeEntry e.id u)))
  | threshold {u} (m : Moves K s u) (h : .settings ∈ K) (n : Nat) (hn : 2 ≤ n ∧ n ≤ 15) :
      Moves K s { u with sls := { u.sls with threshold := n } }
  | allocation {u} (m : Moves K s u) (h : .slots ∈ K) (b : Bool) :
      Moves K s { u with sls := { u.sls with allocationFailed := b } }
  | retires {u} (m : Moves K s u) (h : .retires ∈ K) (ws : List RetireWork) :
      Moves K s { u with sls := { u.sls with retires := ws } }
  | record {u} (m : Moves K s u) (h : .records ∈ K) (x : RecordName) (c : CaptureRecord)
      (hc : (recordAt u x).content = .empty ∨ c.content = (recordAt u x).content ∨
        c.content = .lost) : Moves K s (setRecord x c u)
  | placed {u} (m : Moves K s u) (h : .records ∈ K) (x : RecordName) :
      Moves K s { u with fcu := { u.fcu with next := x } }
  | release {u} (m : Moves K s u) (h : .release ∈ K) (x : RecordName) (c : CaptureRecord) :
      Moves K s (setRecord x c u)
  | halt {u} (m : Moves K s u) (h : .halt ∈ K) (c : HaltCause) (hn : u.fcu.halted = none) :
      Moves K s { u with fcu := { u.fcu with halted := some c } }
  | unhalt {u} (m : Moves K s u) (h : .unhalt ∈ K) :
      Moves K s { u with fcu := { u.fcu with halted := none } }
  | contexts {u} (m : Moves K s u) (h : .contexts ∈ K) (cs : List RetryContext) :
      Moves K s { u with fcu := { u.fcu with contexts := cs } }
  | psc {u} (m : Moves K s u) (h : .psc ∈ K) (p : Psc) (hf : p.profiles = u.psc.profiles)
      (hc : p.cursor = u.psc.cursor) (hl : p.lagLimit = u.psc.lagLimit)
      (hp : p.phase = u.psc.phase ∨ p.phase ≤ 7)
      (hr : p.credit ≤ u.psc.credit ∨ p.credit ≤ u.psc.lagLimit) : Moves K s { u with psc := p }
  | pacing {u} (m : Moves K s u) (h : .settings ∈ K) (l : Nat) (hl : 1 ≤ l ∧ l ≤ 4194303) :
      Moves K s { u with psc := { u.psc with lagLimit := l, credit := min u.psc.credit l } }
  | profile {u} (m : Moves K s u) (h : .psc ∈ K) (n : Nat) (x : Stored Profile)
      (hx : x.value = (storedProfile u n).value ∨ x.value.InRange) : Moves K s (setProfile n x u)
  | cursor {u} (m : Moves K s u) (h : .cursor ∈ K) (p : Psc) (hf : p.profiles = u.psc.profiles)
      (hl : p.lagLimit = u.psc.lagLimit) (hp : p.phase = u.psc.phase)
      (hr : p.credit = u.psc.credit) (hc : CursorFits u → CursorFits { u with psc := p }) :
      Moves K s { u with psc := p }
  | rank {u} (m : Moves K s u) (h : .ranks ∈ K) (r : Nat) (x : RankRec)
      (hx : x.state = rankState u r ∨ rankState u r ≠ .online ∧ rankState u r ≠ .absent ∧
        x.state ≠ .online ∧ x.state ≠ .absent) : Moves K s (setRank r x u)
  | elapsed {u} (m : Moves K s u) (h : .ranks ∈ K) (v : Vector RankRec 4)
      (hv : ∀ r : Fin 4, v[r].state = u.drp.ranks[r].state) :
      Moves K s { u with drp := { u.drp with ranks := v } }
  | cameOnline {u} (m : Moves K s u) (h : .online ∈ K) (r : Nat) (x : RankRec)
      (hx : x.state = .online) (ho : rankState u r ≠ .absent) :
      Moves K s (withOnline r x u)
  | leftOnline {u} (m : Moves K s u) (h : .online ∈ K) (r : Nat) (x : RankRec)
      (hx : x.state = .offline) (ho : rankState u r = .online) :
      Moves K s (withOffline r x u)
  | drp {u} (m : Moves K s u) (h : .drp ∈ K) (due : List Nat) (last : Option Nat) :
      Moves K s { u with drp := { u.drp with refreshDue := due, lastFill := last } }
  | history {u} (m : Moves K s u) (h : .history ∈ K) (n : Nat)
      (hn : n = u.drp.history ∨ n ≤ 7) :
      Moves K s { u with drp := { u.drp with history := n } }
  | granted {u} (m : Moves K s u) (h : .grant ∈ K) (g : Granted) (hp : u.drp.port = none) :
      Moves K s { u with drp := { u.drp with port := some g } }
  | finish {u} (m : Moves K s u) (h : .finish ∈ K) : Moves K s (freePort u)
  | abort {u} (m : Moves K s u) (h : .abort ∈ K) : Moves K s (abortVisit u)
  | counters {u} (m : Moves K s u) (h : .counters ∈ K) (f : Counters → Counters)
      (hf : ∀ c : Counters, c.Bounded → (f c).Bounded) : Moves K s (u.withCounters f)
  | time {u} (m : Moves K s u) (h : .time ∈ K) (t : TimeBase) :
      Moves K s { u with mgu := { u.mgu with timeBase := t } }
  | mask {u} (m : Moves K s u) (h : .settings ∈ K) (n : Nat) (hn : n ≤ 7) :
      Moves K s { u with mgu := { u.mgu with mask := n } }

namespace Moves

variable {K L : List Kind} {s t u : State}

/-- More kinds allow more. -/
theorem mono (h : ∀ k ∈ K, k ∈ L) (m : Moves K s t) : Moves L s t := by
  induction m with
  | refl => exact .refl
  | link _ hk l hp hs hf ht ih => exact ih.link (h _ hk) l hp hs hf ht
  | train _ hk l hp hs hf hn ih => exact ih.train (h _ hk) l hp hs hf hn
  | leave _ hk l hp hs hf ih => exact ih.leave (h _ hk) l hp hs hf
  | requests _ hk f hf ih => exact ih.requests (h _ hk) f hf
  | leaves _ hk p ih => exact ih.leaves (h _ hk) p
  | completions _ hk cs ih => exact ih.completions (h _ hk) cs
  | unhold _ hk k ih => exact ih.unhold (h _ hk) k
  | coreReset _ hk c ih => exact ih.coreReset (h _ hk) c
  | arrive _ hk r hi ho hh ha hr ht ih => exact ih.arrive (h _ hk) r hi ho hh ha hr ht
  | begins _ hk r a hn ih => exact ih.begins (h _ hk) r a hn
  | stamp _ hk ih => exact ih.stamp (h _ hk)
  | region _ hk i x hx ih => exact ih.region (h _ hk) i x hx
  | default _ hk n hn ih => exact ih.default (h _ hk) n hn
  | inject _ hk v hv ih => exact ih.inject (h _ hk) v hv
  | loop _ hk x ih => exact ih.loop (h _ hk) x
  | device _ hk n x hx ih => exact ih.device (h _ hk) n x hx
  | health _ hk ih => exact ih.health (h _ hk)
  | params _ hk q k hq hn ih => exact ih.params (h _ hk) q k hq hn
  | repairs _ hk f hf hr ih => exact ih.repairs (h _ hk) f hf hr
  | notRetired _ hk e f he hw hf ih => exact ih.notRetired (h _ hk) e f he hw hf
  | unrepair _ hk p ih => exact ih.unrepair (h _ hk) p
  | create _ hk e hi hr he hs ih => exact ih.create (h _ hk) e hi hr he hs
  | slotData _ hk i x hl hh ih => exact ih.slotData (h _ hk) i x hl hh
  | freed _ hk i ih => exact ih.freed (h _ hk) i
  | watch _ hk i a n t hh hl ih => exact ih.watch (h _ hk) i a n t hh hl
  | retire _ hk i a d t hi hh hn hl ih => exact ih.retire (h _ hk) i a d t hi hh hn hl
  | handOff _ hk e i d t he hv hi hh hl ih => exact ih.handOff (h _ hk) e i d t he hv hi hh hl
  | threshold _ hk n hn ih => exact ih.threshold (h _ hk) n hn
  | allocation _ hk b ih => exact ih.allocation (h _ hk) b
  | retires _ hk ws ih => exact ih.retires (h _ hk) ws
  | record _ hk x c hc ih => exact ih.record (h _ hk) x c hc
  | placed _ hk x ih => exact ih.placed (h _ hk) x
  | release _ hk x c ih => exact ih.release (h _ hk) x c
  | halt _ hk c hn ih => exact ih.halt (h _ hk) c hn
  | unhalt _ hk ih => exact ih.unhalt (h _ hk)
  | contexts _ hk cs ih => exact ih.contexts (h _ hk) cs
  | psc _ hk p hf hc hl hp hr ih => exact ih.psc (h _ hk) p hf hc hl hp hr
  | pacing _ hk l hl ih => exact ih.pacing (h _ hk) l hl
  | profile _ hk n x hx ih => exact ih.profile (h _ hk) n x hx
  | cursor _ hk p hf hl hp hr hc ih => exact ih.cursor (h _ hk) p hf hl hp hr hc
  | rank _ hk r x hx ih => exact ih.rank (h _ hk) r x hx
  | elapsed _ hk v hv ih => exact ih.elapsed (h _ hk) v hv
  | cameOnline _ hk r x hx ho ih => exact ih.cameOnline (h _ hk) r x hx ho
  | leftOnline _ hk r x hx ho ih => exact ih.leftOnline (h _ hk) r x hx ho
  | drp _ hk due last ih => exact ih.drp (h _ hk) due last
  | history _ hk n hn ih => exact ih.history (h _ hk) n hn
  | granted _ hk g hp ih => exact ih.granted (h _ hk) g hp
  | finish _ hk ih => exact ih.finish (h _ hk)
  | abort _ hk ih => exact ih.abort (h _ hk)
  | counters _ hk f hf ih => exact ih.counters (h _ hk) f hf
  | time _ hk t ih => exact ih.time (h _ hk) t
  | mask _ hk n hn ih => exact ih.mask (h _ hk) n hn

/-- Changes follow changes. -/
theorem trans (m : Moves K s t) (n : Moves K t u) : Moves K s u := by
  induction n with
  | refl => exact m
  | link _ hk l hp hs hf ht ih => exact ih.link hk l hp hs hf ht
  | train _ hk l hp hs hf hn ih => exact ih.train hk l hp hs hf hn
  | leave _ hk l hp hs hf ih => exact ih.leave hk l hp hs hf
  | requests _ hk f hf ih => exact ih.requests hk f hf
  | leaves _ hk p ih => exact ih.leaves hk p
  | completions _ hk cs ih => exact ih.completions hk cs
  | unhold _ hk k ih => exact ih.unhold hk k
  | coreReset _ hk c ih => exact ih.coreReset hk c
  | arrive _ hk r hi ho hh ha hr ht ih => exact ih.arrive hk r hi ho hh ha hr ht
  | begins _ hk r a hn ih => exact ih.begins hk r a hn
  | stamp _ hk ih => exact ih.stamp hk
  | region _ hk i x hx ih => exact ih.region hk i x hx
  | default _ hk n hn ih => exact ih.default hk n hn
  | inject _ hk v hv ih => exact ih.inject hk v hv
  | loop _ hk x ih => exact ih.loop hk x
  | device _ hk n x hx ih => exact ih.device hk n x hx
  | health _ hk ih => exact ih.health hk
  | params _ hk q k hq hn ih => exact ih.params hk q k hq hn
  | repairs _ hk f hf hr ih => exact ih.repairs hk f hf hr
  | notRetired _ hk e f he hw hf ih => exact ih.notRetired hk e f he hw hf
  | unrepair _ hk p ih => exact ih.unrepair hk p
  | create _ hk e hi hr he hs ih => exact ih.create hk e hi hr he hs
  | slotData _ hk i x hl hh ih => exact ih.slotData hk i x hl hh
  | freed _ hk i ih => exact ih.freed hk i
  | watch _ hk i a n t hh hl ih => exact ih.watch hk i a n t hh hl
  | retire _ hk i a d t hi hh hn hl ih => exact ih.retire hk i a d t hi hh hn hl
  | handOff _ hk e i d t he hv hi hh hl ih => exact ih.handOff hk e i d t he hv hi hh hl
  | threshold _ hk n hn ih => exact ih.threshold hk n hn
  | allocation _ hk b ih => exact ih.allocation hk b
  | retires _ hk ws ih => exact ih.retires hk ws
  | record _ hk x c hc ih => exact ih.record hk x c hc
  | placed _ hk x ih => exact ih.placed hk x
  | release _ hk x c ih => exact ih.release hk x c
  | halt _ hk c hn ih => exact ih.halt hk c hn
  | unhalt _ hk ih => exact ih.unhalt hk
  | contexts _ hk cs ih => exact ih.contexts hk cs
  | psc _ hk p hf hc hl hp hr ih => exact ih.psc hk p hf hc hl hp hr
  | pacing _ hk l hl ih => exact ih.pacing hk l hl
  | profile _ hk n x hx ih => exact ih.profile hk n x hx
  | cursor _ hk p hf hl hp hr hc ih => exact ih.cursor hk p hf hl hp hr hc
  | rank _ hk r x hx ih => exact ih.rank hk r x hx
  | elapsed _ hk v hv ih => exact ih.elapsed hk v hv
  | cameOnline _ hk r x hx ho ih => exact ih.cameOnline hk r x hx ho
  | leftOnline _ hk r x hx ho ih => exact ih.leftOnline hk r x hx ho
  | drp _ hk due last ih => exact ih.drp hk due last
  | history _ hk n hn ih => exact ih.history hk n hn
  | granted _ hk g hp ih => exact ih.granted hk g hp
  | finish _ hk ih => exact ih.finish hk
  | abort _ hk ih => exact ih.abort hk
  | counters _ hk f hf ih => exact ih.counters hk f hf
  | time _ hk t ih => exact ih.time hk t
  | mask _ hk n hn ih => exact ih.mask hk n hn

/-- A run over a list makes the changes that each of its steps makes. -/
theorem foldl {α : Type} {f : State → α → State} (h : ∀ u x, Moves K u (f u x)) (l : List α)
    (s : State) : Moves K s (l.foldl f s) := by
  induction l generalizing s with
  | nil => exact .refl
  | cons x l ih => exact (h s x).trans (ih _)

end Moves

end Sys2Proof.Machine
end

