-- ==== Sys2Proof/Laws/MovesFrame.lean ====
section
/-! SUPPORT. What elementary changes leave alone, read off their kinds. -/

namespace Sys2Proof.Machine

/-! ## The composite updates, field by field -/

theorem retireEntry_eq (a : LineAddr) (s : State) :
    retireEntry a s = { s with rpq := (retireEntry a s).rpq } := by
  unfold retireEntry
  split
  · rfl
  · split <;> rfl

theorem abortVisit_eq (s : State) :
    abortVisit s = { s with drp := { s.drp with port := (abortVisit s).drp.port } } := by
  unfold abortVisit
  split
  · split <;> rfl
  · rfl

theorem cursorToFirst_eq (l : List Nat) (s : State) :
    cursorToFirst l s = { s with psc := (cursorToFirst l s).psc } := by
  unfold cursorToFirst
  split <;> rfl

theorem withOnline_eq (r : Nat) (x : RankRec) (u : State) :
    withOnline r x u = { setRank r x u with psc := (withOnline r x u).psc } := by
  unfold withOnline
  split <;> rfl

theorem withOffline_eq (r : Nat) (x : RankRec) (u : State) :
    withOffline r x u = { setRank r x u with psc := (withOffline r x u).psc } := by
  unfold withOffline
  split
  · split
    · rw [cursorToFirst_eq]
    · rfl
  · rfl

variable {K : List Kind} {s t : State}

namespace Moves

/-- No elementary change touches the POR pin. -/
theorem por (m : Moves K s t) : t.link.por = s.link.por := by
  induction m with
  | link _ _ _ hp _ _ _ ih => exact hp.trans ih
  | train _ _ _ hp _ _ _ ih => exact hp.trans ih
  | leave _ _ _ hp _ _ ih => exact hp.trans ih
  | retire => rw [retireEntry_eq]; assumption
  | handOff => rw [retireEntry_eq]; assumption
  | record _ _ x => cases x <;> assumption
  | release _ _ x => cases x <;> assumption
  | cameOnline => rw [withOnline_eq]; assumption
  | leftOnline => rw [withOffline_eq]; assumption
  | abort => rw [abortVisit_eq]; assumption
  | _ => first | rfl | assumption

/-- No elementary change touches the straps. -/
theorem straps (m : Moves K s t) : t.link.straps = s.link.straps := by
  induction m with
  | link _ _ _ _ hs _ _ ih => exact hs.trans ih
  | train _ _ _ _ hs _ _ ih => exact hs.trans ih
  | leave _ _ _ _ hs _ ih => exact hs.trans ih
  | retire => rw [retireEntry_eq]; assumption
  | handOff => rw [retireEntry_eq]; assumption
  | record _ _ x => cases x <;> assumption
  | release _ _ x => cases x <;> assumption
  | cameOnline => rw [withOnline_eq]; assumption
  | leftOnline => rw [withOffline_eq]; assumption
  | abort => rw [abortVisit_eq]; assumption
  | _ => first | rfl | assumption

/-- Every elementary change keeps the slip history and the elastic buffer sound (R191, R192). -/
theorem linkFits (m : Moves K s t) : s.link.Fits → t.link.Fits := by
  induction m with
  | refl => exact id
  | link _ _ _ _ _ hf _ ih => exact hf ∘ ih
  | train _ _ _ _ _ hf _ ih => exact hf ∘ ih
  | leave _ _ _ _ _ hf ih => exact hf ∘ ih
  | retire => rw [retireEntry_eq]; assumption
  | handOff => rw [retireEntry_eq]; assumption
  | record _ _ x => cases x <;> assumption
  | release _ _ x => cases x <;> assumption
  | cameOnline => rw [withOnline_eq]; assumption
  | leftOnline => rw [withOffline_eq]; assumption
  | abort => rw [abortVisit_eq]; assumption
  | _ => first | rfl | assumption

/-- No elementary change touches the queue of waiting commands. -/
theorem pending (m : Moves K s t) : t.pending = s.pending := by
  induction m with
  | retire => rw [retireEntry_eq]; assumption
  | handOff => rw [retireEntry_eq]; assumption
  | record _ _ x => cases x <;> assumption
  | release _ _ x => cases x <;> assumption
  | cameOnline => rw [withOnline_eq]; assumption
  | leftOnline => rw [withOffline_eq]; assumption
  | abort => rw [abortVisit_eq]; assumption
  | _ => first | rfl | assumption

/-- The depth of a rank follows the straps. -/
theorem depth (m : Moves K s t) : depth t = depth s := by
  unfold Machine.depth
  rw [m.straps]

/-- The link state changes by training and by leaving ACTIVE alone. -/
theorem linkState (m : Moves K s t) (h1 : .train ∉ K) (h2 : .leave ∉ K) :
    t.link.state = s.link.state := by
  induction m with
  | link _ _ _ _ _ _ ht ih => exact ht.trans ih
  | train _ hk => exact absurd hk h1
  | leave _ hk => exact absurd hk h2
  | retire => rw [retireEntry_eq]; assumption
  | handOff => rw [retireEntry_eq]; assumption
  | record _ _ x => cases x <;> assumption
  | release _ _ x => cases x <;> assumption
  | cameOnline => rw [withOnline_eq]; assumption
  | leftOnline => rw [withOffline_eq]; assumption
  | abort => rw [abortVisit_eq]; assumption
  | _ => first | rfl | assumption

/-- The cursor moves by changes of kinds `cursor` and `online` alone. -/
theorem cursorKept (m : Moves K s t) (h1 : .cursor ∉ K) (h2 : .online ∉ K) :
    t.psc.cursor = s.psc.cursor := by
  induction m with
  | psc _ _ _ _ hc _ _ _ ih => exact hc.trans ih
  | cursor _ hk => exact absurd hk h1
  | retire => rw [retireEntry_eq]; assumption
  | handOff => rw [retireEntry_eq]; assumption
  | record _ _ x => cases x <;> assumption
  | release _ _ x => cases x <;> assumption
  | cameOnline _ hk => exact absurd hk h2
  | leftOnline _ hk => exact absurd hk h2
  | abort => rw [abortVisit_eq]; assumption
  | _ => first | rfl | assumption

/-- The operation at the port changes by grants, finishes and an abort's mark alone. -/
theorem port (m : Moves K s t) (h1 : .grant ∉ K) (h2 : .finish ∉ K) (h3 : .abort ∉ K) :
    t.drp.port = s.drp.port := by
  induction m with
  | granted _ hk => exact absurd hk h1
  | finish _ hk => exact absurd hk h2
  | abort _ hk => exact absurd hk h3
  | retire => rw [retireEntry_eq]; assumption
  | handOff => rw [retireEntry_eq]; assumption
  | record _ _ x => cases x <;> assumption
  | release _ _ x => cases x <;> assumption
  | cameOnline => rw [withOnline_eq]; assumption
  | leftOnline => rw [withOffline_eq]; assumption
  | _ => first | rfl | assumption

/-- The repair entries change by changes of kinds `repairs`, `create` and `retire` alone. -/
theorem entries (m : Moves K s t) (h1 : .repairs ∉ K) (h2 : .create ∉ K) (h3 : .retire ∉ K) :
    t.rpq = s.rpq := by
  induction m with
  | repairs _ hk => exact absurd hk h1
  | notRetired _ hk => exact absurd hk h1
  | unrepair _ hk => exact absurd hk h1
  | create _ hk => exact absurd hk h2
  | retire _ hk => exact absurd hk h3
  | handOff _ hk => exact absurd hk h3
  | record _ _ x => cases x <;> assumption
  | release _ _ x => cases x <;> assumption
  | cameOnline => rw [withOnline_eq]; assumption
  | leftOnline => rw [withOffline_eq]; assumption
  | abort => rw [abortVisit_eq]; assumption
  | _ => first | rfl | assumption

/-- Which lines the slots name and hold changes by changes of kinds `slots` and `retire` alone. -/
theorem slotLines (m : Moves K s t) (h1 : .slots ∉ K) (h2 : .retire ∉ K) (i : Nat) :
    (slotAt t i).line? = (slotAt s i).line? ∧ (slotAt t i).holds = (slotAt s i).holds := by
  induction m with
  | slotData _ _ j x hl hh ih =>
    rw [slotAt_setSlot]
    split
    · rename_i hj
      obtain ⟨rfl, -⟩ := hj
      exact ⟨hl.trans ih.1, hh.trans ih.2⟩
    · exact ih
  | freed _ hk => exact absurd hk h1
  | watch _ hk => exact absurd hk h1
  | retire _ hk => exact absurd hk h2
  | handOff _ hk => exact absurd hk h2
  | record _ _ x => cases x <;> assumption
  | release _ _ x => cases x <;> assumption
  | cameOnline => rw [withOnline_eq]; assumption
  | leftOnline => rw [withOffline_eq]; assumption
  | abort => rw [abortVisit_eq]; assumption
  | refl => exact ⟨rfl, rfl⟩
  | _ => assumption

/-- HALTED, once entered, is left by changes of kind `unhalt` alone. -/
theorem stillHalted (m : Moves K s t) (h : .unhalt ∉ K) (hh : s.fcu.halted.isSome) :
    t.fcu.halted = s.fcu.halted := by
  induction m with
  | halt _ _ _ hn ih => rw [ih] at hn; simp [hn] at hh
  | unhalt _ hk => exact absurd hk h
  | retire => rw [retireEntry_eq]; assumption
  | handOff => rw [retireEntry_eq]; assumption
  | record _ _ x => cases x <;> assumption
  | release _ _ x => cases x <;> assumption
  | cameOnline => rw [withOnline_eq]; assumption
  | leftOnline => rw [withOffline_eq]; assumption
  | abort => rw [abortVisit_eq]; assumption
  | _ => first | rfl | assumption

end Moves

end Sys2Proof.Machine
end

