-- ==== Sys2Proof/Laws/MovesOps.lean ====
section
/-! SUPPORT. The elementary changes of the shared operations: alerts, counters, completions, quiescing ranks,
HALTED, captures, and the checked reads of the protected tables. -/

namespace Sys2Proof.Machine

/-- What an alert changes. -/
def kAlert : List Kind := [.link]
/-- What a completion changes. -/
def kDone : List Kind := [.link, .requests]
/-- What entering HALTED changes. -/
def kHalt : List Kind :=
  [.link, .requests, .contexts, .slotData, .retires, .halt, .psc, .ranks, .drp]
/-- What a capture changes. -/
def kCapture : List Kind := .records :: .counters :: kHalt
/-- What a checked read of the region table or of a profile changes. -/
def kTable : List Kind := .regions :: kCapture
/-- What a checked read of device entries changes. -/
def kHealth : List Kind := .devices :: kHalt

/-! ## Alerts -/

@[simp] theorem beginSending_por (l : Link) : (beginSending l).por = l.por := by
  unfold beginSending; split <;> (try split) <;> rfl

@[simp] theorem beginSending_straps (l : Link) : (beginSending l).straps = l.straps := by
  unfold beginSending; split <;> (try split) <;> rfl

@[simp] theorem beginSending_state (l : Link) : (beginSending l).state = l.state := by
  unfold beginSending; split <;> (try split) <;> rfl

@[simp] theorem beginSending_fill (l : Link) : (beginSending l).fill = l.fill := by
  unfold beginSending; split <;> (try split) <;> rfl

@[simp] theorem beginSending_slips (l : Link) : (beginSending l).slips = l.slips := by
  unfold beginSending; split <;> (try split) <;> rfl

@[simp] theorem beginSending_timer (l : Link) : (beginSending l).timer = l.timer := by
  unfold beginSending; split <;> (try split) <;> rfl

/-- A frame that begins to be sent leaves the slip history. -/
theorem beginSending_fits {l : Link} (h : l.Fits) : (beginSending l).Fits := by
  simpa [Link.Fits] using h

theorem moves_pushUp (f : UpFrame) (s : State) : Moves kAlert s (pushUp f s) :=
  .link .refl (by decide) _ (by simp) (by simp) (fun h => beginSending_fits h) (by simp)

theorem moves_raiseAt (k : EventKind) (l : Nat) (x : Subject) (r : Option RecordName) (s : State) :
    Moves kAlert s (raiseAt k l x r s) := by
  unfold raiseAt
  split
  · exact moves_pushUp _ _
  · exact .refl

theorem moves_raise (k : EventKind) (x : Subject) (s : State) : Moves kAlert s (raise k x s) :=
  moves_raiseAt ..

/-- An event changes LNK and nothing else. -/
theorem raiseAt_eq (k : EventKind) (l : Nat) (x : Subject) (r : Option RecordName) (s : State) :
    raiseAt k l x r s = { s with link := (raiseAt k l x r s).link } := by
  unfold raiseAt
  split <;> rfl

theorem raise_eq (k : EventKind) (x : Subject) (s : State) :
    raise k x s = { s with link := (raise k x s).link } := raiseAt_eq ..

/-! ## Counters -/

theorem getAt_bump (v : Vector Nat 4) (r : Nat) (i : Fin 4) :
    (bump v r)[i] = if r = i.val then saturate Config.counterCeiling v[i] else v[i] := by
  have h := getAt_setAt v r i.val (saturate Config.counterCeiling (getAt v r 0)) 0
  rw [getAt_of_lt _ _ i.isLt, getAt_of_lt _ _ i.isLt] at h
  show (setAt v r (saturate Config.counterCeiling (getAt v r 0)))[i.val] = _
  rw [h]
  by_cases hr : r = i.val
  · subst hr; simp [getAt_of_lt, i.isLt]
  · simp [hr]

theorem saturate_lt {c n : Nat} (h : n ≤ c) : saturate c n ≤ c := by
  unfold saturate; split <;> omega

theorem bump_bounded {v : Vector Nat 4} (h : ∀ i : Fin 4, v[i] < 2 ^ 32) (r : Nat) (i : Fin 4) :
    (bump v r)[i] < 2 ^ 32 := by
  rw [getAt_bump]
  split
  · have := saturate_lt (c := Config.counterCeiling) (n := v[i]) (by
      have := h i; unfold Config.counterCeiling; omega)
    unfold Config.counterCeiling at this ⊢
    omega
  · exact h i

theorem moves_countCorrected (r : Nat) (s : State) : Moves [.counters] s (countCorrected r s) :=
  .counters .refl (by decide) _ fun _ h =>
    ⟨fun i => ⟨bump_bounded (fun j => (h.1 j).1) r i, (h.1 i).2⟩, h.2⟩

theorem moves_countUe (r : Nat) (s : State) : Moves [.counters] s (countUe r s) :=
  .counters .refl (by decide) _ fun _ h =>
    ⟨fun i => ⟨(h.1 i).1, bump_bounded (fun j => (h.1 j).2.1) r i, (h.1 i).2.2⟩, h.2⟩

theorem moves_countPoisonedRead (r : Nat) (s : State) :
    Moves [.counters] s (countPoisonedRead r s) :=
  .counters .refl (by decide) _ fun _ h =>
    ⟨fun i => ⟨(h.1 i).1, (h.1 i).2.1, bump_bounded (fun j => (h.1 j).2.2) r i⟩, h.2⟩

theorem saturate_ceiling {n : Nat} (h : n < 2 ^ 32) : saturate Config.counterCeiling n < 2 ^ 32 := by
  have := saturate_lt (c := Config.counterCeiling) (n := n) (by simp [Config.counterCeiling]; omega)
  simp [Config.counterCeiling] at this ⊢
  omega

theorem moves_countLagTick (s : State) : Moves [.counters] s (countLagTick s) :=
  .counters .refl (by decide) _ fun _ h => ⟨h.1, saturate_ceiling h.2.1, h.2.2⟩

theorem moves_countOverrun (s : State) : Moves [.counters] s (countOverrun s) :=
  .counters .refl (by decide) _ fun _ h => ⟨h.1, h.2.1, saturate_ceiling h.2.2.1, h.2.2.2⟩

theorem moves_countLostCapture (s : State) : Moves [.counters] s (countLostCapture s) :=
  .counters .refl (by decide) _ fun _ h => ⟨h.1, h.2.1, h.2.2.1, saturate_lt h.2.2.2⟩

/-! ## Requests and completions -/

/-- A change of the request named `id` alone. -/
theorem keepsRequest_if {id : Nat} {f : Request → Request} (h : KeepsRequest f) :
    KeepsRequest fun r => if r.id = id then f r else r := by
  intro q
  dsimp only
  split
  · exact h q
  · simp

theorem moves_setPhase (id : Nat) {p : Phase} (hp : p ≠ .queued) (s : State) :
    Moves [.requests] s (setPhase id p s) :=
  .requests .refl (by decide) _ (keepsRequest_if fun q => by simp [hp])

theorem moves_attachClass (id : Nat) (c : Classification) (s : State) :
    Moves [.requests] s (attachClass id c s) :=
  .requests .refl (by decide) _ (keepsRequest_if fun q => by simp)

theorem moves_releaseHold (k : HoldKey) (s : State) : Moves [.requests] s (releaseHold k s) := by
  unfold releaseHold
  split
  · exact .refl
  · exact .unhold .refl (by decide) k

theorem moves_releaseHold? (k : Option HoldKey) (s : State) :
    Moves [.requests] s (releaseHold? k s) := by
  unfold releaseHold?
  split
  · exact moves_releaseHold _ _
  · exact .refl

theorem moves_endCoreReset (id : Nat) (s : State) : Moves [.requests] s (endCoreReset id s) := by
  unfold endCoreReset
  split
  · split
    · exact .coreReset .refl (by decide) none
    · exact .refl
  · exact .refl

theorem moves_dropRequest (r : Request) (s : State) : Moves [.requests] s (dropRequest r s) := by
  have h1 : Moves [.requests] s
      { s with dem := { s.dem with requests := s.dem.requests.filter fun q => q.id != r.id } } :=
    .leaves .refl (by decide) _
  have h2 := Moves.completions h1 (by decide)
    (s.dem.completions.filter fun c => c.request != r.id)
  exact (h2.trans (moves_releaseHold? _ _)).trans (moves_endCoreReset _ _)

theorem moves_complete (id : Nat) (f : UpFrame) (s : State) : Moves kDone s (complete id f s) := by
  unfold complete
  split
  · exact .refl
  · split
    · exact .refl
    · split
      · exact (moves_dropRequest _ _).mono (by decide)
      · split
        · exact ((moves_pushUp _ _).mono (by decide)).trans
            ((moves_dropRequest _ _).mono (by decide))
        · exact ((Moves.completions .refl (by decide) _ : Moves [.requests] s _).trans
            (moves_setPhase _ (by simp) _)).mono (by decide)

theorem moves_completeDemand (id : Nat) (st : Status) (d : Line) (s : State) :
    Moves kDone s (completeDemand id st d s) := by
  unfold completeDemand
  split
  · exact .refl
  · exact moves_complete _ _ _

theorem moves_answer (id : Nat) (x : Result) (p : List Byte) (s : State) :
    Moves kDone s (answer id x p s) := by
  unfold answer
  split
  · exact .refl
  · exact moves_complete _ _ _

/-! ## Slots and entries -/

theorem moves_removeEntry (id : Nat) (s : State) : Moves [.repairs] s (removeEntry id s) :=
  .unrepair .refl (by decide) _

/-! ## Quiescing ranks -/

theorem moves_settleRank (s : State) (r : Nat) : Moves [.ranks, .drp] s (settleRank s r) := by
  unfold settleRank
  split
  · have h1 : Moves [.ranks, .drp] s
        (setRank r { rankRec s r with selfRefresh := true, refresh := none } s) :=
      .rank .refl (by decide) r _ (.inl rfl)
    exact h1.drp (by decide) (s.drp.refreshDue.filter fun q => q != r) s.drp.lastFill
  · exact .refl

theorem moves_settle (s : State) : Moves [.ranks, .drp] s (settle s) :=
  .foldl moves_settleRank _ _

/-! ## Entering HALTED -/

theorem moves_stopPatrol (s : State) : Moves [.psc] s (stopPatrol s) :=
  .psc .refl (by decide) _ rfl rfl rfl (.inl rfl) (.inl (Nat.le_refl _))

theorem moves_stopFill (s : State) (r : Nat) : Moves [.link, .ranks] s (stopFill s r) := by
  unfold stopFill
  split
  · have h1 : Moves [.link, .ranks] s (setRank r { rankRec s r with state := .offline } s) :=
      .rank .refl (by decide) r _ (.inr (by simp_all))
    exact h1.trans ((moves_raise _ _ _).mono (by decide))
  · exact .refl

theorem moves_stopFills (s : State) : Moves [.link, .ranks] s (stopFills s) :=
  .foldl moves_stopFill _ _

theorem moves_endGrantedRetries (s : State) : Moves [.contexts] s (endGrantedRetries s) :=
  .contexts .refl (by decide) _

theorem moves_dropUngrantedRetries (s : State) : Moves [.contexts] s (dropUngrantedRetries s) :=
  .contexts .refl (by decide) _

theorem moves_haltRequest (s : State) (r : Request) : Moves kDone s (haltRequest s r) := by
  unfold haltRequest
  split
  · exact moves_completeDemand _ _ _ _
  · exact .refl

theorem moves_haltDemand (s : State) : Moves kDone s (haltDemand s) := .foldl moves_haltRequest _ _

theorem moves_haltRelease (s : State) (i : Nat) : Moves kHalt s (haltRelease s i) := by
  unfold haltRelease
  split
  · split
    · exact .refl
    · rename_i a d t w he _
      have h1 : Moves kHalt s (setSlot i (.releasing a d t none) s) :=
        .slotData .refl (by decide) i _ (by rw [he]; rfl) (by rw [he]; rfl)
      exact h1.trans ((moves_answer _ _ _ _).mono (by decide))
  · exact .refl

theorem moves_endRetire (id : Nat) (s : State) : Moves [.retires] s (endRetire id s) :=
  .retires .refl (by decide) _

theorem moves_haltRetire (s : State) (w : RetireWork) : Moves kHalt s (haltRetire s w) := by
  unfold haltRetire
  split
  · exact .refl
  · exact ((moves_endRetire _ _).mono (by decide)).trans ((moves_answer _ _ _ _).mono (by decide))

theorem moves_haltDrain (s : State) : Moves kDone s (haltDrain s) := by
  unfold haltDrain
  split
  · exact moves_answer _ _ _ _
  · exact .refl

theorem moves_endWorkAtHalt (s : State) : Moves kHalt s (endWorkAtHalt s) := by
  unfold endWorkAtHalt
  refine .trans ?_ ((moves_settle _).mono (by decide))
  refine .trans ?_ ((moves_haltDrain _).mono (by decide))
  refine .trans ?_ ((moves_stopFills _).mono (by decide))
  refine .trans ?_ ((moves_stopPatrol _).mono (by decide))
  refine .trans ?_ (.foldl moves_haltRetire _ _)
  refine .trans ?_ (.foldl moves_haltRelease _ _)
  have h1 : Moves kHalt s (endGrantedRetries (dropUngrantedRetries s)) :=
    ((moves_dropUngrantedRetries s).trans (moves_endGrantedRetries _)).mono (by decide)
  exact h1.trans ((moves_haltDemand _).mono (by decide))

theorem moves_enterHalted (c : HaltCause) (s : State) : Moves kHalt s (enterHalted c s) := by
  unfold enterHalted
  split
  · exact .refl
  · have h1 : Moves kHalt s { s with fcu := { s.fcu with halted := some c } } :=
      .halt .refl (by decide) c (by simp_all)
    exact (h1.trans ((moves_raise _ _ _).mono (by decide))).trans (moves_endWorkAtHalt _)

/-! ## Captures -/

theorem recordAt_setRecord (x : RecordName) (c : CaptureRecord) (s : State) :
    recordAt (setRecord x c s) x = c := by cases x <;> rfl

theorem recordAt_setRecord_other {x y : RecordName} (h : x ≠ y) (c : CaptureRecord) (s : State) :
    recordAt (setRecord x c s) y = recordAt s y := by cases x <;> cases y <;> first | rfl | exact absurd rfl h

theorem moves_checkBack (x : RecordName) (s : State) :
    Moves [.link, .records] s (checkBack x s) := by
  unfold checkBack
  split
  · exact .refl
  · have h1 : Moves [.link, .records] s (setRecord x { recordAt s x with strike := .sound } s) :=
      .record .refl (by decide) x _ (.inr (.inl rfl))
    exact h1.trans ((moves_raise _ _ _).mono (by decide))
  · exact .record .refl (by decide) x _ (.inr (.inr rfl))

theorem moves_writeCapture (x : RecordName) (c : Capture) {s : State}
    (h : (recordAt s x).content = .empty) : Moves [.link, .records] s (writeCapture x c s) := by
  have h1 : Moves [.link, .records] s { s with fcu := { s.fcu with next := otherRecord x } } :=
    .placed .refl (by decide) _
  have h2 := Moves.record h1 (by decide) x
    { content := .held { c with phase := s.psc.phase, time := s.mgu.timeBase }, storage := .sound,
      strike := (recordAt s x).strike }
    (.inl (by cases x <;> exact h))
  exact h2.trans (moves_checkBack _ _)

theorem captureTarget_empty {s : State} {x : RecordName} (h : captureTarget s = some x) :
    (recordAt s x).content = .empty := by
  unfold captureTarget at h
  split at h
  · cases h; assumption
  · split at h
    · cases h; assumption
    · cases h

theorem moves_placeCapture (c : Capture) (s : State) : Moves kCapture s (placeCapture c s).2 := by
  unfold placeCapture
  split
  · exact .refl
  · split
    · exact (moves_writeCapture _ _ (captureTarget_empty ‹_›)).mono (by decide)
    · exact ((moves_countLostCapture _).mono (by decide)).trans
        ((moves_raise _ _ _).mono (by decide))

theorem moves_haltIf (c : Option HaltCause) (s : State) : Moves kHalt s (haltIf c s) := by
  unfold haltIf
  split
  · exact moves_enterHalted _ _
  · exact .refl

theorem moves_capture {c : Capture} {f : Option RecordName → State → State}
    (hf : ∀ x u, Moves kCapture u (f x u)) (s : State) : Moves kCapture s (capture c f s) :=
  ((moves_placeCapture c s).trans (hf _ _)).trans ((moves_haltIf _ _).mono (by decide))

theorem moves_tableFault (t : TableId) (i : Nat) (s : State) : Moves kCapture s (tableFault t i s) :=
  moves_capture (fun _ _ => (moves_raiseAt ..).mono (by decide)) s

/-! ## Checked reads -/

theorem moves_checkRegion (s : State) (i : Nat) : Moves kTable s (checkRegion s i) := by
  unfold checkRegion
  split
  · exact .refl
  · have h1 : Moves kTable s (setRegion i ⟨(regionAt s i).value, .sound⟩ s) :=
      .region .refl (by decide) i _ (.inl rfl)
    exact h1.trans ((moves_raise _ _ _).mono (by decide))
  · have h1 : Moves kTable s (setRegion i ⟨emptyRegion, .sound⟩ s) :=
      .region .refl (by decide) i _ (.inr (by simp [emptyRegion]))
    exact h1.trans ((moves_tableFault _ _ _).mono (by decide))

theorem moves_checkRegions (s : State) : Moves kTable s (checkRegions s) := by
  unfold checkRegions
  exact .foldl moves_checkRegion _ _

theorem moves_lookup (a : LineAddr) (s : State) : Moves kTable s (lookup a s).2 := by
  unfold lookup
  dsimp only
  exact moves_checkRegions s

theorem moves_evalStealAgainst (n : Nat) (s : State) :
    Moves [.link, .psc] s (evalStealAgainst n s) := by
  unfold evalStealAgainst
  split
  · exact .refl
  · split
    · have h1 : Moves [.link, .psc] s { s with psc := { s.psc with steal := true } } :=
        .psc .refl (by decide) _ rfl rfl rfl (.inl rfl) (.inl (Nat.le_refl _))
      exact h1.trans ((moves_raise _ _ _).mono (by decide))
    · split
      · have h1 : Moves [.link, .psc] s { s with psc := { s.psc with steal := false } } :=
          .psc .refl (by decide) _ rfl rfl rfl (.inl rfl) (.inl (Nat.le_refl _))
        exact h1.trans ((moves_raise _ _ _).mono (by decide))
      · exact .refl

theorem defaultProfile_inRange : defaultProfile.InRange := by
  unfold Profile.InRange defaultProfile; decide

theorem moves_checkProfile (n : Nat) (s : State) : Moves kTable s (checkProfile n s) := by
  unfold checkProfile
  split
  · exact .refl
  · have h1 : Moves kTable s (setProfile n ⟨(storedProfile s n).value, .sound⟩ s) :=
      .profile .refl (by decide) n _ (.inl rfl)
    exact h1.trans ((moves_raise _ _ _).mono (by decide))
  · have h1 : Moves kTable s (setProfile n ⟨defaultProfile, .sound⟩ s) :=
      .profile .refl (by decide) n _ (.inr defaultProfile_inRange)
    have h2 := h1.trans ((moves_tableFault .phase n _).mono (by decide))
    dsimp only
    split
    · exact h2.trans ((moves_evalStealAgainst _ _).mono (by decide))
    · exact h2

theorem moves_readProfile (n : Nat) (s : State) : Moves kTable s (readProfile n s).2 :=
  moves_checkProfile n s

theorem moves_evalSteal (s : State) : Moves kTable s (evalSteal s) :=
  (moves_readProfile _ s).trans ((moves_evalStealAgainst _ _).mono (by decide))

/-- A device entry rewritten with the value that it has. -/
theorem keepsDevice_same {n : Nat} {x : Stored DeviceEntry} {s : State}
    (h : x.value = deviceEntry s n) : KeepsDevice n x s :=
  ⟨fun hf => h ▸ hf, fun hm => .inl (h ▸ hm)⟩

theorem moves_correctDevice (s : State) (n : Nat) :
    Moves [.link, .devices] s (correctDevice s n) := by
  unfold correctDevice
  split
  · have h1 : Moves [.link, .devices] s (setDevice n ⟨(deviceAt s n).value, .sound⟩ s) :=
      .device .refl (by decide) n _ (keepsDevice_same rfl)
    exact h1.trans ((moves_raise _ _ _).mono (by decide))
  · exact .refl

theorem moves_readDevices (ns : List Nat) (s : State) : Moves kHealth s (readDevices ns s).2 := by
  unfold readDevices
  have h1 : Moves kHealth s (ns.foldl correctDevice s) :=
    .foldl (fun u n => (moves_correctDevice u n).mono (by decide)) _ _
  dsimp only
  split
  · exact h1.trans ((moves_enterHalted _ _).mono (by decide))
  · exact h1

theorem moves_readRank (r : Nat) (s : State) : Moves kHealth s (readRank r s).2 :=
  moves_readDevices _ _

/-- Where the entries of a rank could be read, they show what they hold. -/
theorem readRank_readable {r : Nat} {s t : State} (h : readRank r s = (true, t)) : Readable r t := by
  unfold readRank readDevices at h
  dsimp only at h
  split at h
  · simp at h
  · simp only [Prod.mk.injEq, true_and] at h
    exact h ▸ readable_of_faultyAmong ‹_›

@[simp] theorem withData_line (d : StoredLine) (x : Slot) : (x.withData d).line? = x.line? := by
  cases x <;> rfl

@[simp] theorem withData_holds (d : StoredLine) (x : Slot) : (x.withData d).holds = x.holds := by
  cases x <;> rfl

theorem moves_readSlot (i : Nat) (s : State) : Moves [.link, .slotData] s (readSlot i s).2 := by
  unfold readSlot
  split
  · exact .refl
  · split
    · exact .refl
    · have h1 (d : StoredLine) : Moves [.link, .slotData] s
          (setSlot i ((slotAt s i).withData d) s) :=
        .slotData .refl (by decide) i _ (by simp) (by simp)
      exact (h1 _).trans ((moves_raise _ _ _).mono (by decide))
    · exact .refl

end Sys2Proof.Machine
end

