-- ==== Sys2Proof/Laws/MovesPatrol.lean ====
section
/-! SUPPORT. The elementary changes of the Device Health Table and of the patrol scrubber. -/

namespace Sys2Proof.Machine

/-- What the patrol changes when its cursor moves. -/
def kPatrol : List Kind := .cursor :: .devices :: kTable

/-! ## Device health -/

theorem moves_putDevice {n : Nat} {e : DeviceEntry} {s : State} (h : KeepsDevice n ⟨e, .sound⟩ s) :
    Moves [.devices] s (putDevice n e s) :=
  .device .refl (by decide) n _ h

theorem readable_putDevice {r n : Nat} {e : DeviceEntry} {s : State} (h : Readable r s) :
    Readable r (putDevice n e s) := by
  intro d hd
  unfold putDevice
  rw [deviceAt_setDevice]
  split
  · simp
  · exact h d hd

theorem readable_of_dht {r : Nat} {s t : State} (h : t.dht = s.dht) (hr : Readable r s) :
    Readable r t := by
  intro d hd
  have := hr d hd
  unfold deviceAt at this ⊢
  rwa [h]

@[simp] theorem raise_dht (k : EventKind) (x : Subject) (s : State) : (raise k x s).dht = s.dht := by
  rw [raise_eq]

theorem readable_raise {r : Nat} {k : EventKind} {x : Subject} {s : State} (h : Readable r s) :
    Readable r (raise k x s) := readable_of_dht (raise_dht ..) h

theorem moves_riseBelow {r d t : Nat} {s : State}
    (hm : (deviceEntry s (entryNumber r d)).state.isMark = false)
    (hl : (deviceEntry s (entryNumber r d)).tally ≤ t) (ht : t < 256) :
    Moves [.link, .devices] s (riseBelow r d t s) := by
  unfold riseBelow
  have h1 : Moves [.link, .devices] s (putDevice (entryNumber r d)
      { deviceEntry s (entryNumber r d) with
        tally := t, state := stateOfTally t, touched := true } s) := by
    refine (moves_putDevice ⟨?_, ?_⟩).mono (by decide)
    · intro hf
      obtain ⟨_, _, _, _, hc, hp⟩ := hf
      have hcount : (deviceEntry s (entryNumber r d)).count = 0 := hp (by
        intro h; simp [h, DeviceState.isMark] at hm)
      refine ⟨by show t ≤ 256; omega, ?_, ?_, ?_, ?_, fun _ => hcount⟩
      · show t = 256 ↔ _
        simp only [stateOfTally]
        split <;> simp [DeviceState.isMark] <;> omega
      · show stateOfTally t = .suspect ↔ 128 ≤ t ∧ t ≤ 255
        simp only [stateOfTally]
        split <;> simp <;> omega
      · show stateOfTally t = .sound ↔ t ≤ 127
        simp only [stateOfTally]
        split <;> simp <;> omega
      · intro h
        have := hc h
        show t = 255
        omega
    · intro h
      exfalso
      revert h
      show (stateOfTally t).isMark = true → False
      unfold stateOfTally
      split <;> simp [DeviceState.isMark]
  dsimp only
  split
  · exact h1.trans ((moves_raise _ _ _).mono (by decide))
  · exact h1

theorem moves_markByTally {r d : Nat} {s : State} (hd : d < 10)
    (hn : ∀ d' < 10, (deviceEntry s (entryNumber r d')).state.isMark = false) :
    Moves [.link, .devices] s (markByTally r d s) := by
  unfold markByTally
  refine .trans ((moves_putDevice ⟨?_, fun _ => .inr ⟨r, d, rfl, hd, hn⟩⟩).mono (by decide))
    ((moves_raise _ _ _).mono (by decide))
  intro _
  simp [DeviceEntry.Fits, DeviceState.isMark]

theorem moves_holdAtCap {r d : Nat} {s : State}
    (hm : (deviceEntry s (entryNumber r d)).state.isMark = false) :
    Moves [.link, .devices] s (holdAtCap r d s) := by
  unfold holdAtCap
  have h1 : Moves [.link, .devices] s (putDevice (entryNumber r d)
      { deviceEntry s (entryNumber r d) with
        tally := 255, state := .suspect
        touched := (deviceEntry s (entryNumber r d)).touched || (deviceEntry s (entryNumber r d)).tally < 255
        capped := true } s) := by
    refine (moves_putDevice ⟨?_, ?_⟩).mono (by decide)
    · intro hf
      have hcount : (deviceEntry s (entryNumber r d)).count = 0 := hf.2.2.2.2.2 (by
        intro h; simp [h, DeviceState.isMark] at hm)
      simp [DeviceEntry.Fits, DeviceState.isMark, hcount]
    · simp [DeviceState.isMark]
  dsimp only
  split
  · exact h1
  · exact h1.trans ((moves_raise _ _ _).mono (by decide))

theorem readable_riseBelow {r d t q : Nat} {s : State} (h : Readable q s) :
    Readable q (riseBelow r d t s) := by
  unfold riseBelow
  dsimp only
  split
  · exact readable_raise (readable_putDevice h)
  · exact readable_putDevice h

theorem readable_markByTally {r d q : Nat} {s : State} (h : Readable q s) :
    Readable q (markByTally r d s) := readable_raise (readable_putDevice h)

theorem readable_holdAtCap {r d q : Nat} {s : State} (h : Readable q s) :
    Readable q (holdAtCap r d s) := by
  unfold holdAtCap
  dsimp only
  split
  · exact readable_putDevice h
  · exact readable_raise (readable_putDevice h)

theorem readable_raiseTally {r q : Nat} {c : Bool} {s : State} {f : FixedDevice} (h : Readable q s) :
    Readable q (raiseTally r c s f) := by
  unfold raiseTally
  dsimp only
  split
  · exact h
  · split
    · exact readable_riseBelow h
    · split
      · exact readable_holdAtCap h
      · exact readable_markByTally h

theorem moves_raiseTally {r : Nat} {c : Bool} {s : State} {f : FixedDevice} (h : Readable r s) :
    Moves [.link, .devices] s (raiseTally r c s f) := by
  unfold raiseTally
  dsimp only
  split
  · exact .refl
  · have hm : (deviceEntry s (entryNumber r f.device.val)).state.isMark = false := by simp_all
    split
    · exact moves_riseBelow hm (by omega) ‹_›
    · split
      · exact moves_holdAtCap hm
      · exact moves_markByTally f.device.isLt (no_mark_of_readable h (by simp_all))

theorem moves_raiseTallies_fold {r : Nat} {c : Bool} (l : List FixedDevice) {s : State}
    (h : Readable r s) :
    Moves [.link, .devices] s (l.foldl (raiseTally r c) s) ∧
      Readable r (l.foldl (raiseTally r c) s) := by
  induction l generalizing s with
  | nil => exact ⟨.refl, h⟩
  | cons f l ih =>
    obtain ⟨hm, hr⟩ := ih (s := raiseTally r c s f) (readable_raiseTally h)
    exact ⟨(moves_raiseTally h).trans hm, hr⟩

theorem moves_raiseTallies {r : Nat} {v : VerdictRecord} {s : State} (h : Readable r s) :
    Moves [.link, .devices] s (raiseTallies r v s) := by
  unfold raiseTallies
  split
  · exact (moves_raiseTallies_fold _ h).1
  · exact .refl

theorem resetDevice_fits : resetDevice.Fits := by
  simp [DeviceEntry.Fits, resetDevice, DeviceState.isMark]

theorem moves_countProbation {r d : Nat} {s : State}
    (hp : (deviceEntry s (entryNumber r d)).state = .probation) :
    Moves [.link, .devices] s (countProbation r d s) := by
  unfold countProbation
  dsimp only
  split
  · refine .trans ((moves_putDevice ⟨fun _ => resetDevice_fits, ?_⟩).mono (by decide))
      ((moves_raise _ _ _).mono (by decide))
    simp [DeviceState.isMark]
  · refine (moves_putDevice ⟨?_, fun _ => .inl (by simp [hp, DeviceState.isMark])⟩).mono (by decide)
    intro ⟨h1, h2, h3, h4, h5, _⟩
    exact ⟨h1, h2, h3, h4, h5, fun h => absurd hp h⟩

theorem moves_failProbation {r d : Nat} {s : State}
    (hp : (deviceEntry s (entryNumber r d)).state = .probation) :
    Moves [.link, .devices] s (failProbation r d s) := by
  unfold failProbation
  refine .trans ((moves_putDevice ⟨?_, fun _ => .inl (by simp [hp, DeviceState.isMark])⟩).mono
    (by decide)) ((moves_raise _ _ _).mono (by decide))
  intro ⟨_, h2, _, _, h5, _⟩
  have : (deviceEntry s (entryNumber r d)).tally = 256 := h2.mpr (by simp [hp, DeviceState.isMark])
  refine ⟨by simp, by simp [DeviceState.isMark], by simp, by simp, ?_, by simp⟩
  intro h
  have := h5 h
  omega

theorem moves_judgeProbation (r : Nat) (v : VerdictRecord) (s : State) :
    Moves [.link, .devices] s (judgeProbation r v s) := by
  unfold judgeProbation
  split
  · exact .refl
  · split
    · split
      · exact moves_countProbation ‹_›
      · exact moves_failProbation ‹_›
      · exact .refl
    · exact .refl

theorem moves_healthVerdict (v : VerdictRecord) (s : State) : Moves kHealth s (healthVerdict v s) := by
  unfold healthVerdict
  split
  · exact .refl
  · have hr := moves_readRank (rankOf v.line) s
    split
    · rename_i t he
      rw [he] at hr
      exact hr
    · rename_i t he
      rw [he] at hr
      exact (hr.trans ((moves_raiseTallies (readRank_readable he)).mono (by decide))).trans
        ((moves_judgeProbation _ _ _).mono (by decide))

theorem decayed_fits {q : Nat} {e : DeviceEntry} (h : e.Fits) : (decayed q e).Fits := by
  obtain ⟨h1, h2, h3, h4, h5, h6⟩ := h
  unfold decayed
  split
  · exact ⟨h1, h2, h3, h4, h5, h6⟩
  · rename_i hn
    have hm : e.state.isMark = false := by simp_all
    have ht : e.tally ≤ 255 := by
      have : e.tally ≠ 256 := fun hh => by simp [h2.mp hh] at hm
      omega
    have hc : e.count = 0 := h6 (by intro h; simp [h, DeviceState.isMark] at hm)
    refine ⟨by show e.tally - q ≤ 256; omega, ?_, ?_, ?_, ?_, fun _ => hc⟩
    · show e.tally - q = 256 ↔ (stateOfTally (e.tally - q)).isMark = true
      unfold stateOfTally
      split <;> simp [DeviceState.isMark] <;> omega
    · show stateOfTally (e.tally - q) = .suspect ↔ 128 ≤ e.tally - q ∧ e.tally - q ≤ 255
      unfold stateOfTally
      split <;> simp <;> omega
    · show stateOfTally (e.tally - q) = .sound ↔ e.tally - q ≤ 127
      unfold stateOfTally
      split <;> simp <;> omega
    · intro h
      show e.tally - q = 255
      simp at h
      omega

theorem decayed_isMark {q : Nat} {e : DeviceEntry} (h : (decayed q e).state.isMark) :
    e.state.isMark := by
  unfold decayed at h
  split at h
  · exact h
  · exfalso
    revert h
    show (stateOfTally (e.tally - q)).isMark = true → False
    unfold stateOfTally
    split <;> simp [DeviceState.isMark]

theorem moves_decayDevice (s : State) (n : Nat) : Moves [.devices] s (decayDevice s n) :=
  moves_putDevice ⟨decayed_fits, fun h => .inl (decayed_isMark h)⟩

theorem moves_decayRank (r : Nat) (s : State) : Moves kHealth s (decayRank r s) := by
  unfold decayRank
  have hr := moves_readRank r s
  split
  · rename_i t he
    rw [he] at hr
    exact hr
  · rename_i t he
    rw [he] at hr
    exact hr.trans (.foldl (fun u n => (moves_decayDevice u n).mono (by decide)) _ _)

/-! ## The cursor -/

/-- PSC changed in no more than its cursor phase, flags, countdown and steal mode. -/
theorem Moves.pscSame {K : List Kind} {s u : State} (m : Moves K s u) (h : .psc ∈ K) (p : Psc)
    (hf : p.profiles = u.psc.profiles) (hc : p.cursor = u.psc.cursor)
    (hl : p.lagLimit = u.psc.lagLimit) (hp : p.phase = u.psc.phase)
    (hr : p.credit = u.psc.credit) : Moves K s { u with psc := p } :=
  .psc m h p hf hc hl (.inl hp) (.inl (Nat.le_of_eq hr))

theorem firstOnline_some {l : List Nat} {s : State} {r : Nat} (h : firstOnline l s = some r) :
    r ∈ l ∧ rankState s r = .online :=
  ⟨List.mem_of_find?_eq_some h, by simpa using List.find?_some h⟩

theorem firstOnline_none {l : List Nat} {s : State} (h : firstOnline l s = none) :
    ∀ r ∈ l, rankState s r ≠ .online := by
  intro r hr
  have := List.find?_eq_none.mp h r hr
  simpa using this

theorem online_lt {s : State} {r : Nat} (h : rankState s r = .online) : r < 4 := by
  by_contra hn
  rw [rankState_of_ge s (Nat.not_lt.mp hn)] at h
  cases h

theorem rankOf_lineAt {r : Nat} (h : r < 8) (i : Nat) : rankOf (lineAt r i) = r := by
  simp [rankOf, lineAt, Nat.mod_eq_of_lt h]

theorem depth_pos (s : State) : 0 < depth s := Nat.two_pow_pos _

theorem depth_le (s : State) : depth s ≤ 2 ^ 27 := by
  unfold depth
  refine Nat.pow_le_pow_right (by decide) ?_
  unfold StrapPins.depthExponent
  split <;> decide

/-- A cursor set to index 0 of the first ONLINE rank of a list fits, where the list names every ONLINE rank. -/
theorem cursorToFirst_fits {l : List Nat} {s : State} (hl : ∀ r < 4, rankState s r = .online → r ∈ l) :
    CursorFits (cursorToFirst l s) := by
  unfold cursorToFirst
  split
  · rename_i r hr
    have ho := (firstOnline_some hr).2
    have h4 := online_lt ho
    show rankState s (rankOf (lineAt r 0)) = .online ∧ (lineAt r 0).index.toNat < depth s
    rw [rankOf_lineAt (by omega)]
    exact ⟨ho, by simpa [lineAt] using depth_pos s⟩
  · rename_i hr
    show ∀ r < 4, rankState s r ≠ .online
    intro r h4 ho
    exact firstOnline_none hr r (hl r h4 ho) ho

theorem moves_cursorToFirst {l : List Nat} {s : State}
    (hl : CursorFits s → ∀ r < 4, rankState s r = .online → r ∈ l) :
    Moves [.cursor] s (cursorToFirst l s) := by
  have key : CursorFits s → CursorFits (cursorToFirst l s) := fun h => cursorToFirst_fits (hl h)
  unfold cursorToFirst at key ⊢
  split
  · simp only [‹firstOnline l s = _›] at key
    exact .cursor .refl (by decide) _ rfl rfl rfl rfl key
  · simp only [‹firstOnline l s = _›] at key
    exact .cursor .refl (by decide) _ rfl rfl rfl rfl key

theorem mem_ranksAfter {r q : Nat} (hr : r < 4) (hq : q < 4) : q ∈ ranksAfter r := by
  unfold ranksAfter
  simp
  omega

/-- A rank of the list is all that the cursor's own rank needs to be found again. -/
theorem moves_cursorAfter {r : Nat} {s : State} (hr : CursorFits s → r < 4) :
    Moves [.cursor] s (cursorToFirst (ranksAfter r) s) :=
  moves_cursorToFirst fun h _ hq _ => mem_ranksAfter (hr h) hq

theorem moves_completeSweep (r : Nat) (s : State) : Moves kHealth s (completeSweep r s) :=
  (moves_decayRank r s).trans ((moves_raise _ _ _).mono (by decide))

/-- A completed sweep leaves the cursor where it is. -/
theorem completeSweep_cursor (r : Nat) (s : State) :
    (completeSweep r s).psc.cursor = s.psc.cursor :=
  (moves_completeSweep r s).cursorKept (by decide) (by decide)

theorem moves_endPass (b : Bool) {a : LineAddr} {s : State} (hc : s.psc.cursor = some a) :
    Moves kPatrol s (endPass b (rankOf a) s) := by
  unfold endPass
  have h1 : Moves kPatrol s (if s.psc.wholeSweep then completeSweep (rankOf a) s else s) ∧
      (if s.psc.wholeSweep then completeSweep (rankOf a) s else s).psc.cursor = some a := by
    split
    · exact ⟨(moves_completeSweep _ _).mono (by decide), (completeSweep_cursor _ _).trans hc⟩
    · exact ⟨.refl, hc⟩
  dsimp only
  generalize (if s.psc.wholeSweep then completeSweep (rankOf a) s else s) = u at h1
  obtain ⟨hm, hu⟩ := h1
  have h2 : Moves kPatrol s (cursorToFirst (ranksAfter (rankOf a)) u) := by
    refine hm.trans ((moves_cursorAfter ?_).mono (by decide))
    intro hf
    unfold CursorFits at hf
    rw [hu] at hf
    exact online_lt hf.1
  split
  · exact h2.pscSame (by decide) _ rfl rfl rfl rfl rfl
  · exact h2

theorem moves_stepCursor {a : LineAddr} {s : State} (hc : s.psc.cursor = some a)
    (hd : a.index.toNat + 1 < depth s) : Moves [.cursor] s (stepCursor a s) := by
  refine .cursor .refl (by decide) _ rfl rfl rfl rfl ?_
  intro hf
  unfold CursorFits at hf
  rw [hc] at hf
  refine ⟨hf.1, ?_⟩
  show (a.index + 1).toNat < depth s
  have := depth_le s
  rw [BitVec.toNat_add]
  show (a.index.toNat + 1) % 2 ^ 27 < depth s
  omega

theorem moves_advanceCursor (b : Bool) (s : State) : Moves kPatrol s (advanceCursor b s) := by
  unfold advanceCursor
  split
  · split
    · exact (moves_stepCursor ‹_› ‹_›).mono (by decide)
    · exact moves_endPass b ‹_›
  · exact .refl

theorem moves_testLines (n : Nat) (s : State) : Moves kPatrol s (testLines n s) := by
  induction n generalizing s with
  | zero => exact .refl
  | succ n ih =>
    unfold testLines
    split
    · exact .refl
    · rename_i a _
      have h1 : Moves kPatrol s (lookup a s).2 := (moves_lookup a s).mono (by decide)
      generalize lookup a s = p at h1
      dsimp only
      split
      · exact h1
      · split
        · exact (h1.trans (moves_advanceCursor _ _)).trans (ih _)
        · exact h1.pscSame (by decide) _ rfl rfl rfl rfl rfl

theorem moves_patrolProceeds (s : State) : Moves kPatrol s (patrolProceeds s) := by
  unfold patrolProceeds
  split
  · exact ((moves_readProfile _ s).mono (by decide)).trans (moves_testLines _ _)
  · exact .refl

/-! ## Ticks -/

theorem moves_earnTick {s : State} (h : s.psc.credit < s.psc.lagLimit) :
    Moves kTable s (earnTick s) := by
  unfold earnTick
  have h1 : Moves kTable s
      { s with psc := { s.psc with credit := s.psc.credit + 1, lagging := false } } :=
    .psc .refl (by decide) _ rfl rfl rfl (.inl rfl) (.inr h)
  exact h1.trans (moves_evalSteal _)

theorem moves_loseTick (s : State) : Moves kTable s (loseTick s) := by
  unfold loseTick
  have h1 : Moves kTable s (countLagTick s) := (moves_countLagTick s).mono (by decide)
  have h2 : Moves kTable s (if (countLagTick s).psc.lagging then countLagTick s
      else raise .patrolLag .none (countLagTick s)) := by
    split
    · exact h1
    · exact h1.trans ((moves_raise _ _ _).mono (by decide))
  exact h2.pscSame (by decide) _ rfl rfl rfl rfl rfl

theorem moves_countTick (b : Bool) (s : State) : Moves kTable s (countTick b s) := by
  unfold countTick
  split
  · split
    · exact moves_earnTick ‹_›
    · exact moves_loseTick s
  · exact .refl

theorem moves_resumeDeferred (s : State) : Moves [.psc] s (resumeDeferred s) := by
  unfold resumeDeferred
  split
  · exact Moves.refl.pscSame (by decide) _ rfl rfl rfl rfl rfl
  · exact .refl

theorem moves_tickOccurs (s : State) : Moves kPatrol s (tickOccurs s) := by
  unfold tickOccurs
  refine .trans ?_ (moves_patrolProceeds _)
  refine .trans ?_ ((moves_resumeDeferred _).mono (by decide))
  refine .trans ?_ ((moves_countTick _ _).mono (by decide))
  have h1 : Moves kPatrol s (readProfile s.psc.phase s).2 := (moves_readProfile _ s).mono (by decide)
  exact h1.pscSame (by decide) _ rfl rfl rfl rfl rfl

/-! ## Causes from outside -/

theorem moves_cursorLineHeld (a : LineAddr) (s : State) : Moves kPatrol s (cursorLineHeld a s) := by
  unfold cursorLineHeld
  split
  · split
    · exact (moves_advanceCursor _ _).trans (moves_patrolProceeds _)
    · exact .refl
  · exact .refl

theorem moves_allowanceChanged (s : State) : Moves kPatrol s (allowanceChanged s) := by
  unfold allowanceChanged
  split
  · exact moves_patrolProceeds s
  · exact Moves.refl.pscSame (by decide) _ rfl rfl rfl rfl rfl

theorem moves_dropPatrolRetries (g : LineAddr → Bool) (s : State) :
    Moves [.contexts] s (dropPatrolRetries g s) :=
  .contexts .refl (by decide) _

/-- What a rank's coming or leaving ONLINE changes. -/
def kOnline : List Kind := .online :: kPatrol

theorem moves_rankCameOnline {r : Nat} {x : RankRec} {s : State} (hx : x.state = .online)
    (ho : rankState s r ≠ .absent) : Moves kOnline s (rankCameOnline r (setRank r x s)) := by
  have h1 : Moves kOnline s (withOnline r x s) := .cameOnline .refl (by decide) r x hx ho
  unfold withOnline at h1
  unfold rankCameOnline
  rw [show (setRank r x s).psc.cursor = s.psc.cursor from rfl]
  split
  · rw [if_pos ‹_›] at h1
    exact h1.trans ((moves_patrolProceeds _).mono (by decide))
  · rw [if_neg ‹_›] at h1
    exact h1

theorem moves_rankLeftOnline {r : Nat} {x : RankRec} {s : State} (hx : x.state = .offline)
    (ho : rankState s r = .online) : Moves kOnline s (rankLeftOnline r (setRank r x s)) := by
  have h0 : Moves kOnline s
      { s with fcu := (dropPatrolRetries (fun a => rankOf a == r) (setRank r x s)).fcu } :=
    .contexts .refl (by decide) _
  have h1 := Moves.leftOnline h0 (by decide) r x hx ho
  unfold withOffline at h1
  unfold rankLeftOnline
  dsimp only at h1 ⊢
  rw [show (dropPatrolRetries (fun a => rankOf a == r) (setRank r x s)).psc.cursor = s.psc.cursor
    from rfl]
  split
  · rename_i a hc
    simp only [hc] at h1
    split
    · rw [if_pos ‹_›] at h1
      exact h1.trans ((moves_patrolProceeds _).mono (by decide))
    · rw [if_neg ‹_›] at h1
      exact h1
  · rename_i hc
    simp only [hc] at h1
    exact h1

theorem moves_resetPatrol (s : State) : Moves [.psc, .cursor] s (resetPatrol s) := by
  unfold resetPatrol
  have h1 : Moves [.psc, .cursor] s (cursorToFirst [0, 1, 2, 3] (stopPatrol s)) := by
    refine ((moves_stopPatrol s).mono (by decide)).trans ((moves_cursorToFirst ?_).mono (by decide))
    intro _ r hr _
    simp only [List.mem_cons, List.not_mem_nil, or_false]
    omega
  exact .psc h1 (by decide) _ rfl rfl rfl (.inr (Nat.zero_le _)) (.inl (Nat.zero_le _))

end Sys2Proof.Machine
end

