-- ==== Sys2Proof/Laws/MovesDemand.lean ====
section
/-! SUPPORT. The elementary changes of the Demand Engine: injection, answers by the holder of a line, starting,
and a holder that changes. -/

namespace Sys2Proof.Machine

/-- What handling a demand request changes. -/
def kWork : List Kind := .cod :: .repairs :: kPatrol
/-- What starting one changes. -/
def kStart : List Kind := .begins :: .stamp :: kWork

/-! ## Injection -/

theorem moves_injectOne (a : LineAddr) (p : RawLine × State) (i : Nat) :
    Moves [.cod] p.2 (injectOne a p i).2 := by
  unfold injectOne
  split
  · split
    · rename_i e he _
      refine .inject .refl (by decide) _ ?_
      intro j _ x hx
      rw [getAt_setAt] at hx
      split at hx
      · rename_i hj
        obtain ⟨rfl, -⟩ := hj
        split at hx
        · cases hx
        · cases hx
          exact .inr ⟨e, he, Nat.sub_le _ _, fun _ => by show 1 ≤ e.count - 1; omega⟩
      · exact .inr ⟨x, hx, Nat.le_refl _, id⟩
    · exact .refl
  · exact .refl

theorem moves_inject (a : LineAddr) (raw : RawLine) (s : State) :
    Moves [.cod] s (inject a raw s).2 := by
  unfold inject
  simp only [List.foldl_cons, List.foldl_nil]
  exact (moves_injectOne a (raw, s) 0).trans (moves_injectOne a _ 1)

theorem moves_formWrite (a : LineAddr) (d : Line) (b : Bool) (s : State) :
    Moves [.cod] s (formWrite a d b s).2 := moves_inject ..

/-! ## Answers -/

theorem moves_completePoisonedRead (id : Nat) (a : LineAddr) (s : State) :
    Moves kCapture s (completePoisonedRead id a s) := by
  unfold completePoisonedRead
  refine .trans ?_ ((moves_completeDemand _ _ _ _).mono (by decide))
  exact ((moves_raise _ _ _).mono (by decide)).trans ((moves_countPoisonedRead _ _).mono (by decide))

theorem moves_slotDataLost (a : LineAddr) (r : Option Nat) (h : Option (ByteMask × Line)) (s : State) :
    Moves kCapture s (slotDataLost a r h s) :=
  moves_capture (fun _ _ => (moves_raiseAt ..).mono (by decide)) s

theorem moves_refuseRmw (id : Nat) (c : Capture) (s : State) : Moves kCapture s (refuseRmw id c s) := by
  unfold refuseRmw
  refine .trans ?_ ((moves_completeDemand _ _ _ _).mono (by decide))
  exact ((moves_setPhase _ (by simp) _).mono (by decide)).trans (moves_capture (fun _ _ => .refl) _)

/-- A slot whose data, or whose standing as the holder, is written anew. -/
theorem moves_setSlot {i : Nat} {x : Slot} {s : State} (hl : x.line? = (slotAt s i).line?)
    (hh : x.holds = (slotAt s i).holds) : Moves [.slotData] s (setSlot i x s) :=
  .slotData .refl (by decide) i x hl hh

theorem slotAt_setPhase (id : Nat) (p : Phase) (s : State) (i : Nat) :
    slotAt (setPhase id p s) i = slotAt s i := rfl

theorem moves_readLostSlot (id : Nat) (a : LineAddr) (r : Option Nat) (i : Nat) (s : State) :
    Moves kCapture s (readLostSlot id a r i s) := by
  unfold readLostSlot
  have h0 : Moves kCapture s (setPhase id .answering s) := (moves_setPhase _ (by simp) _).mono (by decide)
  dsimp only
  split
  · rename_i b d t w he
    split
    · exact (h0.trans (moves_slotDataLost _ _ _ _)).trans (moves_completePoisonedRead _ _ _)
    · refine .trans ?_ (moves_completePoisonedRead _ _ _)
      refine .trans ?_ ((moves_answer _ _ _ _).mono (by decide))
      refine .trans ?_ (moves_slotDataLost _ _ _ _)
      exact h0.trans ((moves_setSlot (by rw [he]; rfl) (by rw [he]; rfl)).mono (by decide))
  · rename_i b d t he
    refine .trans ?_ (moves_completePoisonedRead _ _ _)
    refine .trans ?_ (moves_slotDataLost _ _ _ _)
    exact h0.trans ((moves_setSlot (by rw [he]; rfl) (by rw [he]; rfl)).mono (by decide))
  · rename_i b d t he
    refine .trans ?_ (moves_completePoisonedRead _ _ _)
    refine .trans ?_ (moves_slotDataLost _ _ _ _)
    exact h0.trans ((moves_setSlot (by rw [he]; rfl) (by rw [he]; rfl)).mono (by decide))
  · exact h0.trans (moves_completePoisonedRead _ _ _)

theorem moves_readFromSlot (id : Nat) (a : LineAddr) (r : Option Nat) (i : Nat) (s : State) :
    Moves kCapture s (readFromSlot id a r i s) := by
  unfold readFromSlot
  split
  · exact moves_completePoisonedRead _ _ _
  · have h := moves_readSlot i s
    split
    · rename_i he
      rw [he] at h
      exact (h.mono (by decide)).trans ((moves_completeDemand _ _ _ _).mono (by decide))
    · rename_i he
      rw [he] at h
      exact (h.mono (by decide)).trans (moves_readLostSlot _ _ _ _ _)

theorem moves_applyRead (r : Request) (a : LineAddr) (s : State) :
    Moves kCapture s (applyRead r a s) := by
  unfold applyRead
  split
  · exact moves_readFromSlot _ _ _ _ _
  · split
    · exact (moves_completeDemand _ _ _ _).mono (by decide)
    · exact moves_completePoisonedRead _ _ _
  · exact (moves_setPhase _ (by simp) _).mono (by decide)

theorem moves_applyWrite (id : Nat) (a : LineAddr) (d : Line) (st : Status) (s : State) :
    Moves kWork s (applyWrite id a d st s) := by
  unfold applyWrite
  split
  · split
    · exact (moves_setPhase _ (by simp) _).mono (by decide)
    · rename_i he
      exact ((moves_setSlot (by rw [he]; rfl) (by rw [he]; rfl)).mono (by decide)).trans
        ((moves_completeDemand _ _ _ _).mono (by decide))
    · rename_i he
      exact ((moves_setSlot (by rw [he]; rfl) (by rw [he]; rfl)).mono (by decide)).trans
        ((moves_completeDemand _ _ _ _).mono (by decide))
    · exact .refl
  · split
    · exact (moves_setPhase _ (by simp) _).mono (by decide)
    · exact ((moves_removeEntry _ _).mono (by decide)).trans
        ((moves_setPhase _ (by simp) _).mono (by decide))
  · exact (moves_setPhase _ (by simp) _).mono (by decide)

theorem moves_rmwFromSlot (r : Request) (a : LineAddr) (m : ByteMask) (d : Line) (i : Nat) (s : State) :
    Moves kWork s (rmwFromSlot r a m d i s) := by
  unfold rmwFromSlot
  have h := moves_readSlot i s
  split
  · rename_i he
    rw [he] at h
    exact (h.mono (by decide)).trans (moves_applyWrite _ _ _ _ _)
  · rename_i u he
    rw [he] at h
    have h0 : Moves kWork s u := h.mono (by decide)
    split
    · rename_i hs
      refine .trans ?_ ((moves_completeDemand _ _ _ _).mono (by decide))
      refine .trans ?_ ((moves_slotDataLost _ _ _ _).mono (by decide))
      refine .trans ?_ ((moves_setSlot (by rw [slotAt_setPhase, hs]; rfl)
        (by rw [slotAt_setPhase, hs]; rfl)).mono (by decide))
      exact h0.trans ((moves_setPhase _ (by simp) _).mono (by decide))
    · exact h0

theorem moves_applyRmw (r : Request) (a : LineAddr) (m : ByteMask) (d : Line) (s : State) :
    Moves kWork s (applyRmw r a m d s) := by
  unfold applyRmw
  split
  · split
    · exact (moves_setPhase _ (by simp) _).mono (by decide)
    · exact moves_rmwFromSlot _ _ _ _ _ _
    · exact (moves_refuseRmw _ _ _).mono (by decide)
  · split
    · exact moves_applyWrite _ _ _ _ _
    · exact (moves_refuseRmw _ _ _).mono (by decide)
  · exact (moves_setPhase _ (by simp) _).mono (by decide)

theorem moves_applyDemand (r : Request) (s : State) : Moves kWork s (applyDemand r s) := by
  unfold applyDemand
  split
  · exact .refl
  · exact (moves_applyRead _ _ _).mono (by decide)
  all_goals try exact moves_applyWrite _ _ _ _ _
  split
  · exact moves_applyWrite _ _ _ _ _
  · split
    · exact (moves_completeDemand _ _ _ _).mono (by decide)
    · exact moves_applyRmw _ _ _ _ _

/-! ## The loop line -/

theorem moves_loopDecode (a : LineAddr) (x : ReadSource) (raw : RawLine) (s : State) :
    Moves kHealth s (loopDecode a x raw s).2 := by
  unfold loopDecode
  have h := moves_readRank (rankOf a) s
  split
  · rename_i he
    rw [he] at h
    exact h
  · rename_i he
    rw [he] at h
    exact h

theorem moves_loopWrite (a : LineAddr) (d : Line) (s : State) : Moves [.cod] s (loopWrite a d s) :=
  (moves_formWrite a d false s).loop (by decide) _

theorem moves_loopRead (id : Nat) (v : VerdictRecord) (s : State) :
    Moves kDone s (loopRead id v s) := by
  unfold loopRead
  split <;> exact moves_completeDemand _ _ _ _

theorem moves_loopMerge (id : Nat) (a : LineAddr) (m : ByteMask) (d : Line) (v : VerdictRecord)
    (s : State) : Moves kWork s (loopMerge id a m d v s) := by
  unfold loopMerge
  split
  · exact ((moves_loopWrite _ _ _).mono (by decide)).trans
      ((moves_completeDemand _ _ _ _).mono (by decide))
  · exact ((moves_loopWrite _ _ _).mono (by decide)).trans
      ((moves_completeDemand _ _ _ _).mono (by decide))
  · exact (moves_completeDemand _ _ _ _).mono (by decide)

theorem moves_loopAccess (r : Request) (raw : RawLine) (s : State) :
    Moves kWork s (loopAccess r raw s) := by
  unfold loopAccess
  have h0 : Moves kWork s (setPhase r.id .answering s) := (moves_setPhase _ (by simp) _).mono (by decide)
  dsimp only
  split
  · exact h0
  · rename_i a _
    have h := moves_loopDecode a .demand raw (setPhase r.id .answering s)
    split
    · rename_i he
      rw [he] at h
      exact (h0.trans (h.mono (by decide))).trans ((moves_loopRead _ _ _).mono (by decide))
    · rename_i he
      rw [he] at h
      exact (h0.trans (h.mono (by decide))).trans ((moves_completeDemand _ _ _ _).mono (by decide))
  · exact (h0.trans ((moves_loopWrite _ _ _).mono (by decide))).trans
      ((moves_completeDemand _ _ _ _).mono (by decide))
  · rename_i a m d _
    split
    · exact (h0.trans ((moves_loopWrite _ _ _).mono (by decide))).trans
        ((moves_completeDemand _ _ _ _).mono (by decide))
    · split
      · exact h0.trans ((moves_completeDemand _ _ _ _).mono (by decide))
      · have h := moves_loopDecode a .rmw raw (setPhase r.id .answering s)
        split
        · rename_i he
          rw [he] at h
          exact (h0.trans (h.mono (by decide))).trans (moves_loopMerge _ _ _ _ _ _)
        · rename_i he
          rw [he] at h
          exact (h0.trans (h.mono (by decide))).trans
            ((moves_completeDemand _ _ _ _).mono (by decide))

/-! ## Starting -/

theorem moves_handleDemand (id : Nat) (s : State) : Moves kWork s (handleDemand id s) := by
  unfold handleDemand
  split
  · exact .refl
  · split
    · exact .refl
    · exact moves_loopAccess _ _ _
    · exact moves_applyDemand _ _

theorem moves_startDemand {r : Request} {a : LineAddr} {s : State}
    (h : holdKey s a ∉ s.dem.holdSet) : Moves kStart s (startDemand r a s) := by
  unfold startDemand
  have h0 : Moves kStart s (beginDemand r a s) := .begins .refl (by decide) r a h
  generalize beginDemand r a s = u at h0
  dsimp only
  split
  · exact h0.trans ((moves_completeDemand _ _ _ _).mono (by decide))
  · have h1 : Moves kStart u (lookup a u).2 := (moves_lookup a u).mono (by decide)
    generalize lookup a u = p at h1
    refine ((h0.trans h1).trans ?_).trans ((moves_handleDemand _ _).mono (by decide))
    exact (moves_attachClass _ _ _).mono (by decide)

/-! ## A holder that changes -/

theorem moves_dropRetry (id : Nat) (s : State) : Moves [.contexts] s (dropRetry id s) :=
  .contexts .refl (by decide) _

theorem moves_holderChanged (a : LineAddr) (s : State) : Moves kWork s (holderChanged a s) := by
  unfold holderChanged
  split
  · exact .refl
  · split
    · split
      · exact ((moves_dropRetry _ _).mono (by decide)).trans (moves_applyDemand _ _)
      · exact .refl
    · exact moves_applyDemand _ _

theorem moves_withdrawRetire (a : LineAddr) (s : State) (w : RetireWork) :
    Moves kHalt s (withdrawRetire a s w) := by
  unfold withdrawRetire
  split
  · exact ((moves_endRetire _ _).mono (by decide)).trans ((moves_answer _ _ _ _).mono (by decide))
  · exact .refl

theorem moves_entryGained (a : LineAddr) (s : State) : Moves kWork s (entryGained a s) :=
  ((moves_holderChanged _ _).trans ((moves_dropPatrolRetries _ _).mono (by decide))).trans
    ((moves_cursorLineHeld _ _).mono (by decide))

theorem moves_slotGained (a : LineAddr) (s : State) : Moves kWork s (slotGained a s) := by
  unfold slotGained
  refine .trans ?_ ((moves_cursorLineHeld _ _).mono (by decide))
  refine .trans ?_ (.foldl (fun u w => (moves_withdrawRetire a u w).mono (by decide)) _ _)
  exact (moves_holderChanged _ _).trans ((moves_dropPatrolRetries _ _).mono (by decide))

end Sys2Proof.Machine
end

