-- ==== Sys2Proof/Laws/MovesRepair.lean ====
section
/-! SUPPORT. The elementary changes of the Repair Queue, the Spare Line Store, the Fault Capture Unit and the end
of a granted read. -/

namespace Sys2Proof.Machine

/-- What a verdict record changes at its consumers and its requester. -/
def kVerdict : List Kind := .create :: .retire :: .slots :: .stamp :: kWork

/-! ## Repair entries -/

theorem entryOf_of_rpq {a : LineAddr} {s t : State} (h : t.rpq = s.rpq) : entryOf a t = entryOf a s := by
  unfold entryOf
  rw [h]

theorem slotHolding_of_lines {a : LineAddr} {s t : State}
    (h : ∀ i, (slotAt t i).line? = (slotAt s i).line? ∧ (slotAt t i).holds = (slotAt s i).holds) :
    slotHolding a t = slotHolding a s := by
  unfold slotHolding
  congr 1
  funext i
  rw [(h i).1, (h i).2]

theorem moves_createEntry {a : LineAddr} {k : RepairKind} {d : Line} {v : Bool} {st : RepairState}
    {s : State} (hr : s.rpq.entries.length < 16) (he : entryOf a s = none)
    (hs : slotHolding a s = none) : Moves kVerdict s (createEntry a k d v st s) :=
  (Moves.create .refl (by decide) _ rfl hr he hs).trans ((moves_entryGained _ _).mono (by decide))

theorem admitted {a : LineAddr} {b : Bool} {s : State} (h : admission a b s = .admitted) :
    s.rpq.entries.length < 16 ∧ entryOf a s = none ∧ slotHolding a s = none := by
  unfold admission at h
  repeat' split at h
  all_goals try cases h
  simp only [Config.repairCapacity, Nat.not_le, Option.isSome_iff_ne_none, ne_eq,
    Decidable.not_not] at *
  simp_all

theorem moves_createHot {a : LineAddr} {d : Line} {s : State} (hr : s.rpq.entries.length < 16)
    (he : entryOf a s = none) (hs : slotHolding a s = none) :
    Moves kVerdict s (createHot a d s) := by
  unfold createHot
  split
  · exact moves_createEntry hr he hs
  · have h := moves_readProfile s.psc.phase s
    have h1 := h.entries (by decide) (by decide) (by decide)
    have h2 := slotHolding_of_lines (a := a) (h.slotLines (by decide) (by decide))
    generalize readProfile s.psc.phase s = p at h h1 h2
    have hm : Moves kVerdict s p.2 := h.mono (by decide)
    have hc (st : RepairState) : Moves kVerdict p.2 (createEntry a .repair d false st p.2) :=
      moves_createEntry (by rw [h1]; exact hr) ((entryOf_of_rpq h1).trans he) (h2.trans hs)
    dsimp only
    split
    · exact hm
    · split
      · exact (hm.trans (hc _)).trans ((moves_patrolProceeds _).mono (by decide))
      · exact (hm.trans (hc _)).trans ((moves_patrolProceeds _).mono (by decide))

theorem moves_considerRepair (v : VerdictRecord) (s : State) :
    Moves kVerdict s (considerRepair v s) := by
  unfold considerRepair
  split
  · split
    · exact .refl
    · exact (moves_raise _ _ _).mono (by decide)
    · obtain ⟨hr, he, hs⟩ := admitted ‹_›
      unfold createRepair
      split
      · exact moves_createEntry hr he hs
      · exact moves_createEntry hr he hs
      · exact moves_createEntry hr he hs
      · exact moves_createHot hr he hs
  · exact .refl

theorem moves_requestPoison (a : LineAddr) (d : Line) (b : Bool) (s : State) :
    Moves kVerdict s (requestPoison a d b s) := by
  unfold requestPoison
  split
  · exact .refl
  · exact (moves_raise _ _ _).mono (by decide)
  · obtain ⟨hr, he, hs⟩ := admitted ‹_›
    exact moves_createEntry hr he hs

/-! ## Retirement -/

/-- The event of a retirement does not meet the entry that the retirement removes. -/
theorem retireEntry_raise (a : LineAddr) (k : EventKind) (x : Subject) (s : State) :
    retireEntry a (raise k x s) = raise k x (retireEntry a s) := by
  have h1 : (retireEntry a (raise k x s)).rpq = (retireEntry a s).rpq := by
    rw [raise_eq]
    unfold retireEntry entryOf
    dsimp only
    split
    · rfl
    · split <;> rfl
  have h2 : (raise k x (retireEntry a s)).link = (raise k x s).link := by
    rw [retireEntry_eq]
    unfold raise raiseAt
    rw [show eventPasses k.level { s with rpq := (retireEntry a s).rpq } = eventPasses k.level s
        from rfl,
      show alertTaken k.level { s with rpq := (retireEntry a s).rpq } = alertTaken k.level s from rfl]
    split <;> rfl
  rw [retireEntry_eq a (raise k x s), h1, raise_eq k x (retireEntry a s), h2]
  conv_rhs => rw [retireEntry_eq a s]
  rw [raise_eq k x s]

theorem moves_retireLine {i : Nat} {a : LineAddr} {d : Line} {s : State} (hi : i < 32)
    (hh : (slotAt s i).holds = false) (hn : slotHolding a s = none)
    (hl : (slotAt s i).line? = some a ∨ ∀ j < 32, (slotAt s j).line? ≠ some a) :
    Moves kVerdict s (retireLine i a d s) := by
  unfold retireLine
  rw [retireEntry_raise]
  have h1 : Moves kVerdict s
      (retireEntry a (setSlot i (.active a (freshData d) s.mgu.timeBase) s)) :=
    .retire .refl (by decide) i a _ _ hi hh hn hl
  exact (h1.trans ((moves_raise _ _ _).mono (by decide))).trans
    ((moves_slotGained _ _).mono (by decide))

/-- Where no slot holds a line, a slot that names it is a WATCH. -/
theorem unnamed_of_notHeld {a : LineAddr} {s : State} (hn : slotHolding a s = none)
    (hw : ∀ j < 32, (slotAt s j).line? = some a → (slotAt s j).holds = true) :
    ∀ j < 32, (slotAt s j).line? ≠ some a := by
  intro j hj hl
  have := slotHolding_none hn j hj hl
  simp [hw j hj hl] at this

theorem moves_allocateWatch {a : LineAddr} {s : State}
    (hn : ∀ j < 32, (slotAt s j).line? ≠ some a) : Moves kVerdict s (allocateWatch a s) := by
  unfold allocateWatch
  split
  · obtain ⟨_, hh⟩ := slotForWatch_some ‹_›
    have h1 : Moves kVerdict s { s with sls := { s.sls with allocationFailed := false } } :=
      .allocation .refl (by decide) false
    exact .watch h1 (by decide) _ _ _ _ hh (.inr hn)
  · have h1 : Moves kVerdict s (if s.sls.allocationFailed then s else raise .spareFull (.line a) s) := by
      split
      · exact .refl
      · exact (moves_raise _ _ _).mono (by decide)
    exact .allocation h1 (by decide) true

theorem slotNaming_none {a : LineAddr} {s : State} (h : slotNaming a s = none) :
    ∀ j < 32, (slotAt s j).line? ≠ some a := by
  intro j hj hl
  have := find_slot_none h j hj
  simp [hl] at this

theorem slotNaming_some {a : LineAddr} {s : State} {i : Nat} (h : slotNaming a s = some i) :
    i < 32 ∧ (slotAt s i).line? = some a := by
  have := find_slot_some h
  simpa using this

theorem moves_watchVerdict (v : VerdictRecord) (s : State) :
    Moves kVerdict s (watchVerdict v s) := by
  unfold watchVerdict
  split
  · rename_i hit
    have hn : slotHolding v.line s = none := by
      unfold isWatchHit at hit
      simp at hit
      tauto
    split
    · exact moves_allocateWatch (slotNaming_none ‹_›)
    · rename_i i hi
      obtain ⟨hi, hl⟩ := slotNaming_some hi
      split
      · rename_i b n t hw
        have hh : (slotAt s i).holds = false := by rw [hw]; rfl
        split
        · exact moves_retireLine hi hh hn (.inl hl)
        · exact .watch .refl (by decide) _ _ _ _ hh (.inl hl)
      · exact .refl
  · exact .refl

theorem moves_handOff {e : RepairEntry} {s : State} (he : e ∈ s.rpq.entries)
    (hv : e.state = .verifying) : Moves kVerdict s (handOff e s) := by
  unfold handOff
  have h0 : Moves kVerdict s (removeEntry e.id s) := (moves_removeEntry _ _).mono (by decide)
  dsimp only
  split
  · rename_i i hi
    obtain ⟨hi, hh, hl⟩ := slotForRetire_some hi
    unfold retireLine
    rw [retireEntry_raise]
    have h1 : Moves kVerdict s (retireEntry e.line
        (setSlot i (.active e.line (freshData e.data) (removeEntry e.id s).mgu.timeBase)
          (removeEntry e.id s))) :=
      .handOff .refl (by decide) e i _ _ he hv hi hh hl
    exact (h1.trans ((moves_raise _ _ _).mono (by decide))).trans
      ((moves_slotGained _ _).mono (by decide))
  · exact h0.trans ((moves_raise _ _ _).mono (by decide))

theorem moves_verifyOutcome (id : Nat) (v : VerdictRecord) (s : State) :
    Moves kVerdict s (verifyOutcome id v s) := by
  unfold verifyOutcome
  split
  · exact .refl
  · rename_i e he
    obtain ⟨he, hid⟩ := findEntry_some he
    split
    · exact .refl
    · have hv : e.state = .verifying := by simp_all
      split
      · exact (moves_removeEntry _ _).mono (by decide)
      · split
        · rw [← hid]
          exact .notRetired .refl (by decide) e _ he (by simp [hv]) (fun x => by simp)
        · split
          · exact .refl
          · exact moves_handOff he hv

/-! ## Spare Retire -/

theorem moves_placeRetire {id : Nat} {a : LineAddr} {d : Line} {s : State}
    (hn : slotHolding a s = none) : Moves kVerdict s (placeRetire id a d s) := by
  unfold placeRetire
  split
  · obtain ⟨hi, hh, hl⟩ := slotForRetire_some ‹_›
    refine (moves_retireLine hi hh hn ?_).trans ((moves_answer _ _ _ _).mono (by decide))
    rcases hl with hl | hl
    · exact .inl hl
    · exact .inr (unnamed_of_notHeld hn hl)
  · exact (moves_answer _ _ _ _).mono (by decide)

theorem moves_retireAgain (w : RetireWork) (v : VerdictRecord) (s : State) :
    Moves kVerdict s (retireAgain w v s) := by
  unfold retireAgain
  have ha (x : Result) : Moves kVerdict s (answer w.request x [] s) :=
    (moves_answer _ _ _ _).mono (by decide)
  split
  · exact ha _
  · split
    · exact ha _
    · split
      · exact ha _
      · have hn : slotHolding w.line s = none := by simp_all
        split
        · exact moves_placeRetire hn
        · split
          · exact ha _
          · exact moves_placeRetire hn

theorem moves_retireOutcome (id : Nat) (v : VerdictRecord) (s : State) :
    Moves kVerdict s (retireOutcome id v s) := by
  unfold retireOutcome
  split
  · exact .refl
  · have h0 : Moves kVerdict s (endRetire id s) := (moves_endRetire _ _).mono (by decide)
    dsimp only
    split
    · exact h0.trans ((moves_answer _ _ _ _).mono (by decide))
    · split
      · exact h0.trans (moves_retireAgain _ _ _)
      · exact h0.trans ((moves_answer _ _ _ _).mono (by decide))

/-! ## Retries and confirmations -/

theorem moves_closeContext (id : Nat) (s : State) : Moves [.contexts] s (closeContext id s) :=
  .contexts .refl (by decide) _

theorem moves_openContext (w : RetryWork) (v : VerdictRecord) (s : State) :
    Moves kVerdict s (openContext w v s) :=
  .stamp (.contexts .refl (by decide) _) (by decide)

theorem moves_settleAnswer (w : RetryWork) (s : State) : Moves [.requests] s (settleAnswer w s) := by
  have h (id : Nat) : Moves [.requests] s (updateRequest id
      (fun r => if r.phase = .retrying then { r with phase := .answering } else r) s) := by
    refine .requests .refl (by decide) _ (keepsRequest_if fun q => ?_)
    split <;> simp
  unfold settleAnswer
  split
  · exact .refl
  · exact h _
  · exact h _

theorem moves_endWorkHalted (w : RetryWork) (s : State) : Moves kDone s (endWorkHalted w s) := by
  unfold endWorkHalted
  split
  · exact .refl
  · exact moves_completeDemand _ _ _ _
  · exact moves_completeDemand _ _ _ _

theorem moves_reportUe (x : RetryContext) (r : Option RecordName) (s : State) :
    Moves kCapture s (reportUe x r s) :=
  ((moves_raiseAt _ _ _ _ _).mono (by decide)).trans ((moves_countUe _ _).mono (by decide))

theorem moves_failWork (w : RetryWork) (d : Line) (s : State) : Moves kDone s (failWork w d s) := by
  unfold failWork
  split
  · exact .refl
  · exact moves_completeDemand _ _ _ _
  · exact moves_completeDemand _ _ _ _

theorem moves_confirm (x : RetryContext) (v : VerdictRecord) (s : State) :
    Moves kVerdict s (confirm x v s) := by
  unfold confirm
  have h0 : Moves kVerdict s (capture (confirmedCapture x v) (reportUe x) s) :=
    (moves_capture (fun _ _ => moves_reportUe _ _ _) s).mono (by decide)
  generalize capture (confirmedCapture x v) (reportUe x) s = u at h0
  dsimp only
  split
  · exact h0.trans ((moves_failWork _ _ _).mono (by decide))
  · exact (h0.trans (moves_requestPoison _ _ _ _)).trans ((moves_failWork _ _ _).mono (by decide))

theorem moves_retrySucceeds (w : RetryWork) (v : VerdictRecord) (s : State) :
    Moves kWork s (retrySucceeds w v s) := by
  unfold retrySucceeds
  split
  · exact .refl
  · exact (moves_completeDemand _ _ _ _).mono (by decide)
  · split
    · split
      · exact moves_applyWrite _ _ _ _ _
      · exact .refl
    · exact .refl

theorem moves_retryOutcome (x : RetryContext) (v : VerdictRecord) (s : State) :
    Moves kVerdict s (retryOutcome x v s) := by
  unfold retryOutcome
  split
  · exact (moves_endWorkHalted _ _).mono (by decide)
  · split
    · exact (moves_retrySucceeds _ _ _).mono (by decide)
    · exact moves_confirm _ _ _

/-! ## Consumers and requesters -/

theorem moves_reportVerdict (v : VerdictRecord) (s : State) : Moves kAlert s (reportVerdict v s) := by
  unfold reportVerdict
  split
  · exact .refl
  · have h := moves_raise .lineCorrected (.line v.line) s
    dsimp only
    split
    · exact h.trans (moves_raise _ _ _)
    · exact h

theorem moves_countVerdict (v : VerdictRecord) (s : State) :
    Moves [.counters] s (countVerdict v s) := by
  unfold countVerdict
  split
  · exact moves_countCorrected _ _
  · exact .refl

theorem moves_consume (v : VerdictRecord) (s : State) : Moves kVerdict s (consume v s) := by
  unfold consume
  refine .trans ?_ (moves_considerRepair _ _)
  refine .trans ?_ (moves_watchVerdict _ _)
  refine .trans ?_ ((moves_healthVerdict _ _).mono (by decide))
  exact ((moves_reportVerdict _ _).mono (by decide)).trans
    ((moves_countVerdict _ _).mono (by decide))

theorem moves_readOutcome (id : Nat) (v : VerdictRecord) (s : State) :
    Moves kVerdict s (readOutcome id v s) := by
  unfold readOutcome
  split
  · exact (moves_completeDemand _ _ _ _).mono (by decide)
  · exact (moves_completeDemand _ _ _ _).mono (by decide)
  · exact (moves_completePoisonedRead _ _ _).mono (by decide)
  · exact ((moves_setPhase _ (by simp) _).mono (by decide)).trans (moves_openContext _ _ _)

theorem moves_rmwOutcome (id : Nat) (m : ByteMask) (d : Line) (v : VerdictRecord) (s : State) :
    Moves kVerdict s (rmwOutcome id m d v s) := by
  unfold rmwOutcome
  split
  · exact (moves_applyWrite _ _ _ _ _).mono (by decide)
  · exact (moves_applyWrite _ _ _ _ _).mono (by decide)
  · exact (moves_refuseRmw _ _ _).mono (by decide)
  · exact ((moves_setPhase _ (by simp) _).mono (by decide)).trans (moves_openContext _ _ _)

theorem moves_demandOutcome (id : Nat) (v : VerdictRecord) (s : State) :
    Moves kVerdict s (demandOutcome id v s) := by
  unfold demandOutcome
  split
  · exact .refl
  · split
    · exact .refl
    · split
      · exact (moves_completeDemand _ _ _ _).mono (by decide)
      · split
        · exact moves_rmwOutcome _ _ _ _ _
        · exact moves_readOutcome _ _ _

theorem moves_visitOutcome (b : Bool) (v : VerdictRecord) (s : State) :
    Moves kVerdict s (visitOutcome b v s) := by
  unfold visitOutcome
  split
  · exact moves_openContext _ _ _
  · exact .refl

theorem moves_retryFinish (id : Nat) (v : VerdictRecord) (s : State) :
    Moves kVerdict s (retryFinish id v s) := by
  unfold retryFinish
  split
  · exact moves_consume _ _
  · refine .trans ?_ (moves_retryOutcome _ _ _)
    refine .trans ?_ (moves_consume _ _)
    exact ((moves_closeContext _ _).mono (by decide)).trans ((moves_settleAnswer _ _).mono (by decide))

theorem moves_deliver (op : PortOp) (v : VerdictRecord) (s : State) :
    Moves kVerdict s (deliver op v s) := by
  unfold deliver
  split
  · exact (moves_consume _ _).trans (moves_demandOutcome _ _ _)
  · exact moves_retryFinish _ _ _
  · exact (moves_consume _ _).trans (moves_retireOutcome _ _ _)
  · exact (moves_consume _ _).trans (moves_verifyOutcome _ _ _)
  · exact (moves_consume _ _).trans (moves_visitOutcome _ _ _)
  · exact .refl

theorem moves_endUndecoded (op : PortOp) (s : State) : Moves kHalt s (endUndecoded op s) := by
  unfold endUndecoded
  split
  · exact (moves_completeDemand _ _ _ _).mono (by decide)
  · split
    · exact ((moves_closeContext _ _).mono (by decide)).trans
        ((moves_endWorkHalted _ _).mono (by decide))
    · exact .refl
  · split
    · exact ((moves_endRetire _ _).mono (by decide)).trans ((moves_answer _ _ _ _).mono (by decide))
    · exact .refl
  · exact .refl

theorem moves_readFinish (g : Granted) (x : ReadSource) (raw : RawLine) (s : State) :
    Moves (.finish :: kVerdict) s (readFinish g x raw s) := by
  unfold readFinish
  have h0 : Moves (.finish :: kVerdict) s { s with drp := { s.drp with port := none } } :=
    .finish .refl (by decide)
  generalize ({ s with drp := { s.drp with port := none } } : State) = u at h0
  have h1 := moves_readRank (rankOf g.line) u
  dsimp only
  split
  · rename_i he
    rw [he] at h1
    exact (h0.trans (h1.mono (by decide))).trans ((moves_endUndecoded _ _).mono (by decide))
  · rename_i he
    rw [he] at h1
    exact (h0.trans (h1.mono (by decide))).trans ((moves_deliver _ _ _).mono (by decide))

end Sys2Proof.Machine
end

