-- ==== Sys2Proof/Laws/MovesCommands.lean ====
section
/-! SUPPORT. The elementary changes of every command, in one theorem: `exec_moves`. -/

namespace Sys2Proof.Machine

/-! ## The port -/

theorem moves_occupy {op : PortOp} {a : LineAddr} {c : Option Classification} {w : Option Burst}
    {s : State} (h : s.drp.port = none) : Moves [.grant] s (occupy op a c w s) :=
  .granted .refl (by decide) _ h

/-- What a grant changes. -/
def kGrant : List Kind := .grant :: .history :: .cod :: .repairs :: kPatrol

theorem moves_grantWrite {op : PortOp} {a : LineAddr} {d : Line} {b : Bool} {s : State}
    (h : s.drp.port = none) : Moves kGrant s (grantWrite op a d b s) := by
  unfold grantWrite
  have h1 := moves_formWrite a d b s
  have hp := h1.port (by decide) (by decide) (by decide)
  generalize formWrite a d b s = p at h1 hp
  have h2 : Moves kGrant s (dropPatrolRetries (fun b => b == a) p.2) :=
    (h1.mono (by decide)).trans ((moves_dropPatrolRetries _ _).mono (by decide))
  exact h2.trans ((moves_occupy (by
    rw [show (dropPatrolRetries (fun b => b == a) p.2).drp = p.2.drp from rfl, hp, h])).mono
      (by decide))

theorem moves_grantDemandWrite {id : Nat} {a : LineAddr} {s : State} (h : s.drp.port = none) :
    Moves kGrant s (grantDemandWrite id a s) := by
  unfold grantDemandWrite
  split
  · exact .refl
  · split
    · exact ((moves_setPhase _ (by simp) _).mono (by decide)).trans (moves_grantWrite h)
    · exact .refl

theorem moves_grantRepair {id : Nat} {a : LineAddr} {s : State} (h : s.drp.port = none) :
    Moves kGrant s (grantRepair id a s) := by
  unfold grantRepair
  split
  · exact .refl
  · refine .trans ?_ (moves_grantWrite (by exact h))
    refine .repairs .refl (by decide) _ (fun e => ?_) (fun e _ he => ?_)
    · dsimp only
      split <;> simp
    · dsimp only
      split
      · exact ⟨rfl, he.2⟩
      · exact he

theorem moves_grantRelease {i n : Nat} {a : LineAddr} {s : State} (h : s.drp.port = none) :
    Moves kGrant s (grantRelease i n a s) := by
  unfold grantRelease
  have h1 := moves_readSlot i s
  split
  · rename_i he
    rw [he] at h1
    exact (h1.mono (by decide)).trans
      (moves_grantWrite ((h1.port (by decide) (by decide) (by decide)).trans h))
  · rename_i he
    rw [he] at h1
    split
    · exact ((h1.mono (by decide)).trans
        (moves_grantWrite ((h1.port (by decide) (by decide) (by decide)).trans h))).trans
          ((moves_slotDataLost _ _ _ _).mono (by decide))
    · exact h1.mono (by decide)

theorem moves_grantFill {a : LineAddr} {s : State} (h : s.drp.port = none) :
    Moves kGrant s (grantFill a s) := by
  unfold grantFill
  have h1 : Moves kGrant s (grantWrite .fillWrite a zeroLine false s) := moves_grantWrite h
  generalize grantWrite .fillWrite a zeroLine false s = u at h1
  have h2 := Moves.rank h1 (by decide) (rankOf a)
    { rankRec u (rankOf a) with fillPosition := (rankRec u (rankOf a)).fillPosition + 1 } (.inl rfl)
  exact h2.drp (by decide) _ (some (rankOf a))

theorem moves_grantRefresh {a : LineAddr} {s : State} (h : s.drp.port = none) :
    Moves kGrant s (grantRefresh a s) := by
  unfold grantRefresh
  have h1 : Moves kGrant s
      { s with drp := { s.drp with refreshDue := s.drp.refreshDue.erase (rankOf a) } } :=
    .drp .refl (by decide) _ s.drp.lastFill
  have h2 := h1.trans ((moves_occupy (op := .refresh) (a := a) (c := none) (w := none)
    (by exact h)).mono (by decide))
  exact .rank h2 (by decide) _ _ (.inl rfl)

theorem moves_grantVisit {a : LineAddr} {c : Option Classification} {s : State}
    (h : s.drp.port = none) : Moves kGrant s (grantVisit a c s) := by
  unfold grantVisit
  have h1 : Moves kGrant s
      { s with psc := { s.psc with credit := s.psc.credit - 1, passVisited := true } } :=
    .psc .refl (by decide) _ rfl rfl rfl (.inl rfl) (.inl (Nat.sub_le _ _))
  have h2 := h1.trans ((moves_occupy (op := .visitRead false) (a := a) (c := c) (w := none)
    (by exact h)).mono (by decide))
  exact ((h2.trans ((moves_advanceCursor _ _).mono (by decide))).trans
    ((moves_evalSteal _).mono (by decide))).trans ((moves_patrolProceeds _).mono (by decide))

theorem moves_grantOp {w : Waiting} {s : State} (h : s.drp.port = none) :
    Moves kGrant s (grantOp w s) := by
  unfold grantOp
  split
  · exact ((moves_setPhase _ (by simp) _).mono (by decide)).trans
      ((moves_occupy (by exact h)).mono (by decide))
  · exact (moves_occupy h).mono (by decide)
  · exact (moves_occupy h).mono (by decide)
  · exact (moves_occupy h).mono (by decide)
  · exact moves_grantVisit h
  · exact moves_grantDemandWrite h
  · exact moves_grantRepair h
  · exact moves_grantRelease h
  · exact moves_grantFill h
  · exact moves_grantRefresh h

/-- The grant history keeps its value, or is at most 7 (R167, R168). -/
theorem historyAfter_le (halted : Bool) (op : PortOp) (n : Nat) :
    historyAfter halted op n = n ∨ historyAfter halted op n ≤ 7 := by
  unfold historyAfter
  split
  · exact .inl rfl
  · exact .inr (by split <;> omega)

theorem moves_arbiterGrants (s : State) : Moves kGrant s (arbiterGrants s) := by
  unfold arbiterGrants
  split
  · rename_i w hp _
    unfold grant
    have h1 : Moves kGrant s
        { s with drp := { s.drp with history := historyAfter s.fcu.halted.isSome w.op s.drp.history } } :=
      .history .refl (by decide) _ (historyAfter_le _ _ _)
    exact h1.trans (moves_grantOp hp)
  · exact .refl

/-- What the end of an operation changes. -/
def kFinish : List Kind := .finish :: .online :: kVerdict

theorem moves_dramReadFinishes (raw : RawLine) (s : State) :
    Moves kFinish s (dramReadFinishes raw s) := by
  unfold dramReadFinishes
  split
  · exact .refl
  · split
    · exact .refl
    · exact ((moves_readFinish _ _ _ _).mono (by decide)).trans ((moves_settle _).mono (by decide))

theorem moves_demandWriteDone (id : Nat) (a : LineAddr) (s : State) :
    Moves kDone s (demandWriteDone id a s) := by
  unfold demandWriteDone
  split
  · exact (moves_releaseHold _ _).mono (by decide)
  · split
    · exact moves_completeDemand _ _ _ _
    · exact .refl

theorem moves_repairWriteDone (id : Nat) (s : State) : Moves kWork s (repairWriteDone id s) := by
  unfold repairWriteDone
  have hr : Moves kWork s (removeEntry id s) := (moves_removeEntry _ _).mono (by decide)
  split
  · exact .refl
  · rename_i e he
    obtain ⟨he, hid⟩ := findEntry_some he
    split
    · exact hr.trans (moves_holderChanged _ _)
    · split
      · exact hr
      · split
        · rw [← hid]
          exact .notRetired .refl (by decide) e _ he (by simp_all) (fun x => by simp)
        · exact hr

theorem moves_releaseDone (i n : Nat) (s : State) :
    Moves (.slots :: kWork) s (releaseDone i n s) := by
  unfold releaseDone
  split
  · split
    · refine .trans ?_ ((moves_holderChanged _ _).mono (by decide))
      refine .trans ?_ ((moves_answer _ _ _ _).mono (by decide))
      exact .freed .refl (by decide) i
    · exact .refl
  · exact .refl

theorem moves_fillWriteDone (a : LineAddr) (s : State) : Moves kOnline s (fillWriteDone a s) := by
  unfold fillWriteDone
  dsimp only
  split
  · rename_i hc
    have hr := moves_raise .fillDone (.rank (rankOf a))
      (setRank (rankOf a) { rankRec s (rankOf a) with state := .online } s)
    rw [raise_eq]
    generalize raise _ _ _ = v at hr
    have h1 : Moves kOnline s { s with link := v.link } :=
      .link .refl (by decide) _ hr.por hr.straps hr.linkFits (hr.linkState (by decide) (by decide))
    exact h1.trans (moves_rankCameOnline (s := { s with link := v.link }) rfl (by
      show rankState s (rankOf a) ≠ _
      simp [hc.1]))
  · exact .refl

theorem moves_freePort (s : State) : Moves [.finish] s (freePort s) := .finish .refl (by decide)

theorem moves_writeDone {g : Granted} {s t : State} (h : writeDone g s = some t) :
    Moves kFinish s t := by
  unfold writeDone at h
  split at h
  · cases h; exact (moves_demandWriteDone _ _ _).mono (by decide)
  · cases h; exact (moves_repairWriteDone _ _).mono (by decide)
  · cases h; exact (moves_releaseDone _ _ _).mono (by decide)
  · cases h; exact (moves_fillWriteDone _ _).mono (by decide)
  · cases h

theorem moves_dramWriteFinishes (s : State) : Moves kFinish s (dramWriteFinishes s) := by
  unfold dramWriteFinishes
  split
  · exact .refl
  · split
    · exact (((moves_freePort s).mono (by decide)).trans (moves_writeDone ‹_›)).trans
        ((moves_settle _).mono (by decide))
    · exact .refl

theorem moves_refreshFallsDue (r : Nat) (s : State) :
    Moves [.ranks, .drp] s (refreshFallsDue r s) := by
  unfold refreshFallsDue
  split
  · have h1 : Moves [.ranks, .drp] s
        { s with drp := { s.drp with refreshDue := s.drp.refreshDue ++ [r] } } :=
      .drp .refl (by decide) _ s.drp.lastFill
    exact .rank h1 (by decide) _ _ (.inl rfl)
  · exact .refl

theorem moves_refreshFinishes (s : State) : Moves kFinish s (refreshFinishes s) := by
  unfold refreshFinishes
  split
  · split
    · exact ((moves_freePort s).mono (by decide)).trans ((moves_settle _).mono (by decide))
    · exact .refl
  · exact .refl

/-! ## Frames -/

/-- What a downstream frame changes. -/
def kFrame : List Kind := .arrive :: kStart

theorem moves_enqueue {tag : Byte} {b : RequestBody} {s : State} (ha : s.link.state = .active)
    (hr : bufferCount s < 32) (ht : tagInUse tag s = false) :
    Moves [.arrive] s (enqueue (newRequest tag b s) s) :=
  .arrive .refl (by decide) _ rfl rfl rfl ha hr ht

theorem moves_takeInReset {tag : Byte} {b : RequestBody} {a : LineAddr} {s : State} {f : Flavour} {w : Bool}
    (ha : s.link.state = .active) (hr : bufferCount s < 32) (ht : tagInUse tag s = false)
    (hw : w = false → holdKey s a ∉ s.dem.holdSet) :
    Moves kFrame s (takeInReset f (newRequest tag b s) a w s) := by
  have h0 : Moves kFrame s (enqueue (newRequest tag b s) s) :=
    (moves_enqueue ha hr ht).mono (by decide)
  unfold takeInReset
  split
  · exact h0
  · split
    · exact (Moves.arrive .refl (by decide) _ rfl rfl rfl ha hr ht)
    · exact h0.trans (.begins .refl (by decide) _ a (hw (by simp_all)))

theorem moves_arriveDemand {tag : Byte} {b : RequestBody} {a : LineAddr} {s : State}
    (ha : s.link.state = .active) (hr : bufferCount s < 32) (ht : tagInUse tag s = false) :
    Moves kFrame s (arriveDemand (newRequest tag b s) a s) := by
  unfold arriveDemand
  have h0 : Moves kFrame s (enqueue (newRequest tag b s) s) :=
    (moves_enqueue ha hr ht).mono (by decide)
  dsimp only
  split
  · exact (moves_takeInReset ha hr ht (by simp; intro h _; exact h)).trans
      ((moves_completeDemand _ _ _ _).mono (by decide))
  · split
    · exact h0
    · rename_i hw
      refine h0.trans ((moves_startDemand ?_).mono (by decide))
      intro hm
      exact hw (by simp [show holdKey s a ∈ s.dem.holdSet from hm])

theorem moves_admitFrame {bytes : List Byte} {s : State} (ha : s.link.state = .active) :
    Moves kFrame s (admitFrame bytes s) := by
  unfold admitFrame
  split
  · exact ((moves_countOverrun s).mono (by decide)).trans ((moves_raise _ _ _).mono (by decide))
  · split
    · exact (moves_raise _ _ _).mono (by decide)
    · have hr : bufferCount s < 32 := by simp_all [Config.bufferCapacity]
      have ht : tagInUse (frameTag bytes) s = false := by simp_all
      dsimp only
      split
      · exact moves_arriveDemand ha hr ht
      · exact (moves_enqueue ha hr ht).mono (by decide)

theorem moves_receive (bytes : List Byte) (s : State) : Moves kFrame s (receive bytes s) := by
  unfold receive
  split
  · exact .refl
  · exact .refl
  · unfold echo
    split
    · exact (moves_pushUp _ _).mono (by decide)
    · exact .refl
  · split
    · exact moves_admitFrame ‹_›
    · exact (moves_raise _ _ _).mono (by decide)

theorem moves_startNext (a : LineAddr) (s : State) : Moves kStart s (startNext a s) := by
  unfold startNext
  split
  · exact .refl
  · rename_i hn
    split
    · rename_i r b ho
      refine moves_startDemand ?_
      unfold oldestQueued at ho
      obtain ⟨q, _, hq⟩ := List.exists_of_findSome?_eq_some ho
      split at hq
      · split at hq
        · cases hq
          simp_all
        · cases hq
      · cases hq
    · exact .refl

theorem moves_frameSent (s : State) : Moves [.link] s (frameSent s) :=
  .link .refl (by decide) _ (by simp) (by simp) (fun h => beginSending_fits h) (by simp)

theorem moves_handOverNext (s : State) : Moves kDone s (handOverNext s) := by
  unfold handOverNext
  split
  · split
    · unfold handOver
      split
      · exact .completions .refl (by decide) _
      · refine .trans ?_ ((moves_dropRequest _ _).mono (by decide))
        split
        · exact .refl
        · exact (moves_pushUp _ _).mono (by decide)
    · exact .refl
  · exact .refl

/-! ## The link -/

/-- A link with an emptied slip history and the fill it had fits where it did. -/
theorem emptied_fit {k l : Link} (hs : l.slips = []) (hf : l.fill = k.fill) (h : k.Fits) : l.Fits := by
  simp [Link.Fits, hs, hf, h.2]

theorem moves_signalLost (s : State) : Moves [.train, .leave] s (signalLost s) := by
  unfold signalLost
  split
  · exact .refl
  · exact .leave .refl (by decide) _ rfl rfl (emptied_fit rfl rfl)
  · exact .train .refl (by decide) _ rfl rfl id (by assumption)

/-- A slip is recorded with none later than LNK's timer. -/
theorem recorded_fit {l : Link} (h : l.Fits) :
    ({ l with slips := (l.timer :: l.slips).take 2 } : Link).Fits := by
  refine ⟨⟨by simp, fun p hp => ?_⟩, h.2⟩
  have hp := List.mem_of_mem_take hp
  rcases List.mem_cons.mp hp with rfl | hp
  · exact le_refl _
  · exact h.1.2 p hp

theorem moves_timerRuns (n : Nat) (s : State) : Moves [.link] s (timerRuns n s) :=
  .link .refl (by decide) _ rfl rfl
    (fun h => ⟨⟨h.1.1, fun p hp => (h.1.2 p hp).trans (Nat.le_add_right _ _)⟩, h.2⟩) rfl

/-- A drift that is absorbed, or after which the buffer is re-centred, leaves the fill within its bound (R191). -/
theorem drifted_fit (symbols : Int) {s : State} (h : s.link.Fits) : (takeDrift symbols s).link.Fits := by
  refine ⟨h.1, ?_⟩
  show (if driftsOut symbols s then (0 : Int) else s.link.fill + symbols).natAbs ≤ _
  split
  · exact Nat.zero_le _
  · rename_i hd; exact Nat.le_of_not_lt (by simpa [driftsOut] using hd)

theorem moves_takeDrift (symbols : Int) (s : State) : Moves [.link] s (takeDrift symbols s) :=
  .link .refl (by decide) _ rfl rfl (drifted_fit symbols) rfl

theorem moves_slipActive (s : State) : Moves [.link, .train, .leave] s (slipActive s) := by
  unfold slipActive
  split
  · exact (Moves.leave .refl (by decide) _ rfl rfl (emptied_fit rfl rfl) :
      Moves [.link, .train, .leave] s (leaveActive (.training .laneLock) s)).trans
        ((moves_raise _ _ _).mono (by decide))
  · have h1 : Moves [.link, .train, .leave] s
        { s with link := { s.link with slips := (s.link.timer :: s.link.slips).take 2 } } :=
      .link .refl (by decide) _ rfl rfl recorded_fit rfl
    exact h1.trans ((moves_raise _ _ _).mono (by decide))

theorem moves_slip (drift : Drift) (s : State) : Moves [.link, .train, .leave] s (slip drift s) := by
  have hd : ∀ u, Moves [.link, .train, .leave] u (takeDrift drift.symbols u) := fun u =>
    (moves_takeDrift drift.symbols u).mono (by decide)
  unfold slip
  split
  · have h1 := ((moves_timerRuns drift.elapsed s).mono (by decide) : Moves [.link, .train, .leave] s _).trans (hd _)
    dsimp only
    split
    · exact h1.trans (moves_slipActive _)
    · exact h1
  · exact hd s
  · exact hd s
  · dsimp only
    split
    · exact .train (hd s) (by decide) _ rfl rfl id (by simp_all [takeDrift])
    · exact hd s
  · exact .refl

/-! ## Management requests -/

/-- What a management request changes, but for four of them. -/
def kManage : List Kind := .settings :: .slots :: .retire :: .stamp :: .online :: .time :: kWork

/-- What holds of every effect and of every refusal holds of taking the request. -/
theorem moves_serve {K : List Kind} {id kind : Nat} {args : List Byte}
    {f : Nat → List Byte → State → State} {s : State} (hK : ∀ k ∈ kDone, k ∈ K)
    (hf : ∀ id args u, Moves K u (f id args u)) : Moves K s (serve id kind args f s) := by
  unfold serve
  have h0 : Moves K s (setPhase id .serving s) :=
    ((moves_setPhase id (by simp) s).mono (by decide) : Moves kDone s _).mono hK
  split
  · exact h0.trans ((moves_answer _ _ _ _).mono hK)
  · exact h0.trans (hf _ _ _)

theorem moves_take {K : List Kind} {kind : Nat} {f : Nat → List Byte → State → State} {s : State}
    (hK : ∀ k ∈ kDone, k ∈ K) (hf : ∀ id args u, Moves K u (f id args u)) :
    Moves K s (take kind f s) := by
  unfold take
  split
  · split
    · exact moves_serve hK hf
    · exact .refl
  · exact .refl

theorem moves_takeReset {K : List Kind} {b : Bool} {f : Nat → List Byte → State → State} {s : State}
    (hK : ∀ k ∈ kDone, k ∈ K) (hf : ∀ id args u, Moves K u (f id args u)) :
    Moves K s (takeReset b f s) := by
  unfold takeReset
  split
  · split
    · exact moves_serve hK hf
    · exact .refl
  · exact .refl

theorem moves_takeUnknown (s : State) : Moves kDone s (takeUnknown s) := by
  unfold takeUnknown
  split
  · split
    · exact ((moves_setPhase _ (by simp) _).mono (by decide)).trans (moves_answer _ _ _ _)
    · exact .refl
  · exact .refl

/-- A refusal, or an answer that goes with no effect. -/
theorem moves_reply (id : Nat) (x : Result) (p : List Byte) (s : State) :
    Moves kManage s (answer id x p s) := (moves_answer _ _ _ _).mono (by decide)

theorem clamp_range {a b : Nat} (h : a ≤ b) (n : Nat) : a ≤ clamp a b n ∧ clamp a b n ≤ b := by
  unfold clamp
  split
  · omega
  · split <;> omega

theorem moves_regionLoad (id : Nat) (args : List Byte) (s : State) :
    Moves kManage s (regionLoad id args s) := by
  unfold regionLoad
  split
  · exact moves_reply _ _ _ _
  · dsimp only
    split
    · exact moves_reply _ _ _ _
    · refine .trans ?_ (moves_reply _ _ _ _)
      exact .region .refl (by decide) _ _ (.inr (clamp_range (by decide) _))

theorem moves_regionRead (id : Nat) (args : List Byte) (s : State) :
    Moves kManage s (regionRead id args s) := by
  unfold regionRead
  dsimp only
  split
  · exact moves_reply _ _ _ _
  · exact ((moves_checkRegion _ _).mono (by decide)).trans (moves_reply _ _ _ _)

theorem moves_regionDefault (id : Nat) (args : List Byte) (s : State) :
    Moves kManage s (regionDefault id args s) :=
  (Moves.default .refl (by decide) _ (clamp_range (by decide) _)).trans (moves_reply _ _ _ _)

theorem loadedProfile_inRange (args : List Byte) : (loadedProfile args).InRange :=
  ⟨(clamp_range (a := 1) (b := 65535) (by decide) _).1,
    (clamp_range (a := 1) (b := 65535) (by decide) _).2,
    (clamp_range (a := 0) (b := 4194303) (by decide) _).2,
    (clamp_range (a := 0) (b := 65535) (by decide) _).2⟩

theorem moves_phaseLoad (id : Nat) (args : List Byte) (s : State) :
    Moves kManage s (phaseLoad id args s) := by
  unfold phaseLoad
  dsimp only
  split
  · exact moves_reply _ _ _ _
  · refine .trans ?_ (moves_reply _ _ _ _)
    have h1 : Moves kManage s (setProfile (arg args 0) ⟨loadedProfile args, .sound⟩ s) :=
      .profile .refl (by decide) _ _ (.inr (loadedProfile_inRange args))
    split
    · exact (h1.trans ((moves_evalSteal _).mono (by decide))).trans
        ((moves_allowanceChanged _).mono (by decide))
    · exact h1

theorem moves_phaseRead (id : Nat) (args : List Byte) (s : State) :
    Moves kManage s (phaseRead id args s) := by
  unfold phaseRead
  dsimp only
  split
  · exact moves_reply _ _ _ _
  · refine .trans ?_ (moves_reply _ _ _ _)
    have h1 : Moves kManage s (readProfile (arg args 0) s).2 :=
      (moves_readProfile _ s).mono (by decide)
    split
    · exact h1.trans ((moves_patrolProceeds _).mono (by decide))
    · exact h1

theorem moves_phaseSet (id : Nat) (args : List Byte) (s : State) :
    Moves kManage s (phaseSet id args s) := by
  unfold phaseSet
  dsimp only
  split
  · exact moves_reply _ _ _ _
  · rename_i hn
    refine .trans ?_ (moves_reply _ _ _ _)
    refine .trans ?_ ((moves_allowanceChanged _).mono (by decide))
    refine .trans ?_ ((moves_evalSteal _).mono (by decide))
    have h1 : Moves kManage s (readProfile (arg args 0) s).2 :=
      (moves_readProfile _ s).mono (by decide)
    exact .psc h1 (by decide) _ rfl rfl rfl (.inr (Nat.not_lt.mp hn)) (.inl (Nat.le_refl _))

theorem moves_deviceRead (id : Nat) (args : List Byte) (s : State) :
    Moves kManage s (deviceRead id args s) := by
  unfold deviceRead
  dsimp only
  split
  · exact moves_reply _ _ _ _
  · exact ((moves_readDevices _ _).mono (by decide)).trans (moves_reply _ _ _ _)

theorem moves_deviceMark (id : Nat) (args : List Byte) (s : State) :
    Moves kManage s (deviceMark id args s) := by
  unfold deviceMark
  dsimp only
  split
  · exact moves_reply _ _ _ _
  · rename_i hc
    have h := moves_readRank (arg args 0) s
    split
    · rename_i he
      rw [he] at h
      exact (h.mono (by decide)).trans (moves_reply _ _ _ _)
    · rename_i u he
      rw [he] at h
      have h0 : Moves kManage s u := h.mono (by decide)
      split
      · exact h0.trans (moves_reply _ _ _ _)
      · rename_i hm
        refine .trans ?_ (moves_reply _ _ _ _)
        refine .trans ?_ ((moves_raise _ _ _).mono (by decide))
        refine h0.trans ((moves_putDevice ⟨fun _ => ?_, fun _ => .inr ⟨_, _, rfl, by omega,
          no_mark_of_readable (readRank_readable he) (by simpa using hm)⟩⟩).mono (by decide))
        simp [DeviceEntry.Fits, DeviceState.isMark]

theorem moves_deviceUnmark (id : Nat) (args : List Byte) (s : State) :
    Moves kManage s (deviceUnmark id args s) := by
  unfold deviceUnmark
  dsimp only
  split
  · exact moves_reply _ _ _ _
  · have h := moves_readRank (arg args 0) s
    split
    · rename_i he
      rw [he] at h
      exact (h.mono (by decide)).trans (moves_reply _ _ _ _)
    · rename_i u he
      rw [he] at h
      have h0 : Moves kManage s u := h.mono (by decide)
      split
      · exact h0.trans (moves_reply _ _ _ _)
      · rename_i hm
        have hm : (deviceEntry u (entryNumber (arg args 0) (arg args 1))).state = .marked := by
          simpa using hm
        refine .trans ?_ (moves_reply _ _ _ _)
        refine h0.trans ((moves_putDevice ⟨?_, fun _ => .inl (by simp [hm, DeviceState.isMark])⟩).mono
          (by decide))
        intro ⟨h1, h2, h3, h4, h5, _⟩
        have : (deviceEntry u (entryNumber (arg args 0) (arg args 1))).tally = 256 :=
          h2.mpr (by simp [hm, DeviceState.isMark])
        refine ⟨h1, ?_, ?_, ?_, h5, by simp⟩ <;> simp [this, DeviceState.isMark]

theorem moves_healthParams (id : Nat) (args : List Byte) (s : State) :
    Moves kManage s (healthParams id args s) := by
  have hq := clamp_range (a := 0) (b := 255) (by decide) (arg args 0)
  have hk := clamp_range (a := 1) (b := 65535) (by decide) (argument args 1 2)
  exact (Moves.params .refl (by decide) _ _ hq.2 hk).trans (moves_reply _ _ _ _)

theorem moves_alertMaskSet (id : Nat) (args : List Byte) (s : State) :
    Moves kManage s (alertMaskSet id args s) :=
  (Moves.mask .refl (by decide) _ (clamp_range (by decide) _).2).trans (moves_reply _ _ _ _)

theorem moves_counterClear (id : Nat) (args : List Byte) (s : State) :
    Moves kManage s (counterClear id args s) := by
  refine .trans ?_ (moves_reply _ _ _ _)
  refine .counters .refl (by decide) _ fun _ _ => ?_
  simp [Counters.Bounded, zeroCounters]

theorem moves_timeSet (id : Nat) (args : List Byte) (s : State) : Moves kManage s (timeSet id args s) :=
  (Moves.time .refl (by decide) _).trans (moves_reply _ _ _ _)

theorem moves_spareRead (id : Nat) (args : List Byte) (s : State) :
    Moves kManage s (spareRead id args s) := by
  unfold spareRead
  dsimp only
  split <;> exact moves_reply _ _ _ _

theorem moves_spareRetire (id : Nat) (args : List Byte) (s : State) :
    Moves kManage s (spareRetire id args s) := by
  unfold spareRetire
  dsimp only
  split
  · exact moves_reply _ _ _ _
  · split
    · exact moves_reply _ _ _ _
    · split
      · exact moves_reply _ _ _ _
      · have hn : slotHolding (addressOf (field args 0 4)) s = none := by simp_all
        split
        · exact .stamp (.retires .refl (by decide) _) (by decide)
        · split
          · exact moves_reply _ _ _ _
          · unfold placeRetire
            split
            · obtain ⟨hi, hh, hl⟩ := slotForRetire_some ‹_›
              refine .trans ?_ (moves_reply _ _ _ _)
              unfold retireLine
              rw [retireEntry_raise]
              refine .trans ?_ ((moves_slotGained _ _).mono (by decide))
              refine .trans ?_ ((moves_raise _ _ _).mono (by decide))
              refine .retire .refl (by decide) _ _ _ _ hi hh hn ?_
              rcases hl with hl | hl
              · exact .inl hl
              · exact .inr (unnamed_of_notHeld hn hl)
            · exact moves_reply _ _ _ _

theorem moves_spareRelease (id : Nat) (args : List Byte) (s : State) :
    Moves kManage s (spareRelease id args s) := by
  unfold spareRelease
  split
  · exact moves_reply _ _ _ _
  · unfold releaseSlot
    have hf : Moves kManage s (setSlot (arg args 0) .free s) := .freed .refl (by decide) _
    split
    · exact moves_reply _ _ _ _
    · exact hf.trans (moves_reply _ _ _ _)
    · rename_i he
      split
      · refine .stamp ?_ (by decide)
        exact .slotData .refl (by decide) _ _ (by rw [he]; rfl) (by rw [he]; rfl)
      · exact moves_reply _ _ _ _
    · exact (hf.trans ((moves_holderChanged _ _).mono (by decide))).trans (moves_reply _ _ _ _)
    · exact moves_reply _ _ _ _

theorem moves_spareParams (id : Nat) (args : List Byte) (s : State) :
    Moves kManage s (spareParams id args s) :=
  (Moves.threshold .refl (by decide) _ (clamp_range (by decide) _)).trans (moves_reply _ _ _ _)

theorem moves_patrolStart (id : Nat) (args : List Byte) (s : State) :
    Moves kManage s (patrolStart id args s) := by
  unfold patrolStart
  split
  · exact moves_reply _ _ _ _
  · refine .trans ?_ (moves_reply _ _ _ _)
    refine .trans ?_ ((moves_patrolProceeds _).mono (by decide))
    exact Moves.refl.pscSame (by decide) _ rfl rfl rfl rfl rfl

theorem moves_patrolStop (id : Nat) (args : List Byte) (s : State) :
    Moves kManage s (patrolStop id args s) :=
  ((moves_stopPatrol s).mono (by decide)).trans (moves_reply _ _ _ _)

/-- A cursor set to a line of an ONLINE rank within the depth. -/
theorem moves_setCursor {a : LineAddr} {s : State} (ho : rankState s (rankOf a) = .online)
    (hd : a.index.toNat < depth s) : Moves [.cursor] s (setCursor a s) :=
  .cursor .refl (by decide) _ rfl rfl rfl rfl fun _ => ⟨ho, hd⟩

theorem moves_cursorSet (id : Nat) (args : List Byte) (s : State) :
    Moves kManage s (cursorSet id args s) := by
  unfold cursorSet
  dsimp only
  split
  · exact moves_reply _ _ _ _
  · rename_i hc
    obtain ⟨ho, hd⟩ := not_or.mp hc
    refine .trans ?_ (moves_reply _ _ _ _)
    refine .trans ?_ ((moves_patrolProceeds _).mono (by decide))
    exact (moves_setCursor (by simpa using ho) (Nat.not_le.mp hd)).mono (by decide)

theorem moves_pacingSet (id : Nat) (args : List Byte) (s : State) :
    Moves kManage s (pacingSet id args s) := by
  unfold pacingSet
  refine .trans ?_ (moves_reply _ _ _ _)
  refine .trans ?_ ((moves_patrolProceeds _).mono (by decide))
  refine .trans ?_ ((moves_evalSteal _).mono (by decide))
  exact .pacing .refl (by decide) _ (clamp_range (by decide) _)

theorem moves_pacingReset (id : Nat) (args : List Byte) (s : State) :
    Moves kManage s (pacingReset id args s) := by
  unfold pacingReset
  refine .trans ?_ (moves_reply _ _ _ _)
  have h1 : Moves kManage s { s with psc := { s.psc with credit := 0, lagging := false } } :=
    .psc .refl (by decide) _ rfl rfl rfl (.inl rfl) (.inl (Nat.zero_le _))
  generalize ({ s with psc := { s.psc with credit := 0, lagging := false } } : State) = u at h1 ⊢
  unfold leaveSteal
  split
  · have h2 : Moves kManage s { u with psc := { u.psc with steal := false } } :=
      h1.pscSame (by decide) _ rfl rfl rfl rfl rfl
    exact h2.trans ((moves_raise _ _ _).mono (by decide))
  · exact h1

theorem moves_freeRankSlot (r : Nat) (s : State) (i : Nat) : Moves [.slots] s (freeRankSlot r s i) := by
  unfold freeRankSlot
  split
  · split
    · exact .freed .refl (by decide) i
    · exact .refl
  · exact .refl

theorem moves_rankFill (id : Nat) (args : List Byte) (s : State) :
    Moves kManage s (rankFill id args s) := by
  unfold rankFill
  dsimp only
  split
  · exact moves_reply _ _ _ _
  · split
    · exact moves_reply _ _ _ _
    · split
      · exact moves_reply _ _ _ _
      · rename_i ho
        have ho : rankState s (arg args 0) = .offline := by simpa using ho
        refine .trans ?_ (moves_reply _ _ _ _)
        have h1 : Moves [.slots] s ((List.range 32).foldl (freeRankSlot (arg args 0)) s) :=
          .foldl (moves_freeRankSlot _) _ _
        have h2 : ∀ (l : List Nat) (u : State),
            rankState (l.foldl (freeRankSlot (arg args 0)) u) (arg args 0) =
              rankState u (arg args 0) := by
          intro l
          induction l with
          | nil => intro u; rfl
          | cons i l ih =>
            intro u
            rw [List.foldl_cons, ih]
            unfold freeRankSlot
            split
            · split <;> rfl
            · rfl
        have h2 := (h2 (List.range 32) s).trans ho
        generalize (List.range 32).foldl (freeRankSlot (arg args 0)) s = u at h1 h2
        refine .rank (h1.mono (by decide)) (by decide) _ _ (.inr ?_)
        simp [h2, activeRank]

theorem moves_rankOnline (id : Nat) (args : List Byte) (s : State) :
    Moves kManage s (rankOnline id args s) := by
  unfold rankOnline
  dsimp only
  split
  · exact moves_reply _ _ _ _
  · split
    · exact moves_reply _ _ _ _
    · split
      · exact moves_reply _ _ _ _
      · rename_i h0 _ _
        refine .trans ?_ (moves_reply _ _ _ _)
        exact (moves_rankCameOnline rfl h0).mono (by decide)

theorem moves_rankOffline (id : Nat) (args : List Byte) (s : State) :
    Moves kManage s (rankOffline id args s) := by
  unfold rankOffline
  dsimp only
  split
  · exact moves_reply _ _ _ _
  · exact moves_reply _ _ _ _
  · refine .trans ?_ (moves_reply _ _ _ _)
    exact ((moves_stopFill _ _).mono (by decide)).trans ((moves_settle _).mono (by decide))
  · rename_i ho
    split
    · exact moves_reply _ _ _ _
    · split
      · exact moves_reply _ _ _ _
      · refine .trans ?_ (moves_reply _ _ _ _)
        exact ((moves_rankLeftOnline rfl ho).mono (by decide)).trans
          ((moves_settle _).mono (by decide))

theorem moves_checkRecord (x : RecordName) (s : State) :
    Moves [.link, .records] s (checkRecord x s) := by
  unfold checkRecord
  split
  · exact .refl
  · have h1 : Moves [.link, .records] s (setRecord x { recordAt s x with storage := .sound } s) :=
      .record .refl (by decide) x _ (.inr (.inl rfl))
    exact h1.trans ((moves_raise _ _ _).mono (by decide))
  · have h1 : Moves [.link, .records] s (setRecord x { recordAt s x with content := .lost } s) :=
      .record .refl (by decide) x _ (.inr (.inr rfl))
    exact h1.trans ((moves_raise _ _ _).mono (by decide))

theorem moves_captureRead (id : Nat) (args : List Byte) (s : State) :
    Moves kManage s (captureRead id args s) := by
  unfold captureRead
  split
  · exact moves_reply _ _ _ _
  · split
    · exact moves_reply _ _ _ _
    · exact ((moves_checkRecord _ _).mono (by decide)).trans (moves_reply _ _ _ _)

theorem moves_captureRelease (id : Nat) (args : List Byte) (s : State) :
    Moves (.release :: kManage) s (captureRelease id args s) := by
  unfold captureRelease
  split
  · exact (moves_reply _ _ _ _).mono (by decide)
  · exact (Moves.release .refl (by decide) _ _).trans ((moves_reply _ _ _ _).mono (by decide))

theorem moves_setInjection {i : Nat} {x : Option Injection} {s : State}
    (hx : ∀ e, x = some e → 1 ≤ e.count ∧ e.count ≤ 255) :
    Moves [.cod] s (setInjection i x s) := by
  refine .inject .refl (by decide) _ ?_
  intro j _ e he
  rw [getAt_setAt] at he
  split at he
  · exact .inl (hx e he)
  · exact .inr ⟨e, he, Nat.le_refl _, id⟩

theorem moves_injectSet (id : Nat) (args : List Byte) (s : State) :
    Moves kManage s (injectSet id args s) := by
  unfold injectSet
  split
  · exact moves_reply _ _ _ _
  · refine .trans ?_ (moves_reply _ _ _ _)
    refine (moves_setInjection ?_).mono (by decide)
    intro e he
    cases he
    exact clamp_range (by decide) _

theorem moves_injectClear (id : Nat) (args : List Byte) (s : State) :
    Moves kManage s (injectClear id args s) := by
  unfold injectClear
  split
  · exact moves_reply _ _ _ _
  · exact ((moves_setInjection (by simp)).mono (by decide)).trans (moves_reply _ _ _ _)

theorem moves_loopSet (id : Nat) (args : List Byte) (s : State) :
    Moves kManage s (loopSet id args s) := by
  unfold loopSet
  split
  · exact (Moves.loop .refl (by decide) _).trans (moves_reply _ _ _ _)
  · split
    · exact moves_reply _ _ _ _
    · split
      · exact moves_reply _ _ _ _
      · exact (Moves.loop .refl (by decide) _).trans (moves_reply _ _ _ _)
  · exact moves_reply _ _ _ _

/-! ## Core Reset and Echo Set -/

/-- The repair queue emptied. -/
theorem moves_clearEntries (s : State) :
    Moves [.repairs] s { s with rpq := { s.rpq with entries := [] } } := by
  have h : Moves [.repairs] s
      { s with rpq := { s.rpq with entries := s.rpq.entries.filter fun _ => false } } :=
    .unrepair .refl (by decide) _
  simpa using h

/-- What the end of a drain changes. -/
def kReset : List Kind := .history :: kManage

theorem moves_resetEffects (s : State) : Moves kReset s (resetEffects s) := by
  unfold resetEffects
  have h1 : Moves kReset s (resetPatrol { s with rpq := { s.rpq with entries := [] } }) :=
    ((moves_clearEntries s).mono (by decide)).trans ((moves_resetPatrol _).mono (by decide))
  generalize resetPatrol _ = u at h1
  have h2 : Moves kReset s
      { u with cod := { u.cod with injections := Vector.replicate 2 none } } := by
    refine .inject h1 (by decide) _ fun i hi e he => ?_
    rw [getAt_replicate _ _ _ hi] at he
    cases he
  exact .history (.loop h2 (by decide) none) (by decide) 7 (.inr (Nat.le_refl _))

theorem moves_beginReset (f : Flavour) (id : Nat) (s : State) :
    Moves [.requests] s (beginReset f id s) := .coreReset .refl (by decide) _

theorem moves_drainRequest (s : State) (r : Request) : Moves kDone s (drainRequest s r) := by
  unfold drainRequest
  split
  · exact moves_completeDemand _ _ _ _
  · exact .refl

theorem moves_readyEntries (s : State) : Moves [.repairs] s (readyEntries s) := by
  refine .repairs .refl (by decide) _ (fun e => ?_) (fun e _ he => ?_)
  · unfold RepairEntry.drained
    split <;> simp
  · unfold RepairEntry.drained
    rw [he.1]
    exact he

theorem moves_coreResetDrain (id : Nat) (args : List Byte) (s : State) :
    Moves kManage s (coreResetDrain id args s) := by
  unfold coreResetDrain
  split
  · exact moves_reply _ _ _ _
  · dsimp only
    refine .trans ?_ ((moves_settle _).mono (by decide))
    refine .trans ?_ ((moves_stopFills _).mono (by decide))
    refine .trans ?_ ((moves_readyEntries _).mono (by decide))
    refine .trans ?_ ((moves_stopPatrol _).mono (by decide))
    refine .trans ?_ (.foldl (fun u r => (moves_drainRequest u r).mono (by decide)) _ _)
    exact (moves_beginReset _ _ _).mono (by decide)

theorem moves_drainEnds (s : State) : Moves kReset s (drainEnds s) := by
  unfold drainEnds
  split
  · split
    · exact (moves_resetEffects s).trans ((moves_reply _ _ _ _).mono (by decide))
    · exact .refl
  · exact .refl

theorem moves_abortRequest (s : State) (r : Request) : Moves kDone s (abortRequest s r) := by
  unfold abortRequest
  split
  · exact moves_completeDemand _ _ _ _
  · exact .refl

theorem moves_abortRelease (s : State) (i : Nat) : Moves kManage s (abortRelease s i) := by
  unfold abortRelease
  split
  · rename_i he
    exact ((moves_setSlot (by rw [he]; rfl) (by rw [he]; rfl)).mono (by decide)).trans
      (moves_reply _ _ _ _)
  · rename_i he
    exact (moves_setSlot (by rw [he]; rfl) (by rw [he]; rfl)).mono (by decide)
  · exact .refl

theorem moves_abortRetire (s : State) (w : RetireWork) : Moves kManage s (abortRetire s w) :=
  ((moves_endRetire _ _).mono (by decide)).trans (moves_reply _ _ _ _)

/-- What a Core Reset (ABORT) changes. -/
def kAbort : List Kind := .unhalt :: .abort :: kReset

theorem moves_leaveHalted (s : State) : Moves kAbort s (leaveHalted s) := by
  unfold leaveHalted
  split
  · exact .health (.unhalt .refl (by decide)) (by decide)
  · exact .refl

theorem moves_coreResetAbort (id : Nat) (args : List Byte) (s : State) :
    Moves kAbort s (coreResetAbort id args s) := by
  unfold coreResetAbort
  dsimp only
  refine .trans ?_ ((moves_reply _ _ _ _).mono (by decide))
  refine .trans ?_ ((moves_settle _).mono (by decide))
  refine .trans ?_ (moves_leaveHalted _)
  refine .trans ?_ ((moves_resetEffects _).mono (by decide))
  refine .trans ?_ ((moves_stopFills _).mono (by decide))
  refine .trans ?_ ((moves_stopPatrol _).mono (by decide))
  refine .trans ?_ (.foldl (fun u w => (moves_abortRetire u w).mono (by decide)) _ _)
  refine .trans ?_ (.foldl (fun u i => (moves_abortRelease u i).mono (by decide)) _ _)
  refine .trans ?_ ((moves_clearEntries _).mono (by decide))
  refine .trans ?_ (.abort .refl (by decide))
  refine .trans ?_ ((moves_dropUngrantedRetries _).mono (by decide))
  refine .trans ?_ (.foldl (fun u r => (moves_abortRequest u r).mono (by decide)) _ _)
  exact (moves_beginReset _ _ _).mono (by decide)

theorem moves_echoSet (id : Nat) (args : List Byte) (s : State) :
    Moves (.leave :: kDone) s (echoSet id args s) := by
  unfold echoSet
  split
  · have h1 (r : Request) : Moves (.leave :: kDone) s
        (dropRequest r (pushUp (.manageDone r.tag .done []) s)) :=
      ((moves_pushUp _ _).mono (by decide)).trans ((moves_dropRequest _ _).mono (by decide))
    exact .leave (h1 _) (by decide) _ rfl rfl (emptied_fit rfl rfl)
  · exact .refl

/-! ## Timers and storage errors -/

theorem moves_lazyWaitEnds (a : LineAddr) (s : State) : Moves [.repairs] s (lazyWaitEnds a s) := by
  unfold lazyWaitEnds
  split
  · exact .refl
  · rename_i e he
    split
    · rename_i hw
      split
      · exact .refl
      · exact .notRetired .refl (by decide) e _ (entryOf_some he).1 (by simp [hw])
          (fun x => by simp)
    · exact .refl

theorem moves_errorArises (x : StoredItem) (v : Severity) (s : State) :
    Moves [.regions, .psc, .devices, .slotData, .records] s (errorArises x v s) := by
  unfold errorArises
  split
  · exact .region .refl (by decide) _ _ (.inl rfl)
  · exact .profile .refl (by decide) _ _ (.inl rfl)
  · exact .device .refl (by decide) _ _ (keepsDevice_same rfl)
  · split
    · exact .slotData .refl (by decide) _ _ (by simp) (by simp)
    · exact .refl
  · exact .record .refl (by decide) _ _ (.inr (.inl rfl))
  · exact .record .refl (by decide) _ _ (.inr (.inl rfl))

/-! ## Every command -/

/-- The kinds of elementary change that a command makes. -/
def kindsOf : Instr → List Kind
  | .porAsserted _ => []
  | .porReleased => []
  | .signalDetected => [.train]
  | .lossOfSignal => [.train, .leave]
  | .laneLock _ _ => [.train]
  | .deskewAndCentring => [.train]
  | .readyExchange => [.train]
  | .elasticSlip _ => [.link, .train, .leave]
  | .read _ => kFrame
  | .write _ => kFrame
  | .maskedWrite _ => kFrame
  | .manage _ => kFrame
  | .echoedFrame _ => kFrame
  | .upstreamFrameSent => [.link]
  | .completionHandover => kDone
  | .demandStart _ => kStart
  | .arbiterGrant => kGrant
  | .dramReadFinish _ => kFinish
  | .dramWriteFinish => kFinish
  | .refreshDue _ => [.ranks, .drp]
  | .refreshFinish => kFinish
  | .tick => kPatrol
  | .lazyWaitExpiry _ => [.repairs]
  | .timeBaseAdvance => [.time]
  | .drainEnd => kReset
  | .captureRelease => .release :: kManage
  | .coreResetAbort => kAbort
  | .echoSet => .leave :: kDone
  | .unknownRequest => kDone
  | .storageError _ _ => [.regions, .psc, .devices, .slotData, .records]
  | _ => kManage

/-- With POR asserted every command but the two of the pin leaves the part as it is; otherwise it makes its
effect. -/
theorem moves_unlessPor {K : List Kind} {s t u : State}
    (h : (Host.Outcome.next (if s.link.por then s else u) : Host.Outcome State Fault Refusal) = .next t)
    (m : Moves K s u) : Moves K s t := by
  cases h
  split
  · exact .refl
  · exact m

/-- What a command can do: every command but those of the POR pin makes elementary changes of its kinds
alone. -/
theorem exec_moves {c : Instr} {s t : State} (h : exec c s = .next t)
    (hp : ∀ pins, c ≠ .porAsserted pins) (hr : c ≠ .porReleased) : Moves (kindsOf c) s t := by
  have hd : ∀ k ∈ kDone, k ∈ kManage := by decide
  cases c with
  | porAsserted pins => exact absurd rfl (hp pins)
  | porReleased => exact absurd rfl hr
  | signalDetected =>
    refine moves_unlessPor h ?_
    unfold signalSeen
    split
    · exact .train .refl (by decide) _ rfl rfl id (by simp_all)
    · exact .refl
  | lossOfSignal => exact moves_unlessPor h (moves_signalLost s)
  | laneLock w ls =>
    refine moves_unlessPor h ?_
    show Moves [.train] s _
    unfold lanesLocked
    split
    · split
      · exact .train .refl (by decide) _ rfl rfl id (by simp_all)
      · exact .refl
    · exact .refl
  | deskewAndCentring =>
    refine moves_unlessPor h ?_
    unfold lanesAligned
    split
    · exact .train .refl (by decide) _ rfl rfl (fun hf => ⟨hf.1, Nat.zero_le _⟩) (by simp_all)
    · exact .refl
  | readyExchange =>
    refine moves_unlessPor h ?_
    unfold marksExchanged
    split
    · exact .train .refl (by decide) _ rfl rfl (emptied_fit rfl rfl) (by simp_all)
    · exact .refl
  | elasticSlip drift => exact moves_unlessPor h (moves_slip drift s)
  | read f => exact moves_unlessPor h (moves_receive f s)
  | write f => exact moves_unlessPor h (moves_receive f s)
  | maskedWrite f => exact moves_unlessPor h (moves_receive f s)
  | manage f => exact moves_unlessPor h (moves_receive f s)
  | echoedFrame f => exact moves_unlessPor h (moves_receive f s)
  | upstreamFrameSent => exact moves_unlessPor h (moves_frameSent s)
  | completionHandover => exact moves_unlessPor h (moves_handOverNext s)
  | demandStart a => exact moves_unlessPor h (moves_startNext a s)
  | arbiterGrant => exact moves_unlessPor h (moves_arbiterGrants s)
  | dramReadFinish beats => exact moves_unlessPor h (moves_dramReadFinishes _ s)
  | dramWriteFinish => exact moves_unlessPor h (moves_dramWriteFinishes s)
  | refreshDue r => exact moves_unlessPor h (moves_refreshFallsDue r.val s)
  | refreshFinish => exact moves_unlessPor h (moves_refreshFinishes s)
  | tick => exact moves_unlessPor h (moves_tickOccurs s)
  | lazyWaitExpiry a => exact moves_unlessPor h (moves_lazyWaitEnds a s)
  | timeBaseAdvance => exact moves_unlessPor h (.time .refl (by decide) _)
  | drainEnd => exact moves_unlessPor h (moves_drainEnds s)
  | regionLoad => exact moves_unlessPor h (moves_take hd moves_regionLoad)
  | regionRead => exact moves_unlessPor h (moves_take hd moves_regionRead)
  | regionDefault => exact moves_unlessPor h (moves_take hd moves_regionDefault)
  | phaseLoad => exact moves_unlessPor h (moves_take hd moves_phaseLoad)
  | phaseRead => exact moves_unlessPor h (moves_take hd moves_phaseRead)
  | phaseSet => exact moves_unlessPor h (moves_take hd moves_phaseSet)
  | deviceRead => exact moves_unlessPor h (moves_take hd moves_deviceRead)
  | deviceMark => exact moves_unlessPor h (moves_take hd moves_deviceMark)
  | deviceUnmark => exact moves_unlessPor h (moves_take hd moves_deviceUnmark)
  | healthParams => exact moves_unlessPor h (moves_take hd moves_healthParams)
  | spareRead => exact moves_unlessPor h (moves_take hd moves_spareRead)
  | spareRetire => exact moves_unlessPor h (moves_take hd moves_spareRetire)
  | spareRelease => exact moves_unlessPor h (moves_take hd moves_spareRelease)
  | spareParams => exact moves_unlessPor h (moves_take hd moves_spareParams)
  | patrolStart => exact moves_unlessPor h (moves_take hd moves_patrolStart)
  | patrolStop => exact moves_unlessPor h (moves_take hd moves_patrolStop)
  | cursorRead => exact moves_unlessPor h (moves_take hd fun _ _ _ => moves_reply _ _ _ _)
  | cursorSet => exact moves_unlessPor h (moves_take hd moves_cursorSet)
  | pacingSet => exact moves_unlessPor h (moves_take hd moves_pacingSet)
  | pacingReset => exact moves_unlessPor h (moves_take hd moves_pacingReset)
  | rankFill => exact moves_unlessPor h (moves_take hd moves_rankFill)
  | rankOnline => exact moves_unlessPor h (moves_take hd moves_rankOnline)
  | rankOffline => exact moves_unlessPor h (moves_take hd moves_rankOffline)
  | rankStatus => exact moves_unlessPor h (moves_take hd fun _ _ _ => moves_reply _ _ _ _)
  | captureRead => exact moves_unlessPor h (moves_take hd moves_captureRead)
  | captureRelease => exact moves_unlessPor h (moves_take (by decide) moves_captureRelease)
  | injectSet => exact moves_unlessPor h (moves_take hd moves_injectSet)
  | injectClear => exact moves_unlessPor h (moves_take hd moves_injectClear)
  | loopSet => exact moves_unlessPor h (moves_take hd moves_loopSet)
  | alertMaskSet => exact moves_unlessPor h (moves_take hd moves_alertMaskSet)
  | counterRead => exact moves_unlessPor h (moves_take hd fun _ _ _ => moves_reply _ _ _ _)
  | counterClear => exact moves_unlessPor h (moves_take hd moves_counterClear)
  | timeSet => exact moves_unlessPor h (moves_take hd moves_timeSet)
  | timeRead => exact moves_unlessPor h (moves_take hd fun _ _ _ => moves_reply _ _ _ _)
  | statusRead => exact moves_unlessPor h (moves_take hd fun _ _ _ => moves_reply _ _ _ _)
  | identityRead => exact moves_unlessPor h (moves_take hd fun _ _ _ => moves_reply _ _ _ _)
  | coreResetDrain => exact moves_unlessPor h (moves_takeReset hd moves_coreResetDrain)
  | coreResetAbort => exact moves_unlessPor h (moves_takeReset (by decide) moves_coreResetAbort)
  | echoSet => exact moves_unlessPor h (moves_take (by decide) moves_echoSet)
  | unknownRequest => exact moves_unlessPor h (moves_takeUnknown s)
  | storageError x v => exact moves_unlessPor h (moves_errorArises x v s)

/-- What the block does while it idles. -/
theorem elapse_moves (s : State) : Moves [.link, .psc, .repairs, .ranks] s (elapse s) := by
  unfold elapse
  split
  · exact .refl
  · have h0 : Moves [.link, .psc, .repairs, .ranks] s (timerRuns 1 s) :=
      (moves_timerRuns 1 s).mono (by decide)
    have h1 : Moves [.link, .psc, .repairs, .ranks] s
        { timerRuns 1 s with psc := { s.psc with tickCountdown := s.psc.tickCountdown - 1 } } :=
      h0.pscSame (by decide) _ rfl rfl rfl rfl rfl
    have h2 : Moves [.link, .psc, .repairs, .ranks] s
        { timerRuns 1 s with
          psc := { s.psc with tickCountdown := s.psc.tickCountdown - 1 }
          rpq := { s.rpq with entries :=
            if s.fcu.halted.isSome then s.rpq.entries else s.rpq.entries.map RepairEntry.elapsed } } := by
      split
      · exact h1
      · refine .repairs h1 (by decide) _ (fun e => ?_) (fun e _ he => ?_)
        · unfold RepairEntry.elapsed
          split <;> simp
        · unfold RepairEntry.elapsed
          rw [he.1]
          exact he
    refine .elapsed h2 (by decide) _ fun r => ?_
    simp [RankRec.elapsed]

end Sys2Proof.Machine
end

