-- ==== Sys2Proof/Laws/Requests.lean ====
section
/-! SUPPORT. Events, completions and answers: what each of them leaves alone, and what a management
request that is taken, and a demand frame that starts, come to. -/

namespace Sys2Proof.Machine

variable {f : List Byte} {a : LineAddr} {s : State}

/-! ## Events -/

@[simp] theorem raise_dem (k : EventKind) (x : Subject)
    (s : State) : (raise k x s).dem = s.dem := by rw [raise_eq]

@[simp] theorem raise_rgt (k : EventKind) (x : Subject)
    (s : State) : (raise k x s).rgt = s.rgt := by rw [raise_eq]

@[simp] theorem raise_cod (k : EventKind) (x : Subject)
    (s : State) : (raise k x s).cod = s.cod := by rw [raise_eq]

@[simp] theorem raise_rpq (k : EventKind) (x : Subject)
    (s : State) : (raise k x s).rpq = s.rpq := by rw [raise_eq]

@[simp] theorem raise_sls (k : EventKind) (x : Subject)
    (s : State) : (raise k x s).sls = s.sls := by rw [raise_eq]

@[simp] theorem raise_fcu (k : EventKind) (x : Subject)
    (s : State) : (raise k x s).fcu = s.fcu := by rw [raise_eq]

@[simp] theorem raise_psc (k : EventKind) (x : Subject)
    (s : State) : (raise k x s).psc = s.psc := by rw [raise_eq]

@[simp] theorem raise_drp (k : EventKind) (x : Subject)
    (s : State) : (raise k x s).drp = s.drp := by rw [raise_eq]

@[simp] theorem raise_mgu (k : EventKind) (x : Subject)
    (s : State) : (raise k x s).mgu = s.mgu := by rw [raise_eq]

@[simp] theorem raise_stamp (k : EventKind) (x : Subject)
    (s : State) : (raise k x s).stamp = s.stamp := by rw [raise_eq]

@[simp] theorem raise_pending (k : EventKind) (x : Subject)
    (s : State) : (raise k x s).pending = s.pending := by rw [raise_eq]

@[simp] theorem raise_link_por (k : EventKind) (x : Subject)
    (s : State) : (raise k x s).link.por = s.link.por := by
  unfold raise raiseAt; split <;> simp [pushUp, beginSending]; split <;> (try split) <;> rfl

@[simp] theorem raise_link_straps (k : EventKind) (x : Subject)
    (s : State) : (raise k x s).link.straps = s.link.straps := by
  unfold raise raiseAt; split <;> simp [pushUp, beginSending]; split <;> (try split) <;> rfl

@[simp] theorem raise_link_state (k : EventKind) (x : Subject)
    (s : State) : (raise k x s).link.state = s.link.state := by
  unfold raise raiseAt; split <;> simp [pushUp, beginSending]; split <;> (try split) <;> rfl

@[simp] theorem raise_link_fill (k : EventKind) (x : Subject)
    (s : State) : (raise k x s).link.fill = s.link.fill := by
  unfold raise raiseAt; split <;> simp [pushUp, beginSending]; split <;> (try split) <;> rfl

@[simp] theorem raise_link_slips (k : EventKind) (x : Subject)
    (s : State) : (raise k x s).link.slips = s.link.slips := by
  unfold raise raiseAt; split <;> simp [pushUp, beginSending]; split <;> (try split) <;> rfl

/-- A request's phase claims no room. -/
theorem roomClaims_setPhase (id : Nat) (p : Phase)
    (s : State) : roomClaims (setPhase id p s) = roomClaims s := by
  unfold roomClaims
  show s.dem.completions.countP _ = _
  congr 1; funext c
  show (List.map _ _).any _ = _
  rw [List.any_map]
  congr 1; funext q; simp only [Function.comp]; split <;> rfl

/-- An event and a change of phase commute. -/
theorem raiseAt_setPhase (k : EventKind) (n : Nat) (x : Subject) (rec : Option RecordName) (id : Nat)
    (p : Phase) (s : State) :
    raiseAt k n x rec (setPhase id p s) = setPhase id p (raiseAt k n x rec s) := by
  unfold raiseAt eventPasses alertTaken
  rw [roomClaims_setPhase]
  show (if ((s.link.state == .active && _) && _) = true then _ else _) = _
  split <;> rename_i h
  · rw [if_pos]; · rfl
    exact h
  · rw [if_neg]; exact h

/-- An event of T85 and a change of phase commute. -/
theorem raise_setPhase (k : EventKind) (x : Subject) (id : Nat) (p : Phase) (s : State) :
    raise k x (setPhase id p s) = setPhase id p (raise k x s) := raiseAt_setPhase ..

/-- An event and a change of PSC commute. -/
theorem raiseAt_withPsc (k : EventKind) (n : Nat) (x : Subject) (rec : Option RecordName) (s : State)
    (p : Psc) :
    raiseAt k n x rec { s with psc := p } = { raiseAt k n x rec s with psc := p } := by
  unfold raiseAt
  have : (eventPasses n { s with psc := p } && alertTaken n { s with psc := p }) =
      (eventPasses n s && alertTaken n s) := rfl
  rw [this]; split <;> rfl

/-- An event of T85 and a change of PSC commute. -/
theorem raise_withPsc (k : EventKind) (x : Subject) (s : State) (p : Psc) :
    raise k x { s with psc := p } = { raise k x s with psc := p } := raiseAt_withPsc ..

/-- An event leaves the capture records alone. -/
theorem recordAt_raise (k : EventKind) (y : Subject) (s : State)
    (x : RecordName) : recordAt (raise k y s) x = recordAt s x := by
  have : (raise k y s).fcu = s.fcu := by rw [raise_fcu]
  cases x <;> unfold recordAt <;> rw [this]

/-! ## The request buffer -/

/-- The count of the buffer is the number of its requests. -/
theorem bufferCount_eq (s : State) : bufferCount s = (bufferedRequests s).length := by
  simp [bufferCount, bufferedRequests, List.countP_eq_length_filter]

/-- A tag is in use where a request of the buffer has it. -/
theorem tagInUse_iff (t : Byte) (s : State) : tagInUse t s = true ↔ ∃ r ∈ bufferedRequests s,
    r.tag = t := by
  simp [tagInUse, bufferedRequests]; constructor
  · rintro ⟨r, h, rfl, h2⟩; exact ⟨r, ⟨h, h2⟩, rfl⟩
  · rintro ⟨r, ⟨h, h2⟩, rfl⟩; exact ⟨r, h, rfl, h2⟩

/-- A change of the request named `n` leaves earlier ones alone. -/
theorem map_earlier {l : List Request} {n : Nat} (f : Request → Request) (h : ∀ q ∈ l, q.id < n) :
    l.map (fun q => if q.id = n then f q else q) = l := by
  conv_rhs => rw [← List.map_id l]
  apply List.map_congr_left
  intro q hq
  have := h q hq
  rw [if_neg (by omega)]; rfl

/-- Dropping the request named `n` leaves earlier ones alone. -/
theorem filter_earlier {l : List Request} {n : Nat} (h : ∀ q ∈ l, q.id < n) :
    l.filter (fun q => q.id != n) = l := by
  rw [List.filter_eq_self]
  intro q hq
  have := h q hq
  simp; omega

/-- The newest request is found by its name. -/
theorem find_newest {l : List Request} {n : Nat} (r : Request) (hr : r.id = n) (h : ∀ q ∈ l, q.id < n) :
    (l ++ [r]).find? (fun q => q.id == n) = some r := by
  rw [List.find?_append]
  have : l.find? (fun q => q.id == n) = none := by
    rw [List.find?_eq_none]; intro q hq; have := h q hq; simp; omega
  simp [this, hr]

/-- With distinct names a request is found by its own. -/
theorem find_of_nodup {l : List Request} (hn : (l.map Request.id).Nodup) {r} (hr : r ∈ l) :
    l.find? (fun q => q.id == r.id) = some r := by
  induction l with
  | nil => simp at hr
  | cons x l ih =>
    simp only [List.map_cons, List.nodup_cons] at hn
    rcases List.mem_cons.mp hr with rfl | hr
    · simp
    · have : x.id ≠ r.id := fun h => hn.1 (h ▸ List.mem_map_of_mem hr)
      rw [List.find?_cons_of_neg (by simp [this])]
      exact ih hn.2 hr

/-- Dropping another request leaves this one findable. -/
theorem find_filter_ne (l : List Request) (k id : Nat)
    (h : k ≠ id) : (l.filter fun q => q.id != id).find? (fun q => q.id == k) =
    l.find? fun q => q.id == k := by
  rw [List.find?_filter]
  congr 1; funext q
  by_cases hq : q.id = k
  · simp [hq, h]
  · simp [hq]

/-- A request is found, in its new phase. -/
theorem findRequest_setPhase {id : Nat} {s : State} {r : Request} (p : Phase)
    (h : findRequest id s = some r) :
    findRequest id (setPhase id p s) = some { r with phase := p } := by
  have hid : r.id = id := by have := List.find?_some h; simpa using this
  unfold findRequest at h ⊢
  show (s.dem.requests.map _).find? _ = _
  rw [List.find?_map]
  have : ((fun q : Request => q.id == id) ∘ fun q => if q.id = id then { q with phase := p } else q) =
      fun q => q.id == id := by
    funext q; simp only [Function.comp]; split <;> rfl
  rw [this, h]; simp [hid]

/-- A changed request dropped is a request dropped. -/
theorem filter_map_id (l : List Request) (id : Nat) (f : Request → Request) (hf : ∀ q, (f q).id = q.id) :
    (l.map fun q => if q.id = id then f q else q).filter (fun q => q.id != id) =
        l.filter fun q => q.id != id := by
  induction l with
  | nil => rfl
  | cons x l ih =>
    simp only [List.map_cons, List.filter_cons]
    by_cases h : x.id = id
    · simp only [h, if_true, hf]; simp only [bne_self_eq_false]
      simpa using ih
    · simp only [h, if_false]; rw [ih]

/-! ## Completions -/

/-- Whether the port holds a line is DRP's alone. -/
theorem portHolds_congr {s t : State} (h : t.drp = s.drp)
    (k : HoldKey) : portHolds k t = portHolds k s := by
  unfold portHolds; rw [h]

/-- A request leaves: the buffer, the hold set, the pending completions and the Core Reset, in full. -/
theorem dropRequest_eq (r : Request) (s : State) : dropRequest r s = { s with
    dem := { s.dem with
      requests := s.dem.requests.filter fun q => q.id != r.id
      holdSet := match r.hold with
        | some key => if portHolds key s then s.dem.holdSet else s.dem.holdSet.erase key
        | none => s.dem.holdSet
      completions := s.dem.completions.filter fun d => d.request != r.id }
    mgu := { s.mgu with coreReset := s.mgu.coreReset.filter fun x => x.request != r.id } } := by
  have hm : ∀ t : State, endCoreReset r.id t = { t with mgu := { t.mgu with
      coreReset := t.mgu.coreReset.filter fun x => x.request != r.id } } := by
    intro t
    unfold endCoreReset
    cases hcr : t.mgu.coreReset with
    | none => simp only [Option.filter]; rw [← hcr]
    | some x =>
      by_cases hx : x.request = r.id <;> simp [Option.filter, hx]
      rw [← hcr]
  unfold dropRequest
  rw [hm]
  cases hh : r.hold with
  | none => rfl
  | some k =>
    simp only [releaseHold?, releaseHold]
    by_cases hk : portHolds k s = true
    · have := (portHolds_congr (t := { s with dem := { s.dem with
        requests := s.dem.requests.filter fun q => q.id != r.id
        completions := s.dem.completions.filter fun d => d.request != r.id } }) rfl k).trans hk
      rw [if_pos this, if_pos hk]
    · have := (portHolds_congr (t := { s with dem := { s.dem with
        requests := s.dem.requests.filter fun q => q.id != r.id
        completions := s.dem.completions.filter fun d => d.request != r.id } }) (s := s) rfl k)
      rw [if_neg (by rw [this]; exact hk), if_neg hk]

/-- The requests that stay. -/
theorem dropRequest_requests (r : Request) (s : State) :
    (dropRequest r s).dem.requests = s.dem.requests.filter fun q => q.id != r.id := by
  unfold dropRequest endCoreReset releaseHold? releaseHold
  repeat' split
  all_goals rfl

/-- LNK does not see a request leave. -/
theorem dropRequest_link (r : Request) (s : State) : (dropRequest r s).link = s.link := by
  unfold dropRequest endCoreReset releaseHold? releaseHold
  repeat' split
  all_goals rfl

/-- The Core Reset of another request stays in progress. -/
theorem dropRequest_mgu (r : Request) (s : State) (h : ∀ c, s.mgu.coreReset = some c →
    c.request ≠ r.id) : (dropRequest r s).mgu = s.mgu := by
  unfold dropRequest endCoreReset
  have hm : (releaseHold? r.hold { s with dem := { s.dem with
        requests := s.dem.requests.filter fun q => q.id != r.id
        completions := s.dem.completions.filter fun c => c.request != r.id } }).mgu = s.mgu := by
    unfold releaseHold? releaseHold; repeat' split
    all_goals rfl
  rw [hm]
  split
  · rename_i c hc
    rw [if_neg (h c hc)]; exact hm
  · exact hm

/-- A frame in the upstream queue changes no link state. -/
theorem pushUp_linkState (f : UpFrame) (s : State) : (pushUp f s).link.state = s.link.state := by
  unfold pushUp beginSending
  simp only
  split
  · split <;> rfl
  · rfl

/-- After a completion each request is as before and another, or completing. -/
theorem complete_requests (id : Nat) (f : UpFrame) (s : State)
    (hn : (s.dem.requests.map Request.id).Nodup) :
    ∀ q ∈ (complete id f s).dem.requests, (q ∈ s.dem.requests ∧ q.id ≠ id) ∨ q.phase = .completing := by
  intro q hq
  unfold complete at hq
  split at hq
  · rename_i h
    refine .inl ⟨hq, fun hi => ?_⟩
    unfold findRequest at h
    rw [List.find?_eq_none] at h
    exact h q hq (by simp [hi])
  · rename_i r h
    obtain ⟨hm, hid⟩ := findRequest_some h
    have hdrop : ∀ u : State, u.dem.requests = s.dem.requests → q ∈ (dropRequest r u).dem.requests →
        (q ∈ s.dem.requests ∧ q.id ≠ id) := by
      intro u hu hq
      rw [dropRequest_requests, hu] at hq
      obtain ⟨a, b⟩ := List.mem_filter.1 hq
      exact ⟨a, by rw [← hid]; simpa using b⟩
    split at hq
    · rename_i hp
      by_cases hi : q.id = id
      · right
        have h1 := find_of_nodup hn hq
        unfold findRequest at h
        rw [hi] at h1; rw [h1] at h; cases h; exact hp
      · exact .inl ⟨hq, hi⟩
    · split at hq
      · exact .inl (hdrop _ rfl hq)
      · split at hq
        · exact .inl (hdrop (pushUp f s) rfl hq)
        · obtain ⟨x, hx, rfl⟩ := List.mem_map.1 hq
          by_cases hi : x.id = id
          · right; simp [hi]
          · left; simp only [hi, if_false]; exact ⟨hx, hi⟩

/-- The same for a demand request. -/
theorem completeDemand_requests (id st d) (s : State) (hn : (s.dem.requests.map Request.id).Nodup) :
    ∀ q ∈ (completeDemand id st d s).dem.requests, (q ∈ s.dem.requests ∧
        q.id ≠ id) ∨ q.phase = .completing := by
  unfold completeDemand
  split
  · rename_i h
    intro q hq
    refine .inl ⟨hq, fun hi => ?_⟩
    unfold findRequest at h
    rw [List.find?_eq_none] at h
    exact h q hq (by simp [hi])
  · exact complete_requests _ _ _ hn

/-- The same for an answer. -/
theorem answer_requests (id x p) (s : State) (hn : (s.dem.requests.map Request.id).Nodup) :
    ∀ q ∈ (answer id x p s).dem.requests, (q ∈ s.dem.requests ∧ q.id ≠ id) ∨ q.phase = .completing := by
  unfold answer
  split
  · rename_i h
    intro q hq
    refine .inl ⟨hq, fun hi => ?_⟩
    unfold findRequest at h
    rw [List.find?_eq_none] at h
    exact h q hq (by simp [hi])
  · exact complete_requests _ _ _ hn

/-- A completion leaves every other request as it is. -/
theorem complete_find (id f) (s : State) (k : Nat)
    (h : k ≠ id) : findRequest k (complete id f s) = findRequest k s := by
  unfold complete
  split
  · rfl
  · rename_i r hr
    have hid := (findRequest_some hr).2
    have hdr : ∀ u : State, u.dem.requests = s.dem.requests →
        findRequest k (dropRequest r u) = findRequest k s := by
      intro u hu
      unfold findRequest
      rw [dropRequest_requests, hu, hid, find_filter_ne _ _ _ h]
    split
    · rfl
    · split
      · exact hdr s rfl
      · split
        · exact hdr (pushUp f s) rfl
        · unfold findRequest
          show (List.map _ s.dem.requests).find? _ = _
          rw [List.find?_map]
          have : ((fun q : Request => q.id == k) ∘ fun q => if q.id =
              id then { q with phase := Phase.completing } else q) = fun q => q.id == k := by
            funext q; simp only [Function.comp]; split <;> rfl
          rw [this]
          cases hx : s.dem.requests.find? (fun q => q.id == k) with
          | none => rfl
          | some q =>
            have : q.id = k := by have := List.find?_some hx; simpa using this
            simp only [Option.map_some]
            rw [if_neg (by rw [this]; exact h)]

/-- The same for a demand request. -/
theorem completeDemand_find (id st d) (s : State) (k : Nat)
    (h : k ≠ id) : findRequest k (completeDemand id st d s) = findRequest k s := by
  unfold completeDemand; split
  · rfl
  · exact complete_find _ _ _ _ h

/-- The same for an answer. -/
theorem answer_find (id x p) (s : State) (k : Nat)
    (h : k ≠ id) : findRequest k (answer id x p s) = findRequest k s := by
  unfold answer; split
  · rfl
  · exact complete_find _ _ _ _ h

/-- A completion changes no link state. -/
theorem complete_linkState (id f) (s : State) : (complete id f s).link.state = s.link.state := by
  unfold complete
  split
  · rfl
  · split
    · rfl
    · split
      · rw [dropRequest_link]
      · split
        · rw [dropRequest_link, pushUp_linkState]
        · rfl

/-- The same for a demand request. -/
theorem completeDemand_linkState (id st d) (s : State) :
    (completeDemand id st d s).link.state = s.link.state := by
  unfold completeDemand; split
  · rfl
  · exact complete_linkState _ _ _

/-- The same for an answer. -/
theorem answer_linkState (id x p) (s : State) : (answer id x p s).link.state = s.link.state := by
  unfold answer; split
  · rfl
  · exact complete_linkState _ _ _

/-- A completion leaves the Core Reset of another request in progress. -/
theorem complete_mgu (id : Nat) (f : UpFrame) (s : State) (h : ∀ c, s.mgu.coreReset = some c →
    c.request ≠ id) : (complete id f s).mgu = s.mgu := by
  unfold complete
  split
  · rfl
  · rename_i r hr
    have hid := (findRequest_some hr).2
    split
    · rfl
    · split
      · exact dropRequest_mgu _ _ (by rw [hid]; exact h)
      · split
        · exact (dropRequest_mgu _ _ (by rw [hid]; exact h)).trans rfl
        · rfl

/-- The same for a demand request. -/
theorem completeDemand_mgu (id st d) (s : State) (h : ∀ c, s.mgu.coreReset = some c →
    c.request ≠ id) : (completeDemand id st d s).mgu = s.mgu := by
  unfold completeDemand; split
  · rfl
  · exact complete_mgu _ _ _ h

/-- The completion of a request that holds its line, in full. -/
theorem complete_held {s : State} {id : Nat} {r : Request} {a : LineAddr} (x : UpFrame)
    (hf : findRequest id s = some r) (hp : r.phase ≠ .completing)
    (ho : r.orphan = false) (ha : s.link.state = .active) (hh : r.hold = some (.line a))
        (hc : s.mgu.coreReset = none)
    (h0 : s.dem.completions = []) (h8 : s.link.upstream.length < 8) (hport : s.drp.port = none) :
    complete id x s = { s with
        link := beginSending { s.link with upstream := s.link.upstream ++ [x] }
        dem := { s.dem with
          requests := s.dem.requests.filter fun q => q.id != id
          holdSet := s.dem.holdSet.erase (.line a) } } := by
  have hid : r.id = id := by have := List.find?_some hf; simpa using this
  unfold complete completionTaken
  rw [hf]
  simp only [hp, if_false, ho, ha, h0, Config.upstreamBound, h8]
  simp only [List.isEmpty_nil, decide_true, Bool.and_self, if_true, dropRequest_eq, hid, hh]
  simp [portHolds, pushUp, hport, h0, hc]
  constructor
  · rw [← ha]
  · rw [← hc]

/-- The completion of a request that holds none, in full. -/
theorem complete_unheld {s : State} {id : Nat} {r : Request} (x : UpFrame)
    (hf : findRequest id s = some r) (hp : r.phase ≠ .completing)
    (ho : r.orphan = false) (ha : s.link.state = .active) (hh : r.hold = none)
        (hc : s.mgu.coreReset = none) :
    complete id x s = handedOn r x s := by
  have hid : r.id = id := by have := List.find?_some hf; simpa using this
  unfold complete completionTaken handedOn
  rw [hf]
  simp only [hp, if_false, ho, ha]
  by_cases h : s.dem.completions = [] ∧ s.link.upstream.length < 8
  · rw [if_pos h]
    simp only [h.1, Config.upstreamBound, h.2, dropRequest_eq, hid, hh]
    simp [pushUp, hc, h.1]
    constructor
    · rw [← ha]
    · rw [← hc]
  · rw [if_neg h]
    have : (s.dem.completions.isEmpty && decide (s.link.upstream.length < Config.upstreamBound)) =
        false := by
      rw [Bool.eq_false_iff]; intro hx; apply h
      simp [Config.upstreamBound] at hx; exact ⟨hx.1, of_decide_eq_true hx.2⟩
    rw [this]
    simp [setPhase, updateRequest, hid]

/-! ## What answers can change -/

/-- `t` comes from `s` by changes of LNK, DEM and the Core Reset in progress alone. -/
def Answers (s t : State) : Prop :=
  ∃ l d c, t = { s with link := l, dem := d, mgu := { s.mgu with coreReset := c } }

/-- Nothing is such a change. -/
theorem Answers.refl (s : State) : Answers s s := ⟨s.link, s.dem, s.mgu.coreReset, rfl⟩

/-- Such changes follow one another. -/
theorem Answers.trans {s t u : State} (h : Answers s t) (g : Answers t u) : Answers s u := by
  obtain ⟨l, d, c, rfl⟩ := h
  obtain ⟨l', d', c', rfl⟩ := g
  exact ⟨l', d', c', rfl⟩

/-- Such a change, by what it writes. -/
theorem Answers.of {s t : State} (l : Link) (d : Dem) (c : Option CoreReset)
    (h : t = { s with link := l, dem := d, mgu := { s.mgu with coreReset := c } }) : Answers s t :=
  ⟨l, d, c, h⟩

/-- A request that leaves. -/
theorem answers_dropRequest (r : Request) (s : State) : Answers s (dropRequest r s) := by
  unfold dropRequest endCoreReset releaseHold? releaseHold
  repeat' split
  all_goals exact ⟨_, _, _, rfl⟩

/-- A frame up. -/
theorem answers_pushUp (f : UpFrame) (s : State) : Answers s (pushUp f s) := .of _ s.dem s.mgu.coreReset rfl

/-- An event. -/
theorem answers_raise (k x) (s : State) : Answers s (raise k x s) := by
  rw [raise_eq]; exact .of _ s.dem s.mgu.coreReset rfl

/-- A completion. -/
theorem answers_complete (id : Nat) (f : UpFrame) (s : State) : Answers s (complete id f s) := by
  unfold complete
  split
  · exact .refl _
  · split
    · exact .refl _
    · split
      · exact answers_dropRequest _ _
      · split
        · exact (answers_pushUp f s).trans (answers_dropRequest _ _)
        · exact .of s.link _ s.mgu.coreReset rfl

/-- A demand request's completion. -/
theorem answers_completeDemand (id st d) (s : State) : Answers s (completeDemand id st d s) := by
  unfold completeDemand; split
  · exact .refl _
  · exact answers_complete _ _ _

/-- An answer. -/
theorem answers_answer (id x p) (s : State) : Answers s (answer id x p s) := by
  unfold answer; split
  · exact .refl _
  · exact answers_complete _ _ _

/-- A run of such changes. -/
theorem answers_foldl {α : Type} {f : State → α → State} (h : ∀ u x, Answers u (f u x)) (l : List α)
    (s : State) : Answers s (l.foldl f s) := by
  induction l generalizing s with
  | nil => exact .refl _
  | cons x l ih => exact (h s x).trans (ih _)

/-! ## Taking a management request -/

/-- The answer to a request that is being served, in full. -/
theorem answer_serving {u : State} {r : Request} (res : Result) (p : List Byte)
    (ha : u.link.state = .active)
    (hf : findRequest r.id u = some r) (ho : r.orphan = false) (hh : r.hold = none)
    (hc : ∀ c, u.mgu.coreReset = some c → c.request ≠ r.id) :
    answer r.id res p (setPhase r.id .serving u) = answered r res (if res = .done then p else []) u := by
  unfold answer answered
  have hf' := findRequest_setPhase .serving hf
  rw [hf']
  simp only
  generalize UpFrame.manageDone r.tag res (if res = .done then p else []) = x
  unfold complete
  rw [hf']
  simp only [ho]
  have e1 : (setPhase r.id .serving u).link = u.link := rfl
  have e2 : (setPhase r.id .serving u).dem.completions = u.dem.completions := rfl
  have e3 : completionTaken (setPhase r.id .serving u) = completionTaken u := rfl
  rw [e1, ha, e3]
  unfold handedOn completionTaken
  have hcr : u.mgu.coreReset.filter (fun x => x.request != r.id) = u.mgu.coreReset := by
    cases hx : u.mgu.coreReset with
    | none => rfl
    | some c => simp [Option.filter, hc c hx]
  by_cases h : u.dem.completions = [] ∧ u.link.upstream.length < 8
  · rw [if_pos h]
    simp only [h.1, Config.upstreamBound, h.2, dropRequest_eq, hh]
    simp [pushUp, setPhase, updateRequest, h.1, hcr]
    exact filter_map_id u.dem.requests r.id (fun q => { q with phase := .serving }) (fun _ => rfl)
  · rw [if_neg h]
    have : (u.dem.completions.isEmpty && decide (u.link.upstream.length < Config.upstreamBound)) =
        false := by
      rw [Bool.eq_false_iff]; intro hx; apply h
      simp [Config.upstreamBound] at hx; exact ⟨hx.1, of_decide_eq_true hx.2⟩
    rw [this]
    simp [setPhase, updateRequest]
    intro a ha; by_cases hi : a.id = r.id <;> simp [hi]

/-- The answer to a request that was served before this command, in full. -/
theorem answer_served {u : State} {r : Request} (res : Result) (p : List Byte)
    (ha : u.link.state = .active) (hf : findRequest r.id u = some r) (hs : r.phase = .serving)
    (ho : r.orphan = false) (hh : r.hold = none) :
    answer r.id res p u = answered r res (if res = .done then p else [])
      { u with mgu := { u.mgu with coreReset :=
          (if u.dem.completions = [] ∧ u.link.upstream.length < 8 then
            (u.mgu.coreReset.filter (fun x => x.request != r.id)) else u.mgu.coreReset) } } := by
  unfold answer answered
  rw [hf]
  simp only
  generalize UpFrame.manageDone r.tag res (if res = .done then p else []) = x
  unfold complete
  rw [hf]
  simp only [ho, hs]
  rw [ha]
  unfold handedOn completionTaken
  by_cases h : u.dem.completions = [] ∧ u.link.upstream.length < 8
  · rw [if_pos h, if_pos h]
    simp only [h.1, Config.upstreamBound, h.2, dropRequest_eq, hh]
    simp [pushUp, h.1]
  · rw [if_neg h, if_neg h]
    have : (u.dem.completions.isEmpty && decide (u.link.upstream.length < Config.upstreamBound)) =
        false := by
      rw [Bool.eq_false_iff]; intro hx; apply h
      simp [Config.upstreamBound] at hx; exact ⟨hx.1, of_decide_eq_true hx.2⟩
    rw [this]
    simp [setPhase, updateRequest]

/-- A request that is taken is acted on by its owner. -/
theorem taken_exec {k : Nat} {args : List Byte} {r : Request} {s : State} (h : Taken k args r s)
    (eff : Nat → List Byte → State → State) :
    (if s.link.por then s else take k eff s) = eff r.id args (setPhase r.id .serving s) := by
  rw [h.released]
  simp only [Bool.false_eq_true, if_false, take, h.oldest, if_true, serve, h.passes]

/-- The answer to a request that is taken. -/
theorem taken_answer {k : Nat} {args : List Byte} {r : Request} {s : State} (h : Taken k args r s)
    (res : Result) (p : List Byte) :
    answer r.id res p (setPhase r.id .serving s) = answered r res (if res = .done then p else []) s :=
  answer_serving res p h.active h.named h.buffered h.unheld h.notReset

/-- A command whose owner answers from some state `u`, with DEM, the link state and the Core Reset as they were. -/
theorem taken_general {k : Nat} {args : List Byte} {r : Request} {s u : State} {eff : Nat → List Byte →
    State → State} {c : Instr} (h : Taken k args r s)
    (hc : exec c s = .next (if s.link.por then s else take k eff s)) {res : Result} {p : List Byte}
    (he : eff r.id args (setPhase r.id .serving s) = answer r.id res p (setPhase r.id .serving u))
    (h1 : u.link.state = s.link.state) (h2 : u.dem = s.dem) (h3 : u.mgu.coreReset = s.mgu.coreReset) :
    exec c s = .next (answered r res (if res = .done then p else []) u) := by
  rw [hc, taken_exec h, he]
  refine congrArg _ (answer_serving _ _ ?_ ?_ h.buffered h.unheld ?_)
  · rw [h1]
    exact h.active
  · have := h.named
    unfold findRequest at *
    rw [h2]
    exact this
  · rw [h3]
    exact h.notReset

/-- A request not served in HALTED is taken only outside it. -/
theorem taken_not_halted {k : Nat} {args : List Byte} {r : Request} {s : State} (h : Taken k args r s)
    (hk : servedHalted k args = false) : s.fcu.halted = none := by
  have := h.passes; unfold takeCheck at this
  split at this
  · cases this
  · split at this
    · cases this
    · rename_i hx
      cases hh : s.fcu.halted with
      | none => rfl
      | some c => exact absurd ⟨by rw [hh]; rfl, by rw [hk]; simp⟩ hx

/-- The request that is taken is a QUEUED management request. -/
theorem taken_manage {k args r s} (h : Taken k args r s) : r ∈ s.dem.requests ∧
    r.body = .manage k args ∧ r.phase = .queued := by
  have ho := h.oldest
  unfold oldestManage at ho
  obtain ⟨q, hq, h2⟩ := List.exists_of_findSome?_eq_some ho
  split at h2 <;> simp at h2
  rename_i k' a' hb hp
  obtain ⟨rfl, rfl, rfl⟩ := h2
  exact ⟨hq, hb, hp⟩

/-- Two requests of one name are one. -/
theorem unique_name {s : State} (hn : RequestsNamed s) {q r : Request} (hq : q ∈ s.dem.requests)
    (hr : r ∈ s.dem.requests) (h : q.id = r.id) : q = r := by
  have a := find_of_nodup hn.1 hq
  have b := find_of_nodup hn.1 hr
  rw [h] at a; rw [a] at b; exact Option.some.inj b

/-- No demand request has the name of the request that is being served. -/
theorem serving_demand {k args r s} (h : Taken k args r s)
    (hn : RequestsNamed s) : ∀ q ∈ (setPhase r.id .serving s).dem.requests, q.isDemand = true →
    q.id ≠ r.id := by
  intro q hq hd hi
  obtain ⟨hm, hb, -⟩ := taken_manage h
  obtain ⟨x, hx, rfl⟩ := List.mem_map.1 hq
  by_cases hxi : x.id = r.id
  · have := unique_name hn hx hm hxi
    subst this
    rw [if_pos rfl] at hd
    unfold Request.isDemand at hd
    simp only at hd
    rw [hb] at hd; cases hd
  · rw [if_neg hxi] at hi; exact hxi hi

/-! ## A demand frame that starts -/

/-- A change of the request that has just started. -/
theorem updateRequest_withStarted (g : Request → Request) (c ph)
    (h : ∀ q ∈ s.dem.requests, q.id < s.stamp) :
    updateRequest s.stamp g (withStarted f a c ph s) =
      { withStarted f a c ph s with dem := { (withStarted f a c ph s).dem with
          requests := s.dem.requests ++ [g (startedRequest f a c ph s)] } } := by
  unfold updateRequest withStarted
  simp only [List.map_append, map_earlier g h]
  simp [startedRequest]

/-- Its phase changes. -/
theorem setPhase_withStarted (c ph p) (h : ∀ q ∈ s.dem.requests, q.id < s.stamp) :
    setPhase s.stamp p (withStarted f a c ph s) = withStarted f a c p s := by
  unfold setPhase; rw [updateRequest_withStarted _ _ _ h]; rfl

/-- It gets its classification. -/
theorem attachClass_withStarted (c ph x) (h : ∀ q ∈ s.dem.requests, q.id < s.stamp) :
    attachClass s.stamp x (withStarted f a c ph s) = withStarted f a (some x) ph s := by
  unfold attachClass; rw [updateRequest_withStarted _ _ _ h]; rfl

/-- It is found by its name. -/
theorem findRequest_withStarted (c ph) (h : ∀ q ∈ s.dem.requests, q.id < s.stamp) :
    findRequest s.stamp (withStarted f a c ph s) = some (startedRequest f a c ph s) :=
  find_newest _ rfl h

/-- It completes at once. -/
theorem complete_withStarted (c ph) (x : UpFrame) (h : ∀ q ∈ s.dem.requests, q.id < s.stamp)
    (hp : ph ≠ .completing) (ha : s.link.state = .active) (hf : HoldKey.line a ∉ s.dem.holdSet)
    (hq : portHolds (.line a) s = false) (hc : s.mgu.coreReset = none) :
    complete s.stamp x (withStarted f a c ph s) = completedAtOnce f a c x s := by
  unfold complete
  rw [findRequest_withStarted _ _ h]
  have ho : (startedRequest f a c ph s).orphan = false := rfl
  have h1 : (startedRequest f a c ph s).phase = ph := rfl
  have h2 : (withStarted f a c ph s).link = s.link := rfl
  simp only [h1, hp, ho, h2, ha]
  unfold completedAtOnce completionTaken
  have h3 : (withStarted f a c ph s).dem.completions = s.dem.completions := rfl
  rw [h3, h2]
  by_cases hh : s.dem.completions = [] ∧ s.link.upstream.length < 8
  · rw [if_pos hh]
    simp only [hh.1, Config.upstreamBound, hh.2]
    simp [dropRequest, startedRequest, releaseHold?, releaseHold, pushUp, withStarted]
    have h4 : ∀ t : State, t.drp = s.drp → portHolds (.line a) t = false := by
      intro t ht; unfold portHolds at hq ⊢; rw [ht]; exact hq
    rw [if_neg (fun hx => by rw [h4 _ (by rfl)] at hx; cases hx)]
    simp [endCoreReset, hc, hh.1, List.erase_append_right _ hf]
    rw [filter_earlier h, ← hh.1]
  · rw [if_neg hh]
    have : (s.dem.completions.isEmpty && decide (s.link.upstream.length < Config.upstreamBound)) =
        false := by
      rw [Bool.eq_false_iff]; intro hx; apply hh
      simp [Config.upstreamBound] at hx; exact ⟨hx.1, of_decide_eq_true hx.2⟩
    rw [this]
    simp [setPhase, updateRequest, withStarted, startedRequest, map_earlier _ h]

/-- A request that arrives and begins. -/
theorem beginDemand_new (h : ∀ q ∈ s.dem.requests, q.id < s.stamp) (hl : s.cod.loopLine = none) :
    beginDemand (newRequest (frameTag f) (frameBody f) s) a (enqueue (newRequest (frameTag f)
        (frameBody f) s) s)
      = withStarted f a none .waitRead s := by
  simp [beginDemand, enqueue, passMoment, updateRequest, withStarted, newRequest, startedRequest,
      map_earlier _ h, holdKey, hl]

/-- A let-in demand frame whose line is free starts on arrival. -/
theorem receive_starts (hL : LetIn f s) (hb : (frameBody f).line? = some a) (hl : s.cod.loopLine = none)
    (hf : HoldKey.line a ∉ s.dem.holdSet) (hq : queuedBefore (.line a) s = false) :
    receive f s = startDemand (newRequest (frameTag f)
        (frameBody f) s) a (enqueue (newRequest (frameTag f) (frameBody f) s) s) := by
  unfold receive
  rw [hL.active]; simp only [hL.good, if_true]
  unfold admitFrame
  have h1 := hL.room; rw [← bufferCount_eq] at h1
  rw [if_neg (by simp [Config.bufferCapacity]; omega)]
  have h2 : tagInUse (frameTag f) s = false := by
    rw [Bool.eq_false_iff]; intro hx
    obtain ⟨r, hr, ht⟩ := (tagInUse_iff _ _).mp hx
    exact hL.free r hr ht
  rw [h2]
  simp only [newRequest, hb]
  unfold arriveDemand
  simp [hL.noReset, holdKey, hl, hf, hq]

end Sys2Proof.Machine
end

