-- ==== Sys2Proof/Laws/Checked.lean ====
section
/-! SUPPORT. Checked reads of sound tables, the holder of a line, and the stops that HALTED and Core Reset share. -/

namespace Sys2Proof.Machine

variable {f : List Byte} {a : LineAddr} {s : State}

/-! ## Reads of sound tables -/

/-- A classification is read from the region table alone. -/
theorem classify_congr {a : LineAddr} {s t : State} (h : s.rgt = t.rgt) : classify a s = classify a t := by
  unfold classify regionAt; rw [h]

/-- A sound entry is read without effect. -/
theorem checkRegion_sound {s : State} {i : Nat} (h : (regionAt s i).storage = .sound) :
    checkRegion s i = s := by
  unfold checkRegion; rw [h]

/-- A run of steps none of which changes anything. -/
theorem foldl_fixed {α β} (g : β → α → β) (l : List α) (s : β)
    (h : ∀ x ∈ l, g s x = s) : l.foldl g s = s := by
  induction l with
  | nil => rfl
  | cons x l ih => simp only [List.foldl_cons]; rw [h x (by simp)]; exact ih fun y hy => h y (by simp [hy])

/-- A sound table is read without effect. -/
theorem checkRegions_sound (h : RegionsSound s) : checkRegions s = s :=
  foldl_fixed _ _ _ fun i hi => checkRegion_sound (h i (List.mem_range.mp hi))

/-- A lookup in a sound table. -/
theorem lookup_sound {a : LineAddr} {s : State} (h : RegionsSound s) : lookup a s = (classify a s, s) := by
  unfold lookup; rw [checkRegions_sound h]

/-- A sound profile is read without effect. -/
theorem checkProfile_sound {n : Nat} {s : State} (h : (storedProfile s n).storage = .sound) :
    checkProfile n s = s := by
  unfold checkProfile; rw [h]

/-- A sound rank is read without effect. -/
theorem readRank_sound {r : Nat} {s : State} (h : RankSound r s) : readRank r s = (true, s) := by
  unfold readRank readDevices rankEntries
  have h1 : ∀ n ∈ (List.range 10).map (entryNumber r), (deviceAt s n).storage = .sound := by
    intro n hn
    obtain ⟨d, hd, rfl⟩ := List.mem_map.mp hn
    exact h d (List.mem_range.mp hd)
  have h2 : ((List.range 10).map (entryNumber r)).foldl correctDevice s = s :=
    foldl_fixed _ _ _ fun n hn => by unfold correctDevice; rw [h1 n hn]
  simp only [h2]
  have : faultyAmong ((List.range 10).map (entryNumber r)) s = none := by
    unfold faultyAmong
    rw [List.find?_eq_none]
    intro n hn; rw [h1 n hn]; decide
  rw [this]

/-- A CLEAN verdict without a mark moves no consumer. -/
theorem consume_clean {v : VerdictRecord} {s : State} (hv : v.verdict = .clean)
    (hc : v.correction = none) (hm : v.mark = none)
    (hs : RankSound (rankOf v.line) s) (hh : s.fcu.halted = none) : consume v s = s := by
  have hrep : v.repairable = false := by unfold VerdictRecord.repairable; rw [hc]
  have h1 : reportVerdict v s = s := by unfold reportVerdict; rw [hc]
  have h2 : countVerdict v s = s := by unfold countVerdict; rw [hv]; simp
  have h3 : healthVerdict v s = s := by
    unfold healthVerdict
    rw [hh, readRank_sound hs]
    simp [raiseTallies, hc, judgeProbation, hm]
  have h4 : watchVerdict v s = s := by unfold watchVerdict isWatchHit; rw [hrep]; rfl
  have h5 : considerRepair v s = s := by unfold considerRepair; rw [hrep]; rfl
  unfold consume; rw [h1, h2, h3, h4, h5]

/-! ## The holder of a line -/

/-- No holder: no slot and no entry. -/
theorem holder_none {a : LineAddr} {s : State} (h : holder a s = .none) : slotHolding a s = none ∧
    entryOf a s = none := by
  unfold holder at h
  split at h
  · cases h
  · rename_i h1
    refine ⟨h1, ?_⟩
    split at h
    · cases h
    · assumption

/-- An entry holds the line: no slot does. -/
theorem holder_entry {a : LineAddr} {s : State} {e} (h : holder a s = .entry e) :
    slotHolding a s = none ∧ entryOf a s = some e := by
  unfold holder at h
  split at h
  · cases h
  · rename_i h1
    refine ⟨h1, ?_⟩
    split at h
    · cases h; assumption
    · cases h

/-- A slot holds the line. -/
theorem holder_slot {a : LineAddr} {s : State} {i} (h : holder a s = .slot i) :
    slotHolding a s = some i := by
  unfold holder at h
  split at h
  · cases h; assumption
  · split at h <;> cases h

/-! ## Stopped fills, quiet ranks and the reset effects -/

/-- A stopped fill changes LNK and the ranks. -/
theorem stopFill_form (s : State) (r : Nat) :
    ∃ l v, stopFill s r = { s with link := l, drp := { s.drp with ranks := v } } ∧
      l.state = s.link.state := by
  unfold stopFill
  split
  · rw [raise_eq]
    exact ⟨_, _, rfl, by rw [raise_link_state]; rfl⟩
  · exact ⟨s.link, s.drp.ranks, rfl, rfl⟩

/-- A stopped fill, rank by rank. -/
theorem stopFill_rank (s : State) (r q : Nat) : rankRec (stopFill s r) q = if r = q ∧
    rankState s q = .filling then { rankRec s q with state := .offline } else rankRec s q := by
  unfold stopFill
  split
  · rename_i h
    have : rankRec (raise .fillStopped (.rank r) (setRank r { rankRec s r with state :=
        .offline } s)) q = rankRec (setRank r { rankRec s r with state := .offline } s) q := by
      unfold rankRec; rw [raise_drp]
    rw [this, rankRec_setRank]
    by_cases hr : r = q
    · subst hr
      have : r < 4 := by
        by_contra hc
        rw [rankState_of_ge s (by omega)] at h; cases h
      simp [h, this]
    · simp [hr]
  · rename_i h
    rw [if_neg]; rintro ⟨rfl, h'⟩; exact h h'

/-- Stopped fills change LNK and the ranks. -/
theorem stopFills_form (s : State) :
    ∃ l v, stopFills s = { s with link := l, drp := { s.drp with ranks := v } } ∧
      l.state = s.link.state := by
  have : ∀ (l : List Nat) (u : State), ∃ k v,
      l.foldl stopFill u = { u with link := k, drp := { u.drp with ranks := v } } ∧
        k.state = u.link.state := by
    intro l
    induction l with
    | nil => intro u; exact ⟨u.link, u.drp.ranks, rfl, rfl⟩
    | cons r l ih =>
      intro u
      obtain ⟨k1, v1, e1, h1⟩ := stopFill_form u r
      rw [List.foldl_cons, e1]
      obtain ⟨k2, v2, e2, h2⟩ := ih { u with link := k1, drp := { u.drp with ranks := v1 } }
      exact ⟨k2, v2, e2, h2.trans h1⟩
  exact this _ s

/-- Stopped fills, rank by rank. -/
theorem stopFills_rank (s : State) (q : Nat) (hq : q < 4) :
    rankRec (stopFills s) q = if rankState s q = .filling then { rankRec s q with state :=
    .offline } else rankRec s q := by
  unfold stopFills
  have other {u : State} {r : Nat} (h : r ≠ q) : rankRec (stopFill u r) q = rankRec u q := by
    rw [stopFill_rank, if_neg (h ·.1)]
  have stop : ∀ l : List Nat, l.Nodup → ∀ u : State, rankRec (l.foldl stopFill u) q =
      if q ∈ l ∧ rankState u q = .filling then { rankRec u q with state := .offline }
      else rankRec u q := by
    intro l
    induction l with
    | nil => simp
    | cons r l ih =>
      intro hl u
      rw [List.nodup_cons] at hl
      rw [List.foldl_cons, ih hl.2]
      by_cases h : r = q
      · subst h
        simp [hl.1, stopFill_rank]
      · simp only [rankState, other h, List.mem_cons, Ne.symm h, false_or]
  have hmem : q ∈ [0, 1, 2, 3] := by simp; omega
  rw [stop _ (by decide)]
  simp [hmem]

/-- Quiet ranks change the ranks and the due refreshes. -/
theorem settle_form (s : State) :
    ∃ v d, settle s = { s with drp := { s.drp with ranks := v, refreshDue := d } } := by
  have : ∀ (l : List Nat) (u : State), ∃ v d, l.foldl settleRank u =
      { u with drp := { u.drp with ranks := v, refreshDue := d } } := by
    intro l
    induction l with
    | nil => intro u; exact ⟨u.drp.ranks, u.drp.refreshDue, rfl⟩
    | cons r l ih =>
      intro u
      have e1 : ∃ v d, settleRank u r = { u with drp := { u.drp with ranks := v, refreshDue := d } } := by
        unfold settleRank; split
        · exact ⟨_, _, rfl⟩
        · exact ⟨u.drp.ranks, u.drp.refreshDue, rfl⟩
      obtain ⟨v, d, e1⟩ := e1
      rw [List.foldl_cons, e1]
      obtain ⟨v', d', e2⟩ := ih { u with drp := { u.drp with ranks := v, refreshDue := d } }
      exact ⟨v', d', e2⟩
  exact this _ s

/-- What a rank that settles leaves alone. -/
theorem settleRank_keeps (u : State) (q : Nat) : (∀ r, rankState (settleRank u q) r = rankState u r) ∧
    (∀ r, rankBusy (settleRank u q) r = rankBusy u r) ∧
   (∀ r, r ≠ q → rankRec (settleRank u q) r = rankRec u r) ∧
       (∀ r, r ∈ (settleRank u q).drp.refreshDue → r ∈ u.drp.refreshDue) := by
  unfold settleRank
  split
  · rename_i hx
    obtain ⟨h1, h2, h3⟩ := hx
    have hrec : ∀ r, rankRec { u with drp := { u.drp with
        ranks := setAt u.drp.ranks q { rankRec u q with selfRefresh := true, refresh := none }
        refreshDue := u.drp.refreshDue.filter fun p => p != q } } r = if q = r ∧
            q < 4 then { rankRec u q with selfRefresh := true, refresh := none } else rankRec u r := by
      intro r; exact getAt_setAt ..
    have hst : ∀ r, rankState { u with drp := { u.drp with
        ranks := setAt u.drp.ranks q { rankRec u q with selfRefresh := true, refresh := none }
        refreshDue := u.drp.refreshDue.filter fun p => p != q } } r = rankState u r := by
      intro r; unfold rankState; rw [hrec]; split
      · rename_i hh; rw [← hh.1]
      · rfl
    refine ⟨hst, fun r => ?_, fun r hr => ?_, fun r hr => ?_⟩
    · unfold rankBusy
      congr 1
      unfold waiting
      show (List.any (if u.fcu.halted.isSome = true then _ else _) _) = _
      have hfil : ∀ l : List Nat, ((l.map fun r => (⟨1, 0, .refresh, lineAt r 0,
          none⟩ : Waiting)).any fun w => w.order != 1 && rankOf w.line == r) = false := by
        intro l; simp
      have hfill : (List.range 4).flatMap (waitingFill { u with drp := { u.drp with
        ranks := setAt u.drp.ranks q { rankRec u q with selfRefresh := true, refresh := none }
        refreshDue := u.drp.refreshDue.filter fun p => p != q } }) =
            (List.range 4).flatMap (waitingFill u) := by
        refine List.flatMap_congr fun x hx => ?_
        unfold waitingFill
        rw [hst, hrec]
        by_cases hh : q = x ∧ q < 4
        · rw [if_pos hh, ← hh.1, h1]; simp
        · rw [if_neg hh]; rfl
      split
      · unfold waitingRefreshes; rw [hfil, hfil]
      · rw [hfill]
        simp only [List.any_append]
        unfold waitingRefreshes; rw [hfil, hfil]; rfl
    · rw [hrec, if_neg (fun hh => hr hh.1.symm)]
    · exact List.mem_of_mem_filter hr
  · exact ⟨fun _ => rfl, fun _ => rfl, fun _ _ => rfl, fun _ h => h⟩

/-- No rank changes its state or its fill position in settling. -/
theorem settle_rank (s : State) (q : Nat) : rankState (settle s) q = rankState s q ∧
    (rankRec (settle s) q).fillPosition = (rankRec s q).fillPosition := by
  have h1 : ∀ (u : State) (r : Nat), rankState (settleRank u r) q = rankState u q ∧
      (rankRec (settleRank u r) q).fillPosition = (rankRec u q).fillPosition := by
    intro u r
    refine ⟨(settleRank_keeps u r).1 q, ?_⟩
    unfold settleRank
    split
    · show (getAt (setAt u.drp.ranks r _) q _).fillPosition = _
      have := rankRec_setRank u r q { rankRec u r with selfRefresh := true, refresh := none }
      unfold rankRec setRank at this
      simp only at this
      unfold rankRec
      rw [this]
      split
      · rename_i hh; rw [← hh.1]
      · rfl
    · rfl
  unfold settle
  simp only [List.foldl_cons, List.foldl_nil]
  exact ⟨((h1 _ 3).1.trans (h1 _ 2).1).trans ((h1 _ 1).1.trans (h1 _ 0).1),
      ((h1 _ 3).2.trans (h1 _ 2).2).trans ((h1 _ 1).2.trans (h1 _ 0).2)⟩

/-- With no rank quiescing nothing settles. -/
theorem settle_quiet {s : State} (h : NoneQuiescing s) : settle s = s := by
  have h1 : ∀ r < 4, settleRank s r = s := by
    intro r hr
    unfold settleRank
    rw [if_neg]
    rintro ⟨a, b, _⟩
    exact b (h r hr a)
  unfold settle
  simp only [List.foldl_cons, List.foldl_nil]
  rw [h1 0 (by omega), h1 1 (by omega), h1 2 (by omega), h1 3 (by omega)]

/-- What the reset effects make of PSC (T68). -/
structure PscReset (s : State) (p : Psc) : Prop where
  stopped : p.running = false ∧ p.cursorPhase = .untested ∧ p.passVisited = false
  pace : p.credit = 0 ∧ p.steal = false ∧ p.lagging = false ∧ p.phase = 0
  countdown : (storedProfile s 0).storage ≠ .uncorrectable → p.tickCountdown = (profileAt s 0).period
  cursor : p.cursor = ((List.range 4).find? fun q => decide (rankState s q =
      .online)).map fun q => lineAt q 0
  sweep : p.wholeSweep = p.cursor.isSome
  phases : p.profiles = s.psc.profiles ∧ p.lagLimit = s.psc.lagLimit

/-- The reset effects, in full. -/
theorem resetEffects_form (s : State) : ∃ p, resetEffects s = { s with
    rpq := { s.rpq with entries := [] }
    psc := p
    cod := { s.cod with injections := Vector.replicate 2 none, loopLine := none }
    drp := { s.drp with history := 7 } } ∧ PscReset s p := by
  have he : firstOnline [0,1,2,3] (stopPatrol { s with rpq := { s.rpq with entries := [] } }) =
      (List.range 4).find? fun q => decide (rankState s q = .online) := by
    unfold firstOnline
    rw [show List.range 4 = [0,1,2,3] from rfl]
    congr 1
  unfold resetEffects resetPatrol cursorToFirst
  rw [he]
  have hper : (storedProfile s 0).storage ≠ .uncorrectable →
      resetTickPeriod { s with rpq := { s.rpq with entries := [] } } = (profileAt s 0).period := by
    intro h
    unfold resetTickPeriod
    have : storedProfile { s with rpq := { s.rpq with entries := [] } } 0 = storedProfile s 0 := rfl
    rw [this]
    split
    · rename_i hx; exact absurd hx h
    · rfl
  cases hf : (List.range 4).find? fun q => decide (rankState s q = .online) with
  | none =>
    refine ⟨_, rfl, ⟨⟨rfl, rfl, rfl⟩, ⟨rfl, rfl, rfl, rfl⟩, hper, ?_, rfl, ⟨rfl, rfl⟩⟩⟩
    rw [hf]; rfl
  | some q =>
    refine ⟨_, rfl, ⟨⟨rfl, rfl, rfl⟩, ⟨rfl, rfl, rfl, rfl⟩, hper, ?_, rfl, ⟨rfl, rfl⟩⟩⟩
    rw [hf]; rfl

/-! ## Releases and Spare Retires that end -/

/-- Answers change no slot. -/
theorem slotAt_answers {s t : State} (h : Answers s t) (i : Nat) : slotAt t i = slotAt s i := by
  obtain ⟨l, d, c, rfl⟩ := h; rfl

/-- A release ended by HALTED, slot by slot. -/
theorem haltRelease_slot (s : State) (i j : Nat) (hi : i < 32) : slotAt (haltRelease s i) j = if i = j then
        match slotAt s i with
        | .releasing a d time (some w) =>
          .releasing a d time (if atPort (.releaseWrite i w.age) s then some w else none)
        | x => x
      else slotAt s j := by
  by_cases hij : i = j
  · subst hij
    rw [if_pos rfl]
    unfold haltRelease
    cases hs : slotAt s i
    case releasing a d t w =>
      cases w
      case none => exact hs
      case some w =>
        simp only
        by_cases hp : atPort (.releaseWrite i w.age) s = true
        · rw [if_pos hp, if_pos hp]; exact hs
        · rw [if_neg hp, if_neg hp, slotAt_answers (answers_answer _ _ _ _), slotAt_setSlot]; simp [hi]
    all_goals exact hs
  · rw [if_neg hij]
    unfold haltRelease
    split
    · split
      · rfl
      · rw [slotAt_answers (answers_answer _ _ _ _), slotAt_setSlot]; simp [hij]
    · rfl

/-- A slot called back from RELEASING. -/
def unreleased : Slot → Slot
  | .releasing a d time _ => .active a d time
  | x => x

/-- A release ended by ABORT, slot by slot. -/
theorem abortRelease_slot (s : State) (i j : Nat) (hi : i < 32) :
    slotAt (abortRelease s i) j = if i = j then unreleased (slotAt s i) else slotAt s j := by
  unfold abortRelease
  split
  · rename_i a d t w h
    rw [slotAt_answers (answers_answer _ _ _ _), slotAt_setSlot, h]
    simp [hi, unreleased]
  · rename_i a d t h
    rw [slotAt_setSlot, h]
    simp [hi, unreleased]
  · rename_i h1 h2
    split
    · rename_i hh; rw [← hh]
      cases hx : slotAt s i with
      | releasing a d t w =>
        cases w with
        | none => exact absurd hx (h2 _ _ _)
        | some w => exact absurd hx (h1 _ _ _ _)
      | _ => rfl
    · rfl

end Sys2Proof.Machine
end

