-- ==== Sys2Proof/Laws/Field.lean ====
section
/-! SUPPORT. The product of symbols is linear in each factor, and a constant factor of the code can be divided
out (R2, R3). -/

namespace Sys2Proof.Machine

theorem timesX_add (a b : Sym) : timesX (a ^^^ b) = timesX a ^^^ timesX b := by
  unfold timesX
  rw [BitVec.msb_xor, BitVec.shiftLeft_xor_distrib]
  have h : ∀ x y z : Sym, x ^^^ z ^^^ (y ^^^ z) = x ^^^ y := fun x y z => by
    rw [BitVec.xor_assoc, BitVec.xor_comm y z, ← BitVec.xor_assoc z, BitVec.xor_self,
      BitVec.zero_xor]
  cases a.msb <;> cases b.msb <;> simp [h] <;> ac_rfl

theorem fieldMulFrom_add_right (n : Nat) (a b c : Sym) (i : Nat) :
    fieldMulFrom n a (b ^^^ c) i = fieldMulFrom n a b i ^^^ fieldMulFrom n a c i := by
  induction n generalizing a i with
  | zero => simp [fieldMulFrom]
  | succ n ih =>
    simp only [fieldMulFrom, ih, BitVec.getLsbD_xor]
    have h : ∀ x y z : Sym, x ^^^ y ^^^ (x ^^^ z) = y ^^^ z := fun x y z => by
      rw [BitVec.xor_comm x y, BitVec.xor_assoc, ← BitVec.xor_assoc x, BitVec.xor_self,
        BitVec.zero_xor]
    cases b.getLsbD i <;> cases c.getLsbD i <;> simp [h] <;> ac_rfl

theorem fieldMulFrom_add_left (n : Nat) (a b c : Sym) (i : Nat) :
    fieldMulFrom n (a ^^^ b) c i = fieldMulFrom n a c i ^^^ fieldMulFrom n b c i := by
  induction n generalizing a b i with
  | zero => simp [fieldMulFrom]
  | succ n ih =>
    simp only [fieldMulFrom, timesX_add, ih]
    cases c.getLsbD i
    · simp
    · simp only [if_true]; ac_rfl

theorem fieldMul_add_right (a b c : Sym) : fieldMul a (b ^^^ c) = fieldMul a b ^^^ fieldMul a c :=
  fieldMulFrom_add_right ..

theorem fieldMul_add_left (a b c : Sym) : fieldMul (a ^^^ b) c = fieldMul a c ^^^ fieldMul b c :=
  fieldMulFrom_add_left ..

@[simp] theorem fieldMul_zero_right (a : Sym) : fieldMul a 0#16 = 0#16 := by
  have h := fieldMul_add_right a 0#16 0#16
  simpa using h

@[simp] theorem fieldMul_zero_left (a : Sym) : fieldMul 0#16 a = 0#16 := by
  have h := fieldMul_add_left 0#16 0#16 a
  simpa using h

/-- The low `n + 1` bits of a symbol: its low `n` bits and bit `n`. -/
theorem low_succ (x : Sym) (n : Nat) :
    (x.setWidth (n + 1)).setWidth 16 =
      (x.setWidth n).setWidth 16 ^^^ (if x.getLsbD n then 1#16 <<< n else 0) := by
  ext i hi
  by_cases hx : x.getLsbD n = true
  · simp only [hx, if_true, BitVec.getElem_xor, BitVec.getElem_setWidth, BitVec.getLsbD_setWidth,
      BitVec.getElem_shiftLeft, BitVec.getElem_one]
    by_cases h1 : i < n
    · simp [h1, Nat.lt_succ_of_lt h1]
    · by_cases h2 : i = n
      · subst h2
        simp [hx]
      · have h3 : ¬i < n + 1 := by omega
        simp [h1, h3]
        omega
  · simp only [hx, BitVec.getElem_setWidth, BitVec.getLsbD_setWidth]
    by_cases h1 : i < n
    · simp [h1, Nat.lt_succ_of_lt h1]
    · by_cases h2 : i = n
      · subst h2
        simp [hx]
      · have h3 : ¬i < n + 1 := by omega
        simp [h1, h3]

/-- A linear map that leaves the sixteen single bits alone leaves every symbol alone. -/
theorem linear_id {f : Sym → Sym} (h : ∀ x y, f (x ^^^ y) = f x ^^^ f y)
    (hb : ∀ i < 16, f (1#16 <<< i) = 1#16 <<< i) (x : Sym) : f x = x := by
  have h0 : f 0 = 0 := by
    have := h 0 0
    simpa using this
  have hn : ∀ n ≤ 16, f ((x.setWidth n).setWidth 16) = (x.setWidth n).setWidth 16 := by
    intro n hn
    induction n with
    | zero =>
      have : (x.setWidth 0).setWidth 16 = 0 := by ext i hi; simp
      rw [this, h0]
    | succ n ih =>
      rw [low_succ, h, ih (by omega)]
      congr 1
      split
      · exact hb n (by omega)
      · exact h0
  have := hn 16 (Nat.le_refl _)
  simpa using this

/-- The sum of the two check weights can be divided out (R4). -/
theorem fieldMul_checkQuotient (b : Sym) :
    fieldMul (deviceWeight 8 ^^^ deviceWeight 9)
      (fieldQuotient b (deviceWeight 8 ^^^ deviceWeight 9)) = b := by
  refine linear_id (f := fun b => fieldMul (deviceWeight 8 ^^^ deviceWeight 9)
    (fieldQuotient b (deviceWeight 8 ^^^ deviceWeight 9))) (fun x y => ?_) ?_ b
  · simp only [fieldQuotient, fieldMul_add_left, fieldMul_add_right]
  · decide +kernel

/-- The sums of two device weights, each with its inverse. -/
def weightSums : List (Sym × Sym) :=
  [(0x003, 0xF006), (0x005, 0x5002), (0x009, 0x26DA), (0x011, 0xB004), (0x021, 0x952C),
   (0x041, 0x6F3F), (0x081, 0xC50D), (0x101, 0xFBBD), (0x201, 0x949F), (0x006, 0x7803),
   (0x00A, 0x2801), (0x012, 0x136D), (0x022, 0x5802), (0x042, 0x4A96), (0x082, 0xBF9A),
   (0x102, 0xEA83), (0x202, 0xF5DB), (0x00C, 0xB404), (0x014, 0x9C05), (0x024, 0x81B3),
   (0x044, 0x2C01), (0x084, 0x254B), (0x104, 0x5FCD), (0x204, 0xFD44), (0x018, 0x5A02),
   (0x028, 0xC607), (0x048, 0xC8DC), (0x088, 0x9E05), (0x108, 0x9AA0), (0x208, 0xA7E3),
   (0x030, 0x2D01), (0x050, 0xEB06), (0x090, 0x646E), (0x110, 0xC707), (0x210, 0x4D50),
   (0x060, 0x9E85), (0x0A0, 0x7583), (0x120, 0x3237), (0x220, 0xEB86), (0x0C0, 0xC747),
   (0x140, 0xB2C4), (0x240, 0x911E), (0x180, 0xEBA6), (0x280, 0x5962), (0x300, 0x75D3)]

theorem weightSums_all (d d' : Fin 10) (h : d ≠ d') :
    ∃ p ∈ weightSums, p.1 = deviceWeight d.val ^^^ deviceWeight d'.val := by
  revert d d'
  decide +kernel

theorem weightSums_inverse : ∀ p ∈ weightSums, ∀ i < 16,
    fieldMul p.2 (fieldMul p.1 (1#16 <<< i)) = 1#16 <<< i := by
  have h : (weightSums.all fun p => (List.range 16).all fun i =>
      fieldMul p.2 (fieldMul p.1 (1#16 <<< i)) == 1#16 <<< i) = true := by decide +kernel
  intro p hp i hi
  exact eq_of_beq (List.all_eq_true.mp (List.all_eq_true.mp h p hp) i (List.mem_range.mpr hi))

/-- Two different devices have different weights, also times a symbol other than 0 (R3). -/
theorem weight_injective {d d' : Fin 10} {e : Sym} (he : e ≠ 0)
    (h : fieldMul (deviceWeight d.val) e = fieldMul (deviceWeight d'.val) e) : d = d' := by
  by_contra hne
  obtain ⟨p, hp, hs⟩ := weightSums_all d d' hne
  have hl : fieldMul p.2 (fieldMul p.1 e) = e :=
    linear_id (f := fun e => fieldMul p.2 (fieldMul p.1 e))
      (fun x y => by simp only [fieldMul_add_right]) (weightSums_inverse p hp) e
  rw [hs, fieldMul_add_left, h, BitVec.xor_self] at hl
  exact he (hl.symm.trans (fieldMul_zero_right _))

end Sys2Proof.Machine
end

