-- ==== Sys2Proof/Laws/LineCode.lean ====
section
/-! SUPPORT. What the line code's operations give on an encoded line: syndromes are sums over the ten symbols,
an encoded codeword has none, and the data symbols give the line back (R1, R4, R7). -/

namespace Sys2Proof.Machine

theorem toList_ten (w : Codeword) :
    w.toList = [w[0], w[1], w[2], w[3], w[4], w[5], w[6], w[7], w[8], w[9]] := by
  apply List.ext_getElem
  · simp
  · intro i h1 h2
    have h3 : i < 10 := by simpa using h1
    interval_cases i <;> simp

theorem syndromeZero_eq (w : Codeword) : syndromeZero w =
    w[0] ^^^ w[1] ^^^ w[2] ^^^ w[3] ^^^ w[4] ^^^ w[5] ^^^ w[6] ^^^ w[7] ^^^ w[8] ^^^ w[9] := by
  unfold syndromeZero
  rw [toList_ten]
  simp

theorem syndromeOne_eq (w : Codeword) : syndromeOne w =
    fieldMul (deviceWeight 0) w[0] ^^^ fieldMul (deviceWeight 1) w[1] ^^^
    fieldMul (deviceWeight 2) w[2] ^^^ fieldMul (deviceWeight 3) w[3] ^^^
    fieldMul (deviceWeight 4) w[4] ^^^ fieldMul (deviceWeight 5) w[5] ^^^
    fieldMul (deviceWeight 6) w[6] ^^^ fieldMul (deviceWeight 7) w[7] ^^^
    fieldMul (deviceWeight 8) w[8] ^^^ fieldMul (deviceWeight 9) w[9] := by
  unfold syndromeOne
  rw [show List.finRange 10 = [0, 1, 2, 3, 4, 5, 6, 7, 8, 9] from rfl]
  simp

/-- The sum of two codewords, symbol by symbol. -/
def sumWords (v w : Codeword) : Codeword := Vector.ofFn fun d => v[d] ^^^ w[d]

/-- The codeword whose only symbol other than 0 is `e`, at device `d`. -/
def errorWord (d : Fin 10) (e : Sym) : Codeword := Vector.ofFn fun k => if k = d then e else 0

theorem syndromeZero_sum (v w : Codeword) :
    syndromeZero (sumWords v w) = syndromeZero v ^^^ syndromeZero w := by
  simp only [syndromeZero_eq, sumWords, Vector.getElem_ofFn, Fin.getElem_fin]
  ac_rfl

theorem syndromeOne_sum (v w : Codeword) :
    syndromeOne (sumWords v w) = syndromeOne v ^^^ syndromeOne w := by
  simp only [syndromeOne_eq, sumWords, Vector.getElem_ofFn, Fin.getElem_fin, fieldMul_add_right]
  ac_rfl

theorem syndromeZero_error (d : Fin 10) (e : Sym) : syndromeZero (errorWord d e) = e := by
  simp only [syndromeZero_eq, errorWord, Vector.getElem_ofFn]
  fin_cases d <;> simp

theorem syndromeOne_error (d : Fin 10) (e : Sym) :
    syndromeOne (errorWord d e) = fieldMul (deviceWeight d.val) e := by
  simp only [syndromeOne_eq, errorWord, Vector.getElem_ofFn]
  fin_cases d <;> simp

theorem dataSum_eq (data : Line) (j : Nat) : dataSum data j =
    dataSymbol data j 0 ^^^ dataSymbol data j 1 ^^^ dataSymbol data j 2 ^^^ dataSymbol data j 3 ^^^
    dataSymbol data j 4 ^^^ dataSymbol data j 5 ^^^ dataSymbol data j 6 ^^^ dataSymbol data j 7 := by
  unfold dataSum
  rw [show List.range 8 = [0, 1, 2, 3, 4, 5, 6, 7] from rfl]
  simp

theorem dataWeightedSum_eq (data : Line) (j : Nat) : dataWeightedSum data j =
    fieldMul (deviceWeight 0) (dataSymbol data j 0) ^^^ fieldMul (deviceWeight 1) (dataSymbol data j 1) ^^^
    fieldMul (deviceWeight 2) (dataSymbol data j 2) ^^^ fieldMul (deviceWeight 3) (dataSymbol data j 3) ^^^
    fieldMul (deviceWeight 4) (dataSymbol data j 4) ^^^ fieldMul (deviceWeight 5) (dataSymbol data j 5) ^^^
    fieldMul (deviceWeight 6) (dataSymbol data j 6) ^^^
      fieldMul (deviceWeight 7) (dataSymbol data j 7) := by
  unfold dataWeightedSum
  rw [show List.range 8 = [0, 1, 2, 3, 4, 5, 6, 7] from rfl]
  simp

theorem xor_xor_cancel (x y : Sym) : x ^^^ (x ^^^ y) = y := by
  rw [← BitVec.xor_assoc, BitVec.xor_self, BitVec.zero_xor]

/-- An encoded codeword sums to 0 (R4). -/
theorem syndromeZero_encode (data : Line) (j : Nat) : syndromeZero (encodeCodeword data j) = 0 := by
  have h : syndromeZero (encodeCodeword data j) =
      dataSum data j ^^^ (dataSum data j ^^^ checkNine data j) ^^^ checkNine data j := by
    rw [syndromeZero_eq, dataSum_eq]
    simp [encodeCodeword, dataSum_eq]
  rw [h, xor_xor_cancel, BitVec.xor_self]
  rfl

/-- An encoded codeword's weighted sum is 0 (R4). -/
theorem syndromeOne_encode (data : Line) (j : Nat) : syndromeOne (encodeCodeword data j) = 0 := by
  have h : syndromeOne (encodeCodeword data j) =
      dataWeightedSum data j ^^^ fieldMul (deviceWeight 8) (dataSum data j ^^^ checkNine data j) ^^^
        fieldMul (deviceWeight 9) (checkNine data j) := by
    rw [syndromeOne_eq, dataWeightedSum_eq]
    simp [encodeCodeword]
  have hq : fieldMul (deviceWeight 8) (checkNine data j) ^^^ fieldMul (deviceWeight 9) (checkNine data j)
      = dataWeightedSum data j ^^^ fieldMul (deviceWeight 8) (dataSum data j) := by
    rw [← fieldMul_add_left]
    exact fieldMul_checkQuotient _
  rw [h, fieldMul_add_right, ← BitVec.xor_assoc, BitVec.xor_assoc, hq, BitVec.xor_self]
  rfl

/-- The two bytes of a data symbol (R1). -/
theorem byte_of_symbol (b c : Byte) :
    (((b ++ c : Sym) >>> 8).setWidth 8 : Byte) = b ∧ ((b ++ c : Sym).setWidth 8 : Byte) = c := by
  constructor
  · ext i hi
    have h := BitVec.getLsbD_append (x := b) (y := c) (i := 8 + i)
    simp only [BitVec.getElem_setWidth, BitVec.getLsbD_ushiftRight]
    refine h.trans ?_
    simp [BitVec.getLsbD_eq_getElem hi]
  · ext i hi
    have h := BitVec.getLsbD_append (x := b) (y := c) (i := i)
    simp only [BitVec.getElem_setWidth]
    refine h.trans ?_
    simp [hi]

/-- The data symbols of an encoded line give the line back (R1, R4). -/
theorem dataBytes_encode (data : Line) : dataBytes (encode data) = data := by
  apply Vector.ext
  intro i hi
  have h1 : i / 16 < 4 := by omega
  have h2 : i % 16 / 2 < 10 := by omega
  have h3 : i % 16 / 2 < 8 := by omega
  have hs : getAt (getAt (encode data) (i / 16) (Vector.replicate 10 0)) (i % 16 / 2) 0 =
      dataSymbol data (i / 16) (i % 16 / 2) := by
    rw [getAt_of_lt _ _ h1, getAt_of_lt _ _ h2]
    simp [encode, encodeCodeword, h3]
  unfold dataBytes
  rw [Vector.getElem_ofFn]
  simp only [hs, dataSymbol]
  split
  · have h4 : 16 * (i / 16) + 2 * (i % 16 / 2) = i := by omega
    rw [h4, getAt_of_lt _ _ hi]
    exact (byte_of_symbol _ _).1
  · have h4 : 16 * (i / 16) + 2 * (i % 16 / 2) + 1 = i := by omega
    rw [h4, getAt_of_lt _ _ hi]
    exact (byte_of_symbol _ _).2

/-! ## Beats (R1, T95) -/

/-- The symbols that eight beats carry: two consecutive beats give a codeword, the high bytes first. -/
theorem fromBeats_get (beats : Burst) (j : Fin 4) (d : Fin 10) :
    (fromBeats beats)[j][d] = beats[2 * j.val][d] ++ beats[2 * j.val + 1][d] := by
  simp [fromBeats, getAt, show 2 * j.val < 8 by omega, show 2 * j.val + 1 < 8 by omega]

/-- The two bytes of a symbol put together again. -/
theorem symbol_of_bytes (x : Sym) : x.extractLsb' 8 8 ++ x.extractLsb' 0 8 = x := by
  ext i hi
  simp only [BitVec.getElem_append, BitVec.getElem_extractLsb']
  split
  · simp [← BitVec.getLsbD_eq_getElem hi]
  · rw [show 8 + (i - 8) = i by omega, BitVec.getLsbD_eq_getElem hi]

/-- A line that crosses the DRAM interface and comes back unchanged is the line that was sent. -/
@[simp] theorem fromBeats_onBeats (raw : RawLine) : fromBeats (onBeats raw) = raw := by
  apply Vector.ext
  intro j hj
  apply Vector.ext
  intro d hd
  have h := fromBeats_get (onBeats raw) ⟨j, hj⟩ ⟨d, hd⟩
  have h0 : 2 * j / 2 = j := by omega
  have h1 : (2 * j + 1) / 2 = j := by omega
  have h2 : (2 * j + 1) % 2 = 1 := by omega
  refine Eq.trans h ?_
  simp only [onBeats, Fin.getElem_fin, Vector.getElem_ofFn, h0, h1, h2]
  simp [getAt, hj, hd, symbol_of_bytes]

/-- Beats are fixed by the forty symbols they carry. -/
theorem fromBeats_injective {x y : Burst} (h : fromBeats x = fromBeats y) : x = y := by
  have pair {a b c e : Byte} (h : (a ++ b : Sym) = c ++ e) : a = c ∧ b = e :=
    ⟨by rw [← (byte_of_symbol a b).1, h, (byte_of_symbol c e).1],
     by rw [← (byte_of_symbol a b).2, h, (byte_of_symbol c e).2]⟩
  apply Vector.ext
  intro b hb
  apply Vector.ext
  intro d hd
  have hg := fromBeats_get x ⟨b / 2, by omega⟩ ⟨d, hd⟩
  rw [h, fromBeats_get] at hg
  have hp := pair hg
  rcases Nat.mod_two_eq_zero_or_one b with hm | hm
  · have he : 2 * (b / 2) = b := by omega
    simpa [he] using hp.1.symm
  · have he : 2 * (b / 2) + 1 = b := by omega
    simpa [he] using hp.2.symm

/-- Every eight beats are those of one raw line. -/
@[simp] theorem onBeats_fromBeats (beats : Burst) : onBeats (fromBeats beats) = beats :=
  fromBeats_injective (fromBeats_onBeats _)

end Sys2Proof.Machine
end

