-- ==== Sys2Proof/Laws/Port.lean ====
section
/-! SUPPORT. The arbiter's choice, the waiting operations by kind, and what a granted write carries. -/

namespace Sys2Proof.Machine

/-- The grant order (R165, R166). -/
theorem before_iff (v w : Waiting) : v.before w = true ↔ v.order < w.order ∨ (v.order = w.order ∧
    v.age < w.age) := by
  simp [Waiting.before]

/-- The operation chosen is there and comes first. -/
theorem firstWaiting_spec (ws : List Waiting) : (firstWaiting ws = none → ws = []) ∧
    ∀ w, firstWaiting ws = some w → w ∈ ws ∧ ∀ v ∈ ws, w.order < v.order ∨ (w.order = v.order ∧
        w.age ≤ v.age) := by
  induction ws with
  | nil => simp [firstWaiting]
  | cons x l ih =>
    unfold firstWaiting
    cases hf : firstWaiting l with
    | none =>
      have := ih.1 hf; subst this
      simp
    | some y =>
      simp only
      obtain ⟨hy, hall⟩ := ih.2 y hf
      refine ⟨by split <;> simp, ?_⟩
      intro w hw
      by_cases hb : y.before x = true
      · simp [hb] at hw; subst hw
        rw [before_iff] at hb
        refine ⟨by simp [hy], ?_⟩
        intro v hv
        rcases List.mem_cons.mp hv with rfl | hv
        · omega
        · exact hall v hv
      · simp [hb] at hw; subst hw
        rw [before_iff] at hb
        refine ⟨by simp, ?_⟩
        intro v hv
        rcases List.mem_cons.mp hv with rfl | hv
        · omega
        · have := hall v hv; omega

/-- None is chosen where none waits. -/
theorem firstWaiting_none (ws : List Waiting) : firstWaiting ws = none ↔ ws = [] := by
  constructor
  · exact (firstWaiting_spec ws).1
  · rintro rfl; rfl

/-- The waiting operations by their requesters. -/
theorem waiting_cases {s : State} {w : Waiting} (h : w ∈ waiting s) :
    (w ∈ waitingRefreshes s) ∨ (s.fcu.halted = none ∧ (w ∈ waitingRetries s ∨ w ∈ waitingVisits s ∨
      (∃ r ∈ s.dem.requests, w ∈ waitingDemand r) ∨ w ∈ waitingRetires s ∨
      (∃ e ∈ s.rpq.entries, w ∈ waitingRepair s e) ∨ (∃ i < 32, w ∈ waitingRelease s i) ∨ (∃ r < 4,
          w ∈ waitingFill s r))) := by
  unfold waiting at h
  split at h
  · exact .inl h
  · rename_i hh
    have hh' : s.fcu.halted = none := by simpa using hh
    simp only [List.mem_append, List.mem_flatMap, List.mem_range] at h
    rcases h with ((((((h | h) | h) | h) | h) | h) | h) | h
    · exact .inl h
    all_goals (refine .inr ⟨hh', ?_⟩; simp only [h, true_or, or_true])

/-- With the port free the first one is granted. -/
theorem arbiterGrants_first {s : State} {w : Waiting} (hport : s.drp.port = none)
    (hf : firstWaiting (waiting s) = some w) :
    arbiterGrants s = grant w s := by
  unfold arbiterGrants; rw [hport, hf]

/-- A flipped line, symbol by symbol. -/
theorem flip_get (e : Injection) (raw : RawLine) (j : Fin 4) (d : Fin 10) :
    (Machine.flip e raw)[j][d] = raw[j][d] ^^^ (if d.val = e.device ∧
        e.codewords.getLsbD j.val then e.pattern else 0#16) := by
  by_cases h : d.val = e.device ∧ e.codewords.getLsbD j.val = true
  · simp [Machine.flip, h]
  · rw [if_neg h]
    have : (Machine.flip e raw)[j][d] = if d.val = e.device ∧
        e.codewords.getLsbD j.val = true then raw[j][d] ^^^ e.pattern else raw[j][d] := by
      simp [Machine.flip]
    rw [this, if_neg h]; simp

/-- What an injection entry XORs into a symbol of a line. -/
def injected (a : LineAddr) (s : State) (i : Nat) (j : Fin 4) (d : Fin 10) : Sym :=
      match getAt s.cod.injections i none with
      | some e => if e.line = a ∧ d.val = e.device ∧ e.codewords.getLsbD j.val then e.pattern else 0#16
      | none => 0#16

/-- An injection entry after a write of a line. -/
def spent (a : LineAddr) (s : State) (i : Nat) : Option Injection :=
      match getAt s.cod.injections i none with
      | some e =>
        if e.line = a then if e.count ≤ 1 then none else some { e with count := e.count - 1 }
        else some e
      | none => none

/-- One injection entry applied. -/
theorem injectOne_spec (a : LineAddr) (raw : RawLine) (s : State) (i : Nat) :
    (∀ j d, (injectOne a (raw, s) i).1[(j : Fin 4)][(d : Fin 10)] = raw[j][d] ^^^ injected a s i j d) ∧
    (injectOne a (raw, s) i).2 =
      { s with cod := { s.cod with injections := setAt s.cod.injections i (spent a s i) } } := by
  unfold injectOne injected spent
  simp only
  cases he : getAt s.cod.injections i none with
  | none =>
    simp only
    refine ⟨by simp, ?_⟩
    rw [← he, setAt_getAt]
  | some e =>
    simp only
    by_cases hl : e.line = a
    · simp only [hl, if_true, true_and]
      exact ⟨fun j d => flip_get _ _ _ _, by first | rfl | trivial⟩
    · simp only [hl, if_false, false_and]
      refine ⟨by simp, ?_⟩
      rw [← he, setAt_getAt]

/-- Both injection entries applied. -/
theorem inject_spec (a : LineAddr) (raw : RawLine) (s : State) :
    (∀ j d, (inject a raw s).1[(j : Fin 4)][(d : Fin 10)] =
        raw[j][d] ^^^ injected a s 0 j d ^^^ injected a s 1 j d) ∧
    (∀ i < 2, getAt (inject a raw s).2.cod.injections i none = spent a s i) ∧
    ∃ v, (inject a raw s).2 = { s with cod := { s.cod with injections := v } } := by
  have h0 := injectOne_spec a raw s 0
  set p := injectOne a (raw, s) 0 with hp
  have h1 := injectOne_spec a p.1 p.2 1
  have hq : inject a raw s = injectOne a (p.1, p.2) 1 := by
    unfold inject; rw [show ([0,1] : List Nat) = [0,1] from rfl]; simp [List.foldl, ← hp]
  have hg : getAt p.2.cod.injections 1 none = getAt s.cod.injections 1 none := by
    rw [h0.2]; exact getAt_setAt_other _ _ _ (by omega)
  have hi1 : ∀ j d, injected a p.2 1 j d = injected a s 1 j d := by intro j d; unfold injected; rw [hg]
  have hs1 : spent a p.2 1 = spent a s 1 := by unfold spent; rw [hg]
  rw [hq]
  refine ⟨fun j d => by rw [h1.1, h0.1, hi1], ?_, ?_⟩
  · intro i hi
    rw [h1.2]; simp only
    rw [getAt_setAt]
    by_cases h : 1 = i
    · subst h; simp [hs1]
    · have : i = 0 := by omega
      subst this
      rw [if_neg (by omega), h0.2]; simp only
      exact getAt_setAt_same _ _ _ (by omega)
  · rw [h1.2, h0.2]; exact ⟨_, rfl⟩

/-- A granted write, in full. -/
theorem grantWrite_spec (op a d b) (s : State) (hp : s.drp.port = none) :
    (∃ raw : RawLine, (grantWrite op a d b s).drp.port = some ⟨op, a, none, some (onBeats raw), false⟩ ∧
      (∀ (j : Fin 4) (x : Fin 10), raw[j][x] = (if b then poison (encode d)
          else encode d)[j][x] ^^^ injected a s 0 j x ^^^ injected a s 1 j x) ∧
      (∀ i < 2, getAt (grantWrite op a d b s).cod.injections i none = spent a s i) ∧
      (grantWrite op a d b s).fcu.contexts = s.fcu.contexts.filter fun c => !(c.work == .patrol &&
          c.line == a)) ∧
    (grantWrite op a d b s).dem = s.dem ∧ (grantWrite op a d b s).rpq = s.rpq ∧
        (grantWrite op a d b s).sls = s.sls ∧
    (∀ r, rankRec (grantWrite op a d b s) r = rankRec s r) := by
  have hi := inject_spec a (if b then poison (encode d) else encode d) s
  obtain ⟨h1, h2, v, h3⟩ := hi
  have hf : (formWrite a d b s) = inject a (if b then poison (encode d) else encode d) s := rfl
  unfold grantWrite
  simp only [hf]
  have hd : (occupy op a none
        (some (onBeats (inject a (if b = true then poison (encode d) else encode d) s).1))
        (dropPatrolRetries (fun b => b == a)
          (inject a (if b = true then poison (encode d) else encode d) s).2)).drp =
      { s.drp with port := some ⟨op, a, none,
        some (onBeats (inject a (if b = true then poison (encode d) else encode d) s).1), false⟩ } := by
    rw [h3]; rfl
  refine ⟨⟨_, by rw [hd], h1, h2, ?_⟩, by rw [h3]; rfl, by rw [h3]; rfl, by rw [h3]; rfl,
      fun r => by unfold rankRec; rw [hd]⟩
  rw [h3]
  simp only [occupy, dropPatrolRetries]
  congr 1; funext c
  have : ∀ x, atPort x { s with cod := { s.cod with injections := v } } = false := by
    intro x; unfold atPort; simp only [hp]
  rw [this]; simp

end Sys2Proof.Machine
end

