-- ==== Sys2Proof/Laws/Starts.lean ====
section
/-! SUPPORT. A QUEUED demand request that DEMAND_START starts: what each operation makes of the state in which it is
STARTED. -/

namespace Sys2Proof.Machine

variable {r : Request} {key : HoldKey} {cls : Option Classification} {p : Phase} {s : State}

/-- The request begins (R22). -/
theorem beginDemand_startedIn (r : Request) (a : LineAddr) (s : State) :
    beginDemand r a s = startedIn r (holdKey s a) none .waitRead s := by
  unfold beginDemand startedIn passMoment updateRequest
  simp only [Option.none_or]

/-- Its phase changes. -/
theorem setPhase_startedIn (p' : Phase) :
    setPhase r.id p' (startedIn r key cls p s) = startedIn r key cls p' s := by
  unfold setPhase updateRequest startedIn
  simp only [List.map_map]
  congr 2
  refine List.map_congr_left fun q _ => ?_
  simp only [Function.comp]
  by_cases h : q.id = r.id <;> simp [h]

/-- It gets its classification (R23). -/
theorem attachClass_startedIn (x : Classification) :
    attachClass r.id x (startedIn r key cls p s) = startedIn r key (some x) p s := by
  unfold attachClass updateRequest startedIn
  simp only [List.map_map]
  congr 2
  refine List.map_congr_left fun q _ => ?_
  simp only [Function.comp]
  by_cases h : q.id = r.id <;> simp [h]

/-- It is found by its name. -/
theorem findRequest_startedIn (h : findRequest r.id s = some r) :
    findRequest r.id (startedIn r key cls p s) =
      some { r with phase := p, age := s.stamp, cls := cls.or r.cls, hold := some key } := by
  unfold findRequest startedIn at *
  have same : ((fun x : Request => x.id == r.id) ∘ fun q => if q.id = r.id then
      { q with phase := p, age := s.stamp, cls := cls.or q.cls, hold := some key } else q) =
        fun x => x.id == r.id := by
    funext q; simp only [Function.comp]; by_cases hq : q.id = r.id <;> simp [hq]
  simp only [List.find?_map, same, h]
  simp

/-- The room that pending completions claim is as before. -/
theorem roomClaims_startedIn : roomClaims (startedIn r key cls p s) = roomClaims s := by
  unfold roomClaims startedIn
  simp only [List.any_map]
  congr 1
  funext d
  congr 1
  funext q
  simp only [Function.comp]; by_cases hq : q.id = r.id <;> simp [hq]

/-- An event is raised as it would be before the start. -/
theorem raiseAt_startedIn (k : EventKind) (n : Nat) (x : Subject) (record : Option RecordName) :
    raiseAt k n x record (startedIn r key cls p s) = startedIn r key cls p (raiseAt k n x record s) := by
  have passes : eventPasses n (startedIn r key cls p s) = eventPasses n s := rfl
  have goes : alertTaken n (startedIn r key cls p s) = alertTaken n s := by
    unfold alertTaken; rw [roomClaims_startedIn]; rfl
  unfold raiseAt
  rw [passes, goes]; split <;> rfl

/-- It completes (R19, R22, R195). -/
theorem complete_startedIn (f : UpFrame) (hn : findRequest r.id s = some r) (hp : p ≠ .completing)
    (ha : s.link.state = .active) (ho : r.orphan = false) (hk : key ∉ s.dem.holdSet)
    (hq : portHolds key s = false) (hc : ∀ x, s.mgu.coreReset = some x → x.request ≠ r.id) :
    complete r.id f (startedIn r key cls p s) = finishedIn r key cls f s := by
  have hlink : (startedIn r key cls p s).link = s.link := rfl
  have hpending : (startedIn r key cls p s).dem.completions = s.dem.completions := rfl
  unfold complete
  rw [findRequest_startedIn hn]
  simp only [hp, ho, hlink, ha]
  unfold finishedIn completionTaken
  rw [hpending, hlink]
  by_cases room : s.dem.completions = [] ∧ s.link.upstream.length < 8
  · have free : ∀ t : State, t.drp = s.drp → portHolds key t = false := by
      intro t ht; rw [portHolds_congr ht]; exact hq
    have kept : s.mgu.coreReset.filter (fun x => x.request != r.id) = s.mgu.coreReset := by
      cases hx : s.mgu.coreReset with
      | none => rfl
      | some c => simp [Option.filter, hc c hx]
    have gone : ((startedIn r key cls p s).dem.requests.filter fun q => q.id != r.id) =
        s.dem.requests.filter fun q => q.id != r.id := by
      unfold startedIn; exact filter_map_id _ _ _ (fun q => rfl)
    have pushedDem : (pushUp f (startedIn r key cls p s)).dem = (startedIn r key cls p s).dem := rfl
    have pushedMgu : (pushUp f (startedIn r key cls p s)).mgu = s.mgu := rfl
    rw [if_pos room]
    simp only [room.1, Config.upstreamBound, room.2, dropRequest_eq, pushedDem, pushedMgu, gone, kept,
      free (pushUp f (startedIn r key cls p s)) rfl]
    simp [pushUp, startedIn, room.1, List.erase_append_right _ hk]
  · have full : (s.dem.completions.isEmpty && decide (s.link.upstream.length < Config.upstreamBound)) =
        false := by
      rw [Bool.eq_false_iff]; intro hx; apply room
      simp [Config.upstreamBound] at hx; exact ⟨hx.1, of_decide_eq_true hx.2⟩
    rw [if_neg room, full]
    simp only [if_false, Bool.false_or, Bool.false_eq_true, bne_self_eq_false, ← hpending]
    exact setPhase_startedIn (s := { s with dem := { s.dem with
      completions := s.dem.completions ++ [⟨r.id, f⟩] } }) .completing

end Sys2Proof.Machine
end

