-- ==== Sys2Proof/Laws/Unsound.lean ====
section
/-! SUPPORT. Checked reads that find an error in the storage of an item, and captures whose check-back finds none: what
each comes to, said once. -/

namespace Sys2Proof.Machine

variable {s : State}

/-! ## Items written twice, or as they were -/

/-- The later write of an item stands. -/
theorem setAt_setAt {α : Type} {n : Nat} (v : Vector α n) (i : Nat) (x y : α) :
    setAt (setAt v i x) i y = setAt v i y := by
  unfold setAt; split <;> simp

/-- The later write of a device entry stands. -/
theorem setDevice_setDevice (n : Nat) (x y : Stored DeviceEntry) (s : State) :
    setDevice n x (setDevice n y s) = setDevice n x s := by
  unfold setDevice; simp [setAt_setAt]

/-- The later write of a region entry stands. -/
theorem setRegion_setRegion (n : Nat) (x y : Stored RegionEntry) (s : State) :
    setRegion n x (setRegion n y s) = setRegion n x s := by
  unfold setRegion; simp [setAt_setAt]

/-- A sound device entry written as it is. -/
theorem setDevice_same {n : Nat} (h : (deviceAt s n).storage = .sound) :
    setDevice n ⟨deviceEntry s n, .sound⟩ s = s := by
  have : (⟨deviceEntry s n, .sound⟩ : Stored DeviceEntry) = deviceAt s n := by unfold deviceEntry; rw [← h]
  rw [this]; unfold setDevice deviceAt; rw [setAt_getAt]

/-- A sound region entry written as it is. -/
theorem setRegion_same {n : Nat} (h : (regionAt s n).storage = .sound) :
    setRegion n ⟨(regionAt s n).value, .sound⟩ s = s := by
  have : (⟨(regionAt s n).value, .sound⟩ : Stored RegionEntry) = regionAt s n := by rw [← h]
  rw [this]; unfold setRegion regionAt; rw [setAt_getAt]

/-! ## The ten device entries of a rank (R110, R111) -/

/-- The device entries, with one of them in this condition. -/
theorem deviceAt_deviceErr {n : Nat} (x : Storage) (m : Nat) (hn : n < 40) :
    deviceAt (deviceErr n x s) m = if m = n then ⟨deviceEntry s n, x⟩ else deviceAt s m := by
  show deviceAt (setDevice n _ s) m = _
  rw [deviceAt_setDevice]
  by_cases h : m = n
  · subst h; simp [hn]
  · rw [if_neg h]; rw [if_neg]; omega

/-- An event leaves the device entries. -/
theorem deviceAt_raise (k : EventKind) (x : Subject) (n : Nat) : deviceAt (raise k x s) n = deviceAt s n := by
  unfold deviceAt raise raiseAt; split <;> rfl

/-- An entry without a single-bit error is not corrected. -/
theorem correctDevice_other {n : Nat} (h : (deviceAt s n).storage ≠ .singleBit) : correctDevice s n = s := by
  unfold correctDevice; split <;> simp_all

/-- The entries of a rank, before and behind its entry `k`. -/
theorem rankEntries_split {r k : Nat} (hk : k < 10) : rankEntries r =
    (List.range k).map (entryNumber r) ++ entryNumber r k ::
      (List.range' (k + 1) (9 - k)).map (entryNumber r) := by
  unfold rankEntries
  rw [show List.range 10 = List.range k ++ k :: List.range' (k + 1) (9 - k) by interval_cases k <;> decide]
  simp

/-- Two entries of a rank with one number are one. -/
theorem entryNumber_inj {r d e : Nat} : entryNumber r d = entryNumber r e ↔ d = e := by
  unfold entryNumber; omega

/-- A rank with a single-bit error in one entry is read with the entry corrected, and the correction reported. -/
theorem readRank_single {r k : Nat} (hr : r < 4) (hk : k < 10) (hs : RankSound r s) :
    readRank r (deviceErr (entryNumber r k) .singleBit s) =
      (true, raise .internalCorrected (.table .health (entryNumber r k)) s) := by
  have hn : entryNumber r k < 40 := by unfold entryNumber; omega
  have fixed : (rankEntries r).foldl correctDevice (deviceErr (entryNumber r k) .singleBit s) =
      raise .internalCorrected (.table .health (entryNumber r k)) s := by
    have one : correctDevice (deviceErr (entryNumber r k) .singleBit s) (entryNumber r k) =
        raise .internalCorrected (.table .health (entryNumber r k)) s := by
      unfold correctDevice
      simp only [deviceAt_deviceErr _ _ hn, if_true]
      congr 1
      show setDevice _ _ (setDevice _ _ s) = s
      rw [setDevice_setDevice, setDevice_same (hs k hk)]
    rw [rankEntries_split hk, List.foldl_append, foldl_fixed _ ((List.range k).map (entryNumber r)),
      List.foldl_cons, one]
    · apply foldl_fixed
      intro m hm
      obtain ⟨d, hd, rfl⟩ := List.mem_map.mp hm
      obtain ⟨i, hi, rfl⟩ := List.mem_range'.mp hd
      apply correctDevice_other
      rw [deviceAt_raise, hs _ (by omega)]; simp
    · intro m hm
      obtain ⟨d, hd, rfl⟩ := List.mem_map.mp hm
      rw [List.mem_range] at hd
      apply correctDevice_other
      rw [deviceAt_deviceErr _ _ hn, if_neg (by rw [entryNumber_inj]; omega), hs _ (by omega)]; simp
  have readable : faultyAmong (rankEntries r)
      (raise .internalCorrected (.table .health (entryNumber r k)) s) = none := by
    unfold faultyAmong rankEntries
    rw [List.find?_eq_none]
    intro m hm
    obtain ⟨d, hd, rfl⟩ := List.mem_map.mp hm
    rw [List.mem_range] at hd
    rw [deviceAt_raise, hs _ hd]; decide
  unfold readRank readDevices
  simp only [fixed, readable]

/-- A rank with one entry beyond correction is not read: the part enters HALTED naming the entry. -/
theorem readRank_faulty {r k : Nat} (hr : r < 4) (hk : k < 10) (hs : RankSound r s) :
    let faulty := deviceErr (entryNumber r k) .uncorrectable s
    readRank r faulty = (false, enterHalted ⟨.health, entryNumber r k⟩ faulty) := by
  have hn : entryNumber r k < 40 := by unfold entryNumber; omega
  have fixed : (rankEntries r).foldl correctDevice (deviceErr (entryNumber r k) .uncorrectable s) =
      deviceErr (entryNumber r k) .uncorrectable s := by
    apply foldl_fixed
    intro m hm
    unfold rankEntries at hm
    obtain ⟨d, hd, rfl⟩ := List.mem_map.mp hm
    rw [List.mem_range] at hd
    apply correctDevice_other
    rw [deviceAt_deviceErr _ _ hn]; split
    · simp
    · rw [hs _ hd]; simp
  have found : faultyAmong (rankEntries r) (deviceErr (entryNumber r k) .uncorrectable s) =
      some (entryNumber r k) := by
    unfold faultyAmong
    rw [rankEntries_split hk, List.find?_append, List.find?_eq_none.mpr]
    · simp [deviceAt_deviceErr _ _ hn]
    · intro m hm
      obtain ⟨d, hd, rfl⟩ := List.mem_map.mp hm
      rw [List.mem_range] at hd
      rw [deviceAt_deviceErr _ _ hn, if_neg (by rw [entryNumber_inj]; omega), hs _ (by omega)]; decide
  show readRank r _ = _
  unfold readRank readDevices
  simp only [fixed, found]

/-! ## Captures (R124, R125) -/

/-- A capture that no error strikes does not fail. -/
theorem captureFailed_ready (c : Capture) (h : RecordsReady s) :
    captureFailed (placeCapture c s).1 (placeCapture c s).2 = none := by
  unfold placeCapture
  split
  · rfl
  · cases captureTarget s with
    | none => rfl
    | some x =>
      simp only [captureFailed, writeCapture, checkBack, recordAt_setRecord, h x]
      rfl

/-- An item of a table lost, with no error in the records: TABLE_FAULT and its capture (R51, R136). -/
theorem tableFault_ready {t : TableId} {i : Nat} (h : RecordsReady s) : tableFault t i s = itemLost t i s := by
  show haltIf (captureFailed (placeCapture (tableCapture t i) s).1 (placeCapture (tableCapture t i) s).2) _ = _
  rw [captureFailed_ready _ h]
  rfl

/-- An event leaves the region table. -/
theorem raiseAt_rgt (k : EventKind) (n : Nat) (x : Subject) (record : Option RecordName) (s : State) :
    (raiseAt k n x record s).rgt = s.rgt := by
  unfold raiseAt; split <;> rfl

/-- A capture leaves the region table. -/
theorem placeCapture_rgt (c : Capture) (s : State) : (placeCapture c s).2.rgt = s.rgt := by
  have record : ∀ (x : RecordName) (r : CaptureRecord) (u : State), (setRecord x r u).rgt = u.rgt := by
    intro x r u; cases x <;> rfl
  have back : ∀ (x : RecordName) (u : State), (checkBack x u).rgt = u.rgt := by
    intro x u; unfold checkBack; split
    · rfl
    · rw [raise_rgt, record]
    · rw [record]
  unfold placeCapture
  split
  · rfl
  · cases captureTarget s with
    | some x => show (checkBack _ _).rgt = _; rw [back, record]
    | none => rw [raise_rgt]; rfl

/-! ## The sixteen region entries (R50, R51) -/

/-- The region entries, with one of them in this condition. -/
theorem regionAt_regionErr {i : Nat} (x : Storage) (j : Nat) (hi : i < 16) :
    regionAt (regionErr i x s) j = if j = i then ⟨(regionAt s i).value, x⟩ else regionAt s j := by
  show regionAt (setRegion i _ s) j = _
  rw [regionAt_setRegion]
  by_cases h : j = i
  · subst h; simp [hi]
  · rw [if_neg h]; rw [if_neg]; omega

/-- A table with an error in one entry is read as that entry is. -/
theorem checkRegions_one {i : Nat} {x : Storage} {t : State} (hi : i < 16) (hs : RegionsSound s)
    (ht : t.rgt = s.rgt ∨ t.rgt = (regionEmptied i s).rgt) (h : checkRegion (regionErr i x s) i = t) :
    checkRegions (regionErr i x s) = t := by
  have sound : ∀ j < 16, j ≠ i → (regionAt t j).storage = .sound := by
    intro j hj hne
    unfold regionAt
    rcases ht with ht | ht <;> rw [ht]
    · exact hs j hj
    · show (getAt (setAt s.rgt.entries i _) j _).storage = _
      rw [getAt_setAt_other _ _ _ (Ne.symm hne)]; exact hs j hj
  unfold checkRegions
  rw [show List.range 16 = List.range i ++ i :: List.range' (i + 1) (15 - i) by interval_cases i <;> decide,
    List.foldl_append, foldl_fixed _ (List.range i), List.foldl_cons, h]
  · apply foldl_fixed
    intro j hj
    obtain ⟨k, hk, rfl⟩ := List.mem_range'.mp hj
    exact checkRegion_sound (sound _ (by omega) (by omega))
  · intro j hj
    rw [List.mem_range] at hj
    apply checkRegion_sound
    rw [regionAt_regionErr _ _ hi, if_neg (by omega)]; exact hs j (by omega)

/-- A table with a single-bit error in one entry is read with the entry corrected, and the correction reported. -/
theorem checkRegions_single {i : Nat} (hi : i < 16) (hs : RegionsSound s) :
    checkRegions (regionErr i .singleBit s) = raise .internalCorrected (.table .region i) s := by
  refine checkRegions_one hi hs (.inl (raise_rgt _ _ _)) ?_
  unfold checkRegion
  rw [regionAt_regionErr _ _ hi]
  simp only [if_true]
  rw [show regionErr i .singleBit s = setRegion i ⟨(regionAt s i).value, .singleBit⟩ s from rfl,
    setRegion_setRegion, setRegion_same (hs i hi)]

/-- A table with one entry beyond correction is read with the entry emptied: TABLE_FAULT and its capture. -/
theorem checkRegions_lost {i : Nat} (hi : i < 16) (hs : RegionsSound s) (hr : RecordsReady s) :
    checkRegions (regionErr i .uncorrectable s) = itemLost .region i (regionEmptied i s) := by
  refine checkRegions_one hi hs (.inr ?_) ?_
  · unfold itemLost reported
    rw [raiseAt_rgt, placeCapture_rgt]
  · unfold checkRegion
    rw [regionAt_regionErr _ _ hi]
    simp only [if_true]
    rw [show regionErr i .uncorrectable s = setRegion i ⟨(regionAt s i).value, .uncorrectable⟩ s from rfl,
      setRegion_setRegion]
    exact tableFault_ready hr

end Sys2Proof.Machine
end

