-- ==== Sys2Proof/Tests/Slice0.lean ====
section
/-! SUPPORT. Tests: commands that cannot be sent, the manual's worked examples, and for every statement with
hypotheses a state that meets them. -/

namespace Sys2Proof.Tests

-- One theorem after another: each waits for the kernel, and waiting in parallel takes a thread apiece.
set_option Elab.async false

open Sys2Proof.Machine

/-! ## States -/

/-- What a test asks of the next state. -/
def after (o : Host.Outcome State Fault Refusal) (p : State → Bool) : Bool :=
  match o with
  | .next t => p t
  | _ => false

/-- A part of one rank with the link ACTIVE, rank 0 ONLINE and the cursor at its index 0. -/
def ready : State :=
  { State.reset with
    link := { State.reset.link with state := .active }
    psc := { State.reset.psc with cursor := some ⟨0, 0⟩, wholeSweep := true }
    drp := { State.reset.drp with
      ranks := setAt State.reset.drp.ranks 0 ⟨.online, false, 0, some 36⟩ } }

/-- The requests of a state replaced, with a stamp above their names. -/
def withRequests (l : List Request) (s : State) : State :=
  { s with dem := { s.dem with requests := l }, stamp := 100 }

/-- A QUEUED management request with tag 9. -/
def request (kind : Nat) (args : List Byte) : Request :=
  { id := 50, tag := 9, body := .manage kind args, phase := .queued, age := 50, cls := none,
    hold := none, orphan := false }

/-- A state in which that request waits alone. -/
def asked (kind : Nat) (args : List Byte) (s : State) : State := withRequests [request kind args] s

theorem taken_asked {kind : Nat} {args : List Byte} {s : State} (hp : s.link.por = false)
    (ha : s.link.state = .active) (hr : s.mgu.coreReset = none)
    (hc : takeCheck kind args s = none) :
    Taken kind args (request kind args) (asked kind args s) :=
  { released := hp, active := ha, oldest := rfl
    notReset := fun c h => by have : s.mgu.coreReset = some c := h; rw [hr] at this; cases this
    passes := hc, named := rfl, buffered := rfl, unheld := rfl }

theorem test_ready_sound : Sound ready where
  credit := by unfold CreditBounded; decide +kernel
  history := by unfold HistoryBounded; decide +kernel
  link := by unfold Link.Fits; decide +kernel
  devices := by unfold DevicesFit DeviceEntry.Fits; decide +kernel
  marks := by unfold OneMarkPerRank; decide +kernel
  buffer := by unfold BufferFits; decide +kernel
  named := by unfold RequestsNamed; decide +kernel
  queued := by unfold QueuedFit; decide +kernel
  holds := by unfold HoldSetFits; decide +kernel
  repairs := by unfold RepairQueueFits; decide +kernel
  slots := by
    intro i hi j hj a h
    have : ∀ i < 32, slotAt ready i = .free := by decide +kernel
    rw [this i hi] at h; cases h
  holder := fun e he => by cases he
  cursor := by show rankState ready 0 = .online ∧ 0 < depth ready; decide +kernel
  ranks := by unfold RanksFitStraps; decide +kernel
  settings := by
    unfold SettingsInRange Profile.InRange
    have noInjection : ∀ i < 2, getAt ready.cod.injections i none = none := by decide +kernel
    have armed : ∀ i < 2, ∀ e, getAt ready.cod.injections i none = some e → 1 ≤ e.count ∧ e.count ≤ 255 := by
      intro i hi e he; rw [noInjection i hi] at he; cases he
    repeat' refine And.intro ?_ ?_
    all_goals first
      | exact armed
      | decide +kernel
  counters := by unfold Counters.Bounded; decide +kernel

theorem asked_sound (kind : Nat) (args : List Byte) : Sound (asked kind args ready) where
  credit := test_ready_sound.credit
  history := test_ready_sound.history
  link := test_ready_sound.link
  devices := test_ready_sound.devices
  marks := test_ready_sound.marks
  buffer := ⟨by simp [bufferedRequests, asked, withRequests, request],
    by simp [bufferedRequests, asked, withRequests, request]⟩
  named := ⟨by simp [asked, withRequests, request], by simp [asked, withRequests, request]⟩
  queued := by intro r hr _; rw [List.mem_singleton.mp hr]; exact ⟨rfl, rfl, rfl⟩
  holds := test_ready_sound.holds
  repairs := ⟨test_ready_sound.repairs.1, test_ready_sound.repairs.2.1, test_ready_sound.repairs.2.2.1,
    fun e he => by cases he⟩
  slots := test_ready_sound.slots
  holder := fun e he => by cases he
  cursor := test_ready_sound.cursor
  ranks := test_ready_sound.ranks
  settings := test_ready_sound.settings
  counters := test_ready_sound.counters

/-- A line of rank 0. -/
def line : LineAddr := ⟨0, 0x100⟩

/-- Data whose first byte is 1, as in the example of 1.9.1. -/
def data : Line := zeroLine.set 0 1

/-- The data of a slot, its storage in this condition. -/
def storedAs (x : Storage) : StoredLine := ⟨data, x, zeroLine⟩

/-- The data of a slot, sound. -/
def stored : StoredLine := storedAs .sound

/-- A READ of the line, a WRITE to it, and a MASKED_WRITE of bytes 8 to 15, with tag 5. -/
def readFrame : List Byte := hostFrame 5 (.read line)
def writeFrame : List Byte := hostFrame 5 (.write line data)
def maskedFrame (mask : ByteMask) : List Byte := hostFrame 5 (.maskedWrite line mask data)

/-- A repair entry for the line. -/
def entry (kind : RepairKind) (state : RepairState) : RepairEntry :=
  { id := 10, line := line, kind := kind, data := data, verify := false, replayed := false, state := state,
    retired := false }

/-- The queue holds that entry alone. -/
def withEntry (kind : RepairKind) (state : RepairState) (s : State) : State :=
  { s with rpq := { entries := [entry kind state] }, stamp := 100 }

/-- A demand request with tag 9 that is STARTED for the line. -/
def started (body : RequestBody) (phase : Phase) : Request :=
  { id := 50, tag := 9, body := body, phase := phase, age := 60, cls := some ⟨none, .standard, 6⟩,
    hold := some (.line line), orphan := false }

/-- It stands alone in the buffer, its line held. -/
def busyWith (body : RequestBody) (phase : Phase) (s : State) : State :=
  { s with dem := { requests := [started body phase], holdSet := [.line line], completions := [] }
           stamp := 100 }

/-- A demand request with tag 7 that is QUEUED. -/
def queued (body : RequestBody) : Request :=
  { started body .queued with id := 51, tag := 7, hold := none, cls := none }

/-- It waits beside what the buffer holds. -/
def waitingFor (body : RequestBody) (s : State) : State := withRequests (s.dem.requests ++ [queued body]) s

/-- An operation on the line at DRAM. -/
def granted (op : PortOp) (s : State) : State :=
  { s with drp := { s.drp with port := some ⟨op, line, some ⟨none, .standard, 6⟩, none, false⟩ } }

/-- The part is HALTED for an error in device entry 21. -/
def halted (s : State) : State := { s with fcu := { s.fcu with halted := some ⟨.health, 21⟩ } }

/-- The link in another state. -/
def linkIn (x : LinkState) (s : State) : State := { s with link := { s.link with state := x } }

/-- The patrol is running with its cursor on the line as the visit line, and this much credit. -/
def patrolling (credit : Nat) (s : State) : State :=
  { s with psc := { s.psc with
      running := true, cursor := some line, cursorPhase := .visitLine ⟨none, .standard, 6⟩, credit := credit } }

theorem let_in {tag : Byte} {body : RequestBody} {s : State}
    (hb : goodFrame (hostFrame tag body) = true) (hp : s.link.por = false := by decide +kernel)
    (ha : s.link.state = .active := by decide +kernel)
    (hr : s.mgu.coreReset = none := by decide +kernel)
    (hd : s.dem.requests = [] := by decide +kernel) : LetIn (hostFrame tag body) s :=
  { released := hp, active := ha, good := hb, noReset := hr
    room := by simp [bufferedRequests, hd]
    free := by simp [bufferedRequests, hd]
    named := by simp [hd] }

/-- A frame is let in beside requests with another tag. -/
theorem let_in_beside {frame : List Byte} {s : State} (hb : goodFrame frame = true)
    (h : s.link.por = false ∧ s.link.state = .active ∧ s.mgu.coreReset = none ∧
      (bufferedRequests s).length < 32 ∧ (∀ r ∈ bufferedRequests s, r.tag ≠ frameTag frame) ∧
      ∀ r ∈ s.dem.requests, r.id < s.stamp := by decide +kernel) : LetIn frame s :=
  ⟨h.1, h.2.1, hb, h.2.2.2.1, h.2.2.2.2.1, h.2.2.1, h.2.2.2.2.2⟩

theorem everyStorage {P : Storage → Prop} (h : P .sound) (k : P .singleBit) (l : P .uncorrectable) : ∀ x, P x :=
  fun x => by cases x <;> assumption

theorem everyBool {P : Bool → Prop} (h : P false) (k : P true) : ∀ b, P b := fun b => by cases b <;> assumption

theorem recordsReady {s : State}
    (h : (recordAt s .a).strike = .sound ∧ (recordAt s .b).strike = .sound := by decide +kernel) :
    RecordsReady s := fun x => by cases x <;> simp [h]

theorem tablesSound {s : State}
    (hr : ∀ i < 16, (regionAt s i).storage = .sound := by decide +kernel)
    (hp : (storedProfile s s.psc.phase).storage = .sound := by decide +kernel) : PatrolTablesSound s := ⟨hr, hp⟩

/-- The test of a line that is not skipped. -/
theorem visits {a : LineAddr} {visited : Bool} {s : State}
    (h : holder a s = .none ∧ (classify a s).cls ≠ .exempt := by decide +kernel) :
    ∃ run, SkipRun s a visited run := ⟨_, .visit a visited (by unfold Skipped; simp [h])⟩

/-- The test of a held line, and of the line behind it. -/
theorem skips {a : LineAddr} (b : LineAddr) {visited : Bool} {s : State}
    (h : holder a s ≠ .none ∧ b.rank = a.rank ∧ b.index.toNat = a.index.toNat + 1 ∧
      b.index.toNat < depth s := by decide +kernel)
    (hb : ∃ run, SkipRun s b visited run) : ∃ run, SkipRun s a visited run :=
  ⟨hb.choose, .skip a b visited hb.choose (.inl h.1) h.2.1 h.2.2.1 h.2.2.2 hb.choose_spec⟩

/-- The test of the held last line of a rank, before which a line was visited, or none. -/
theorem endsPass {a : LineAddr} {visited : Bool} {s : State} (q : Nat)
    (h : holder a s ≠ .none ∧ a.index.toNat + 1 = depth s ∧
      (∀ d < 10, (deviceAt s (entryNumber (rankOf a) d)).storage = .sound) ∧
      ([(rankOf a + 1) % 4, (rankOf a + 2) % 4, (rankOf a + 3) % 4, rankOf a].find? fun p =>
        decide (rankState s p = .online)) = some q := by decide +kernel)
    (hb : ∃ run, SkipRun s (lineAt q 0) false run) : ∃ run, SkipRun s a visited run := by
  cases visited
  · exact ⟨_, .putOff a q (.inl h.1) h.2.1 h.2.2.1 h.2.2.2⟩
  · exact ⟨_, .goOn a q hb.choose (.inl h.1) h.2.1 h.2.2.1 h.2.2.2 hb.choose_spec⟩

theorem startable {a : LineAddr} {s : State} (h : HoldKey.line a ∉ s.dem.holdSet := by decide +kernel)
    (hq : portHolds (.line a) s = false := by decide +kernel)
    (hf : queuedBefore (.line a) s = false := by decide +kernel)
    (hh : s.fcu.halted = none := by decide +kernel)
    (hi : a.index.toNat < depth s := by decide +kernel)
    (ho : rankState s (rankOf a) = .online := by decide +kernel)
    (hl : s.cod.loopLine = none := by decide +kernel)
    (hr : ∀ i < 16, (regionAt s i).storage = .sound := by decide +kernel) : Startable a s :=
  { free := h, quiet := hq, first := hf, served := hh, inside := hi, online := ho, loopOff := hl
    regions := hr }

theorem test_read_frame_is_good : goodFrame readFrame = true ∧ frameBody readFrame = .read line := by
  decide +kernel

theorem test_write_frame_is_good : goodFrame writeFrame = true ∧ frameBody writeFrame = .write line data :=
  ⟨goodFrame_checked _ _ (by decide +kernel), by decide +kernel⟩

theorem good_masked (mask : ByteMask) : goodFrame (maskedFrame mask) = true :=
  goodFrame_checked _ _ (by simp [length_packedAddress, length_packedMask]; rfl)

theorem taken {kind : Nat} {args : List Byte} {s : State}
    (hp : s.link.por = false := by decide +kernel) (ha : s.link.state = .active := by decide +kernel)
    (hr : s.mgu.coreReset = none := by decide +kernel)
    (hc : takeCheck kind args s = none := by decide +kernel) :
    Taken kind args (request kind args) (asked kind args s) := taken_asked hp ha hr hc

/-- The classification that a line of no region has in these states. -/
def plain : Classification := ⟨none, .standard, 6⟩

/-- The operation that `granted` puts at DRAM. -/
def read (op : PortOp) : Granted := ⟨op, line, some plain, none, false⟩

/-- The encoding of `data` with bit 0 of D2 flipped in C0. -/
def flipped : RawLine := (encode data).set 0 ((encode data)[0].set 2 1)

/-- A raw line with two devices wrong in C0. -/
def twoWrong : RawLine := zeroRaw.set 0 ((zeroRaw[0].set 1 1).set 6 1)

/-- A patrol retry of the line is waiting. -/
def retrying (s : State) : State :=
  { s with fcu := { s.fcu with contexts := [⟨7, line, .patrol, plain, zeroRaw, false⟩] } }

/-- The next write of record `x` meets this error. -/
def struck (x : RecordName) (k : Storage) (s : State) : State := setRecord x { recordAt s x with strike := k } s

/-- Slot 3 is being released for the line, for request 50. -/
def releasingAs (x : Storage) (s : State) : State :=
  setSlot 3 (.releasing line (storedAs x) 0 (some ⟨50, 70⟩))
    (withRequests [{ request 13 [3] with phase := .serving }] s)

def releasing (s : State) : State := releasingAs .sound s

/-- Rank 0 is being filled, next at this position. -/
def filling (position : Nat) (s : State) : State := setRank 0 ⟨.filling, false, position, some 36⟩ s

/-- Both injection entries name the line, the first for its last write. -/
def armed (s : State) : State :=
  { s with cod := { s.cod with
      injections := #v[some ⟨line, 8, 15, 0x6A5C, 1⟩, some ⟨line, 9, 1, 0x6A5C, 255⟩] } }

/-- A Core Reset of this flavour is in progress for the request 50. -/
def resetting (flavour : Flavour) (s : State) : State :=
  { s with mgu := { s.mgu with coreReset := some ⟨flavour, 50⟩ } }

/-- A capture as a patrol visit's confirmed line leaves it, and one with a held write. -/
def capturedWith (held : Option (ByteMask × Line)) : Capture :=
  { kind := if held.isSome then .rmwUe else .patrolUe, line := some line, region := none, phase := 0, time := 5,
    retry := some .persistent, outcomes := notReadOutcomes, mark := none, held := held, table := none }

/-- Record A in this condition. -/
def recordedAs (content : RecordContent) (storage : Storage) (s : State) : State :=
  setRecord .a ⟨content, storage, .sound⟩ s

/-- The part has nothing at the port. -/
def freed (s : State) : State := { s with drp := { s.drp with port := none } }

/-- Slot `n` is ACTIVE for a line of rank 2, for every `n` in the list. -/
def slotsHeld (l : List Nat) (s : State) : State := l.foldl (fun u n => setSlot n (.active ⟨2, 0⟩ stored 0) u) s

theorem answerable {r : Request} {s : State} (ha : s.link.state = .active := by decide +kernel)
    (hn : findRequest r.id s = some r := by decide +kernel) (hb : r.orphan = false := by decide +kernel)
    (hp : r.phase ≠ .completing := by decide +kernel) (hr : s.mgu.coreReset = none := by decide +kernel) :
    Answerable r s :=
  { active := ha, named := hn, buffered := hb, unanswered := hp
    notReset := fun c h => by rw [hr] at h; cases h }

theorem finishing {g : Granted} {s : State} (hp : s.link.por = false := by decide +kernel)
    (hg : s.drp.port = some g := by decide +kernel) (hh : s.fcu.halted = none := by decide +kernel)
    (hr : ∀ d < 10, (deviceAt s (entryNumber (rankOf g.line) d)).storage = .sound := by decide +kernel) :
    Finishing g s :=
  { released := hp, port := hg, served := hh, rank := hr }

theorem unattended {a : LineAddr} {s : State} (hf : followerOf a s = none := by decide +kernel)
    (hc : s.fcu.contexts = [] := by decide +kernel) (hr : s.sls.retires = [] := by decide +kernel)
    (hp : s.psc.cursor ≠ some a := by decide +kernel) : Unattended a s :=
  { follower := hf, contexts := hc, retires := hr, cursor := hp }

/-- The QUEUED request `r` for line `a` is the one that DEMAND_START starts. -/
theorem startsNext {r : Request} {a : LineAddr} {s : State} (hp : s.link.por = false := by decide +kernel)
    (ha : s.link.state = .active := by decide +kernel)
    (hf : holdKey s a ∉ s.dem.holdSet ∧ portHolds (holdKey s a) s = false := by decide +kernel)
    (ho : oldestQueued (holdKey s a) s = some (r, a) := by decide +kernel)
    (hn : findRequest r.id s = some r := by decide +kernel) (hb : r.orphan = false := by decide +kernel)
    (hr : s.mgu.coreReset = none := by decide +kernel)
    (hw : ∀ i < 32, (match slotAt s i with
      | .releasing _ _ _ (some w) => w.request != r.id
      | _ => true) = true := by decide +kernel) : StartsNext r a s :=
  { released := hp, active := ha, free := hf.1, quiet := hf.2, oldest := ho, named := hn, buffered := hb
    notReset := fun c h => by rw [hr] at h; cases h
    unreleased := fun i hi b d t w h => by have k := hw i hi; rw [h] at k; simpa using k }

/-- A demand request that waits alone starts next, whatever it asks of its line. -/
theorem startsNext_alone {body : RequestBody} {a : LineAddr} {s : State} (hl : body.line? = some a)
    (h : s.link.por = false ∧ s.link.state = .active ∧ holdKey s a ∉ s.dem.holdSet ∧
      portHolds (holdKey s a) s = false ∧ s.dem.requests = [] ∧ s.mgu.coreReset = none := by decide +kernel)
    (hw : ∀ i < 32, (match slotAt s i with
      | .releasing _ _ _ (some w) => w.request != 51
      | _ => true) = true := by decide +kernel) :
    StartsNext (queued body) a (waitingFor body s) := by
  have hb : (waitingFor body s).dem.requests = [queued body] := by simp [waitingFor, withRequests, h.2.2.2.2.1]
  have hq : oldestQueued (holdKey s a) (waitingFor body s) = some (queued body, a) := by
    unfold oldestQueued
    rw [hb]
    have hk : holdKey (waitingFor body s) a = holdKey s a := rfl
    simp [queued, started, hl, hk]
  have hn : findRequest 51 (waitingFor body s) = some (queued body) := by
    unfold findRequest
    rw [hb]; rfl
  exact startsNext (hp := h.1) (ha := h.2.1) (hf := ⟨h.2.2.1, h.2.2.2.1⟩) (ho := hq) (hn := hn) (hb := rfl)
    (hr := h.2.2.2.2.2) (hw := hw)

theorem taken_by {kind : Nat} {args : List Byte} {r : Request} {s : State}
    (hp : s.link.por = false := by decide +kernel) (ha : s.link.state = .active := by decide +kernel)
    (ho : oldestManage s = some (r, kind, args) := by decide +kernel)
    (hr : s.mgu.coreReset = none := by decide +kernel)
    (hc : takeCheck kind args s = none := by decide +kernel)
    (hn : findRequest r.id s = some r := by decide +kernel)
    (hb : r.orphan = false := by decide +kernel) (hu : r.hold = none := by decide +kernel) :
    Taken kind args r s :=
  { released := hp, active := ha, oldest := ho, passes := hc, named := hn, buffered := hb, unheld := hu
    notReset := fun c h => by rw [hr] at h; cases h }

/-- With the line of every slot but one unnamed, no two slots name one line. -/
theorem slotsFit {s : State} (k : Nat)
    (h : ∀ i < 32, i ≠ k → (slotAt s i).line? = none := by decide +kernel) : SlotsFit s := by
  intro i hi j hj a hia hja
  by_cases hik : i = k
  · by_cases hjk : j = k
    · rw [hik, hjk]
    · rw [h j hj hjk] at hja; cases hja
  · rw [h i hi hik] at hia; cases hia

/-- Slot `i` is the lowest-numbered FREE one. -/
theorem firstFree {i : Nat} {s : State} (hi : i < 32 := by decide)
    (hf : slotAt s i = .free ∧ ∀ j < i, slotAt s j ≠ .free := by decide +kernel) : FreeOrOldest i s :=
  ⟨hi, .inl hf⟩

/-! ## Commands that the outside world cannot send -/

theorem test_lanes_are_4_or_8 : (Instr.laneLock 4 [0, 1, 2]).wellFormed = false := by decide

theorem test_a_read_is_no_write_frame : (Instr.read writeFrame).wellFormed = false := by
  show frameFits 0x10 writeFrame = false
  unfold frameFits; rw [test_write_frame_is_good.1]; decide +kernel

theorem test_a_write_is_no_read_frame : (Instr.write readFrame).wellFormed = false := by decide +kernel

theorem test_a_masked_write_is_no_read_frame : (Instr.maskedWrite readFrame).wellFormed = false := by
  decide +kernel

theorem test_a_manage_is_no_read_frame : (Instr.manage readFrame).wellFormed = false := by decide +kernel

theorem test_there_is_no_rank_4 : (Instr.lazyWaitExpiry ⟨4, 0⟩).wellFormed = false := by decide

theorem test_a_corrected_error_flips_nothing :
    (Instr.storageError (.slot 0 data) .singleBit).wellFormed = false := by decide +kernel

theorem test_a_read_frame_is_well_formed :
    (Instr.read readFrame).wellFormed = true ∧ (Instr.read [0x11]).wellFormed = true := by decide +kernel

/-! ## The line code: the examples of 1.9 -/

theorem test_encoding_of_1_9_1 :
    (encode data)[0] = #v[0x0100, 0, 0, 0, 0, 0, 0, 0, 0x01FF, 0x00FF] ∧
      ∀ j : Fin 4, j ≠ 0 → (encode data)[j] = Vector.replicate 10 0 := by decide +kernel

theorem test_poison_form_of_1_9_2 :
    (poison (encode data))[0][8] = 0x6BA3 ∧ (poison (encode data))[0][9] = 0x6AA3 ∧
      (poison (encode data))[3][8] = 0x6A5C ∧
      (decodeLine line .demand (some 3) none false (poison (encode data))).verdict = .poisoned := by
  decide +kernel

/-- Byte 0 of the line is D0 of beat 0, byte 17 D0 of beat 3; the check symbols 0x01FF and 0x00FF of C0 stand in
beats 0 and 1, their high bytes first (T95). -/
theorem test_beats_of_T95 :
    let beats := onBeats (encode (data.set 17 0x5A))
    beats[0][0] = 1 ∧ beats[1][0] = 0 ∧ beats[3][0] = 0x5A ∧ beats[2][0] = 0 ∧
      beats[0][8] = 0x01 ∧ beats[1][8] = 0xFF ∧ beats[0][9] = 0x00 ∧ beats[1][9] = 0xFF := by decide +kernel

/-- D2 of C0 comes back with bit 0 flipped, D7 of C3 with bit 15. -/
theorem test_scattered_line_of_1_9_3 :
    let raw : RawLine := ((encode data).set 0 ((encode data)[0].set 2 1)).set 3 ((encode data)[3].set 7 0x8000)
    let v := decodeLine line .demand none none false raw
    v.verdict = .corrected ∧ v.corrected = data ∧ v.rawData[5] = 1 ∧ v.rawData[62] = 0x80 ∧
      v.correction = some { fixed := [⟨2, 1, 1⟩, ⟨7, 1, 1⟩], fill := none, erasureOnly := false,
                            scattered := true } := by decide +kernel

theorem test_single_and_double_error_of_1_9_3 :
    let one : Codeword := (Vector.replicate 10 0).set 3 0x0040
    let two : Codeword := one.set 5 0x0001
    outcomeOf none one = .fixed 3 0x0040 ∧ outcomeOf (some 3) one = .filled 0x0040 ∧
      outcomeOf none two = .uncorrectable ∧ outcomeOf (some 3) two = .uncorrectable := by decide +kernel

/-- Entry 1 with the codeword set C0 alone: C0 is a poison mark, the others are FIXED at D8 with weight 8. -/
theorem test_injected_line_of_1_9_4 :
    let raw := (formWrite line data false (armed ready)).1
    let v := decodeLine line .demand none none false raw
    v.outcomes = #v[.poisonMark, .fixed 8 0x6A5C, .fixed 8 0x6A5C, .fixed 8 0x6A5C] ∧
      patternWeight 0x6A5C = 8 ∧ v.verdict = .uncorrectable := by decide +kernel

/-! ## Frames -/

/-- The published check value of this check over the nine digits. -/
theorem test_frame_check : frameCheck [0x31, 0x32, 0x33, 0x34, 0x35, 0x36, 0x37, 0x38, 0x39] = 0x29B1 := by
  decide +kernel

/-- With a READ of the line STARTED under tag 9, a second of the line waits, and one that carries its tag
clashes (2.8.1). -/
theorem test_requests_of_2_8_1 :
    let s := busyWith (.read line) .waitRead ready
    after (exec (.read (hostFrame 6 (.read line))) s) (fun t =>
      t.dem.requests.map (fun r => (r.tag, r.phase)) == [(9, .waitRead), (6, .queued)] &&
        t.dem.holdSet == [.line line]) = true ∧
    after (exec (.read (hostFrame 9 (.read ⟨0, 0x300⟩))) s) (fun t =>
      t.dem.requests.length == 1 && t.link.transmitting.isSome) = true := by decide +kernel

/-! ## Regions and events -/

/-- The region plan of 3.7.1. -/
def plan : State :=
  setRegion 0 ⟨⟨true, ⟨0, 0x0400000⟩, 3, 0x3FFFC00, .journal, 7⟩, .sound⟩
    (setRegion 1 ⟨⟨true, ⟨0, 0x0400000⟩, 3, 0x3C00000, .hot, 7⟩, .sound⟩
      (setRegion 2 ⟨⟨true, ⟨3, 0x2000000⟩, 3, 0x2000000, .journal, 7⟩, .sound⟩
        (setRegion 3 ⟨⟨true, ⟨1, 0⟩, 3, 0, .exempt, 2⟩, .sound⟩
          { ready with rgt := { ready.rgt with defaultLevel := 5 } })))

theorem test_lookups_of_3_7_1 :
    classify ⟨0, 0x0400010⟩ plan = ⟨some 0, .journal, 7⟩ ∧ classify ⟨0, 0x0500000⟩ plan = ⟨some 1, .hot, 7⟩ ∧
      classify ⟨0, 0x0800000⟩ plan = ⟨none, .standard, 5⟩ ∧ classify ⟨1, 0x123⟩ plan = ⟨some 3, .exempt, 2⟩ ∧
      classify ⟨2, 0x40⟩ plan = ⟨none, .standard, 5⟩ ∧ classify ⟨3, 0x2000001⟩ plan = ⟨some 2, .journal, 7⟩ ∧
      classify ⟨3, 0x1FFFFFF⟩ plan = ⟨none, .standard, 5⟩ := by decide +kernel

/-- A lookup finds E1's storage uncorrectable (3.7.3). -/
theorem test_storage_fault_of_3_7_3 :
    let s := errorArises (.region 1) .uncorrectable plan
    let t := (lookup ⟨0, 0x0500040⟩ s).2
    (lookup ⟨0, 0x0500040⟩ s).1 = ⟨none, .standard, 5⟩ ∧ (regionAt t 1).value = emptyRegion ∧
      (recordAt t .a).content = .held (tableCapture .region 1) ∧ (recordAt t .b).content = .empty ∧
      t.fcu.next = .b ∧ t.link.transmitting.isSome := by decide +kernel

/-- Events against the mask (10.8.1). -/
theorem test_events_of_10_8_1 :
    let sent := fun (mask : Nat) (f : State → State) =>
      (f { ready with mgu := { ready.mgu with mask := mask } }).link.transmitting.isSome
    sent 3 (raise .sweepDone (.rank 2)) = false ∧ sent 3 (raise .deviceSuspect (.device 1 3)) = false ∧
      sent 3 (raise .patrolLag .none) = true ∧ sent 7 (raise .deviceSecond (.device 2 6)) = false ∧
      sent 7 (raise .halted (.table .health 21)) = true ∧ sent 0 (raise .stealOn .none) = true := by
  decide +kernel

/-! ## The link -/

/-- The slip at 1,100 µs after those at 0 and 600, and the one at 1,500 µs after those at 600 and 1,100, on LNK's
own timer (R192). -/
theorem test_slips_of_R192 :
    let slipped := fun (timer : Nat) (slips : List Nat) =>
      { ready with link := { ready.link with timer := timer, slips := slips } }
    after (exec (.elasticSlip ⟨500, 13⟩) (slipped 600 [600, 0])) (fun t =>
      t.link.slips == [1100, 600] && t.link.timer == 1100 && t.link.state == .active) = true ∧
    after (exec (.elasticSlip ⟨400, -13⟩) (slipped 1100 [1100, 600])) (fun t =>
      t.link.slips == [] && t.link.state == .training .laneLock && t.link.transmitting.isNone) = true := by
  decide +kernel

/-- The buffer's fill before a drift, in a link state. -/
def drifted (x : LinkState) (fill : Int) : State := { ready with link := { ready.link with state := x, fill := fill } }

/-- A drift to 12 symbols from the centre is absorbed, one to 13 is a slip and leaves the buffer at its centre: with an
event in ACTIVE, without one in ECHO, back to step 2 in the ready exchange (R191). -/
theorem test_drifts_of_R191 :
    let leaves := fun (x : LinkState) (fill symbols : Int) (p : Link → Bool) =>
      after (exec (.elasticSlip ⟨0, symbols⟩) (drifted x fill)) fun t => p t.link
    leaves .active 0 12 (fun l => l.fill == 12 && l.slips == [] && l.transmitting.isNone) = true ∧
    leaves .active 12 1 (fun l => l.fill == 0 && l.slips == [0] && l.transmitting.isSome) = true ∧
    leaves .active (-12) (-1) (fun l => l.fill == 0 && l.slips == [0] && l.transmitting.isSome) = true ∧
    leaves .echo 5 8 (fun l => l.fill == 0 && l.state == .echo && l.transmitting.isNone) = true ∧
    leaves (.training .readyExchange) 5 7 (fun l => l.fill == 12 && l.state == .training .readyExchange) = true ∧
    leaves (.training .readyExchange) 5 8 (fun l => l.fill == 0 && l.state == .training .deskew) = true := by
  decide +kernel

/-- A part on four lanes locks whatever lanes 4 to 7 carry, and not with a lane of its own wrong (R187, R189). -/
theorem test_lanes_not_in_use_are_ignored :
    let s := linkIn (.training .laneLock) ready
    after (exec (.laneLock 4 [0, 1, 2, 3, 9, 9, 9, 9]) s) (fun t => t.link.state == .training .deskew) = true ∧
    after (exec (.laneLock 4 [0, 1, 3, 2]) s) (fun t => t.link.state == .training .laneLock) = true ∧
    after (exec (.laneLock 8 [0, 1, 2, 3, 4, 5, 6, 7]) s) (fun t => t.link.state == .training .laneLock) = true := by
  decide +kernel

/-- Byte i travels on lane i modulo the width: six bytes on four lanes (R193). -/
theorem test_bytes_on_four_lanes :
    onLanes 4 [10, 11, 12, 13, 14, 15] = [[10, 14], [11, 15], [12], [13], [], [], [], []] ∧
      fromLanes 4 [[10, 14], [11, 15], [12], [13], [7], [], [], []] = [10, 11, 12, 13, 14, 15] := by decide +kernel

/-! ## Devices and spare lines -/

/-- A WRITE-DONE and an ALERT as T94 lays them out; the two checks were worked out from R193 outside the model. -/
theorem test_upstream_frames_of_T94 :
    (UpFrame.writeDone 5 .done).bytes = [0x21, 5, 1, 0x92, 0xBE] ∧
    (UpFrame.alert .lineUe 7 (.line ⟨2, 0x100⟩) (some .b) 0x102).bytes =
      [0x23, 18, 7, 3, 0x10, 0, 1, 0, 0, 1, 0, 0, 0, 0, 1, 2, 0x8B, 0xA4] := by decide +kernel

/-- The head of a capture with a line, an UNSTABLE retry whose isolation set is D1 and D8, a fixed C0 and a held write
(T96). -/
theorem test_capture_head_of_T96 :
    (Capture.head ⟨.rmwUe, some ⟨2, 0x100⟩, some 3, 4, 0x102, some (.unstable 0x102#10),
        #v[.fixed 1 0x8001, .poisonMark, .uncorrectable, .notRead], some 9, some (0, data), none⟩) =
      [1, 3, 7, 0x10, 0, 1, 0, 3, 4, 0, 0, 0, 0, 1, 2, 1, 1, 2,
       1, 1, 0x80, 1, 2, 3, 0xFF, 0, 0, 0, 4, 0xFF, 0, 0, 0, 5, 0xFF, 0, 0, 0, 9, 0, 0] := by decide +kernel

/-- D1 at 252 and D6 at 250 take 8 each from a scattered line: D1 is marked, D6 is held at 255 (6.11.2). -/
theorem test_second_candidate_of_6_11_2 :
    let s := putDevice 6 ⟨250, .suspect, false, false, 0⟩ (putDevice 1 ⟨252, .suspect, false, false, 0⟩ ready)
    let raw : RawLine := ((encode data).set 0 ((encode data)[0].set 1 1)).set 2 ((encode data)[2].set 6 1)
    let t := healthVerdict (decodeLine line .patrol none none false raw) s
    deviceEntry t 1 = ⟨256, .marked, true, false, 0⟩ ∧ deviceEntry t 6 = ⟨255, .suspect, true, true, 0⟩ ∧
      markOf t 0 = some 1 := by decide +kernel

/-- A tally that is held at 255 has risen from 254, and has not from 255 (R95, R98). -/
theorem test_touched_at_the_cap :
    let s := fun tally => putDevice 6 ⟨tally, .suspect, false, true, 0⟩
      (putDevice 1 ⟨256, .marked, false, false, 0⟩ ready)
    let t := fun tally => raiseTally 0 false (s tally) ⟨6, 2, 2⟩
    deviceEntry (t 254) 6 = ⟨255, .suspect, true, true, 0⟩ ∧
      deviceEntry (t 255) 6 = ⟨255, .suspect, false, true, 0⟩ := by decide +kernel

/-- Probation of D1 with K = 4: three clean verdicts and a fourth, or a fill that is not zero (6.11.3). -/
theorem test_probation_of_6_11_3 :
    let s := putDevice 1 ⟨256, .probation, false, false, 3⟩
      { ready with dht := { ready.dht with probationK := 4 } }
    let clean := decodeLine line .demand (some 1) none false (encode data)
    let filled := decodeLine line .patrol (some 1) none false ((encode data).set 3 ((encode data)[3].set 1 1))
    deviceEntry (healthVerdict clean s) 1 = resetDevice ∧
      deviceEntry (healthVerdict filled s) 1 = ⟨256, .marked, false, false, 0⟩ := by decide +kernel

/-- With no slot FREE a new line takes the WATCH slot hit least recently (5.9.1, at 2,000 µs). -/
theorem test_eviction_of_5_9_1 :
    let watches := setSlot 30 (.watch ⟨0, 0x100⟩ 1 1000) (setSlot 31 (.watch ⟨0, 0x200⟩ 1 1400)
      { ready with
        sls := { ready.sls with slots := Vector.replicate 32 (.active ⟨2, 0⟩ stored 0) }
        mgu := { ready.mgu with timeBase := 2000 } })
    let raw : RawLine := (encode data).set 0 ((encode data)[0].set 2 1)
    let t := watchVerdict (decodeLine ⟨0, 0x300⟩ .demand none none false raw) watches
    slotAt t 30 = .watch ⟨0, 0x300⟩ 1 2000 ∧ slotAt t 31 = .watch ⟨0, 0x200⟩ 1 1400 := by decide +kernel

/-! ## The patrol -/

/-- A tick at the lag limit is lost, PATROL_LAG is raised once, and S = 0 keeps steal mode off (8.8.2). -/
theorem test_lost_ticks_of_8_8_2 :
    let b := patrolling 1048576 ready
    let s := setProfile 0 ⟨{ defaultProfile with steal := 0 }, .sound⟩ b
    after (exec .tick s) (fun t => t.psc.credit == 1048576 && t.psc.lagging && t.mgu.counters.lagTicks == 1 &&
      t.link.transmitting.isSome && !t.psc.steal) = true ∧
    after (exec .tick { s with psc := { s.psc with lagging := true } }) (fun t =>
      t.mgu.counters.lagTicks == 1 && t.link.transmitting.isNone) = true := by decide +kernel

/-- The last line of a whole sweep is skipped: the sweep completes and the cursor wraps to index 0
(8.8.3, with one rank). -/
theorem test_cursor_of_8_8_3 :
    let b := patrolling 5 ready
    let s := { b with
      psc := { b.psc with cursor := some ⟨0, 0xFFFFFE⟩, wholeSweep := true }
      rpq := { entries := [{ entry .repair (.waiting 9) with line := ⟨0, 0xFFFFFF⟩ }] }
      mgu := { b.mgu with mask := 0 } }
    after (exec .arbiterGrant s) (fun t => t.psc.cursor == some ⟨0, 0⟩ && t.psc.wholeSweep &&
      t.psc.credit == 4 && t.link.transmitting.isSome) = true := by decide +kernel

/-- A refresh granted in HALTED leaves the grant history as it is (R168). -/
theorem test_history_in_halted :
    let s := fun b : State => { b with drp := { b.drp with refreshDue := [0], history := 2 } }
    after (exec .arbiterGrant (s (halted ready))) (fun t => t.drp.history == 2 && t.drp.port.isSome) = true ∧
      after (exec .arbiterGrant (s ready)) (fun t => t.drp.history == 3) = true := by decide +kernel

/-- A retry is granted, the part enters HALTED and an abort leaves it again: the retry's UNCORRECTABLE verdict then
confirms nothing (R127). -/
theorem test_retry_ended_by_halted :
    let s := granted (.retryRead 7) (retrying ready)
    let h := enterHalted ⟨.capture, 0⟩ s
    after (exec .coreResetAbort (asked 37 [1] h)) (fun t => after (exec (.dramReadFinish (onBeats twoWrong)) t) (fun u =>
      u.fcu.halted.isNone && u.fcu.contexts == [] && (recordAt u .a).content == .empty && u.rpq.entries == []))
        = true ∧
    after (exec (.dramReadFinish (onBeats twoWrong)) s) (fun u => (recordAt u .a).content != .empty) = true := by
  decide +kernel

/-! ## Management requests -/

/-- The identity of a part with one rank of depth 2^24 on four lanes (R180, T89). -/
theorem test_identity :
    after (exec .identityRead (asked 36 [] ready)) (fun t => t.link.transmitting.map (List.map (List.take 3)) ==
      some [[0x22, 0x4E, 2], [9, 0x17, 1], [0, 0x01, 24], [8, 0xA2, 4], [], [], [], []]) = true := by decide +kernel

/-- A Core Reset (DRAIN) makes a WAITING entry READY and is in progress from then on (R69, R181). -/
theorem test_drain :
    after (exec .coreResetDrain (asked 37 [0] (withEntry .repair (.waiting 10) ready))) (fun t =>
      t.mgu.coreReset == some ⟨.drain, 50⟩ && t.rpq.entries == [entry .repair .ready]) = true := by
  decide +kernel

/-- A READ that a drain completed at its start, beside the holder of its line, is waited for until its READ-DONE is
handed over; one that was QUEUED when the drain was taken is not (R182, R19). -/
theorem test_drain_waits_for_an_arrival :
    let left := fun beside : Bool => resetting .drain (withRequests
      [{ started (.read line) .completing with hold := none, beside := beside }] ready)
    drained (left true) = false ∧ drained (left false) = true := by decide +kernel

/-- A READ that waits for its grant completes when the part enters HALTED (R39). -/
theorem test_halted_read :
    (enterHalted ⟨.capture, 0⟩ (busyWith (.read line) .waitRead ready)).dem.requests = [] := by decide +kernel

/-! ## The queue of commands -/

theorem test_no_word_spells_a_command :
    decodeTableWord 8 0 = none ∧ State.reset.withFetchWord 8 0 = State.reset :=
  ⟨rfl, rfl⟩

theorem test_first_in_first_out :
    after (step { ready with pending := [.timeBaseAdvance, .tick] }) (fun t =>
      t.mgu.timeBase == 1 && t.pending == [.tick]) = true := by decide +kernel

/-! ## Witnesses: each shows that what a statement assumes can be met -/

/-- Where a statement takes the beats of a read, a witness names the raw line that they carry. -/
theorem test_witness_Beats : ∀ raw : RawLine, ∃ beats : Burst, fromBeats beats = raw :=
  fun raw => ⟨onBeats raw, fromBeats_onBeats raw⟩

theorem test_witness_StepRunsTheFrontCommand :
    step { ready with pending := .tick :: ready.pending } = exec .tick ready := rfl

theorem test_witness_IdleStepElapsesOneMicrosecond :
    (ready.pending = [] ∧ ready.link.por = false ∧ ready.fcu.halted = none) ∧
    ((halted ready).pending = [] ∧ (halted ready).link.por = false ∧ (halted ready).fcu.halted.isSome) ∧
    (powerOn true ⟨.supply, .supply, .supply⟩ 0 []).link.por = true := by decide +kernel

theorem test_witness_StrapsHeldUntilPor :
    (∃ t, exec (.porAsserted ⟨.supply, .ground, .supply⟩) ready = .next t) ∧ ∃ t, exec .tick ready = .next t :=
  ⟨⟨_, rfl⟩, ⟨_, rfl⟩⟩

theorem test_witness_PorHoldsThePart :
    let s := powerOn true ⟨.supply, .supply, .supply⟩ 0 []
    s.link.por = true ∧ (∀ pins, Instr.tick ≠ .porAsserted pins) ∧ Instr.tick ≠ .porReleased := by
  simp [powerOn]

theorem test_witness_TrainingExchange :
    (linkIn .down ready).link.por = false ∧
    (let s := linkIn (.training .laneLock) ready
     s.link.por = false ∧ s.link.state = .training .laneLock ∧ 4 = s.link.straps.laneCount ∧
       ∀ lanes ∈ [[0, 1, 2, 3], [0, 1, 2, 3, 4, 5, 6, 7], [0, 1, 2, 3, 9, 9, 9, 9]],
         List.take s.link.straps.laneCount lanes = List.range s.link.straps.laneCount) ∧
    (linkIn (.training .deskew) ready).link.por = false ∧
    (linkIn (.training .readyExchange) ready).link.por = false := by decide +kernel

theorem test_witness_LossOfSignal :
    ∀ x : LinkState, (linkIn x ready).link.por = false ∧ (linkIn x ready).link.state = x :=
  fun _ => ⟨rfl, rfl⟩

/-- Slips at 600 and 1,100 µs, as in the rule's example: one 400 µs after the second, and one at the boundary of
500 µs after, finds both within 1,000 µs; one 501 µs after does not. The fill stands at 12 symbols either side and at 13,
in every state of the link. -/
theorem test_witness_ElasticSlip :
    (let s := { ready with link := { ready.link with timer := 1100, slips := [1100, 600] } }
     s.link.por = false ∧ s.link.slips.length = 2 ∧ (∀ p ∈ s.link.slips, s.link.timer + 400 ≤ p + 1000) ∧
      (∀ p ∈ s.link.slips, s.link.timer + 500 ≤ p + 1000) ∧
      ¬∀ p ∈ s.link.slips, s.link.timer + 501 ≤ p + 1000) ∧
    (∀ x, (drifted x 12).link.por = false ∧ (drifted x 12).link.state = x) ∧
    ∀ x, ¬12 < ((drifted x 5).link.fill + 7).natAbs ∧ ¬12 < ((drifted x (-12)).link.fill + 0).natAbs ∧
      12 < ((drifted x 12).link.fill + 1).natAbs ∧ 12 < ((drifted x 0).link.fill - 13).natAbs := by
  refine ⟨by decide +kernel, fun _ => ⟨rfl, rfl⟩, fun _ => ?_⟩
  show ¬12 < ((5 : Int) + 7).natAbs ∧ ¬12 < ((-12 : Int) + 0).natAbs ∧ 12 < ((12 : Int) + 1).natAbs ∧
    12 < ((0 : Int) - 13).natAbs
  decide

theorem test_witness_HostFramesAreReadBack :
    (∀ kind args, RequestBody.manage 255 (List.replicate 64 0xFF) = .manage kind args →
      kind < 256 ∧ args.length ≤ 64) ∧
    (∀ bytes, UpFrame.alert .halted 7 .none none 0 ≠ .echoed bytes) ∧ ([] : List Byte).length ≤ 64 ∧
    (List.replicate 64 (0xFF : Byte)).length ≤ 64 := by
  refine ⟨fun kind args h => by cases h; decide, fun _ h => (by cases h), by decide, by decide⟩

theorem test_witness_FramesTurnedAway :
    ((linkIn (.training .deskew) ready).link.por = false) ∧
    (ready.link.state = .active ∧ goodFrame [0x10, 5] = false) ∧
    (let s := withRequests (List.replicate 32 (request 35 [])) ready
     s.link.state = .active ∧ goodFrame readFrame = true ∧ 32 ≤ (bufferedRequests s).length) ∧
    (let s := withRequests (List.replicate 31 { request 35 [] with tag := 5 }) ready
     s.link.state = .active ∧ goodFrame readFrame = true ∧ (bufferedRequests s).length < 32 ∧
       ∃ r ∈ bufferedRequests s, r.tag = frameTag readFrame) := by decide +kernel

theorem test_witness_FramesThatQueue :
    (LetIn (hostFrame 5 (.manage 35 [])) ready ∧ frameBody (hostFrame 5 (.manage 35 [])) = .manage 35 []) ∧
    (frameBody readFrame).line? = some line ∧
    (let s := { ready with dem := { ready.dem with holdSet := [.line line] } }
     LetIn readFrame s ∧ s.cod.loopLine = none ∧ HoldKey.line line ∈ s.dem.holdSet) ∧
    (let b := { ready with dem := { ready.dem with holdSet := [.loopLine] } }
     let s := setLoop (some zeroRaw) b
     LetIn readFrame s ∧ s.cod.loopLine.isSome ∧ HoldKey.loopLine ∈ s.dem.holdSet) := by
  repeat' refine And.intro ?_ ?_
  all_goals first
    | exact let_in (goodFrame_checked _ _ (by decide +kernel))
    | exact let_in test_read_frame_is_good.1
    | decide +kernel

/-- The states in which the clauses about a line's holder are met; the last three hold a slot whose data has a
single-bit error or is lost, and one being released for a request, its write at DRAM and not. -/
theorem test_witness_ReadByHolder :
    frameBody readFrame = .read line ∧
    (LetIn readFrame ready ∧ Startable line ready ∧ holder line ready = .none) ∧
    (let s := withEntry .repair .ready ready
     LetIn readFrame s ∧ Startable line s ∧ holder line s = .entry (entry .repair .ready)) ∧
    (let s := withEntry .poison .writing ready
     LetIn readFrame s ∧ Startable line s ∧ holder line s = .entry (entry .poison .writing) ∧
       s.dem.completions = []) ∧
    (let s := setSlot 31 (.active line stored 0) ready
     LetIn readFrame s ∧ Startable line s ∧ holder line s = .slot 31 ∧ slotAt s 31 = .active line stored 0) ∧
    (let s := setSlot 0 (.releasing line stored 0 none) ready
     LetIn readFrame s ∧ Startable line s ∧ holder line s = .slot 0) ∧
    (let s := setSlot 0 (.failed line stored 0) ready
     LetIn readFrame s ∧ Startable line s ∧ holder line s = .slot 0 ∧ s.dem.completions = []) ∧
    (∀ x : Storage, ∀ release : Bool,
      let slot := if release then Slot.releasing line (storedAs x) 0 none else .active line (storedAs x) 0
      let s := setSlot 31 slot ready
      LetIn readFrame s ∧ Startable line s ∧ holder line s = .slot 31 ∧ slotAt s 31 = slot ∧
        s.dem.completions = [] ∧ RecordsReady s) ∧
    (let q := { request 13 [3] with phase := .serving }
     let s := releasingAs .uncorrectable ready
     LetIn readFrame s ∧ Startable line s ∧ holder line s = .slot 3 ∧
       slotAt s 3 = .releasing line (storedAs .uncorrectable) 0 (some ⟨50, 70⟩) ∧ RecordsReady s ∧
       s.dem.completions = [] ∧ atPort (.releaseWrite 3 70) s = false ∧ findRequest 50 s = some q ∧
       Answerable q s ∧ q.hold = none) ∧
    (let s := granted (.releaseWrite 3 70) (releasingAs .uncorrectable ready)
     LetIn readFrame s ∧ Startable line s ∧ holder line s = .slot 3 ∧ RecordsReady s ∧
       s.dem.completions = [] ∧ atPort (.releaseWrite 3 70) s = true) := by
  repeat' first | refine And.intro ?_ ?_ | refine everyStorage ?_ ?_ ?_ | refine everyBool ?_ ?_
  all_goals first
    | exact let_in test_read_frame_is_good.1
    | exact let_in_beside test_read_frame_is_good.1
    | exact startable
    | exact recordsReady
    | exact answerable
    | decide +kernel

theorem test_witness_FullWriteByHolder :
    LetIn (maskedFrame (BitVec.allOnes 64)) ready ∧ frameBody writeFrame = .write line data ∧
    frameBody (maskedFrame (BitVec.allOnes 64)) = .maskedWrite line (BitVec.allOnes 64) data ∧
    (LetIn writeFrame ready ∧ Startable line ready ∧ holder line ready = .none) ∧
    (let s := withEntry .repair .writing ready
     LetIn writeFrame s ∧ Startable line s ∧ holder line s = .entry (entry .repair .writing)) ∧
    (let s := withEntry .poison (.waiting 3) ready
     LetIn writeFrame s ∧ Startable line s ∧ holder line s = .entry (entry .poison (.waiting 3))) ∧
    (let s := setSlot 31 (.releasing line stored 0 none) ready
     LetIn writeFrame s ∧ Startable line s ∧ holder line s = .slot 31) ∧
    (let s := setSlot 0 (.failed line stored 0) ready
     LetIn writeFrame s ∧ Startable line s ∧ holder line s = .slot 0) := by
  refine ⟨let_in (good_masked _), ?_⟩
  repeat' refine And.intro ?_ ?_
  all_goals first
    | exact let_in test_write_frame_is_good.1
    | exact startable
    | decide +kernel

/-- The states in which the clauses about a masked write meet their holder, and the two in which it is refused, with
record A EMPTY and with both records HELD. -/
theorem test_witness_MaskedWriteByHolder :
    (∀ m, LetIn (maskedFrame m) ready) ∧ frameBody (maskedFrame 0) = .maskedWrite line 0 data ∧
    frameBody (maskedFrame 0xFF00) = .maskedWrite line 0xFF00 data ∧
    ((0 : ByteMask) ≠ BitVec.allOnes 64 ∧ (0xFF00 : ByteMask) ≠ BitVec.allOnes 64 ∧ (0xFF00 : ByteMask) ≠ 0) ∧
    (Startable line ready ∧ holder line ready = .none) ∧
    (∀ state ∈ [RepairState.writing, .ready],
      let s := withEntry .repair state ready
      LetIn (maskedFrame 0xFF00) s ∧ Startable line s ∧ holder line s = .entry (entry .repair state)) ∧
    (∀ slot ∈ [Slot.releasing line stored 0 none, .active line stored 0],
      let s := setSlot 5 slot ready
      LetIn (maskedFrame 0xFF00) s ∧ Startable line s ∧ holder line s = .slot 5) ∧
    (let s := setSlot 5 (.failed line stored 0) ready
     let full := setRecord .a ⟨.lost, .sound, .sound⟩ (setRecord .b ⟨.lost, .sound, .sound⟩ s)
     LetIn (maskedFrame 0xFF00) s ∧ Startable line s ∧ holder line s = .slot 5 ∧
       slotAt s 5 = .failed line stored 0 ∧ (recordAt s s.fcu.next).content = .empty ∧
       (recordAt s s.fcu.next).strike = .sound ∧ LetIn (maskedFrame 0xFF00) full ∧ Startable line full ∧
       (recordAt full .a).content ≠ .empty ∧ (recordAt full .b).content ≠ .empty ∧ full.dem.completions = []) ∧
    (∀ x : Storage, let s := setSlot 5 (.active line (storedAs x) 0) ready
      LetIn (maskedFrame 0xFF00) s ∧ Startable line s ∧ holder line s = .slot 5 ∧
        slotAt s 5 = .active line (storedAs x) 0 ∧ s.dem.completions = [] ∧ RecordsReady s) ∧
    (let s := withEntry .poison .ready ready
     LetIn (maskedFrame 0xFF00) s ∧ Startable line s ∧ holder line s = .entry (entry .poison .ready)) := by
  have one : ∀ (p q : RepairState) {P : RepairState → Prop}, P p → P q → ∀ x ∈ [p, q], P x := by
    intro p q P hp hq x hx; simp at hx; rcases hx with rfl | rfl <;> assumption
  have two : ∀ (p q : Slot) {P : Slot → Prop}, P p → P q → ∀ x ∈ [p, q], P x := by
    intro p q P hp hq x hx; simp at hx; rcases hx with rfl | rfl <;> assumption
  repeat' first
    | refine And.intro ?_ ?_ | refine one _ _ ?_ ?_ | refine two _ _ ?_ ?_ | refine everyStorage ?_ ?_ ?_
  all_goals first
    | exact let_in (good_masked _)
    | exact fun _ => let_in (good_masked _)
    | exact startable
    | exact recordsReady
    | decide +kernel

/-- Index 2^24 is the first one outside a rank of this depth, rank 1 is ABSENT, rank 0 may be OFFLINE; and the
cases of a Core Reset, for the request 50: the line free, held, waited for, and the loop line. -/
theorem test_witness_RefusedAtStart :
    (let f := hostFrame 5 (.read ⟨0, 0x1000000⟩)
     LetIn f ready ∧ frameBody f = .read ⟨0, 0x1000000⟩ ∧ ready.fcu.halted = none ∧
       ¬((0x1000000 : BitVec 27).toNat < depth ready)) ∧
    (let f := hostFrame 5 (.read ⟨1, 0⟩)
     LetIn f ready ∧ (frameBody f).line? = some ⟨1, 0⟩ ∧ rankState ready 1 = .absent) ∧
    (LetIn readFrame (halted ready) ∧ (halted ready).fcu.halted.isSome ∧
      LetIn writeFrame (halted ready) ∧ LetIn (maskedFrame 0xFF00) (halted ready)) ∧
    (let s := setRank 0 (powerOnRank true) ready
     LetIn writeFrame s ∧ s.fcu.halted = none ∧ rankState s 0 = .offline ∧ line.index.toNat < depth s ∧
       HoldKey.line line ∉ s.dem.holdSet ∧ portHolds (.line line) s = false ∧
       queuedBefore (.line line) s = false ∧ s.cod.loopLine = none) ∧
    (LetIn readFrame ready ∧ (frameBody readFrame).line? = some line ∧ rankState ready 0 ≠ .absent ∧
      line.index.toNat < depth ready ∧ 50 ≠ ready.stamp ∧ HoldKey.line line ∉ ready.dem.holdSet ∧
      queuedBefore (.line line) ready = false) ∧
    (let s := { ready with dem := { ready.dem with holdSet := [.line line] } }
     LetIn readFrame s ∧ HoldKey.line line ∈ s.dem.holdSet ∧ 50 ≠ s.stamp) ∧
    (let s := withRequests [{ started (.read line) .queued with hold := none, cls := none }] ready
     LetIn readFrame s ∧ queuedBefore (.line line) s = true ∧ HoldKey.line line ∉ s.dem.holdSet ∧ 50 ≠ s.stamp) ∧
    (let s := setLoop (some zeroRaw) ready
     LetIn readFrame s ∧ s.cod.loopLine.isSome ∧ HoldKey.loopLine ∉ s.dem.holdSet ∧
       queuedBefore .loopLine s = false) := by
  repeat' refine And.intro ?_ ?_
  all_goals first
    | exact let_in (goodFrame_checked _ _ (by decide +kernel))
    | exact let_in test_read_frame_is_good.1
    | exact let_in_beside test_read_frame_is_good.1
    | exact let_in test_write_frame_is_good.1
    | exact let_in (good_masked _)
    | decide +kernel

/-- The last four are the loop lines that decode CLEAN, CORRECTED, UNCORRECTABLE and POISONED, under addresses that
are there and one that is not. -/
theorem test_witness_DemandStartsWhenItsLineIsFree :
    (let s := busyWith (.read line) .waitRead ready
     s.link.por = false ∧ s.cod.loopLine = none ∧ HoldKey.line line ∈ s.dem.holdSet) ∧
    (∀ body ∈ [RequestBody.read line, .write line data, .maskedWrite line 0xFF00 data],
      let r := { started body .queued with hold := none, cls := none }
      let s := withRequests [r] ready
      HoldKey.line line ∉ s.dem.holdSet ∧ oldestQueued (.line line) s = some (r, line) ∧
        findRequest r.id s = some r ∧ s.fcu.halted = none ∧
        (∀ i < 16, (regionAt s i).storage = .sound) ∧ rankState s (rankOf line) = .online ∧
        line.index.toNat < depth s ∧ holder line s = .none) ∧
    (∀ raw, let s := setLoop (some raw) ready
      LetIn readFrame s ∧ LetIn writeFrame s ∧ (∀ m, LetIn (maskedFrame m) s) ∧ s.cod.loopLine = some raw) ∧
    (ready.fcu.halted = none ∧ (∀ i < 16, (regionAt ready i).storage = .sound) ∧
      (∀ d < 10, (deviceAt ready (entryNumber 0 d)).storage = .sound) ∧ ready.dem.completions = [] ∧
      HoldKey.loopLine ∉ ready.dem.holdSet ∧ queuedBefore .loopLine ready = false ∧
      ready.link.upstream.length < 8 ∧ rankState ready 1 = .absent ∧ rankState ready 0 ≠ .absent) ∧
    ∀ p ∈ [(encode data, Verdict.clean), (flipped, .corrected), (twoWrong, .uncorrectable),
        (poison (encode data), .poisoned)],
      (decodeLine line .demand (markOf ready 0) none false p.1).verdict = p.2 := by
  refine ⟨by decide +kernel, by decide +kernel, fun raw => ?_, by decide +kernel, by decide +kernel⟩
  repeat' refine And.intro ?_ ?_
  · exact let_in test_read_frame_is_good.1 rfl rfl rfl rfl
  · exact let_in test_write_frame_is_good.1 rfl rfl rfl rfl
  · exact fun m => let_in (good_masked m) rfl rfl rfl rfl
  · rfl

/-- A DEMAND_START that meets each check of T18: in HALTED, of a line outside at the depth's bound, of an ABSENT rank
and of an OFFLINE one; and in codec-loop mode, where the command may name another line. -/
theorem test_witness_DemandStartsWhenItsLineIsFree_checks :
    (∀ body ∈ [RequestBody.read line, .write line data, .maskedWrite line 0 data],
      StartsNext (queued body) line (waitingFor body (halted ready))) ∧ (halted ready).fcu.halted.isSome ∧
    (let outside : LineAddr := ⟨0, 0x1000000⟩
     let s := waitingFor (.read outside) ready
     StartsNext (queued (.read outside)) outside s ∧ s.fcu.halted = none ∧ outside.index.toNat = depth s) ∧
    (let s := waitingFor (.write ⟨1, 0⟩ data) (setLoop (some zeroRaw) ready)
     StartsNext (queued (.write ⟨1, 0⟩ data)) ⟨1, 0⟩ s ∧ rankState s 1 = .absent ∧ s.cod.loopLine.isSome) ∧
    (let s := waitingFor (.read line) (setRank 0 (powerOnRank true) ready)
     StartsNext (queued (.read line)) line s ∧ s.fcu.halted = none ∧ s.cod.loopLine = none ∧
       rankState s 0 ≠ .absent ∧ line.index.toNat < depth s ∧ rankState s 0 ≠ .online) ∧
    (let s := waitingFor (.read line) (setLoop (some zeroRaw) (setRank 0 (powerOnRank true) ready))
     StartsNext (queued (.read line)) line s ∧ s.fcu.halted = none ∧ rankState s 0 ≠ .absent ∧
       line.index.toNat < depth s ∧ RegionsSound s ∧ RankSound 0 s ∧ s.cod.loopLine = some zeroRaw) := by
  have three : ∀ (p q r : RequestBody) {P : RequestBody → Prop}, P p → P q → P r → ∀ x ∈ [p, q, r], P x := by
    intro p q r P hp hq hr x hx; simp at hx; rcases hx with rfl | rfl | rfl <;> assumption
  unfold RegionsSound RankSound
  repeat' first | refine And.intro ?_ ?_ | refine three _ _ _ ?_ ?_ ?_
  all_goals first
    | exact startsNext
    | decide +kernel

/-- A demand request of any kind that DEMAND_START starts under each holder of its line. -/
theorem test_witness_DemandStartsWhenItsLineIsFree_holders :
    (∀ body : RequestBody, body.line? = some line →
      let under := fun b : State => StartsNext (queued body) line (waitingFor body b)
      under ready ∧ under (withEntry .repair .ready ready) ∧ under (withEntry .repair .writing ready) ∧
        under (withEntry .poison .ready ready) ∧ under (setSlot 31 (.failed line stored 0) ready) ∧
        (∀ x : Storage, under (setSlot 0 (.active line (storedAs x) 0) ready) ∧
          under (setSlot 0 (.releasing line (storedAs x) 0 none) ready)) ∧
        under (setLoop (some zeroRaw) ready)) ∧
    (∀ body ∈ [RequestBody.read line, .write line data, .maskedWrite line (BitVec.allOnes 64) data,
        .maskedWrite line 0 data, .maskedWrite line 0xFF00 data], body.line? = some line) ∧
    (let s := waitingFor (.read line) ready
     s.fcu.halted = none ∧ RegionsSound s ∧ (rankState s 0 ≠ .absent ∧ line.index.toNat < depth s) ∧
       s.cod.loopLine = none ∧ rankState s 0 = .online ∧ holder line s = .none ∧ s.dem.completions = [] ∧
       RecordsReady s) ∧
    (let q := { request 13 [3] with phase := .serving }
     let s := waitingFor (.read line) (releasingAs .uncorrectable ready)
     StartsNext (queued (.read line)) line s ∧ holder line s = .slot 3 ∧
       slotAt s 3 = .releasing line (storedAs .uncorrectable) 0 (some ⟨50, 70⟩) ∧
       findRequest 50 s = some q ∧ Answerable q s ∧ q.hold = none ∧ atPort (.releaseWrite 3 70) s = false ∧
       atPort (.releaseWrite 3 70) (granted (.releaseWrite 3 70) s) = true ∧
       StartsNext (queued (.read line)) line (granted (.releaseWrite 3 70) s)) ∧
    (let b := setSlot 5 (.failed line stored 0) ready
     let s := waitingFor (.maskedWrite line 0xFF00 data)
       (recordedAs .lost .sound (setRecord .b ⟨.lost, .sound, .sound⟩ b))
     StartsNext (queued (.maskedWrite line 0xFF00 data)) line s ∧ holder line s = .slot 5 ∧
       (recordAt s .a).content ≠ .empty ∧ (recordAt s .b).content ≠ .empty) := by
  refine ⟨fun body hl => ⟨startsNext_alone hl, startsNext_alone hl, startsNext_alone hl, startsNext_alone hl,
    startsNext_alone hl, everyStorage ⟨startsNext_alone hl, startsNext_alone hl⟩
      ⟨startsNext_alone hl, startsNext_alone hl⟩ ⟨startsNext_alone hl, startsNext_alone hl⟩,
    startsNext_alone hl⟩, by decide +kernel, ?_⟩
  unfold RegionsSound
  repeat' refine And.intro ?_ ?_
  all_goals first
    | exact startsNext
    | exact answerable
    | exact recordsReady
    | decide +kernel

theorem test_witness_EchoAndTransmission :
    ((linkIn .echo ready).link.por = false ∧ (linkIn .echo ready).link.state = .echo) ∧
    Taken 38 [] (request 38 []) (asked 38 [] ready) :=
  ⟨by decide +kernel, taken⟩

theorem test_witness_CompletionIsHandedOver :
    let c : Completion := ⟨50, .readDone 9 .clean data⟩
    let b := busyWith (.read line) .completing ready
    let s := { b with dem := { b.dem with completions := [c] } }
    ready.dem.completions = [] ∧ s.link.por = false ∧ s.dem.completions = [c] ∧
      s.link.upstream.length < 8 ∧
      findRequest c.request s = some (started (.read line) .completing) := by decide +kernel

/-- One waiting READ; then each kind of work that waits, with nothing of it at the port. -/
theorem test_witness_FirstWaitingOperationIsGranted :
    (let s := busyWith (.read line) .waitRead ready
     s.link.por = false ∧ RequestsNamed s ∧ RepairQueueFits s ∧ s.drp.port = none ∧ waiting s ≠ []) ∧
    (∀ body ∈ [RequestBody.read line, .maskedWrite line 1 data], ∀ phase ∈ [Phase.waitRead, .waitWrite data .done],
      let s := busyWith body phase ready
      started body phase ∈ s.dem.requests ∧ body.line? = some line ∧ s.fcu.halted = none) ∧
    ((retrying ready).fcu.contexts ≠ [] ∧ atPort (.retryRead 7) (retrying ready) = false) ∧
    (let s := { ready with sls := { ready.sls with retires := [⟨50, line, 70⟩] } }
     s.sls.retires ≠ [] ∧ atPort (.retireRead 50) s = false) ∧
    (∀ x ∈ [RepairState.ready, .verifying],
      (withEntry .repair x ready).rpq.entries = [entry .repair x] ∧
        atPort (.verifyRead 10) (withEntry .repair x ready) = false) ∧
    (slotAt (releasing ready) 3 = .releasing line stored 0 (some ⟨50, 70⟩) ∧
      atPort (.releaseWrite 3 70) (releasing ready) = false) ∧
    (rankState (filling 5 ready) 0 = .filling ∧ (rankRec (filling 5 ready) 0).fillPosition < depth (filling 5 ready)) ∧
    (let s := patrolling 1 ready
     s.psc.cursor = some line ∧ s.psc.cursorPhase = .visitLine plain ∧ 1 ≤ s.psc.credit ∧ s.psc.running = true ∧
       (currentProfile s).allowed = true ∧ s.fcu.halted = none) ∧
    (let s := { halted ready with drp := { ready.drp with refreshDue := [0] } }
     s.fcu.halted.isSome ∧ waiting s ≠ [] ∧ s.drp.refreshDue = [0]) := by
  unfold RequestsNamed RepairQueueFits; decide +kernel

theorem test_witness_ReadIsGranted :
    (ready.link.por = false ∧ waiting ready = []) ∧ (granted .fillWrite ready).drp.port.isSome ∧
    (let s := busyWith (.read line) .waitRead ready
     s.drp.port = none ∧
       firstWaiting (waiting s) = some ⟨4, 60, .demandRead 50 false, line, some plain⟩) ∧
    firstWaiting (waiting (retrying ready)) = some ⟨2, 7, .retryRead 7, line, some plain⟩ ∧
    firstWaiting (waiting { ready with sls := { ready.sls with retires := [⟨50, line, 70⟩] } }) =
      some ⟨4, 70, .retireRead 50, line, none⟩ ∧
    firstWaiting (waiting (withEntry .repair .verifying ready)) =
      some ⟨5, 10, .verifyRead 10, line, none⟩ := by decide +kernel

/-- The fill clause at the first and at the last index of the rank. -/
theorem test_witness_WriteIsFormedAtItsGrant :
    (let s := armed (busyWith (.write line data) (.waitWrite data .done) ready)
     s.link.por = false ∧ s.drp.port = none ∧
       firstWaiting (waiting s) = some ⟨4, 60, .demandWrite 50, line, some plain⟩ ∧
       findRequest 50 s = some (started (.write line data) (.waitWrite data .done))) ∧
    (let s := withEntry .poison .ready ready
     firstWaiting (waiting s) = some ⟨5, 10, .repairWrite 10, line, none⟩ ∧
       findEntry 10 s = some (entry .poison .ready)) ∧
    (firstWaiting (waiting (releasing ready)) = some ⟨5, 70, .releaseWrite 3 70, line, none⟩ ∧
      slotAt (releasing ready) 3 = .releasing line stored 0 (some ⟨50, 70⟩)) ∧
    (∀ x : Storage, let s := releasingAs x ready
      firstWaiting (waiting s) = some ⟨5, 70, .releaseWrite 3 70, line, none⟩ ∧
        slotAt s 3 = .releasing line (storedAs x) 0 (some ⟨50, 70⟩) ∧ RecordsReady s) ∧
    firstWaiting (waiting (filling 0 ready)) = some ⟨6, 0, .fillWrite, ⟨0, 0⟩, none⟩ ∧
    firstWaiting (waiting (filling 0xFFFFFF ready)) = some ⟨6, 0, .fillWrite, ⟨0, 0xFFFFFF⟩, none⟩ := by
  repeat' first | refine And.intro ?_ ?_ | refine everyStorage ?_ ?_ ?_
  all_goals first
    | exact recordsReady
    | decide +kernel

/-- A visit of this line waits, alone, with nothing in its way. -/
abbrev VisitWaits (a : LineAddr) (s : State) : Prop :=
  (s.link.por = false ∧ s.drp.port = none ∧
    firstWaiting (waiting s) = some ⟨7, 0, .visitRead false, a, some plain⟩ ∧ s.psc.cursor = some a ∧
    s.psc.cursorPhase = .visitLine plain) ∧ PatrolTablesSound s

/-- The cursor stands on this line; a repair entry holds line `h` of its rank. -/
def patrolAt (a : LineAddr) (h : LineAddr) (s : State) : State :=
  let b := patrolling 1 s
  { b with
    psc := { b.psc with cursor := some a }
    rpq := { entries := [{ entry .repair (.waiting 9) with line := h }] } }

/-- The next line is free; the next is held and the one after it free; the line after is the last of its rank and
held, and the pass goes on; the last line of the rank, in a pass that is a whole sweep and in one that is not; and the
end of a visit's read. -/
theorem test_witness_VisitIsGranted :
    (let s := patrolling 1 ready
     VisitWaits line s ∧ line.index.toNat + 1 < depth s ∧ ∃ run, SkipRun s ⟨0, 0x101⟩ true run) ∧
    (let s := patrolAt line ⟨0, 0x101⟩ ready
     VisitWaits line s ∧ holder ⟨0, 0x101⟩ s ≠ .none ∧ ∃ run, SkipRun s ⟨0, 0x101⟩ true run) ∧
    (let s := patrolAt ⟨0, 0xFFFFFE⟩ ⟨0, 0xFFFFFF⟩ ready
     VisitWaits ⟨0, 0xFFFFFE⟩ s ∧ holder ⟨0, 0xFFFFFF⟩ s ≠ .none ∧ ∃ run, SkipRun s ⟨0, 0xFFFFFF⟩ true run) ∧
    (∀ whole : Bool,
      let b := patrolling 1 ready
      let s := { b with psc := { b.psc with cursor := some ⟨0, 0xFFFFFF⟩, wholeSweep := whole } }
      VisitWaits ⟨0, 0xFFFFFF⟩ s ∧ (0xFFFFFF : BitVec 27).toNat + 1 = depth s ∧ RankSound 0 s ∧
        s.psc.wholeSweep = whole ∧ NextOnline s 0 0 ∧ ∃ run, SkipRun s (lineAt 0 0) false run) ∧
    Finishing (read (.visitRead false)) (granted (.visitRead false) ready) ∧
    (verdictOf (read (.visitRead false)) .patrol twoWrong ready).verdict = .uncorrectable := by
  unfold VisitWaits RankSound NextOnline
  repeat' first | refine And.intro ?_ ?_ | refine everyBool ?_ ?_
  all_goals first
    | exact finishing
    | exact tablesSound
    | exact visits
    | exact skips ⟨0, 0x102⟩ (hb := visits)
    | exact endsPass 0 (hb := visits)
    | decide +kernel

theorem test_witness_HaltedGrantsRefreshesOnly :
    let s := halted ready
    let t := { s with drp := { s.drp with refreshDue := [3, 0] } }
    s.link.por = false ∧ s.fcu.halted.isSome ∧ s.drp.port = none ∧ s.drp.refreshDue = [] ∧
      t.fcu.halted.isSome ∧ t.drp.port = none ∧ t.drp.refreshDue = 3 :: [0] := by decide +kernel

theorem test_witness_RefreshFallsDueAndFinishes :
    (ready.link.por = false ∧ ready.drp.port = none ∧ (rankRec ready 0).refresh.isSome) ∧
    (∃ g, (granted .fillWrite ready).drp.port = some g ∧ g.op ≠ .refresh) ∧
    (∃ g, (granted .refresh ready).drp.port = some g ∧ g.op = .refresh) ∧
    ∀ r < 4, rankState (granted .refresh ready) r = .offline →
      (rankRec (granted .refresh ready) r).selfRefresh :=
  ⟨by decide +kernel, ⟨_, rfl, by decide⟩, ⟨_, rfl, rfl⟩, by decide +kernel⟩

/-- The end of a READ and of a read-modify-write's read, each with the four verdicts. -/
theorem test_witness_CleanReadCompletes :
    (let s := granted (.demandRead 50 false) (busyWith (.read line) .readGranted ready)
     s.link.por = false ∧ s.link.state = .active ∧ s.fcu.halted = none ∧
       (∀ r < 4, rankState s r = .offline → (rankRec s r).selfRefresh) ∧
       s.drp.port = some (read (.demandRead 50 false)) ∧
       (∀ d < 10, (deviceAt s (entryNumber 0 d)).storage = .sound) ∧ markOf s 0 = none ∧
       findRequest 50 s = some (started (.read line) .readGranted) ∧ s.mgu.coreReset = none ∧
       s.dem.completions = [] ∧ s.link.upstream.length < 8) ∧
    ∀ body ∈ [RequestBody.read line, .maskedWrite line 0xFF00 data],
      let rmw := decide (body ≠ .read line)
      let g := read (.demandRead 50 rmw)
      let s := granted g.op (busyWith body .readGranted ready)
      Finishing g s ∧ (recordAt s s.fcu.next).content = .empty ∧ (recordAt s s.fcu.next).strike = .sound ∧
      ∀ p ∈ [(encode data, Verdict.clean), (flipped, .corrected), (twoWrong, .uncorrectable),
          (poison (encode data), .poisoned)],
        let v := verdictOf g (if rmw then .rmw else .demand) p.1 s
        let used := consume v (freed s)
        v.verdict = p.2 ∧ Answerable (started body .readGranted) used ∧ used.fcu.halted = none ∧
          (rmw = true → holder line used = .none) := by
  refine ⟨by decide +kernel, ?_⟩
  intro body hb
  have h : ∀ body ∈ [RequestBody.read line, .maskedWrite line 0xFF00 data],
      let rmw := decide (body ≠ .read line)
      let g := read (.demandRead 50 rmw)
      let s := granted g.op (busyWith body .readGranted ready)
      (s.link.por = false ∧ s.drp.port = some g ∧ s.fcu.halted = none ∧
        (∀ d < 10, (deviceAt s (entryNumber (rankOf g.line) d)).storage = .sound) ∧
        (recordAt s s.fcu.next).content = .empty ∧ (recordAt s s.fcu.next).strike = .sound) ∧
      ∀ p ∈ [(encode data, Verdict.clean), (flipped, .corrected), (twoWrong, .uncorrectable),
          (poison (encode data), .poisoned)],
        let v := verdictOf g (if rmw then .rmw else .demand) p.1 s
        let used := consume v (freed s)
        v.verdict = p.2 ∧ used.link.state = .active ∧
          findRequest 50 used = some (started body .readGranted) ∧ used.mgu.coreReset = none ∧
          used.fcu.halted = none ∧ (rmw = true → holder line used = .none) := by decide +kernel
  obtain ⟨⟨h1, h2, h3, h4, h5, h6⟩, hp⟩ := h body hb
  refine ⟨finishing h1 h2 h3 h4, h5, h6, fun p hpm => ?_⟩
  obtain ⟨k1, k2, k3, k4, k5, k6⟩ := hp p hpm
  exact ⟨k1, answerable k2 k3 rfl (by simp [started]) k4, k5, k6⟩

/-- Every read at DRAM under a rank whose first or last entry holds an error, and what a READ and a read-modify-write
find when the part has entered HALTED for it. -/
theorem test_witness_CleanReadCompletes_unsound :
    (∀ op ∈ [PortOp.demandRead 50 false, .demandRead 50 true, .retryRead 7, .retireRead 50, .verifyRead 10,
        .visitRead false],
      let s := granted op ready
      s.link.por = false ∧ s.drp.port = some (read op) ∧ op.source.isSome ∧ s.fcu.halted = none ∧
        (∀ d < 10, (deviceAt s (entryNumber 0 d)).storage = .sound) ∧ rankOf line < 4) ∧
    ∀ k : Bool, ∀ rmw : Bool,
      let body := if rmw then RequestBody.maskedWrite line 0xFF00 data else .read line
      let n := entryNumber 0 (if k then 9 else 0)
      let s := granted (.demandRead 50 rmw) (busyWith body .readGranted ready)
      s.drp.port = some (read (.demandRead 50 rmw)) ∧ s.fcu.halted = none ∧ RankSound 0 s ∧
        Answerable (started body .readGranted)
          (enterHalted ⟨.health, n⟩ (freed (deviceErr n .uncorrectable s))) := by
  unfold RankSound
  refine ⟨by decide +kernel, ?_⟩
  repeat' first | refine everyBool ?_ ?_ | refine And.intro ?_ ?_
  all_goals first
    | exact answerable
    | decide +kernel

theorem test_witness_WriteCompletes :
    (let s := granted (.demandWrite 50) (busyWith (.write line data) (.writeGranted .done) ready)
     s.link.por = false ∧ s.link.state = .active ∧ s.mgu.coreReset = none ∧ s.dem.completions = [] ∧
       s.link.upstream.length < 8 ∧
       (∀ r < 4, rankState s r = .offline → (rankRec s r).selfRefresh) ∧
       findRequest 50 s = some (started (.write line data) (.writeGranted .done))) ∧
    (let s := granted (.repairWrite 10) (withEntry .repair .writing ready)
     findEntry 10 s = some (entry .repair .writing) ∧ s.dem.requests = []) ∧
    (let s := granted (.repairWrite 10)
       (withEntry .repair .writing (busyWith (.write line data) (.heldWrite data .done) ready))
     findEntry 10 s = some (entry .repair .writing) ∧ (∀ i < 32, slotAt s i = .free) ∧
       followerOf line s = some (started (.write line data) (.heldWrite data .done)) ∧
       ∀ x ∈ s.rpq.entries, x.line = line → x.id = 10) ∧
    (let s := granted (.releaseWrite 3 70) (releasing ready)
     slotAt s 3 = .releasing line stored 0 (some ⟨50, 70⟩) ∧
       findRequest 50 s = some { request 13 [3] with phase := .serving } ∧ followerOf line s = none) ∧
    (∀ p ∈ [(RequestBody.write line data, Phase.heldWrite data .done),
        (.maskedWrite line 0xFF00 data, .heldRmw)],
      let held := { started p.1 p.2 with id := 51 }
      let b := releasing ready
      let s := granted (.releaseWrite 3 70) (withRequests (b.dem.requests ++ [held]) b)
      findRequest 50 s = some { request 13 [3] with phase := .serving } ∧ followerOf line s = some held ∧
        (∀ i < 32, i ≠ 3 → (slotAt s i).line? = none) ∧ s.rpq.entries = []) ∧
    (let s := granted .fillWrite (filling 0x101 ready)
     line.index.toNat + 1 < depth s ∧ rankState s 0 = .filling ∧ rankState (granted .fillWrite ready) 0 ≠ .filling) ∧
    (let b := filling 0x1000000 ready
     let s := { b with drp := { b.drp with port := some ⟨.fillWrite, ⟨0, 0xFFFFFF⟩, none, none, false⟩ } }
     rankState s 0 = .filling ∧ (0xFFFFFF : BitVec 27).toNat + 1 = depth s ∧
       (rankRec s 0).fillPosition = depth s ∧ s.psc.cursor.isSome ∧ (parkCursor s).psc.cursor = none ∧
       (parkCursor s).psc.running = false) := by decide +kernel

/-- Its clauses on the admission of repair entries: a verdict that may be repaired, in the three classes and by a
source that is never repaired; a line with a holder, a full queue, and a drain. -/
theorem test_witness_WriteCompletes_admission :
    (∀ cls ∈ [RegionClass.standard, .journal, .hot], ∀ source ∈ [ReadSource.demand, .patrol, .retry, .rmw],
      let v := decodeLine line source none (some ⟨none, cls, 6⟩) false flipped
      v.repairable = true ∧ v.overwritten = false) ∧
    ready.fcu.halted = none ∧ rankState ready 0 = .online ∧ (∀ i < 32, slotAt ready i = .free) ∧
    ready.rpq.entries = [] ∧ followerOf line ready = none ∧ ready.fcu.contexts = [] ∧
    ready.psc.cursor ≠ some line ∧ (storedProfile ready ready.psc.phase).storage = .sound ∧
    ready.psc.running = false ∧ (currentProfile ready).lazyWait = 20 ∧
    (∃ e ∈ (withEntry .repair .ready ready).rpq.entries, e.line = line) ∧
    (let full := { ready with rpq := { entries := List.replicate 16 { entry .repair .ready with line := ⟨0, 0⟩ } } }
     16 ≤ full.rpq.entries.length ∧ ∀ e ∈ full.rpq.entries, e.line ≠ line) ∧
    (resetting .drain ready).mgu.coreReset = some ⟨.drain, 50⟩ := by decide +kernel

/-- Its clauses on the end of a verify read: CLEAN, not CLEAN the first and the second time, with a slot FREE and
with none. -/
theorem test_witness_WriteCompletes_verify :
    ∀ replayed ∈ [false, true],
      let e := { entry .repair .verifying with replayed := replayed }
      let s := granted (.verifyRead 10) { ready with rpq := { entries := [e] }, stamp := 100 }
      let g := read (.verifyRead 10)
      let clean := verdictOf g .verify (encode data) s
      let wrong := verdictOf g .verify twoWrong s
      let used := consume wrong (freed s)
      let full := slotsHeld (List.range 32) s
      Finishing g s ∧ clean.verdict = .clean ∧ wrong.verdict ≠ .clean ∧
        findEntry 10 (consume clean (freed s)) = some e ∧ findEntry 10 used = some e ∧ used.fcu.halted = none ∧
        ChosenSlot line 0 used ∧ Unattended line used ∧ (∀ x ∈ used.rpq.entries, x.line = line → x.id = 10) ∧
        Finishing g full ∧ ∀ i < 32, (slotAt (consume wrong (freed full)) i).holds = true := by
  have both : ∀ {P : Bool → Prop}, P false → P true → ∀ b ∈ [false, true], P b :=
    fun h k b _ => by cases b <;> assumption
  refine both ?_ ?_
  all_goals
    repeat' refine And.intro ?_ ?_
    all_goals first
      | exact finishing
      | exact .inr ⟨by decide +kernel, firstFree⟩
      | exact unattended
      | decide +kernel

/-- Arguments at and beyond the ends of their ranges; an event that passes with the lanes idle and with them busy, one of
level 7 with the queue full, one at the mask, and one of level 6 that finds no room. -/
theorem test_witness_SettingsTakeEffect :
    (∀ b ∈ [(0 : Byte), 1, 7, 8, 255], Taken 3 [b] (request 3 [b]) (asked 3 [b] ready)) ∧
    Taken 10 [255, 0, 0] (request 10 [255, 0, 0]) (asked 10 [255, 0, 0] ready) ∧
    (∀ b ∈ [(1 : Byte), 2, 15, 16], Taken 14 [b] (request 14 [b]) (asked 14 [b] ready)) ∧
    (∀ b ∈ [(0 : Byte), 7, 8], Taken 30 [b] (request 30 [b]) (asked 30 [b] ready)) ∧
    Taken 33 [255, 255, 255, 255, 255, 255] (request 33 [255, 255, 255, 255, 255, 255])
      (asked 33 [255, 255, 255, 255, 255, 255] ready) ∧
    Taken 32 [] (request 32 []) (asked 32 [] ready) ∧
    (let loaded := fun (mask waits : Nat) (busy : Bool) => { ready with
       mgu := { ready.mgu with mask := mask }
       link := { ready.link with
         upstream := List.replicate waits (.writeDone 5 .done), transmitting := if busy then some [] else none } }
     let passes := fun (level : Nat) (s : State) => s.link.state = .active ∧ (s.mgu.mask < level ∨ level = 7) ∧
       (level = 7 ∨ s.link.upstream.length < 8)
     passes 4 (loaded 3 0 false) ∧ passes 4 (loaded 3 7 true) ∧ passes 7 (loaded 7 8 true) ∧ ¬passes 3 (loaded 3 0 false) ∧
       ¬passes 6 (loaded 3 8 true) ∧ ¬passes 7 (linkIn .echo ready) ∧ ready.dem.completions = []) :=
  ⟨fun _ _ => taken (hc := rfl), taken, fun _ _ => taken (hc := rfl), fun _ _ => taken (hc := rfl), taken, taken,
    by decide +kernel⟩

theorem test_witness_CounterAndTimeRead :
    (Taken 31 [] (request 31 []) (asked 31 [] ready) ∧ (asked 31 [] ready).mgu.counters.Bounded) ∧
    Taken 34 [] (request 34 []) (asked 34 [] ready) :=
  ⟨⟨taken, (asked_sound 31 []).counters⟩, taken⟩

/-- In a part that serves, in a HALTED one and in the Core Reset of another request. -/
theorem test_witness_StatusRead :
    (Taken 35 [] (request 35 []) (asked 35 [] ready) ∧ Sound (asked 35 [] ready)) ∧
    (Taken 35 [] (request 35 []) (asked 35 [] (halted ready)) ∧ (halted ready).fcu.halted.isSome) ∧
    (let s := asked 35 [] { ready with mgu := { ready.mgu with coreReset := some ⟨.drain, 49⟩ } }
     Taken 35 [] (request 35 []) s ∧ s.mgu.coreReset.isSome) :=
  ⟨⟨taken, asked_sound 35 []⟩, ⟨taken, rfl⟩,
    { released := rfl, active := rfl, oldest := rfl, passes := rfl, named := rfl, buffered := rfl, unheld := rfl
      notReset := fun c h => by
        have : some ⟨.drain, 49⟩ = some c := h
        cases this; decide }, rfl⟩

theorem test_witness_IdentityRead :
    Taken 36 [] (request 36 []) (asked 36 [] ready) ∧
    ((halted ready).fcu.halted.isSome ∧ (halted ready).mgu.coreReset = none) ∧
    ((∀ pins, Instr.timeBaseAdvance ≠ .porAsserted pins) ∧
      ∃ t, exec .timeBaseAdvance ready = .next t) :=
  ⟨taken, by decide +kernel, by simp, ⟨_, rfl⟩⟩

/-- The last item of each table and the first that is none. -/
theorem test_witness_TableReads :
    (∀ b ∈ [(15 : Byte), 16], Taken 2 [b] (request 2 [b]) (asked 2 [b] ready)) ∧
    (∀ b ∈ [(0 : Byte), 7, 8], Taken 5 [b] (request 5 [b]) (asked 5 [b] ready)) ∧
    (∀ b ∈ [[(3 : Byte), 9], [4, 0], [0, 10]], Taken 7 b (request 7 b) (asked 7 b ready)) ∧
    (∀ b ∈ [(31 : Byte), 32],
      Taken 11 [b] (request 11 [b]) (asked 11 [b] (setSlot 31 (.active line stored 7) ready))) ∧
    ((regionAt ready 15).storage = .sound ∧ (storedProfile ready 7).storage = .sound ∧
      (profileAt ready 7).InRange ∧ 7 ≠ ready.psc.phase ∧ ready.psc.running = false ∧
      (deviceAt ready (entryNumber 3 9)).storage = .sound) ∧
    slotAt (setSlot 31 (.active line stored 7) ready) 31 = .active line stored 7 := by
  refine ⟨fun _ _ => taken (hc := rfl), fun _ _ => taken (hc := rfl), ?_, fun _ _ => taken (hc := rfl), ?_, ?_⟩
  · intro b h
    rcases List.mem_cons.mp h with rfl | h
    · exact taken
    rcases List.mem_cons.mp h with rfl | h
    · exact taken
    · rw [List.mem_singleton.mp h]; exact taken
  · unfold Profile.InRange; decide +kernel
  · decide +kernel

/-- Its clauses on faulty storage: the last region, the last profile and the current one, and the last device entry,
in a part that is HALTED and in one that is not. -/
theorem test_witness_TableReads_faulty :
    ∀ x : Storage,
      (let s := setRegion 15 ⟨emptyRegion, x⟩ ready
       Taken 2 [15] (request 2 [15]) (asked 2 [15] s) ∧ (regionAt s 15).storage = x ∧ RecordsReady s) ∧
      (let s := setProfile 7 ⟨defaultProfile, x⟩ ready
       Taken 5 [7] (request 5 [7]) (asked 5 [7] s) ∧ (storedProfile s 7).storage = x ∧ (profileAt s 7).InRange ∧
         7 ≠ s.psc.phase ∧ RecordsReady s) ∧
      (let s := setProfile 0 ⟨defaultProfile, x⟩ ready
       Taken 5 [0] (request 5 [0]) (asked 5 [0] s) ∧ (storedProfile s 0).storage = x ∧ (profileAt s 0).InRange ∧
         0 = s.psc.phase ∧ s.psc.running = false ∧ s.fcu.halted = none ∧ RecordsReady s) ∧
      (let s := asked 7 [3, 9] (setDevice 39 ⟨resetDevice, x⟩ ready)
       Taken 7 [3, 9] (request 7 [3, 9]) s ∧ (deviceAt s (entryNumber 3 9)).storage = x ∧ s.fcu.halted = none ∧
         RequestsNamed s ∧ s.sls.retires = [] ∧ ∀ i < 32, slotAt s i = .free) ∧
      (let s := halted (setDevice 39 ⟨resetDevice, x⟩ ready)
       Taken 7 [3, 9] (request 7 [3, 9]) (asked 7 [3, 9] s) ∧ (deviceAt s (entryNumber 3 9)).storage = x ∧
         s.fcu.halted.isSome) := by
  unfold Profile.InRange RequestsNamed
  repeat' first | refine everyStorage ?_ ?_ ?_ | refine And.intro ?_ ?_
  all_goals first
    | exact taken
    | exact recordsReady
    | decide +kernel

theorem test_witness_CursorAndRankReads :
    (Taken 17 [] (request 17 []) (asked 17 [] ready) ∧ Sound (asked 17 [] ready)) ∧
    Taken 24 [] (request 24 []) (asked 24 [] ready) ∧ Sound (asked 24 [] ready) :=
  ⟨⟨taken, asked_sound 17 []⟩, taken, asked_sound 24 []⟩

/-- Credit just below the lag limit, and at it, with the cursor line a visit line, untested and put off; a held last
line of a rank, in a pass with a visit and in one with none; and a stopped patrol whose test is put off. -/
theorem test_witness_TickEarnsOrIsLost :
    (let s := { ready with psc := { ready.psc with cursorPhase := .deferred } }
     s.link.por = false ∧ (storedProfile s s.psc.phase).storage = .sound ∧ s.psc.running = false) ∧
    (∀ credit ∈ [1048575, 1048576], ∀ phase ∈ [CursorPhase.visitLine plain, .untested, .deferred],
      let b := patrolling credit ready
      let s := { b with psc := { b.psc with cursorPhase := phase } }
      s.link.por = false ∧ (storedProfile s s.psc.phase).storage = .sound ∧
        s.psc.cursorPhase = phase ∧ s.psc.running = true ∧
        (currentProfile s).allowed = true ∧ s.psc.cursor = some line ∧ s.fcu.halted = none ∧
        (∀ i < 16, (regionAt s i).storage = .sound) ∧ holder line s = .none ∧
        (classify line s).cls ≠ .exempt ∧
        (s.psc.credit < s.psc.lagLimit ↔ credit = 1048575)) ∧
    (∃ run, SkipRun (patrolling 1048575 ready) line false run) ∧
    ∀ visited : Bool,
      let b := patrolAt ⟨0, 0xFFFFFF⟩ ⟨0, 0xFFFFFF⟩ ready
      let s := { b with psc := { b.psc with cursorPhase := .deferred, passVisited := visited } }
      s.link.por = false ∧ s.psc.running = true ∧ (currentProfile s).allowed = true ∧ PatrolTablesSound s ∧
        s.psc.credit < s.psc.lagLimit ∧ s.psc.passVisited = visited ∧
        ∃ run, SkipRun s ⟨0, 0xFFFFFF⟩ s.psc.passVisited run := by
  refine ⟨by decide +kernel, by decide +kernel, visits, ?_⟩
  repeat' first | refine everyBool ?_ ?_ | refine And.intro ?_ ?_
  all_goals first
    | exact tablesSound
    | exact endsPass 0 (hb := visits)
    | decide +kernel

/-- Errors in the first and in the last profile, the current one and another. -/
theorem test_witness_TickEarnsOrIsLost_unsound :
    (∀ n ∈ [0, 7], (storedProfile (patrolling 5 ready) n).storage = .sound) ∧ RecordsReady (patrolling 5 ready) ∧
    (patrolling 5 ready).psc.phase = 0 ∧ (patrolling 5 ready).link.por = false ∧
    (let b := patrolling 5 ready
     let s := { b with psc := { b.psc with phase := 7 } }
     s.psc.phase = 7 ∧ (storedProfile s 7).storage = .sound ∧ RecordsReady s ∧ s.link.por = false) := by
  repeat' refine And.intro ?_ ?_
  all_goals first
    | exact recordsReady
    | decide +kernel

theorem test_witness_TimersAndStorageErrors :
    (let s := withEntry .repair (.waiting 0) ready
     s.link.por = false ∧ RepairQueueFits s ∧ s.fcu.halted = none) ∧
    ((slotAt ready 31).data? = none ∧
      (slotAt (setSlot 31 (.active line stored 7) ready) 31).data? = some stored) := by
  unfold RepairQueueFits; decide +kernel

/-- BUSY before HALTED before RANGE; kinds 0, 38 and 39 at the ends of the catalogue. -/
theorem test_witness_TakeChecksInOrder :
    (∀ r k args, oldestManage ready = some (r, k, args) → k ≠ 1) ∧
    (∀ k ∈ [0, 1, 37, 38, 39],
      let s := asked k [] ready
      s.link.por = false ∧ oldestManage s = some (request k [], k, []) ∧ s.link.state = .active ∧
        findRequest (request k []).id s = some (request k []) ∧ s.mgu.coreReset = none ∧
        s.fcu.halted = none) ∧
    (let s := asked 1 [] ready
     let t := { s with mgu := { s.mgu with coreReset := some ⟨.drain, 49⟩ } }
     t.mgu.coreReset.isSome ∧ (49 : Nat) ≠ (request 1 []).id) ∧
    ((halted (asked 1 [] ready)).fcu.halted.isSome ∧ 1 ∉ [7, 25, 26, 31, 35, 36] ∧
      ([] : List Byte).length < argumentsNeeded 1) := by
  refine ⟨?_, by decide +kernel⟩
  intro r k args h; cases h

/-- A Region Load of entry 15 or 16, whose base is the last line of the module's last present rank number, and
the other loads at the ends of their ranges. -/
theorem test_witness_LoadsReplaceTheirItem :
    (∀ n ∈ [(15 : Byte), 16],
      let args := [n, 1, 0, 0xFF, 0xFF, 0xFF, 3, 0, 0, 0, 0, 2, 8]
      Taken 1 args (request 1 args) (asked 1 args ready)) ∧
    (let base := addressOf [0, 0xFF, 0xFF, 0xFF]
     rankOf base ≤ 3 ∧ base.index.toNat < depth ready ∧ (2 : Byte) = RegionClass.code .journal) ∧
    (∀ n ∈ [(1 : Byte), 2],
      let args := [n, 0, 0, 1, 0, 9, 15, 0x6A, 0x5C, 0]
      Taken 27 args (request 27 args) (asked 27 args ready)) ∧
    (∀ n ∈ [(1 : Byte), 2], Taken 28 [n] (request 28 [n]) (asked 28 [n] ready)) ∧
    (∀ n ∈ [(0 : Byte), 1, 2], Taken 29 [n] (request 29 [n]) (asked 29 [n] ready)) ∧
    (let s := setRank 0 (powerOnRank true) ready
     Taken 29 [1] (request 29 [1]) (asked 29 [1] s) ∧
       (∀ q < 4, rankState s q = .offline ∨ rankState s q = .absent) ∧ s.cod.loopLine = none ∧
       Taken 29 [1] (request 29 [1]) (asked 29 [1] (setLoop (some zeroRaw) s))) :=
  ⟨fun _ _ => taken (hc := rfl), by decide +kernel, fun _ _ => taken (hc := rfl),
    fun _ _ => taken (hc := rfl), fun _ _ => taken (hc := rfl), taken, by decide +kernel,
    by decide +kernel, taken⟩

/-- A load of the current profile and of another, one that allows patrol and one that does not. -/
theorem test_witness_PhaseLoadAndSet :
    (∀ n ∈ [(0 : Byte), 7, 8], ∀ allowed ∈ [(0 : Byte), 1],
      let args := [n, 0, 0, allowed, 0xFF, 0xFF, 0xFF, 0xFF, 0, 20]
      Taken 4 args (request 4 args) (asked 4 args ready)) ∧
    (∀ n ∈ [(0 : Byte), 7, 8], Taken 6 [n] (request 6 [n]) (asked 6 [n] ready)) ∧
    (NoLineToTest ready ∧ ready.psc.phase = 0 ∧ (storedProfile ready 7).storage = .sound) :=
  ⟨fun _ _ _ _ => taken (hc := rfl), fun _ _ => taken (hc := rfl), .inl rfl, by decide +kernel⟩

/-- A marked device 0 of rank 0, and a device 9 whose entry cannot be read beside one with a single-bit error. -/
theorem test_witness_MarkAndUnmark :
    (∀ k ∈ [8, 9], ∀ b ∈ [[(0 : Byte), 0], [0, 9], [0, 10], [1, 0], [4, 0]],
      takeCheck k b ready = none) ∧
    Taken 8 [0, 9] (request 8 [0, 9]) (asked 8 [0, 9] ready) ∧
    Taken 9 [0, 9] (request 9 [0, 9]) (asked 9 [0, 9] ready) ∧
    (rankState ready 0 = .online ∧ rankState ready 1 = .absent ∧
      (∀ d < 10, (deviceAt ready (entryNumber 0 d)).storage = .sound) ∧ markOf ready 0 = none) ∧
    (let s := putDevice 0 ⟨256, .marked, false, false, 0⟩ ready
     (∀ d < 10, (deviceAt s (entryNumber 0 d)).storage = .sound) ∧ (markOf s 0).isSome ∧
       (deviceEntry s (entryNumber 0 0)).state = .marked) ∧
    (let s := setDevice 8 ⟨resetDevice, .singleBit⟩ (setDevice 9 ⟨resetDevice, .uncorrectable⟩ ready)
     Taken 8 [0, 9] (request 8 [0, 9]) (asked 8 [0, 9] s) ∧ Taken 9 [0, 9] (request 9 [0, 9]) (asked 9 [0, 9] s) ∧
       (deviceAt s (entryNumber 0 9)).storage = .uncorrectable ∧ rankState s 0 ≠ .absent ∧
       ((asked 8 [0, 9] s).dem.requests.map Request.id).Nodup ∧
       ∀ q ∈ (asked 8 [0, 9] s).dem.requests, q.id < (asked 8 [0, 9] s).stamp) := by
  repeat' refine And.intro ?_ ?_
  all_goals first
    | exact taken
    | decide +kernel

theorem test_witness_SpareRetireAndRelease :
    let retire := packedAddress line
    (Taken 12 retire (request 12 retire) (asked 12 retire ready) ∧ addressOf (field retire 0 4) = line ∧
      rankState ready (rankOf line) = .online ∧ line.index.toNat < depth ready ∧ holder line ready = .none) ∧
    ((lineAt 0 0x1000000).index.toNat = depth ready) ∧
    (rankState (setRank 0 (powerOnRank true) ready) 0 ≠ .online) ∧
    holder line (withEntry .poison .ready ready) = .entry (entry .poison .ready) ∧
    holder line (releasing ready) = .slot 3 ∧
    (let s := withEntry .repair .ready
      { ready with sls := { ready.sls with slots := Vector.replicate 32 (.active ⟨0, 0⟩ stored 0) } }
     holder line s = .entry (entry .repair .ready) ∧ ∀ i < 32, (slotAt s i).holds = true) ∧
    (let s := withEntry .repair .ready (setSlot 0 (.active ⟨0, 0⟩ stored 0) ready)
     holder line s = .entry (entry .repair .ready) ∧ slotAt s 1 = .free ∧
       (∀ j < 1, slotAt s j ≠ .free) ∧ (∀ j < 32, (slotAt s j).line? ≠ some line) ∧ s.sls.retires = [] ∧
       s.fcu.contexts = [] ∧ s.psc.cursor ≠ some line ∧ followerOf line s = none) ∧
    (∀ n ∈ [(0 : Byte), 31, 32], Taken 13 [n] (request 13 [n]) (asked 13 [n] ready)) ∧
    (let s := setSlot 31 (.active line stored 0) ready
     Taken 13 [31] (request 13 [31]) (asked 13 [31] s) ∧ slotAt s 31 = .active line stored 0 ∧
       rankState s 0 = .online) ∧
    (slotAt (setSlot 31 (.watch line 15 7) ready) 31 = .watch line 15 7 ∧
      slotAt (setSlot 31 (.failed line stored 0) ready) 31 = .failed line stored 0 ∧
      followerOf line (setSlot 31 (.failed line stored 0) ready) = none) :=
  by
  repeat' refine And.intro ?_ ?_
  all_goals first | exact taken | exact fun _ _ => taken (hc := rfl) | decide +kernel

/-- The end of a RETIRE read: its line lost, overwritten or free, its rank OFFLINE, held as REPAIR and as POISON, a slot
to be had and none. -/
theorem test_witness_SpareRetireAndRelease_read :
    let r := { request 12 (packedAddress line) with phase := .serving }
    let g := read (.retireRead 50)
    let part := fun b : State => granted g.op
      { withRequests [r] b with sls := { b.sls with retires := [⟨50, line, 70⟩] } }
    let used := fun (b : State) (raw : RawLine) => consume (verdictOf g .retire raw (part b)) (freed (part b))
    let online := used ready (encode data)
    Finishing g (part ready) ∧ Answerable r online ∧
      (online.sls.retires.find? fun x => x.request == 50) = some ⟨50, line, 70⟩ ∧ online.fcu.halted = none ∧
      (verdictOf g .retire (encode data) (part ready)).verdict = .clean ∧
      (verdictOf g .retire twoWrong (part ready)).verdict = .uncorrectable ∧
      Answerable r (used ready twoWrong) ∧
      rankState online 0 = .online ∧ rankState (used (setRank 0 (powerOnRank true) ready) (encode data)) 0 ≠ .online ∧
      (verdictOf { g with overwritten := true } .retire (encode data) (part ready)).overwritten = true ∧
      holder line online = .none ∧
      holder line (used (withEntry .repair .ready ready) (encode data)) = .entry (entry .repair .ready) ∧
      holder line (used (withEntry .poison .ready ready) (encode data)) = .entry (entry .poison .ready) ∧
      ChosenSlot line 0 online ∧ Unattended line { online with sls := { online.sls with retires := [] } } ∧
      ∀ i < 32, (slotAt (used (slotsHeld (List.range 32) ready) (encode data)) i).holds = true := by
  repeat' refine And.intro ?_ ?_
  all_goals first
    | exact finishing
    | exact answerable
    | exact .inr ⟨by decide +kernel, firstFree⟩
    | exact unattended
    | decide +kernel

/-- Watch hits: on a line that no slot names, with a slot FREE, with WATCH slots alone and with none; and on a watched
line below its threshold and at it. -/
theorem test_witness_SpareRetireAndRelease_watch :
    let v := decodeLine line .demand none (some plain) false flipped
    (v.repairable = true ∧ v.source ≠ .retire ∧ v.overwritten = false ∧ rankState ready 0 = .online ∧
      ready.fcu.halted = none ∧ (∀ i < 32, slotAt ready i = .free)) ∧
    FreeOrOldest 0 ready ∧ FreeOrOldest 31 (slotsHeld (List.range 31) ready) ∧
    (let s := setSlot 5 (.watch ⟨0, 0⟩ 1 7) (setSlot 9 (.watch ⟨0, 1⟩ 1 7) (slotsHeld (List.range 32) ready))
     FreeOrOldest 5 s ∧ ∀ i < 32, (slotAt s i).line? ≠ some line) ∧
    (∀ i < 32, (slotAt (slotsHeld (List.range 32) ready) i).holds = true) ∧
    (∀ hits ∈ [1, 2],
      let s := setSlot 31 (.watch line hits 7) ready
      slotAt s 31 = .watch line hits 7 ∧ (∀ i < 32, (slotAt s i).holds = false) ∧ SlotsFit s ∧ Unattended line s ∧
        (hits + 1 < s.sls.threshold ↔ hits = 1)) := by
  refine ⟨by decide +kernel, firstFree, firstFree, ⟨⟨by decide, .inr ⟨⟨0, 0⟩, 1, 7, ?_⟩⟩, by decide +kernel⟩,
    by decide +kernel, ?_⟩
  · have only : ∀ j < 32, slotAt (setSlot 5 (.watch ⟨0, 0⟩ 1 7)
        (setSlot 9 (.watch ⟨0, 1⟩ 1 7) (slotsHeld (List.range 32) ready))) j =
        if j = 5 then .watch ⟨0, 0⟩ 1 7 else if j = 9 then .watch ⟨0, 1⟩ 1 7 else .active ⟨2, 0⟩ stored 0 := by
      decide +kernel
    refine ⟨only 5 (by decide), fun j hj => ?_, fun j hj c m u h => ?_⟩
    · rw [only j hj]; split
      · simp
      · split <;> simp
    · rw [only j hj] at h
      split at h
      · cases h; exact .inr ⟨rfl, by omega⟩
      · split at h
        · cases h; exact .inr ⟨rfl, by omega⟩
        · cases h
  · have pair : ∀ {P : Nat → Prop}, P 1 → P 2 → ∀ n ∈ [1, 2], P n := by
      intro P h k n hn; simp at hn; rcases hn with rfl | rfl <;> assumption
    refine pair ?_ ?_
    all_goals
      repeat' refine And.intro ?_ ?_
      all_goals first
        | exact slotsFit 31
        | exact unattended
        | decide +kernel

theorem test_witness_PatrolRequests :
    let target := packedAddress line
    let outside := packedAddress ⟨0, 0x1000000⟩
    (Taken 15 [] (request 15 []) (asked 15 [] ready) ∧ ready.psc.running = false ∧
      ready.psc.cursor = some ⟨0, 0⟩ ∧ ready.psc.cursorPhase = .untested ∧
      (currentProfile ready).allowed = true ∧ PatrolTablesSound ready ∧
      ∃ run, SkipRun ready ⟨0, 0⟩ ready.psc.passVisited run) ∧
    (Taken 15 [] (request 15 []) (asked 15 [] (patrolling 0 ready)) ∧
      (patrolling 0 ready).psc.running = true) ∧
    (let s := parkCursor ready
     Taken 15 [] (request 15 []) (asked 15 [] s) ∧ s.psc.cursor = none ∧ s.psc.running = false) ∧
    Taken 16 [] (request 16 []) (asked 16 [] (patrolling 1 ready)) ∧
    (Taken 18 target (request 18 target) (asked 18 target ready) ∧
      Taken 18 target (request 18 target) (asked 18 target (patrolling 1 ready)) ∧
      addressOf (field target 0 4) = line ∧ rankState ready (rankOf line) = .online ∧
      line.index.toNat < depth ready ∧ (patrolling 1 ready).psc.running = true ∧
      (currentProfile (patrolling 1 ready)).allowed = true ∧ PatrolTablesSound (patrolling 1 ready) ∧
      ∃ run, SkipRun (patrolling 1 ready) line false run) ∧
    (Taken 18 outside (request 18 outside) (asked 18 outside ready) ∧
      depth ready ≤ (addressOf (field outside 0 4)).index.toNat) ∧
    (∀ n ∈ [(0 : Byte), 255], Taken 19 [n, n, n, n] (request 19 [n, n, n, n])
      (asked 19 [n, n, n, n] (patrolling 1 ready)) ∧ NoLineToTest (patrolling 1 ready)) ∧
    Taken 20 [] (request 20 []) (asked 20 [] ready) :=
  ⟨⟨taken, by decide +kernel, by decide +kernel, by decide +kernel, by decide +kernel, tablesSound, visits⟩,
    ⟨taken, by decide +kernel⟩, ⟨taken, by decide +kernel⟩, taken,
    ⟨taken, taken, by decide +kernel, by decide +kernel, by decide +kernel, by decide +kernel, by decide +kernel,
      tablesSound, visits⟩,
    ⟨taken, by decide +kernel⟩, fun _ _ => ⟨taken (hc := rfl), .inr (.inr (by decide))⟩, taken⟩

theorem test_witness_RankRequests :
    let off := setRank 0 (powerOnRank true) ready
    (∀ k ∈ [21, 22, 23], takeCheck k [0] ready = none) ∧
    (Taken 21 [0] (request 21 [0]) (asked 21 [0] off) ∧ rankState off 0 = .offline ∧
      off.cod.loopLine = none) ∧
    (Taken 22 [0] (request 22 [0]) (asked 22 [0] (parkCursor off)) ∧ (parkCursor off).psc.cursor = none ∧
      (parkCursor off).psc.running = false ∧ off.psc.cursor.isSome) ∧
    (Taken 21 [1] (request 21 [1]) (asked 21 [1] ready) ∧ rankState ready 1 = .absent ∧
      rankState ready 0 ≠ .offline) ∧
    Taken 23 [0] (request 23 [0]) (asked 23 [0] (filling 7 ready)) ∧
    (rankState (filling 7 ready) 0 = .filling ∧ rankState off 0 = .offline) ∧
    (∃ e ∈ (withEntry .repair .ready ready).rpq.entries, rankOf e.line = 0) ∧
    (∃ i < 32, ∃ a d t w, slotAt (releasing ready) i = .releasing a d t w ∧ rankOf a = 0) ∧
    (let s := parkCursor ready
     rankState s 0 = .online ∧ s.rpq.entries = [] ∧ (∀ i < 32, slotAt s i = .free) ∧ s.fcu.contexts = [] ∧
       s.psc.cursor = none ∧ RequestsNamed (asked 23 [0] s)) ∧
    (let s := setRank 0 ⟨.offline, false, 0, some 36⟩ ready
     rankState s 0 = .offline ∧ (rankRec s 0).selfRefresh = false ∧ rankBusy s 0 = false ∧
       rankBusy (granted (.demandRead 50 false) s) 0 = true) := by
  refine ⟨by decide +kernel, ⟨taken, by decide +kernel⟩, ⟨taken, by decide +kernel⟩, ⟨taken, by decide +kernel⟩,
    taken, by decide +kernel, ⟨entry .repair .ready, by decide +kernel⟩,
    ⟨3, by decide, line, stored, 0, some ⟨50, 70⟩, by decide +kernel⟩, ?_, by decide +kernel⟩
  unfold RequestsNamed; decide +kernel

/-- Its clauses on the cursor's migration: the cursor stands in rank 0, the one ONLINE rank, or one of two; there with
the patrol stopped, running in a phase that does not allow patrol, and running in one that does. -/
theorem test_witness_RankRequests_migration :
    let two := setRank 1 ⟨.online, false, 0, some 36⟩ ready
    let offline := fun s : State => setRank 0 { rankRec s 0 with state := .offline } s
    let next := fun s : State => [1, 2, 3, 0].find? fun p => decide (rankState (offline s) p = .online)
    let leaves := fun s : State => rankState s 0 = .online ∧ s.rpq.entries = [] ∧ (∀ i < 32, slotAt s i = .free) ∧
      s.fcu.contexts = [] ∧ (∃ a, s.psc.cursor = some a ∧ rankOf a = 0) ∧ RequestsNamed (asked 23 [0] s)
    (Taken 23 [0] (request 23 [0]) (asked 23 [0] ready) ∧ leaves ready ∧ next ready = none) ∧
    (Taken 23 [0] (request 23 [0]) (asked 23 [0] two) ∧ leaves two ∧ next two = some 1 ∧ two.psc.running = false) ∧
    (let s := setProfile 0 ⟨{ defaultProfile with allowed := false }, .sound⟩ (patrolling 1 two)
     Taken 23 [0] (request 23 [0]) (asked 23 [0] s) ∧ leaves s ∧ next s = some 1 ∧ PatrolTablesSound s ∧
       (currentProfile s).allowed = false) ∧
    (let s := patrolling 1 two
     Taken 23 [0] (request 23 [0]) (asked 23 [0] s) ∧ leaves s ∧ next s = some 1 ∧ s.psc.running = true ∧
       PatrolTablesSound s ∧ (currentProfile s).allowed = true ∧ s.fcu.halted = none ∧
       ∃ run, SkipRun (offline s) (lineAt 1 0) false run) := by
  unfold RequestsNamed
  repeat' refine And.intro ?_ ?_
  all_goals first
    | exact taken
    | exact tablesSound
    | exact visits
    | exact ⟨⟨0, 0⟩, by decide +kernel⟩
    | exact ⟨line, by decide +kernel⟩
    | decide +kernel

theorem test_witness_CapturesArePlacedReadAndReleased :
    (∀ b ∈ [[(0 : Byte), 0], [1, 2], [2, 0], [0, 3]], takeCheck 25 b ready = none) ∧
    Taken 25 [0, 2] (request 25 [0, 2]) (asked 25 [0, 2] ready) ∧
    (∀ held ∈ [none, some ((0xFF00 : ByteMask), data)], ∀ storage ∈ [Storage.sound, .singleBit, .uncorrectable],
      let s := recordedAs (.held (capturedWith held)) storage ready
      (recordAt s .a).content = .held (capturedWith held) ∧ (recordAt s .a).storage = storage ∧
        (capturedWith held).held = held ∧ takeCheck 25 [0, 1] s = none) ∧
    (recordAt (recordedAs .lost .sound ready) .a).content = .lost ∧
    (∀ n ∈ [(0 : Byte), 1, 2], Taken 26 [n] (request 26 [n]) (asked 26 [n] ready)) ∧
    ((halted ready).fcu.halted.isSome ∧ ready.fcu.halted = none ∧
      (recordAt ready ready.fcu.next).content = .empty ∧ (recordAt ready .a).strike = .sound ∧
      (recordAt ready .b).strike = .sound) ∧
    (let s := recordedAs (.held (capturedWith none)) .sound ready
     (recordAt s s.fcu.next).content ≠ .empty ∧ (recordAt s .b).content = .empty ∧
       (recordAt (setRecord .b ⟨.lost, .uncorrectable, .sound⟩ s) .b).content ≠ .empty) := by
  refine ⟨by decide +kernel, taken, by decide +kernel, by decide +kernel, fun _ _ => taken (hc := rfl),
    by decide +kernel, by decide +kernel⟩

/-- A capture whose check-back is struck, in the next record and in the other one, and a Region Read whose capture's
contents are lost. -/
theorem test_witness_CapturesArePlacedReadAndReleased_struck :
    (∀ k : Storage,
      (let s := struck .a k ready
       s.fcu.halted = none ∧ s.fcu.next = .a ∧ (recordAt s .a).content = .empty ∧ (recordAt s .a).strike = k) ∧
      (let s := recordedAs (.held (capturedWith none)) .sound (struck .b k ready)
       s.fcu.next = .a ∧ (recordAt s .a).content ≠ .empty ∧ (recordAt s .b).content = .empty ∧
         (recordAt s .b).strike = k)) ∧
    ∀ last : Bool,
      let n := if last then 15 else 0
      let args := [BitVec.ofNat 8 n]
      let s := asked 2 args (regionErr n .uncorrectable (struck .a .uncorrectable ready))
      Taken 2 args (request 2 args) s ∧ (byteAt args 0).toNat = n ∧ (regionAt s n).storage = .uncorrectable ∧
        s.fcu.halted = none ∧ (recordAt s s.fcu.next).content = .empty ∧
        (recordAt s s.fcu.next).strike = .uncorrectable ∧
        ((s.dem.requests.map Request.id).Nodup ∧ ∀ q ∈ s.dem.requests, q.id < s.stamp) ∧
        s.sls.retires = [] ∧ ∀ i < 32, slotAt s i = .free := by
  repeat' first | refine everyStorage ?_ ?_ ?_ | refine everyBool ?_ ?_ | refine And.intro ?_ ?_
  all_goals first
    | exact taken
    | decide +kernel

/-- A READ of the line and one of a line there is not are QUEUED beside the Core Reset (DRAIN). -/
theorem test_witness_DrainStartsAndEnds :
    (let absent := { started (.read ⟨1, 0⟩) .queued with id := 51, tag := 7, hold := none, cls := none }
     let waiting := { started (.read line) .queued with id := 52, tag := 8, hold := none, cls := none }
     let s := withRequests [request 37 [0], absent, waiting] ready
     Taken 37 [0] (request 37 [0]) s ∧ ([0] : List Byte).head? ≠ some 1 ∧
       (s.dem.requests.map Request.id).Nodup ∧ (∀ q ∈ s.dem.requests, q.id < s.stamp) ∧
       absent ∈ s.dem.requests ∧ waiting ∈ s.dem.requests ∧ absent.body.line? = some ⟨1, 0⟩ ∧
       waiting.body.line? = some line ∧ rankState s 1 = .absent ∧ rankState s 0 ≠ .absent ∧
       line.index.toNat < depth s) ∧
    (Taken 37 [2] (request 37 [2]) (asked 37 [2] ready) ∧ ([2] : List Byte).head? ≠ some 1) ∧
    (let r := { request 37 [0] with phase := .serving }
     let s := resetting .drain (withRequests [r] ready)
     s.link.por = false ∧ s.link.state = .active ∧ s.mgu.coreReset = some ⟨.drain, r.id⟩ ∧
       findRequest r.id s = some r ∧
       (∀ q ∈ s.dem.requests, q.isDemand = true → q.hold = none ∧ q.beside = false ∧ q.orphan = false) ∧
       s.fcu.contexts = [] ∧ s.drp.port = none ∧ s.rpq.entries = [] ∧ (∀ i < 32, slotAt s i = .free) ∧
       s.sls.retires = [] ∧ (∀ q < 4, rankState s q ≠ .filling) ∧ (retrying s).fcu.contexts ≠ []) := by
  repeat' refine And.intro ?_ ?_
  all_goals first
    | exact taken_by
    | decide +kernel

/-- A drain whose request is an orphan, the link ACTIVE again, and one under a link that is not ACTIVE. -/
theorem test_witness_DrainStartsAndEnds_discarded :
    ∀ p ∈ [(true, LinkState.active), (true, .down), (false, .training .laneLock), (false, .echo)],
      let r := { request 37 [0] with phase := .serving, orphan := p.1 }
      let s := linkIn p.2 (resetting .drain (withRequests [r] ready))
      s.link.por = false ∧ s.mgu.coreReset = some ⟨.drain, r.id⟩ ∧ findRequest r.id s = some r ∧
        r.phase = .serving ∧ r.hold = none ∧ (r.orphan = true ∨ s.link.state ≠ .active) ∧
        (∀ q ∈ s.dem.requests, q.isDemand = true → q.hold = none ∧ q.beside = false ∧ q.orphan = false) ∧
        s.fcu.contexts = [] ∧ s.drp.port = none ∧ s.rpq.entries = [] ∧ (∀ i < 32, slotAt s i = .free) ∧
        s.sls.retires = [] ∧ ∀ q < 4, rankState s q ≠ .filling := by decide +kernel

/-- A READ, a Spare Retire and a Spare Release are in hand beside the Core Reset (ABORT). -/
theorem test_witness_AbortLeavesHalted :
    (let reading := { started (.read line) .waitRead with id := 51, tag := 7 }
     let retire := { request 12 (packedAddress line) with id := 52, tag := 8, phase := .serving }
     let release := { request 13 [3] with id := 53, tag := 10, phase := .serving }
     let b := setSlot 3 (.releasing ⟨0, 0x300⟩ stored 0 (some ⟨53, 70⟩)) ready
     let s := withRequests [request 37 [1], reading, retire, release]
       { b with sls := { b.sls with retires := [⟨52, ⟨0, 0x200⟩, 71⟩] } }
     Taken 37 [1] (request 37 [1]) s ∧ ([1] : List Byte).head? = some 1 ∧
       (s.dem.requests.map Request.id).Nodup ∧ (∀ q ∈ s.dem.requests, q.id < s.stamp) ∧
       (∀ w ∈ s.sls.retires, w.request ≠ 50) ∧ (∀ i < 32, i ≠ 3 → slotAt s i = .free) ∧
       slotAt s 3 = .releasing ⟨0, 0x300⟩ stored 0 (some ⟨53, 70⟩) ∧
       reading ∈ s.dem.requests ∧ retire ∈ s.dem.requests ∧ release ∈ s.dem.requests ∧
       ∃ w ∈ s.sls.retires, w.request = 52) ∧
    (Taken 37 [1] (request 37 [1]) (asked 37 [1] (halted ready)) ∧ (halted ready).fcu.halted.isSome) ∧
    (granted (.visitRead false) ready).drp.port = some (read (.visitRead false)) := by
  repeat' refine And.intro ?_ ?_
  all_goals first
    | exact taken_by
    | decide +kernel

/-- Nothing in hand; then a READ that waits, one under a retry not granted, a Spare Retire, a Spare Release and a drain
in progress. -/
theorem test_witness_EnteringHaltedEndsTheWork :
    ((halted ready).fcu.halted.isSome ∧ ready.fcu.halted = none ∧
      ready.dem.requests = [] ∧ ready.sls.retires = [] ∧ ready.fcu.contexts = [] ∧ ready.mgu.coreReset = none ∧
      (∀ i < 32, slotAt ready i = .free) ∧
      (∀ r < 4, rankState ready r = .offline → (rankRec ready r).selfRefresh) ∧
      ∀ q < 4, rankState ready q ≠ .filling) ∧
    (let drain := { request 37 [0] with phase := .serving }
     let reading := { started (.read line) .waitRead with id := 51, tag := 7 }
     let retried := { started (.read ⟨0, 0x400⟩) .retrying with id := 54, tag := 11, hold := some (.line ⟨0, 0x400⟩) }
     let retire := { request 12 (packedAddress line) with id := 52, tag := 8, phase := .serving }
     let release := { request 13 [3] with id := 53, tag := 10, phase := .serving }
     let b := setSlot 3 (.releasing ⟨0, 0x300⟩ stored 0 (some ⟨53, 70⟩)) ready
     let s := resetting .drain (withRequests [drain, reading, retried, retire, release]
       { b with
         sls := { b.sls with retires := [⟨52, ⟨0, 0x200⟩, 71⟩] }
         fcu := { b.fcu with contexts := [⟨7, ⟨0, 0x400⟩, .demand 54, plain, zeroRaw, false⟩] } })
     s.fcu.halted = none ∧ s.link.state = .active ∧ (s.dem.requests.map Request.id).Nodup ∧
       (∀ q ∈ s.dem.requests, q.id < s.stamp ∧ q.orphan = false ∧ q.phase ≠ .completing) ∧
       (∀ x ∈ s.fcu.contexts, atPort (.retryRead x.id) s = false) ∧
       (∃ w ∈ s.sls.retires, w.request = 52 ∧ atPort (.retireRead 52) s = false) ∧
       slotAt s 3 = .releasing ⟨0, 0x300⟩ stored 0 (some ⟨53, 70⟩) ∧ atPort (.releaseWrite 3 70) s = false ∧
       s.mgu.coreReset = some ⟨.drain, drain.id⟩) := by decide +kernel

/-- A READ and a retry of one, granted before the part entered HALTED. -/
theorem test_witness_EnteringHaltedEndsTheWork_granted :
    (let s := halted (granted (.demandRead 50 false) (busyWith (.read line) .readGranted ready))
     s.link.por = false ∧ s.drp.port = some (read (.demandRead 50 false)) ∧ s.fcu.halted.isSome ∧
       (∀ d < 10, (deviceAt s (entryNumber 0 d)).storage = .sound) ∧
       Answerable (started (.read line) .readGranted)
         (consume (verdictOf (read (.demandRead 50 false)) .demand twoWrong s) (freed s))) ∧
    (let x : RetryContext := ⟨7, line, .demand 50, plain, zeroRaw, true⟩
     let b := busyWith (.read line) .retrying ready
     let s := halted (granted (.retryRead 7) { b with fcu := { b.fcu with contexts := [x] } })
     s.link.por = false ∧ s.drp.port = some (read (.retryRead 7)) ∧ s.fcu.halted.isSome ∧
       (∀ d < 10, (deviceAt s (entryNumber 0 d)).storage = .sound) ∧
       (s.fcu.contexts.find? fun y => y.id == 7) = some x ∧ x.work.isFor 50 = true ∧
       Answerable (started (.read line) .answering)
         (consume (verdictOf (read (.retryRead 7)) .retry twoWrong s) (retryClosed 7 x s))) := by
  repeat' refine And.intro ?_ ?_
  all_goals first
    | exact answerable
    | decide +kernel

/-- A RETIRE read granted before the part entered HALTED; and every read that ends in HALTED with an entry of its rank
beyond correction. -/
theorem test_witness_EnteringHaltedEndsTheWork_retire :
    (let r := { request 12 (packedAddress line) with phase := .serving }
     let b := withRequests [r] ready
     let s := halted (granted (.retireRead 50) { b with sls := { b.sls with retires := [⟨50, line, 70⟩] } })
     s.link.por = false ∧ s.drp.port = some (read (.retireRead 50)) ∧ s.fcu.halted.isSome ∧ RankSound 0 s ∧
       (s.sls.retires.find? fun x => x.request == 50) = some ⟨50, line, 70⟩ ∧ r.hold = none ∧
       Answerable r (consume (verdictOf (read (.retireRead 50)) .retire twoWrong s) (freed s)) ∧
       Answerable r (freed (deviceErr 9 .uncorrectable s))) ∧
    (let s := halted (granted (.demandRead 50 false) (busyWith (.read line) .readGranted ready))
     s.link.por = false ∧ s.drp.port = some (read (.demandRead 50 false)) ∧ s.fcu.halted.isSome ∧ RankSound 0 s ∧
       Answerable (started (.read line) .readGranted) (freed (deviceErr 0 .uncorrectable s))) ∧
    (let x : RetryContext := ⟨7, line, .demand 50, plain, zeroRaw, true⟩
     let b := busyWith (.read line) .retrying ready
     let s := halted (granted (.retryRead 7) { b with fcu := { b.fcu with contexts := [x] } })
     let t := freed (deviceErr 9 .uncorrectable s)
     s.drp.port = some (read (.retryRead 7)) ∧ s.fcu.halted.isSome ∧ RankSound 0 s ∧
       (s.fcu.contexts.find? fun y => y.id == 7) = some x ∧ x.work.isFor 50 = true ∧
       Answerable (started (.read line) .retrying) { t with fcu := { t.fcu with contexts := [] } }) ∧
    (let s := halted (granted (.retryRead 7) (retrying ready))
     s.drp.port = some (read (.retryRead 7)) ∧ RankSound 0 s ∧
       (s.fcu.contexts.find? fun y => y.id == 7) = some ⟨7, line, .patrol, plain, zeroRaw, false⟩) ∧
    ∀ op ∈ [PortOp.verifyRead 10, .visitRead true],
      let s := halted (granted op ready)
      s.link.por = false ∧ s.drp.port = some (read op) ∧ s.fcu.halted.isSome ∧
        ∀ d < 10, (deviceAt s (entryNumber 0 d)).storage = .sound := by
  unfold RankSound
  repeat' refine And.intro ?_ ?_
  all_goals first
    | exact answerable
    | decide +kernel

/-- Entries 4 and 7 of the rank beyond correction, and entry 2 with a single-bit error, at the end of a READ's read: the
READ, and one under a retry not granted. -/
theorem test_witness_EnteringHaltedEndsTheWork_unsound :
    let reading := { started (.read line) .readGranted with id := 51, tag := 7 }
    let retried := { started (.read ⟨0, 0x400⟩) .retrying with id := 54, tag := 11, hold := some (.line ⟨0, 0x400⟩) }
    let b := withRequests [reading, retried]
      { ready with fcu := { ready.fcu with contexts := [⟨7, ⟨0, 0x400⟩, .demand 54, plain, zeroRaw, false⟩] } }
    let g := read (.demandRead 51 false)
    let s := deviceErr 2 .singleBit (deviceErr 4 .uncorrectable (deviceErr 7 .uncorrectable (granted g.op b)))
    s.link.por = false ∧ s.drp.port = some g ∧ g.op.source = some .demand ∧ s.fcu.halted = none ∧
      rankOf g.line < 4 ∧ (deviceAt s (entryNumber 0 4)).storage = .uncorrectable ∧
      (∀ j < 4, (deviceAt s (entryNumber 0 j)).storage ≠ .uncorrectable) ∧
      ((s.dem.requests.map Request.id).Nodup ∧ ∀ q ∈ s.dem.requests, q.id < s.stamp) ∧ s.link.state = .active ∧
      (∀ q ∈ s.dem.requests, q.isDemand = true ∧ q.orphan = false) ∧ retried.phase = .retrying ∧
      reading.phase = .readGranted ∧ s.sls.retires = [] ∧ s.mgu.coreReset = none ∧
      ∀ i < 32, slotAt s i = .free := by decide +kernel

theorem test_witness_HaltedAndCapturesPersist :
    let s := recordedAs (.held (capturedWith none)) .sound (halted ready)
    (∃ t, step s = .next t) ∧ s.fcu.halted = some ⟨.health, 21⟩ ∧
      (recordAt s .a).content = .held (capturedWith none) :=
  ⟨⟨_, rfl⟩, by decide +kernel⟩

theorem test_witness_GrantedOperationsAreNotCutShort :
    let b := granted (.visitRead false) ready
    let s := { b with pending := [.tick] }
    (∃ t, step s = .next t) ∧ s.drp.port.isSome ∧
      ∀ c rest, s.pending = c :: rest → (∀ beats, c ≠ .dramReadFinish beats) ∧ c ≠ .dramWriteFinish ∧
        c ≠ .refreshFinish ∧ ∀ pins, c ≠ .porAsserted pins := by
  refine ⟨⟨_, rfl⟩, by decide +kernel, ?_⟩
  intro c rest h; cases h; simp

theorem test_witness_RegionMatching :
    let e := fun (rankMask : BitVec 2) (indexMask : BitVec 27) (base : LineAddr) =>
      ({ valid := true, base := base, rankMask := rankMask, indexMask := indexMask, cls := .hot, level := 7 } :
        RegionEntry)
    (e 0 0 line).valid = true ∧ (rankOf line < 4 ∧ rankOf (e 3 (BitVec.allOnes 27) line).base < 4) ∧
      ((e 0 1 ⟨0, 5⟩).indexMask = 1 ∧ (e 0 1 ⟨0, 5⟩).base.index.getLsbD 0 = true) ∧
      (rankOf (e 1 0 ⟨1, 0⟩).base = 1 ∧ (e 1 0 ⟨1, 0⟩).rankMask = 1) ∧
      (line.index.toNat < depth ready ∧ ready.link.straps.depthExponent ≤ 26) ∧
      RegionsSound plan ∧ ((regionAt plan 1).value.matches ⟨0, 0x0500000⟩ = true ∧
        (regionAt plan 0).value.matches ⟨0, 0x0500000⟩ = false) ∧
      (∀ i < 16, (regionAt plan i).value.matches ⟨2, 0x40⟩ = false) := by unfold RegionsSound; decide +kernel

/-- The first and the last region entry hold an error when a READ's start looks its line up. -/
theorem test_witness_RegionMatching_unsound :
    (∀ i ∈ [0, 15], i < 16) ∧
    (∀ s ∈ [ready, plan], s.dem.completions = [] ∧ holder line s = .none ∧
      (recordAt s .a).strike = .sound ∧ (recordAt s .b).strike = .sound ∧
      ∀ i < 16, (regionAt s i).storage = .sound) ∧
    (LetIn readFrame ready ∧ Startable line ready ∧ frameBody readFrame = .read line) ∧
    (LetIn readFrame plan ∧ Startable line plan) ∧
    (let s := waitingFor (.read line) plan
     StartsNext (queued (.read line)) line s ∧ RegionsSound s ∧ RecordsReady s ∧ holder line s = .none ∧
       s.dem.completions = [] ∧ s.fcu.halted = none ∧ s.cod.loopLine = none ∧ rankState s 0 = .online ∧
       line.index.toNat < depth s) := by
  unfold RegionsSound
  repeat' refine And.intro ?_ ?_
  all_goals first
    | exact let_in test_read_frame_is_good.1
    | exact startable
    | exact startsNext
    | exact recordsReady
    | decide +kernel

theorem test_witness_ConfirmedLinesAreIsolated :
    let x : RetryContext := ⟨7, line, .patrol, plain, zeroRaw, false⟩
    let v := decodeLine line .retry none (some plain) false twoWrong
    let p := decodeLine line .retry none (some plain) false (poison zeroRaw)
    v.verdict = .uncorrectable ∧ p.verdict = .poisoned ∧ v.overwritten = false ∧ ready.fcu.halted = none ∧
      x.work = .patrol ∧ (recordAt ready ready.fcu.next).content = .empty ∧
      (recordAt ready ready.fcu.next).strike = .sound ∧ holder x.line ready = .none ∧
      rankState ready (rankOf x.line) = .online ∧ ready.rpq.entries.length < 16 ∧
      followerOf x.line ready = none ∧ ready.fcu.contexts = [] ∧ ready.psc.cursor ≠ some x.line := by
  decide +kernel

/-- Confirmed lines of a READ and of a read-modify-write, which wait for the answer. -/
theorem test_witness_ConfirmedLinesAreIsolated_work :
    (let s := busyWith (.read line) .answering ready
     Answerable (started (.read line) .answering) s ∧ s.fcu.halted = none ∧
       (recordAt s s.fcu.next).content = .empty ∧ (recordAt s s.fcu.next).strike = .sound ∧
       followerOf line s = none ∧ holder line s = .none) ∧
    (let body := RequestBody.maskedWrite line 0xFF00 data
     let s := busyWith body .answering ready
     Answerable (started body .answering) s ∧ s.fcu.halted = none ∧ followerOf line s = none) := by
  repeat' refine And.intro ?_ ?_
  all_goals first
    | exact answerable
    | decide +kernel

/-- Confirmed lines whose capture's check-back is struck: what waits for the answer waits in HALTED too. -/
theorem test_witness_ConfirmedLinesAreIsolated_struck :
    (∀ k ∈ [Storage.singleBit, .uncorrectable], let s := struck .a k ready
      s.fcu.halted = none ∧ s.fcu.next = .a ∧ (recordAt s .a).content = .empty ∧ (recordAt s .a).strike = k) ∧
    ∀ masked : Bool,
      let body := if masked then RequestBody.maskedWrite line 0xFF00 data else .read line
      let s := busyWith body .answering (struck .a .uncorrectable ready)
      let lost := setRecord .a ⟨.lost, .uncorrectable, .sound⟩ { s with fcu := { s.fcu with next := .b } }
      Answerable (started body .answering)
        (enterHalted ⟨.capture, 0⟩ (countUe 0 (raiseAt .lineUe 6 (.line line) (some .a) lost))) ∧
      Answerable (started body .answering) (busyWith body .answering (struck .a .singleBit ready)) := by
  refine ⟨by decide +kernel, ?_⟩
  repeat' first | refine everyBool ?_ ?_ | refine And.intro ?_ ?_
  all_goals exact answerable

/-- The ends of a READ's and of a read-modify-write's retry, by its verdict, and of one that HALTED ended, whose
request an abort has answered since. -/
theorem test_witness_ConfirmedLinesAreIsolated_retry :
    let part := fun (ended : Bool) (work : RetryWork) (body : RequestBody) (phase : Phase) =>
      let b := busyWith body phase ready
      granted (.retryRead 7) { b with fcu := { b.fcu with contexts := [⟨7, line, work, plain, zeroRaw, ended⟩] } }
    let g := read (.retryRead 7)
    let modify := RequestBody.maskedWrite line 0xFF00 data
    let change := RetryWork.rmw 50 0xFF00 data
    let used := fun (s : State) (x : RetryContext) (raw : RawLine) =>
      consume (verdictOf g .retry raw s) (retryClosed 7 x s)
    (let s := part false (.demand 50) (.read line) .retrying
     let x : RetryContext := ⟨7, line, .demand 50, plain, zeroRaw, false⟩
     Finishing g s ∧ (s.fcu.contexts.find? fun y => y.id == 7) = some x ∧
       (verdictOf g .retry (encode data) s).verdict = .clean ∧
       (verdictOf g .retry twoWrong s).verdict = .uncorrectable ∧
       (used s x (encode data)).fcu.halted = none ∧
       Answerable (started (.read line) .answering) (used s x (encode data))) ∧
    (let s := part false change modify .retrying
     let x : RetryContext := ⟨7, line, change, plain, zeroRaw, false⟩
     Finishing g s ∧ (s.fcu.contexts.find? fun y => y.id == 7) = some x ∧
       Answerable (started modify .answering) (used s x (encode data)) ∧
       holder line (used s x (encode data)) = .none) ∧
    (let s := part true (.demand 50) (.read line) .completing
     let x : RetryContext := ⟨7, line, .demand 50, plain, zeroRaw, true⟩
     Finishing g s ∧ (s.fcu.contexts.find? fun y => y.id == 7) = some x ∧ (used s x twoWrong).fcu.halted = none ∧
       ∀ q ∈ (used s x twoWrong).dem.requests, x.work.isFor q.id = true → q.phase = .completing) := by
  repeat' refine And.intro ?_ ?_
  all_goals first
    | exact finishing
    | exact answerable
    | decide +kernel

/-- Tallies whose sum with a charge of 8 is 255 and 256, in a rank with no mark and in one with a mark; and verdicts
under a mark, with a device in PROBATION. -/
theorem test_witness_TalliesRise :
    (∃ j : Fin 4, (fun _ => (7 : Sym)) j ≠ 0) ∧
    (∀ tally ∈ [0, 127, 247, 248, 255],
      let s := putDevice 3 ⟨tally, stateOfTally tally, false, false, 0⟩ ready
      s.fcu.halted = none ∧ (∀ d < 10, (deviceAt s (entryNumber 0 d)).storage = .sound) ∧
        (deviceEntry s (entryNumber 0 3)).tally = tally ∧ markOf s 0 = none ∧
        (∀ n < 40, (deviceEntry s n).tally ≤ 256)) ∧
    (let s := putDevice 3 ⟨255, .suspect, false, true, 0⟩ (putDevice 9 ⟨256, .marked, false, false, 0⟩ ready)
     DevicesFit s ∧ (markOf s 0).isSome ∧ (deviceEntry s 3).state.isMark = false) ∧
    DevicesFit ready ∧ rankOf line < 4 ∧
    (decodeLine line .demand none none false flipped).correction.isSome ∧
    (let s := putDevice 3 ⟨256, .probation, false, false, 7⟩ ready
     (deviceEntry s (entryNumber 0 3)).state = .probation ∧
       ∀ p ∈ [(encode data, Verdict.clean), ((encode data).set 3 ((encode data)[3].set 3 1), .corrected),
           (twoWrong, .uncorrectable), (poison (encode data), .poisoned)],
         (decodeLine line .demand (some 3) none false p.1).verdict = p.2) := by
  unfold DevicesFit DeviceEntry.Fits
  refine ⟨⟨0, by decide⟩, ?_⟩
  repeat' refine And.intro ?_ ?_
  all_goals decide +kernel

/-- A rank whose first or last entry holds an error, the part HALTED and not. -/
theorem test_witness_TalliesRise_unsound :
    (∀ k ∈ [0, 9], k < 10) ∧ (∀ r ∈ [0, 3], r < 4 ∧
      ∀ d < 10, (deviceAt ready (entryNumber r d)).storage = .sound ∧
        (deviceAt (halted ready) (entryNumber r d)).storage = .sound) ∧
    ready.fcu.halted = none ∧ (halted ready).fcu.halted.isSome ∧
    rankOf (decodeLine line .demand none none false flipped).line = 0 := by decide +kernel

/-- For the four statements of what every step keeps: a sound state, and its next state. -/
theorem test_witness_StepsKeepSoundness : Sound ready ∧ ∃ t, step ready = .next t :=
  ⟨test_ready_sound, ⟨_, rfl⟩⟩

end Sys2Proof.Tests
end

section
/-! The line verdict over four codeword outcomes: each test of `lineVerdict` on the list of outcomes says what
Table 11 says of the codewords by number (R11). -/

namespace Sys2Proof.Machine

/-- The test for two poison marks, which counts, finds two codewords that carry one. -/
theorem two_le_countP_poisonMark_iff {n : Nat} (os : Vector CodewordOutcome n) :
    2 ≤ os.toList.countP (· == .poisonMark) ↔
      ∃ i j : Fin n, i ≠ j ∧ os[i] = .poisonMark ∧ os[j] = .poisonMark := by
  have hcount : 2 ≤ os.toList.countP (· == .poisonMark) ↔ List.Duplicate .poisonMark os.toList :=
    List.duplicate_iff_two_le_count.symm
  rw [hcount, List.duplicate_iff_exists_distinct_get]
  constructor
  · rintro ⟨i, j, hlt, hi, hj⟩
    exact ⟨i.cast os.length_toList, j.cast os.length_toList, fun h => hlt.ne (Fin.cast_injective _ h),
      by simpa using hi.symm, by simpa using hj.symm⟩
  · rintro ⟨i, j, hne, hi, hj⟩
    wlog hlt : i < j generalizing i j
    · exact this j i hne.symm hj hi (by omega)
    exact ⟨i.cast os.length_toList.symm, j.cast os.length_toList.symm, hlt,
      by simpa using hi.symm, by simpa using hj.symm⟩

/-- A test that some outcome of the list passes is passed by the outcome of a codeword. -/
theorem any_toList_iff_exists_codeword {n : Nat} (os : Vector CodewordOutcome n) (p : CodewordOutcome → Bool) :
    os.toList.any p = true ↔ ∃ j : Fin n, p os[j] = true := by
  simp [Vector.any_iff_exists, Fin.exists_iff]

theorem any_lost_iff {n : Nat} (os : Vector CodewordOutcome n) :
    os.toList.any (fun o => o == .uncorrectable || o == .poisonMark) = true ↔
      ∃ j : Fin n, os[j] = .uncorrectable ∨ os[j] = .poisonMark := by
  simp only [any_toList_iff_exists_codeword, Bool.or_eq_true, beq_iff_eq]

theorem isCorrection_iff (o : CodewordOutcome) :
    o.isCorrection = true ↔ (∃ d p, o = .fixed d p) ∨ ∃ p, p ≠ 0 ∧ o = .filled p := by
  cases o with
  | filled p => simp [CodewordOutcome.isCorrection]
  | fixed | clean | poisonMark | uncorrectable | notRead => simp [CodewordOutcome.isCorrection]

theorem any_isCorrection_iff {n : Nat} (os : Vector CodewordOutcome n) :
    os.toList.any CodewordOutcome.isCorrection = true ↔
      ∃ j : Fin n, (∃ d p, os[j] = .fixed d p) ∨ ∃ p, p ≠ 0 ∧ os[j] = .filled p := by
  simp only [any_toList_iff_exists_codeword, isCorrection_iff]

/-- Settles O52: the verdict of a decode is `lineVerdict` of its outcomes, whose branches are the four cases. -/
theorem lineVerdictByTheFirstCase : Obligations.LineVerdictByTheFirstCase := by
  refine ⟨fun a source mark cls overwritten raw => ?_, by decide, by decide, by decide⟩
  intro v o poisonedTwice lost mended
  have hpoisoned : _ ↔ poisonedTwice := two_le_countP_poisonMark_iff v.outcomes
  have hlost : _ ↔ lost := any_lost_iff v.outcomes
  have hmended : _ ↔ mended := any_isCorrection_iff v.outcomes
  have hverdict : v.verdict = lineVerdict v.outcomes.toList := rfl
  rw [hverdict, lineVerdict, ← hpoisoned, ← hlost, ← hmended]
  refine ⟨fun hp => ?_, fun hp hl => ?_, fun hp hl hm => ?_, fun hp hl hm => ?_⟩
  · rw [if_pos hp]
  · rw [if_neg hp, if_pos hl]
  · rw [if_neg hp, if_neg hl, if_pos hm]
  · rw [if_neg hp, if_neg hl, if_neg hm]

end Sys2Proof.Machine
end

section
/-! The region table (R42, R43, R50, R51): when a line matches an entry, which entry a classification names, what a
lookup leaves of the sixteen entries, and a READ whose start makes a lookup that finds an error in one of them. -/

namespace Sys2Proof.Machine

variable {a : LineAddr} {s t u v : State} {i : Nat}

/-! ## Bits under a mask -/

/-- The comparison of two words under a mask looks at every selected bit. -/
theorem xor_and_eq_zero_iff {w : Nat} (x b m : BitVec w) :
    (x ^^^ b) &&& m = 0 ↔ ∀ k, m.getLsbD k = true → x.getLsbD k = b.getLsbD k := by
  constructor
  · intro h k hk
    have bit : ((x ^^^ b) &&& m).getLsbD k = false := by rw [h]; simp
    simpa [hk] using bit
  · intro h
    refine BitVec.eq_of_getLsbD_eq fun k _ => ?_
    cases hk : m.getLsbD k with
    | false => simp [hk]
    | true => simp [hk, h k hk]

/-- The bits of a word from `n` on are clear where its number is below `2 ^ n`. -/
theorem getLsbD_eq_false_of_toNat_lt {w n k : Nat} {x : BitVec w} (hx : x.toNat < 2 ^ n) (hk : n ≤ k) :
    x.getLsbD k = false :=
  Nat.testBit_lt_two_pow (hx.trans_le (Nat.pow_le_pow_right (by decide) hk))

/-- The lowest bit of a word is set where its number is odd. -/
theorem getLsbD_zero_eq_true_iff {w : Nat} (x : BitVec w) : x.getLsbD 0 = true ↔ x.toNat % 2 = 1 := by
  simp [BitVec.getLsbD, Nat.testBit_zero]

/-- The mask 1 selects the lowest bit alone. -/
theorem forall_bit_of_one_iff {w : Nat} (hw : 0 < w) {P : Nat → Prop} :
    (∀ k < w, (1 : BitVec w).getLsbD k = true → P k) ↔ P 0 := by
  have bit (k : Nat) : (1 : BitVec w).getLsbD k = true ↔ k = 0 := by simp [hw]
  simp only [bit]
  exact ⟨fun h => h 0 hw rfl, fun h k _ hk => hk ▸ h⟩

/-! ## A line that matches an entry (R42) -/

/-- A valid entry is matched where every bit that its masks select agrees with its base. -/
theorem RegionEntry.matches_iff (e : RegionEntry) (a : LineAddr) :
    e.matches a = true ↔ e.valid = true ∧
      (∀ k < 2, e.rankMask.getLsbD k = true → a.rank.getLsbD k = e.base.rank.getLsbD k) ∧
      (∀ k < 27, e.indexMask.getLsbD k = true → a.index.getLsbD k = e.base.index.getLsbD k) := by
  have rankBits : (∀ k, (e.rankMask.setWidth 3).getLsbD k = true → a.rank.getLsbD k = e.base.rank.getLsbD k) ↔
      ∀ k < 2, e.rankMask.getLsbD k = true → a.rank.getLsbD k = e.base.rank.getLsbD k := by
    refine forall_congr' fun k => ?_
    rw [BitVec.getLsbD_setWidth, Bool.and_eq_true, decide_eq_true_iff]
    exact ⟨fun h hk hm => h ⟨by omega, hm⟩, fun h hm => h (BitVec.lt_of_getLsbD hm.2) hm.2⟩
  have indexBits : (∀ k, e.indexMask.getLsbD k = true → a.index.getLsbD k = e.base.index.getLsbD k) ↔
      ∀ k < 27, e.indexMask.getLsbD k = true → a.index.getLsbD k = e.base.index.getLsbD k :=
    forall_congr' fun k => ⟨fun h _ => h, fun h hm => h (BitVec.lt_of_getLsbD hm) hm⟩
  unfold RegionEntry.matches
  rw [Bool.and_eq_true, Bool.and_eq_true, beq_iff_eq, beq_iff_eq, xor_and_eq_zero_iff, xor_and_eq_zero_iff,
    rankBits, indexBits, and_assoc]

/-- With both masks 0 every line matches. -/
theorem RegionEntry.matches_of_masks_zero {e : RegionEntry} (hv : e.valid = true) (hr : e.rankMask = 0)
    (hi : e.indexMask = 0) (a : LineAddr) : e.matches a = true := by
  rw [e.matches_iff, hr, hi]
  exact ⟨hv, by simp, by simp⟩

/-- With every bit selected the base alone matches, of the lines of ranks 0 to 3. -/
theorem RegionEntry.matches_iff_eq_base {e : RegionEntry} (hv : e.valid = true) (hr : e.rankMask = 3)
    (hi : e.indexMask = BitVec.allOnes 27) (ha : rankOf a < 4) (hb : rankOf e.base < 4) :
    e.matches a = true ↔ a = e.base := by
  rw [e.matches_iff, hr, hi]
  constructor
  · rintro ⟨-, rankBits, indexBits⟩
    have sameRank : a.rank = e.base.rank := by
      refine BitVec.eq_of_getLsbD_eq fun k _ => ?_
      by_cases low : k < 2
      · exact rankBits k low (by interval_cases k <;> rfl)
      · rw [getLsbD_eq_false_of_toNat_lt (n := 2) ha (by omega),
          getLsbD_eq_false_of_toNat_lt (n := 2) hb (by omega)]
    have sameIndex : a.index = e.base.index :=
      BitVec.eq_of_getLsbD_eq fun k hk => indexBits k hk (by rw [BitVec.getLsbD_allOnes, decide_eq_true hk])
    calc a = ⟨a.rank, a.index⟩ := rfl
      _ = e.base := by rw [sameRank, sameIndex]
  · rintro rfl
    exact ⟨hv, fun _ _ _ => rfl, fun _ _ _ => rfl⟩

/-- The lowest index bit alone selected, over an odd base: the odd indices match. -/
theorem RegionEntry.matches_iff_odd_index {e : RegionEntry} (hv : e.valid = true) (hr : e.rankMask = 0)
    (hi : e.indexMask = 1) (hb : e.base.index.getLsbD 0 = true) :
    e.matches a = true ↔ a.index.toNat % 2 = 1 := by
  have rankFree : ∀ k < 2, (0 : BitVec 2).getLsbD k = true → a.rank.getLsbD k = e.base.rank.getLsbD k := by simp
  rw [e.matches_iff, hr, hi, forall_bit_of_one_iff (by decide), hb, getLsbD_zero_eq_true_iff]
  exact ⟨fun ⟨_, _, odd⟩ => odd, fun odd => ⟨hv, rankFree, odd⟩⟩

/-- The lowest rank bit alone selected, over base rank 1: the ranks 1 and 3 match, of the ranks 0 to 3. -/
theorem RegionEntry.matches_iff_odd_rank {e : RegionEntry} (hv : e.valid = true) (hr : e.rankMask = 1)
    (hb : rankOf e.base = 1) (hi : e.indexMask = 0) (ha : rankOf a < 4) :
    e.matches a = true ↔ rankOf a = 1 ∨ rankOf a = 3 := by
  have indexFree : ∀ k < 27, (0 : BitVec 27).getLsbD k = true → a.index.getLsbD k = e.base.index.getLsbD k := by
    simp
  have baseOdd : e.base.rank.getLsbD 0 = true := by rw [getLsbD_zero_eq_true_iff, show e.base.rank.toNat = 1 from hb]
  have odd : rankOf a = 1 ∨ rankOf a = 3 ↔ rankOf a % 2 = 1 := by omega
  rw [e.matches_iff, hr, hi, forall_bit_of_one_iff (by decide), baseOdd, getLsbD_zero_eq_true_iff, odd]
  exact ⟨fun ⟨_, h, _⟩ => h, fun h => ⟨hv, h, indexFree⟩⟩

/-- Two lines of the module have every index bit at or above the depth clear. -/
theorem getLsbD_index_of_depth_le {b : LineAddr} (ha : a.index.toNat < depth s) (hb : b.index.toNat < depth s)
    (hi : s.link.straps.depthExponent ≤ i) : a.index.getLsbD i = b.index.getLsbD i := by
  rw [getLsbD_eq_false_of_toNat_lt ha hi, getLsbD_eq_false_of_toNat_lt hb hi]

/-! ## The entry that a classification names (R43) -/

/-- The lowest-numbered entry that the line matches gives the classification. -/
theorem classify_of_first_match (hi : i < 16) (hm : (regionAt s i).value.matches a = true)
    (hn : ∀ j < i, (regionAt s j).value.matches a = false) :
    classify a s = ⟨some i, (regionAt s i).value.cls, (regionAt s i).value.level⟩ := by
  have found : (List.range 16).find? (fun j => (regionAt s j).value.matches a) = some i :=
    List.find?_range_eq_some.mpr ⟨hm, List.mem_range.mpr hi, fun j hj => by simp [hn j hj]⟩
  unfold classify
  rw [found]

/-- Where the line matches no entry, the classification is STANDARD with the default UE level. -/
theorem classify_of_no_match (hn : ∀ i < 16, (regionAt s i).value.matches a = false) :
    classify a s = ⟨none, .standard, s.rgt.defaultLevel⟩ := by
  have found : (List.range 16).find? (fun j => (regionAt s j).value.matches a) = none :=
    List.find?_range_eq_none.mpr fun j hj => by simp [hn j hj]
  unfold classify
  rw [found]

/-! ## What a lookup leaves of the table (R50, R51) -/

/-- Outside region loads and settings the region table stays. -/
theorem Moves.regionTable {K : List Kind} (m : Moves K s t) (h1 : .regions ∉ K) (h2 : .settings ∉ K) :
    t.rgt = s.rgt := by
  induction m with
  | region _ hk => exact absurd hk h1
  | default _ hk => exact absurd hk h2
  | retire => rw [retireEntry_eq]; assumption
  | handOff => rw [retireEntry_eq]; assumption
  | record _ _ x => cases x <;> assumption
  | release _ _ x => cases x <;> assumption
  | cameOnline => rw [withOnline_eq]; assumption
  | leftOnline => rw [withOffline_eq]; assumption
  | abort => rw [abortVisit_eq]; assumption
  | refl => rfl
  | _ => assumption

/-- A lost item of a table leaves the region table, be the part HALTED by its capture or not. -/
theorem tableFault_rgt (x : TableId) (i : Nat) (s : State) : (tableFault x i s).rgt = s.rgt :=
  (moves_tableFault x i s).regionTable (by decide) (by decide)

/-- What a checked read leaves of an entry: its empty form where it is beyond correction, else its contents, sound. -/
def regionAsRead (x : Stored RegionEntry) : Stored RegionEntry :=
  if x.storage = .uncorrectable then ⟨emptyRegion, .sound⟩ else ⟨x.value, .sound⟩

/-- A checked read of entry `i` writes that entry as the read leaves it, and no other. -/
theorem checkRegion_rgt (s : State) (i : Nat) :
    (checkRegion s i).rgt = (setRegion i (regionAsRead (regionAt s i)) s).rgt := by
  unfold checkRegion regionAsRead
  cases h : (regionAt s i).storage with
  | sound => simp only [reduceCtorEq, if_false, setRegion_same h]
  | singleBit => simp only [reduceCtorEq, if_false, raise_rgt]
  | uncorrectable => simp only [if_true, tableFault_rgt]

theorem regionAt_congr (h : t.rgt = s.rgt) (i : Nat) : regionAt t i = regionAt s i := by
  unfold regionAt; rw [h]

theorem regionAt_checkRegion (s : State) (i j : Nat) :
    regionAt (checkRegion s i) j = if i = j ∧ i < 16 then regionAsRead (regionAt s i) else regionAt s j := by
  rw [regionAt_congr (checkRegion_rgt s i), regionAt_setRegion]

/-- After the first `n` checked reads, the first `n` entries are as a read leaves them. -/
theorem regionAt_foldl_checkRegion (s : State) {n : Nat} (hn : n ≤ 16) (j : Nat) :
    regionAt ((List.range n).foldl checkRegion s) j =
      if j < n then regionAsRead (regionAt s j) else regionAt s j := by
  induction n with
  | zero => rfl
  | succ n ih =>
    have ih := ih (by omega)
    rw [List.range_succ, List.foldl_append, List.foldl_cons, List.foldl_nil, regionAt_checkRegion]
    by_cases last : n = j
    · subst last
      rw [if_pos ⟨rfl, by omega⟩, if_pos (by omega), ih, if_neg (by omega)]
    · rw [if_neg (by tauto), ih]
      simp only [show j < n + 1 ↔ j < n by omega]

theorem checkRegion_defaultLevel (s : State) (i : Nat) :
    (checkRegion s i).rgt.defaultLevel = s.rgt.defaultLevel := by
  rw [checkRegion_rgt]; rfl

/-- After a lookup's reads each of the sixteen entries is as a read leaves it. -/
theorem regionAt_checkRegions (s : State) (hi : i < 16) :
    regionAt (checkRegions s) i = regionAsRead (regionAt s i) := by
  unfold checkRegions
  rw [regionAt_foldl_checkRegion s (Nat.le_refl 16), if_pos hi]

/-- A lookup leaves the default UE level. -/
theorem checkRegions_defaultLevel (s : State) : (checkRegions s).rgt.defaultLevel = s.rgt.defaultLevel := by
  unfold checkRegions
  induction List.range 16 generalizing s with
  | nil => rfl
  | cons i l ih => rw [List.foldl_cons, ih, checkRegion_defaultLevel]

/-! ## A lookup that finds an error in one entry (R50, R51) -/

/-- A single-bit error of one entry is corrected and reported, and the classification is that of the sound table. -/
theorem lookup_regionErr_singleBit (a : LineAddr) (hs : RegionsSound s) (hi : i < 16) :
    lookup a (regionErr i .singleBit s) = (classify a s, raise .internalCorrected (.table .region i) s) := by
  unfold lookup
  rw [checkRegions_single hi hs, classify_congr (raise_rgt _ _ s)]

/-- An entry beyond correction is emptied, reported and captured, and the classification is that of the table without
it. -/
theorem lookup_regionErr_uncorrectable (a : LineAddr) (hs : RegionsSound s) (hi : i < 16) (hr : RecordsReady s) :
    lookup a (regionErr i .uncorrectable s) =
      (classify a (itemLost .region i (regionEmptied i s)), itemLost .region i (regionEmptied i s)) := by
  unfold lookup
  rw [checkRegions_lost hi hs hr]

/-! ## What the report of an error leaves alone -/

/-- From `s` to `u` nothing moved that the handling of a started request looks at, but the region table: the request
buffer, the loop line, the holders of lines, HALTED and the stamp are the same. -/
structure SameWork (s u : State) : Prop where
  dem : u.dem = s.dem
  cod : u.cod = s.cod
  rpq : u.rpq = s.rpq
  sls : u.sls = s.sls
  halted : u.fcu.halted = s.fcu.halted
  stamp : u.stamp = s.stamp

theorem SameWork.refl (s : State) : SameWork s s := ⟨rfl, rfl, rfl, rfl, rfl, rfl⟩

theorem SameWork.trans (h : SameWork s t) (h' : SameWork t u) : SameWork s u :=
  ⟨h'.dem.trans h.dem, h'.cod.trans h.cod, h'.rpq.trans h.rpq, h'.sls.trans h.sls, h'.halted.trans h.halted,
    h'.stamp.trans h.stamp⟩

theorem SameWork.holder (h : SameWork s u) (a : LineAddr) : holder a u = holder a s := by
  unfold Machine.holder slotHolding entryOf slotAt
  rw [h.rpq, h.sls]

theorem sameWork_raiseAt (k : EventKind) (n : Nat) (x : Subject) (record : Option RecordName) (s : State) :
    SameWork s (raiseAt k n x record s) := by
  rw [raiseAt_eq]; exact ⟨rfl, rfl, rfl, rfl, rfl, rfl⟩

theorem sameWork_setRecord (x : RecordName) (c : CaptureRecord) (s : State) : SameWork s (setRecord x c s) := by
  constructor <;> simp

theorem sameWork_checkBack (x : RecordName) (s : State) : SameWork s (checkBack x s) := by
  unfold checkBack
  split
  · exact .refl s
  · exact (sameWork_setRecord ..).trans (sameWork_raiseAt ..)
  · exact sameWork_setRecord ..

theorem sameWork_placeCapture (c : Capture) (s : State) : SameWork s (placeCapture c s).2 := by
  unfold placeCapture
  split
  · exact .refl s
  · split
    · have pointed (x : RecordName) : SameWork s { s with fcu := { s.fcu with next := x } } :=
        ⟨rfl, rfl, rfl, rfl, rfl, rfl⟩
      exact ((pointed _).trans (sameWork_setRecord ..)).trans (sameWork_checkBack ..)
    · have counted : SameWork s (countLostCapture s) := ⟨rfl, rfl, rfl, rfl, rfl, rfl⟩
      exact counted.trans (sameWork_raiseAt ..)

theorem sameWork_itemLost (x : TableId) (i : Nat) (s : State) : SameWork s (itemLost x i s) :=
  (sameWork_placeCapture _ s).trans (sameWork_raiseAt ..)

/-! ## The report of an error beside a changed request buffer -/

/-- The part with another request buffer and another stamp. -/
def withBuffer (d : Dem) (n : Nat) (s : State) : State := { s with dem := d, stamp := n }

section

variable {d : Dem} {n : Nat}

/-- With no completion pending an event goes up whatever requests there are (log 8). -/
theorem raiseAt_withBuffer (k : EventKind) (l : Nat) (x : Subject) (record : Option RecordName)
    (hs : s.dem.completions = []) (hd : d.completions = []) :
    raiseAt k l x record (withBuffer d n s) = withBuffer d n (raiseAt k l x record s) := by
  have passes : eventPasses l (withBuffer d n s) = eventPasses l s := rfl
  have goes : alertTaken l (withBuffer d n s) = alertTaken l s := by
    have room : roomClaims (withBuffer d n s) = 0 := by simp [roomClaims, withBuffer, hd]
    have room' : roomClaims s = 0 := by simp [roomClaims, hs]
    unfold alertTaken
    rw [room, room']; rfl
  unfold raiseAt
  rw [passes, goes]
  split <;> rfl

theorem setRecord_withBuffer (x : RecordName) (c : CaptureRecord) (s : State) :
    setRecord x c (withBuffer d n s) = withBuffer d n (setRecord x c s) := by
  cases x <;> rfl

theorem recordAt_withBuffer (x : RecordName) (s : State) : recordAt (withBuffer d n s) x = recordAt s x := by
  cases x <;> rfl

theorem checkBack_withBuffer (x : RecordName) (hs : s.dem.completions = []) (hd : d.completions = []) :
    checkBack x (withBuffer d n s) = withBuffer d n (checkBack x s) := by
  unfold checkBack
  rw [recordAt_withBuffer]
  split
  · rfl
  · rw [setRecord_withBuffer]
    exact raiseAt_withBuffer _ _ _ _ (by rw [setRecord_dem]; exact hs) hd
  · exact setRecord_withBuffer ..

theorem writeCapture_withBuffer (x : RecordName) (c : Capture) (hs : s.dem.completions = [])
    (hd : d.completions = []) : writeCapture x c (withBuffer d n s) = withBuffer d n (writeCapture x c s) := by
  have written := setRecord_withBuffer (d := d) (n := n) x
    ⟨.held { c with phase := s.psc.phase, time := s.mgu.timeBase }, .sound, (recordAt s x).strike⟩
    { s with fcu := { s.fcu with next := otherRecord x } }
  unfold writeCapture
  rw [recordAt_withBuffer]
  exact (congrArg (checkBack x) written).trans (checkBack_withBuffer x (by rw [setRecord_dem]; exact hs) hd)

theorem placeCapture_withBuffer (c : Capture) (hs : s.dem.completions = []) (hd : d.completions = []) :
    placeCapture c (withBuffer d n s) = ((placeCapture c s).1, withBuffer d n (placeCapture c s).2) := by
  have target : captureTarget (withBuffer d n s) = captureTarget s := by
    unfold captureTarget
    simp only [recordAt_withBuffer]
    rfl
  unfold placeCapture
  rw [target]
  by_cases halted : s.fcu.halted.isSome
  · rw [if_pos halted, if_pos (show (withBuffer d n s).fcu.halted.isSome from halted)]
  · rw [if_neg halted, if_neg (show ¬(withBuffer d n s).fcu.halted.isSome from halted)]
    cases captureTarget s with
    | some x => exact congrArg (Prod.mk _) (writeCapture_withBuffer x c hs hd)
    | none => exact congrArg (Prod.mk _) (raiseAt_withBuffer (s := countLostCapture s) _ _ _ _ hs hd)

theorem itemLost_withBuffer (x : TableId) (i : Nat) (hs : s.dem.completions = []) (hd : d.completions = []) :
    itemLost x i (withBuffer d n s) = withBuffer d n (itemLost x i s) := by
  unfold itemLost reported
  rw [placeCapture_withBuffer _ hs hd]
  exact raiseAt_withBuffer _ _ _ _ (by rw [(sameWork_placeCapture _ s).dem]; exact hs) hd

end

/-- A request that arrives and starts changes the buffer and the stamp alone, and these two decide how. -/
theorem withBuffer_withStarted {frame : List Byte} {cls : Option Classification} {p : Phase} (h : SameWork s u) :
    withBuffer (withStarted frame a cls p s).dem (s.stamp + 2) u = withStarted frame a cls p u := by
  unfold withBuffer withStarted startedRequest
  rw [h.dem, h.stamp]

/-- So does one that DEMAND_START starts. -/
theorem withBuffer_startedIn {r : Request} {key : HoldKey} {cls : Option Classification} {p : Phase}
    (h : SameWork s u) :
    withBuffer (startedIn r key cls p s).dem (s.stamp + 1) u = startedIn r key cls p u := by
  unfold withBuffer startedIn
  rw [h.dem, h.stamp]

/-! ## A READ whose start finds an error in the table (R23, R50, R51) -/

/-- With the part not HALTED, no codec-loop mode, and the line inside an ONLINE rank, no check of T18 holds. -/
theorem startCheck_eq_none (hh : s.fcu.halted = none) (hl : s.cod.loopLine = none)
    (ho : rankState s (rankOf a) = .online) (hd : a.index.toNat < depth s) : startCheck a s = none := by
  simp [startCheck, lineExists, hh, hl, ho, hd]

/-- A READ that no check stops and whose line has no holder waits for DRAM after its lookup, which leaves `u`; `v` is
`u` with the request classified. -/
theorem startDemand_read {r q : Request} (hcheck : startCheck a (beginDemand r a s) = none)
    (hread : checkRegions (beginDemand r a s) = u) (hclass : attachClass r.id (classify a u) u = v)
    (hnamed : findRequest r.id v = some q) (hid : q.id = r.id) (hbody : q.body = .read a)
    (hhalted : v.fcu.halted = none) (hloop : v.cod.loopLine = none) (hholder : holder a v = .none) :
    startDemand r a s = setPhase r.id .waitRead v := by
  have handled : handleDemand r.id v = setPhase r.id .waitRead v := by
    simp [handleDemand, hhalted, hnamed, hloop, applyDemand, hbody, applyRead, hholder, hid]
  unfold startDemand lookup
  simp only [hcheck, hread, hclass, handled]

/-- The lookup of a part with an error in region entry `i` leaves `u`, whatever requests there are, as long as none has
a completion pending. -/
def LooksUpTo (i : Nat) (x : Storage) (s u : State) : Prop :=
  SameWork s u ∧
    ∀ (d : Dem) (n : Nat), d.completions = [] → checkRegions (regionErr i x (withBuffer d n s)) = withBuffer d n u

theorem looksUpTo_singleBit (hs : RegionsSound s) (hi : i < 16) (hc : s.dem.completions = []) :
    LooksUpTo i .singleBit s (raise .internalCorrected (.table .region i) s) :=
  ⟨sameWork_raiseAt .., fun d n hd =>
    (checkRegions_single (s := withBuffer d n s) hi hs).trans (raiseAt_withBuffer _ _ _ _ hc hd)⟩

theorem looksUpTo_uncorrectable (hs : RegionsSound s) (hi : i < 16) (hr : RecordsReady s)
    (hc : s.dem.completions = []) :
    LooksUpTo i .uncorrectable s (itemLost .region i (regionEmptied i s)) := by
  have emptied : SameWork s (regionEmptied i s) := ⟨rfl, rfl, rfl, rfl, rfl, rfl⟩
  refine ⟨emptied.trans (sameWork_itemLost ..), fun d n hd => ?_⟩
  have ready : RecordsReady (withBuffer d n s) := fun x => by rw [recordAt_withBuffer]; exact hr x
  exact (checkRegions_lost (s := withBuffer d n s) hi hs ready).trans
    (itemLost_withBuffer (s := regionEmptied i s) _ _ hc hd)

/-- A READ that starts on arrival goes on with what its lookup found. -/
theorem exec_read_of_looksUpTo {frame : List Byte} {x : Storage} (h : LooksUpTo i x s u)
    (hc : s.dem.completions = []) (hholder : holder a s = .none) (hL : LetIn frame s) (hS : Startable a s)
    (hb : frameBody frame = .read a) :
    exec (.read frame) (regionErr i x s) = .next (withStarted frame a (some (classify a u)) .waitRead u) := by
  obtain ⟨same, lookedUp⟩ := h
  have letIn : LetIn frame (regionErr i x s) :=
    ⟨hL.released, hL.active, hL.good, hL.room, hL.free, hL.noReset, hL.named⟩
  have earlier : ∀ q ∈ u.dem.requests, q.id < u.stamp := by rw [same.dem, same.stamp]; exact hL.named
  have begun := beginDemand_new (f := frame) (a := a) letIn.named hS.loopOff
  have named : findRequest s.stamp (withStarted frame a (some (classify a u)) .waitRead u) =
      some (startedRequest frame a (some (classify a u)) .waitRead u) := by
    rw [← same.stamp]; exact findRequest_withStarted _ _ earlier
  have started : startDemand (newRequest (frameTag frame) (frameBody frame) (regionErr i x s)) a
      (enqueue (newRequest (frameTag frame) (frameBody frame) (regionErr i x s)) (regionErr i x s)) =
      setPhase s.stamp .waitRead (withStarted frame a (some (classify a u)) .waitRead u) := by
    refine startDemand_read (u := withStarted frame a none .waitRead u) ?_ ?_ ?_ named ?_ hb ?_ ?_ ?_
    · rw [begun]; exact startCheck_eq_none hS.served hS.loopOff hS.online hS.inside
    · rw [begun, ← withBuffer_withStarted same]
      exact lookedUp _ _ hc
    · show attachClass s.stamp (classify a u) _ = _
      rw [← same.stamp]
      exact attachClass_withStarted _ _ _ earlier
    · exact same.stamp
    · exact same.halted.trans hS.served
    · exact (congrArg Cod.loopLine same.cod).trans hS.loopOff
    · exact (same.holder a).trans hholder
  have arrives : exec (.read frame) (regionErr i x s) = .next (receive frame (regionErr i x s)) := by
    show Host.Outcome.next (if s.link.por then _ else _) = _
    rw [hL.released]; rfl
  rw [arrives, receive_starts letIn (by rw [hb]; rfl) hS.loopOff hS.free hS.first, started, ← same.stamp,
    setPhase_withStarted _ _ _ earlier]

/-- DEMAND_START starts the request that is next. -/
theorem exec_demandStart_starts {r : Request} (hN : StartsNext r a s) :
    exec (.demandStart a) s = .next (startDemand r a s) := by
  show Host.Outcome.next (if s.link.por then s else startNext a s) = _
  rw [hN.released, if_neg (by decide)]
  unfold startNext
  rw [if_neg hN.free, hN.oldest]

/-- A READ that DEMAND_START starts goes on with what its lookup found. -/
theorem exec_demandStart_of_looksUpTo {r : Request} {x : Storage} (h : LooksUpTo i x s u)
    (hc : s.dem.completions = []) (hholder : holder a s = .none) (hN : StartsNext r a s)
    (hh : s.fcu.halted = none) (hl : s.cod.loopLine = none) (ho : rankState s (rankOf a) = .online)
    (hd : a.index.toNat < depth s) (hb : r.body = .read a) :
    exec (.demandStart a) (regionErr i x s) =
      .next (startedIn r (.line a) (some (classify a u)) .waitRead u) := by
  obtain ⟨same, lookedUp⟩ := h
  have key : holdKey s a = .line a := by simp [holdKey, hl]
  have begun : beginDemand r a (regionErr i x s) = startedIn r (.line a) none .waitRead (regionErr i x s) :=
    (beginDemand_startedIn r a _).trans (congrArg (startedIn r · none .waitRead (regionErr i x s)) key)
  have named : findRequest r.id u = some r := by unfold findRequest; rw [same.dem]; exact hN.named
  have started : startDemand r a (regionErr i x s) =
      setPhase r.id .waitRead (startedIn r (.line a) (some (classify a u)) .waitRead u) := by
    refine startDemand_read (u := startedIn r (.line a) none .waitRead u) ?_ ?_ (attachClass_startedIn _)
      (findRequest_startedIn named) rfl hb ?_ ?_ ?_
    · rw [begun]; exact startCheck_eq_none hh hl ho hd
    · rw [begun, ← withBuffer_startedIn same]
      exact lookedUp _ _ hc
    · exact same.halted.trans hh
    · exact (congrArg Cod.loopLine same.cod).trans hl
    · exact (same.holder a).trans hholder
  have starts : exec (.demandStart a) (regionErr i x s) = .next (startDemand r a (regionErr i x s)) :=
    exec_demandStart_starts ⟨hN.released, hN.active, hN.free, hN.quiet, hN.oldest, hN.named, hN.buffered,
      hN.notReset, hN.unreleased⟩
  rw [starts, started, setPhase_startedIn]

/-- Settles O53: the bits under the masks decide a match, the first match decides a classification, and a lookup
classifies by the table that its checked reads leave. -/
theorem regionMatching : Obligations.RegionMatching := by
  refine ⟨fun e a => ?_, fun a s hs => ?_, fun a s => ?_, fun a i s hs hi => ?_⟩
  · exact ⟨e.matches_iff a, fun hv hr hi => e.matches_of_masks_zero hv hr hi a, e.matches_iff_eq_base,
      e.matches_iff_odd_index, e.matches_iff_odd_rank, fun s i => getLsbD_index_of_depth_le⟩
  · exact ⟨lookup_sound hs, fun i => classify_of_first_match, classify_of_no_match⟩
  · rw [show lookup a s = (classify a (checkRegions s), checkRegions s) from rfl]
    dsimp only
    refine ⟨fun i => regionAt_checkRegions s, fun i => classify_of_first_match, fun hn => ?_⟩
    rw [classify_of_no_match hn, checkRegions_defaultLevel]
  · refine ⟨lookup_regionErr_singleBit a hs hi, lookup_regionErr_uncorrectable a hs hi, fun hholder hc => ?_⟩
    have single := looksUpTo_singleBit hs hi hc
    have lost := fun hr => looksUpTo_uncorrectable hs hi hr hc
    have classified : classify a (raise .internalCorrected (.table .region i) s) = classify a s :=
      classify_congr (raise_rgt _ _ s)
    refine ⟨fun frame hL hS hb => ⟨?_, fun hr => ?_⟩, fun r hN hh hl ho hd hb => ⟨?_, fun hr => ?_⟩⟩
    · rw [exec_read_of_looksUpTo single hc hholder hL hS hb, classified]
    · exact exec_read_of_looksUpTo (lost hr) hc hholder hL hS hb
    · rw [exec_demandStart_of_looksUpTo single hc hholder hN hh hl ho hd hb, classified]
    · exact exec_demandStart_of_looksUpTo (lost hr) hc hholder hN hh hl ho hd hb

end Sys2Proof.Machine
end

section
/-! Identity Read (R180): the codes and the straps as its payload lays them out, the checks that pass it in HALTED,
and the straps under every command but the assertion of POR (R187). -/

namespace Sys2Proof.Machine

variable {s t : State}

/-! ## The payload -/

theorem packed_one (v : Nat) : packed 1 v = [BitVec.ofNat 8 v] := by simp [packed]

/-- The model's numbers for the part, in bytes (R180). -/
theorem packed_partCodes :
    packed 2 Config.vendorCode ++ packed 2 Config.partCode ++ packed 1 Config.revision =
      [0x4E, 0x17, 0x01, 0xA2, 0x02] := by decide

theorem strapBytes_eq (s : State) :
    strapBytes s = [BitVec.ofNat 8 s.link.straps.presentRanks, BitVec.ofNat 8 s.link.straps.depthExponent,
      BitVec.ofNat 8 s.link.straps.laneCount] := by
  simp only [strapBytes, packed_one, List.cons_append, List.nil_append]

/-- Identity Read answers from whatever state it is served in. -/
theorem identityRead_eq (id : Nat) (args : List Byte) (s : State) :
    identityRead id args s = answer id .done
      [0x4E, 0x17, 0x01, 0xA2, 0x02, BitVec.ofNat 8 s.link.straps.presentRanks,
        BitVec.ofNat 8 s.link.straps.depthExponent, BitVec.ofNat 8 s.link.straps.laneCount] s := by
  unfold identityRead
  rw [packed_partCodes, strapBytes_eq]
  rfl

/-! ## The checks of T80 -/

/-- A request served in HALTED, with all its arguments, passes the checks outside a Core Reset (T62, T80). -/
theorem takeCheck_eq_none_of_servedHalted {kind : Nat} {args : List Byte} (hc : s.mgu.coreReset = none)
    (hh : servedHalted kind args = true) (hn : argumentsNeeded kind ≤ args.length) :
    takeCheck kind args s = none := by
  have notBusy : ¬(s.mgu.coreReset.isSome ∧ kind ≠ 35) := by simp [hc]
  have notHalted : ¬(s.fcu.halted.isSome ∧ ¬servedHalted kind args) := by simp [hh]
  unfold takeCheck
  rw [if_neg notBusy, if_neg notHalted, if_neg (Nat.not_lt.mpr hn)]

/-! ## The straps -/

/-- The release of POR leaves the straps as they are, and every other command makes elementary changes alone. -/
theorem exec_keeps_straps {c : Instr} (hp : ∀ pins, c ≠ .porAsserted pins) (h : exec c s = .next t) :
    t.link.straps = s.link.straps := by
  by_cases hr : c = .porReleased
  · subst hr
    cases h
    rfl
  · exact (exec_moves h hp hr).straps

end Sys2Proof.Machine

namespace Sys2Proof

open Machine

/-- Settles O34: a request that is taken is answered with the payload, Identity Read is one of the requests served
in HALTED, and no command but the assertion of POR touches the straps. -/
theorem identityRead : Obligations.IdentityRead := by
  refine ⟨fun args r s hT => ?_, fun s _ hc => ?_, fun c s t => exec_keeps_straps⟩
  · exact taken_general hT rfl (identityRead_eq r.id args _) rfl rfl rfl
  · exact takeCheck_eq_none_of_servedHalted hc rfl (Nat.zero_le _)

end Sys2Proof
end

section
/-! What every step keeps (R19–R22, R40, R52, R60, R64, R74, R92, R98, R100, R122, R126, R129, R139, R143, R155, R164,
R167, R176, R191, R192). An invariant holds at power-on and is kept by each elementary change; `step_preserves` makes
of these two that every step keeps it. -/

namespace Sys2Proof.Machine

variable {K : List Kind} {s t u : State}

/-! ## What a step is -/

/-- A step powers the part on, releases the POR pin, or makes elementary changes; in each case of the state with what
is left of its queue. -/
theorem step_cases (h : step s = .next t) :
    (∃ pins q, s.pending = .porAsserted pins :: q ∧ t = powerOn true pins s.stamp q) ∨
    (∃ q, s.pending = .porReleased :: q ∧
      t = { s with pending := q, link := { s.link with por := false } }) ∨
    (∃ c q, s.pending = c :: q ∧ (∀ pins, c ≠ .porAsserted pins) ∧
      Moves (kindsOf c) { s with pending := q } t) ∨
    (s.pending = [] ∧ Moves [.link, .psc, .repairs, .ranks] s t) := by
  unfold step at h
  cases hq : s.pending with
  | nil =>
    rw [hq] at h
    cases h
    exact .inr (.inr (.inr ⟨rfl, elapse_moves s⟩))
  | cons c q =>
    rw [hq] at h
    by_cases hp : ∃ pins, c = .porAsserted pins
    · obtain ⟨pins, rfl⟩ := hp
      cases h
      exact .inl ⟨pins, q, rfl, rfl⟩
    · have hp' : ∀ pins, c ≠ .porAsserted pins := fun pins hc => hp ⟨pins, hc⟩
      by_cases hr : c = .porReleased
      · subst hr
        cases h
        exact .inr (.inl ⟨q, rfl, rfl⟩)
      · exact .inr (.inr (.inl ⟨c, q, rfl, hp', exec_moves h hp' hr⟩))

/-- A property that power-on establishes, that neither the queue nor the POR pin matters to, and that every elementary
change keeps, is kept by every step. -/
theorem step_preserves {P : State → Prop} (h : step s = .next t)
    (on : ∀ pins n q, P (powerOn true pins n q)) (queue : ∀ u q, P u → P { u with pending := q })
    (pin : ∀ u, P u → P { u with link := { u.link with por := false } })
    (moves : ∀ {K : List Kind} {u v : State}, Moves K u v → P u → P v) : P s → P t := by
  intro hs
  obtain ⟨pins, q, -, rfl⟩ | ⟨q, -, rfl⟩ | ⟨c, q, -, -, m⟩ | ⟨-, m⟩ := step_cases h
  · exact on pins _ q
  · exact pin _ (queue s q hs)
  · exact moves m (queue s q hs)
  · exact moves m hs

/-! ## Pace, history and counters -/

namespace Moves

theorem creditBounded (m : Moves K s t) (h : CreditBounded s) : CreditBounded t := by
  induction m with
  | psc _ _ p _ _ hl _ hr ih =>
    obtain ⟨hc, hlow, hhigh⟩ := ih
    exact ⟨show p.credit ≤ p.lagLimit by omega, show 1 ≤ p.lagLimit by omega, show p.lagLimit ≤ _ by omega⟩
  | pacing _ _ l hl => exact ⟨Nat.min_le_right _ _, hl⟩
  | cursor _ _ p _ hl _ hr _ ih =>
    obtain ⟨hc, hlow, hhigh⟩ := ih
    exact ⟨show p.credit ≤ p.lagLimit by omega, show 1 ≤ p.lagLimit by omega, show p.lagLimit ≤ _ by omega⟩
  | cameOnline _ _ r x _ _ ih =>
    unfold withOnline
    split <;> exact ih
  | leftOnline _ _ r x _ _ ih =>
    unfold withOffline cursorToFirst
    split
    · split
      · split <;> exact ih
      · exact ih
    · exact ih
  | retire => rw [retireEntry_eq]; assumption
  | handOff => rw [retireEntry_eq]; assumption
  | record _ _ x => cases x <;> assumption
  | release _ _ x => cases x <;> assumption
  | abort => rw [abortVisit_eq]; assumption
  | _ => assumption

theorem historyBounded (m : Moves K s t) (h : HistoryBounded s) : HistoryBounded t := by
  induction m with
  | @history u _ _ n hn ih =>
    have ih : u.drp.history ≤ 7 := ih
    show n ≤ 7
    omega
  | retire => rw [retireEntry_eq]; assumption
  | handOff => rw [retireEntry_eq]; assumption
  | record _ _ x => cases x <;> assumption
  | release _ _ x => cases x <;> assumption
  | cameOnline => rw [withOnline_eq]; assumption
  | leftOnline => rw [withOffline_eq]; assumption
  | abort => rw [abortVisit_eq]; assumption
  | _ => assumption

theorem countersBounded (m : Moves K s t) (h : s.mgu.counters.Bounded) : t.mgu.counters.Bounded := by
  induction m with
  | counters _ _ f hf ih => exact hf _ ih
  | retire => rw [retireEntry_eq]; assumption
  | handOff => rw [retireEntry_eq]; assumption
  | record _ _ x => cases x <;> assumption
  | release _ _ x => cases x <;> assumption
  | cameOnline => rw [withOnline_eq]; assumption
  | leftOnline => rw [withOffline_eq]; assumption
  | abort => rw [abortVisit_eq]; assumption
  | _ => assumption

end Moves

/-! ## Settings -/

/-- The settings of PSC stay where a change of its fields keeps the profiles and takes the phase and the limit from
their ranges. -/
theorem SettingsInRange.withPsc (h : SettingsInRange u) {p : Psc} (hf : p.profiles = u.psc.profiles)
    (hp : p.phase ≤ 7) (hl : 1 ≤ p.lagLimit ∧ p.lagLimit ≤ 4194303) :
    SettingsInRange { u with psc := p } := by
  obtain ⟨regions, level, profiles, -, -, rest⟩ := h
  refine ⟨regions, level, fun n hn => ?_, hp, hl, rest⟩
  have same : profileAt { u with psc := p } n = profileAt u n := by
    unfold profileAt
    rw [hf]
  rw [same]
  exact profiles n hn

/-- The cursor's moves leave the settings as they are. -/
theorem SettingsInRange.withCursor (h : SettingsInRange u) {p : Psc} (hf : p.profiles = u.psc.profiles)
    (hp : p.phase = u.psc.phase) (hl : p.lagLimit = u.psc.lagLimit) :
    SettingsInRange { u with psc := p } := by
  obtain ⟨-, -, -, phase, limit, -⟩ := id h
  exact h.withPsc hf (hp ▸ phase) (hl ▸ limit)

theorem SettingsInRange.cursorToFirst (h : SettingsInRange u) (l : List Nat) :
    SettingsInRange (Machine.cursorToFirst l u) := by
  unfold Machine.cursorToFirst
  split
  · exact h.withCursor rfl rfl rfl
  · exact h.withCursor rfl rfl rfl

theorem Moves.settingsInRange (m : Moves K s t) (h : SettingsInRange s) : SettingsInRange t := by
  induction m with
  | region _ _ i x hx ih =>
    obtain ⟨regions, rest⟩ := ih
    refine ⟨fun j hj => ?_, rest⟩
    rw [regionAt_setRegion]
    split
    · rename_i hi
      obtain ⟨rfl, -⟩ := hi
      rcases hx with hx | hx
      · rw [hx]; exact regions i hj
      · exact hx
    · exact regions j hj
  | default _ _ n hn ih =>
    obtain ⟨regions, -, rest⟩ := ih
    exact ⟨regions, hn, rest⟩
  | inject _ _ v hv ih =>
    obtain ⟨regions, level, profiles, phase, limit, decay, probation, threshold, mask, injections⟩ := ih
    refine ⟨regions, level, profiles, phase, limit, decay, probation, threshold, mask, fun i hi e he => ?_⟩
    obtain hin | ⟨e', he', hle, hpos⟩ := hv i hi e he
    · exact hin
    · obtain ⟨hlow, hhigh⟩ := injections i hi e' he'
      exact ⟨hpos hlow, hle.trans hhigh⟩
  | params _ _ q k hq hk ih =>
    obtain ⟨regions, level, profiles, phase, limit, -, -, rest⟩ := ih
    exact ⟨regions, level, profiles, phase, limit, hq, hk, rest⟩
  | threshold _ _ n hn ih =>
    obtain ⟨regions, level, profiles, phase, limit, decay, probation, -, rest⟩ := ih
    exact ⟨regions, level, profiles, phase, limit, decay, probation, hn, rest⟩
  | mask _ _ n hn ih =>
    obtain ⟨regions, level, profiles, phase, limit, decay, probation, threshold, -, rest⟩ := ih
    exact ⟨regions, level, profiles, phase, limit, decay, probation, threshold, hn, rest⟩
  | psc _ _ p hf _ hl hp _ ih =>
    obtain ⟨-, -, -, phase, limit, -⟩ := id ih
    exact ih.withPsc hf (by omega) (hl ▸ limit)
  | pacing _ _ l hl ih =>
    obtain ⟨-, -, -, phase, -, -⟩ := id ih
    exact ih.withPsc rfl phase hl
  | cursor _ _ p hf hl hp _ _ ih => exact ih.withCursor hf hp hl
  | @profile u _ _ n x hx ih =>
    obtain ⟨regions, level, profiles, rest⟩ := ih
    refine ⟨regions, level, fun k hk => ?_, rest⟩
    have stored : profileAt (setProfile n x u) k =
        if n = k ∧ n < 8 then x.value else profileAt u k :=
      (congrArg Stored.value (storedProfile_setProfile u n k x)).trans (apply_ite ..)
    rw [stored]
    split
    · rename_i hn
      obtain ⟨rfl, -⟩ := hn
      rcases hx with hx | hx
      · rw [hx]; exact profiles n hk
      · exact hx
    · exact profiles k hk
  | cameOnline _ _ r x _ _ ih =>
    unfold withOnline
    split
    · exact SettingsInRange.withCursor (u := setRank r x _) ih rfl rfl rfl
    · exact ih
  | leftOnline _ _ r x _ _ ih =>
    unfold withOffline
    split
    · split
      · exact SettingsInRange.cursorToFirst (u := setRank r x _) ih _
      · exact ih
    · exact ih
  | retire => rw [retireEntry_eq]; assumption
  | handOff => rw [retireEntry_eq]; assumption
  | record _ _ x => cases x <;> assumption
  | release _ _ x => cases x <;> assumption
  | abort => rw [abortVisit_eq]; assumption
  | _ => assumption

/-! ## Device entries -/

theorem deviceEntry_resetHealth (s : State) {k : Nat} (hk : k < 40) : deviceEntry (resetHealth s) k = resetDevice := by
  unfold deviceEntry deviceAt resetHealth
  rw [getAt_replicate _ _ _ hk]

namespace Moves

theorem devicesFit (m : Moves K s t) (h : DevicesFit s) : DevicesFit t := by
  induction m with
  | device _ _ n x hx ih =>
    intro k hk
    rw [deviceEntry_setDevice]
    split
    · rename_i hn
      obtain ⟨rfl, -⟩ := hn
      exact hx.1 (ih n hk)
    · exact ih k hk
  | health =>
    intro k hk
    rw [deviceEntry_resetHealth _ hk]
    exact resetDevice_fits
  | retire => rw [retireEntry_eq]; assumption
  | handOff => rw [retireEntry_eq]; assumption
  | record _ _ x => cases x <;> assumption
  | release _ _ x => cases x <;> assumption
  | cameOnline => rw [withOnline_eq]; assumption
  | leftOnline => rw [withOffline_eq]; assumption
  | abort => rw [abortVisit_eq]; assumption
  | _ => assumption

/-- A device becomes its rank's mark only where the rank has none. -/
theorem oneMarkPerRank (m : Moves K s t) (h : OneMarkPerRank s) : OneMarkPerRank t := by
  induction m with
  | @device u _ _ n x hx ih =>
    obtain ⟨-, hmark⟩ := hx
    intro r hr d hd d' hd' hm hm'
    rw [deviceEntry_setDevice] at hm hm'
    -- a device of rank r that stands beside the one written is no new mark's companion
    have alone : ∀ d₁ < 10, ∀ d₂ < 10, n = entryNumber r d₁ → x.value.state.isMark = true →
        (deviceEntry u (entryNumber r d₂)).state.isMark = true → d₁ = d₂ := by
      intro d₁ h₁ d₂ h₂ hn hx hold
      rcases hmark hx with hold₁ | ⟨r', e, hn', he, none'⟩
      · exact ih r hr d₁ h₁ d₂ h₂ (hn ▸ hold₁) hold
      · obtain rfl : r' = r := by simp only [entryNumber] at hn hn'; omega
        rw [none' d₂ h₂] at hold
        cases hold
    split at hm <;> split at hm'
    · rename_i h₁ h₂
      exact entryNumber_inj.mp (h₁.1.symm.trans h₂.1)
    · rename_i h₁ h₂
      exact alone d hd d' hd' h₁.1 hm hm'
    · rename_i h₁ h₂
      exact (alone d' hd' d hd h₂.1 hm' hm).symm
    · exact ih r hr d hd d' hd' hm hm'
  | @health u _ _ _ =>
    intro r hr d hd d' _ hm
    rw [deviceEntry_resetHealth u (by unfold entryNumber; omega)] at hm
    cases hm
  | retire => rw [retireEntry_eq]; assumption
  | handOff => rw [retireEntry_eq]; assumption
  | record _ _ x => cases x <;> assumption
  | release _ _ x => cases x <;> assumption
  | cameOnline => rw [withOnline_eq]; assumption
  | leftOnline => rw [withOffline_eq]; assumption
  | abort => rw [abortVisit_eq]; assumption
  | _ => assumption

end Moves

/-! ## The request buffer -/

/-- A change that keeps each request's tag and its place in the buffer keeps the buffer within its bounds. -/
theorem BufferFits.map (h : BufferFits u) (f : Request → Request) (hf : KeepsRequest f) :
    BufferFits { u with dem := { u.dem with requests := u.dem.requests.map f } } := by
  have kept : bufferedRequests { u with dem := { u.dem with requests := u.dem.requests.map f } } =
      (bufferedRequests u).map f := by
    unfold bufferedRequests
    rw [List.filter_map]
    refine congrArg _ (List.filter_congr fun q _ => ?_)
    obtain ⟨-, -, -, horphan, -⟩ := hf q
    simp [horphan]
  have tags : (Request.tag ∘ f) = Request.tag := funext fun q => (hf q).2.1
  unfold BufferFits
  rw [kept, List.length_map, List.map_map, tags]
  exact h

/-- Requests that leave leave room. -/
theorem BufferFits.filter (h : BufferFits u) (p : Request → Bool) :
    BufferFits { u with dem := { u.dem with requests := u.dem.requests.filter p } } := by
  have fewer : (bufferedRequests { u with dem := { u.dem with requests := u.dem.requests.filter p } }).Sublist
      (bufferedRequests u) := List.filter_sublist.filter _
  exact ⟨fewer.length_le.trans h.1, h.2.sublist (fewer.map _)⟩

/-- Outside ACTIVE no request stands in the buffer. -/
theorem bufferedRequests_orphanRequests (s : State) : bufferedRequests (orphanRequests s) = [] := by
  unfold bufferedRequests orphanRequests
  rw [List.filter_eq_nil_iff]
  intro q hq
  obtain ⟨r, -, rfl⟩ := List.mem_map.mp hq
  exact Bool.false_ne_true

/-- The change that a start makes of the request it starts. -/
theorem keepsRequest_begins (id n : Nat) (k : HoldKey) :
    KeepsRequest fun r => if r.id = id then { r with phase := .waitRead, age := n, hold := some k } else r :=
  keepsRequest_if fun _ => ⟨rfl, rfl, rfl, rfl, fun h => by cases h⟩

namespace Moves

theorem bufferFits (m : Moves K s t) (h : BufferFits s) : BufferFits t := by
  induction m with
  | leave =>
    unfold BufferFits
    rw [bufferedRequests_orphanRequests]
    exact ⟨by decide, .nil⟩
  | requests _ _ f hf ih => exact ih.map f hf
  | leaves _ _ p ih => exact ih.filter p
  | @arrive u _ _ r _ ho _ _ hr ht ih =>
    have joined : bufferedRequests (enqueue r u) = bufferedRequests u ++ [r] := by
      simp [bufferedRequests, enqueue, ho]
    rw [bufferCount_eq] at hr
    have fresh : ∀ q ∈ bufferedRequests u, q.tag ≠ r.tag := fun q hq htag => by
      rw [(tagInUse_iff r.tag u).mpr ⟨q, hq, htag⟩] at ht
      cases ht
    unfold BufferFits
    rw [joined, List.length_append, List.map_append, List.nodup_append]
    exact ⟨hr, ih.2, by simp, fun t ht t' ht' => by
      obtain ⟨q, hq, rfl⟩ := List.mem_map.mp ht
      obtain rfl : t' = r.tag := by simpa using ht'
      exact fresh q hq⟩
  | @begins u _ _ r a _ ih => exact ih.map _ (keepsRequest_begins r.id u.stamp (holdKey u a))
  | retire => rw [retireEntry_eq]; assumption
  | handOff => rw [retireEntry_eq]; assumption
  | record _ _ x => cases x <;> assumption
  | release _ _ x => cases x <;> assumption
  | cameOnline => rw [withOnline_eq]; assumption
  | leftOnline => rw [withOffline_eq]; assumption
  | abort => rw [abortVisit_eq]; assumption
  | _ => assumption

end Moves

/-- The names of requests are those of some requests named before, and the stamp has not gone back. -/
theorem RequestsNamed.of_ids (h : RequestsNamed u)
    (hids : (t.dem.requests.map Request.id).Sublist (u.dem.requests.map Request.id)) (hn : u.stamp ≤ t.stamp) :
    RequestsNamed t := by
  refine ⟨h.1.sublist hids, fun r hr => ?_⟩
  obtain ⟨q, hq, hid⟩ := List.mem_map.mp (hids.subset (List.mem_map_of_mem hr))
  exact hid ▸ (h.2 q hq).trans_le hn

theorem KeepsRequest.ids {f : Request → Request} (hf : KeepsRequest f) (l : List Request) :
    (l.map f).map Request.id = l.map Request.id := by
  rw [List.map_map]
  exact List.map_congr_left fun q _ => (hf q).1

namespace Moves

theorem requestsNamed (m : Moves K s t) (h : RequestsNamed s) : RequestsNamed t := by
  induction m with
  | leave _ _ l _ _ _ ih =>
    refine ih.of_ids ?_ le_rfl
    show ((List.map _ (List.filter _ _)).map Request.id).Sublist _
    rw [List.map_map]
    exact List.filter_sublist.map _
  | requests _ _ f hf ih => exact ih.of_ids (by rw [hf.ids]) le_rfl
  | leaves _ _ p ih => exact ih.of_ids (List.filter_sublist.map _) le_rfl
  | @arrive u _ _ r hi _ _ _ _ _ ih =>
    obtain ⟨distinct, past⟩ := ih
    refine ⟨?_, fun q hq => ?_⟩
    · show ((u.dem.requests ++ [r]).map Request.id).Nodup
      rw [List.map_append, List.nodup_append]
      refine ⟨distinct, by simp, fun n hn n' hn' => ?_⟩
      obtain ⟨q, hq, rfl⟩ := List.mem_map.mp hn
      obtain rfl : n' = r.id := by simpa using hn'
      exact (hi ▸ past q hq).ne
    · show q.id < u.stamp + 1
      rcases List.mem_append.mp hq with hq | hq
      · exact (past q hq).trans (Nat.lt_succ_self _)
      · obtain rfl : q = r := by simpa using hq
        omega
  | @begins u _ _ r a _ ih =>
    refine ih.of_ids ?_ (Nat.le_succ _)
    exact (keepsRequest_begins r.id u.stamp (holdKey u a)).ids u.dem.requests ▸ List.Sublist.refl _
  | stamp _ _ ih => exact ih.of_ids (.refl _) (Nat.le_succ _)
  | create _ _ e _ _ _ _ ih => exact ih.of_ids (.refl _) (Nat.le_succ _)
  | retire => rw [retireEntry_eq]; assumption
  | handOff => rw [retireEntry_eq]; assumption
  | record _ _ x => cases x <;> assumption
  | release _ _ x => cases x <;> assumption
  | cameOnline => rw [withOnline_eq]; assumption
  | leftOnline => rw [withOffline_eq]; assumption
  | abort => rw [abortVisit_eq]; assumption
  | _ => assumption

/-- A QUEUED request stays as it is; in leaving ACTIVE none is left, and only in ACTIVE one joins. -/
theorem queuedFit (m : Moves K s t) (h : QueuedFit s) : QueuedFit t := by
  induction m with
  | link _ _ l _ _ _ ht ih => exact fun r hr hq => ht ▸ ih r hr hq
  | train _ _ l _ _ _ hn ih => exact fun r hr hq => absurd (ih r hr hq).1 hn
  | leave _ _ l _ _ _ ih =>
    intro r hr hq
    obtain ⟨q, hq', rfl⟩ := List.mem_map.mp hr
    obtain ⟨hmem, hkeep⟩ := List.mem_filter.mp hq'
    have queued : q.phase = .queued := hq
    have orphan : q.orphan = true := by simpa [queued] using hkeep
    rw [(ih q hmem queued).2.1] at orphan
    cases orphan
  | requests _ _ f hf ih =>
    intro r hr hq
    obtain ⟨q, hmem, rfl⟩ := List.mem_map.mp hr
    obtain ⟨-, -, -, horphan, hqueued⟩ := hf q
    obtain ⟨hphase, hhold⟩ := hqueued hq
    rw [horphan, hhold]
    exact ih q hmem hphase
  | leaves _ _ p ih => exact fun r hr hq => ih r (List.mem_filter.mp hr).1 hq
  | arrive _ _ r _ ho hh ha _ _ ih =>
    intro q hq hphase
    rcases List.mem_append.mp hq with hq | hq
    · exact ih q hq hphase
    · obtain rfl : q = r := by simpa using hq
      exact ⟨ha, ho, hh⟩
  | @begins u _ _ r a _ ih =>
    intro q' hq hphase
    obtain ⟨q, hmem, rfl⟩ := List.mem_map.mp hq
    obtain ⟨-, -, -, horphan, hqueued⟩ := keepsRequest_begins r.id u.stamp (holdKey u a) q
    obtain ⟨hphase, hhold⟩ := hqueued hphase
    have kept := ih q hmem hphase
    rw [← horphan, ← hhold] at kept
    exact kept
  | retire => rw [retireEntry_eq]; assumption
  | handOff => rw [retireEntry_eq]; assumption
  | record _ _ x => cases x <;> assumption
  | release _ _ x => cases x <;> assumption
  | cameOnline => rw [withOnline_eq]; assumption
  | leftOnline => rw [withOffline_eq]; assumption
  | abort => rw [abortVisit_eq]; assumption
  | _ => assumption

theorem holdSetFits (m : Moves K s t) (h : HoldSetFits s) : HoldSetFits t := by
  induction m with
  | unhold _ _ k ih => exact List.Nodup.erase k ih
  | begins _ _ r a hk ih => exact List.nodup_append.mpr ⟨ih, by simp, fun x hx y hy hxy => by
      obtain rfl : y = _ := List.mem_singleton.mp hy
      exact hk (hxy ▸ hx)⟩
  | retire => rw [retireEntry_eq]; assumption
  | handOff => rw [retireEntry_eq]; assumption
  | record _ _ x => cases x <;> assumption
  | release _ _ x => cases x <;> assumption
  | cameOnline => rw [withOnline_eq]; assumption
  | leftOnline => rw [withOffline_eq]; assumption
  | abort => rw [abortVisit_eq]; assumption
  | _ => assumption

end Moves

/-! ## Ranks and the cursor -/

theorem rankRec_withRanks (v : Vector RankRec 4) (u : State) {r : Nat} (hr : r < 4) :
    rankRec { u with drp := { u.drp with ranks := v } } r = v[r] := getAt_of_lt v _ hr

/-- The countdowns of the ranks change no rank's state. -/
theorem rankState_withRanks {v : Vector RankRec 4} (hv : ∀ r : Fin 4, v[r].state = u.drp.ranks[r].state) (r : Nat) :
    rankState { u with drp := { u.drp with ranks := v } } r = rankState u r := by
  by_cases hr : r < 4
  · unfold rankState
    rw [rankRec_withRanks v u hr, show rankRec u r = u.drp.ranks[r] from getAt_of_lt _ _ hr]
    exact hv ⟨r, hr⟩
  · rw [rankState_of_ge _ (by omega), rankState_of_ge _ (by omega)]

theorem cursorFits_of_cursor {a : LineAddr} (h : s.psc.cursor = some a) :
    CursorFits s ↔ rankState s (rankOf a) = .online ∧ a.index.toNat < depth s := by
  unfold CursorFits
  rw [h]

theorem cursorFits_of_parked (h : s.psc.cursor = none) : CursorFits s ↔ ∀ r < 4, rankState s r ≠ .online := by
  unfold CursorFits
  rw [h]

/-- A rank that neither comes ONLINE nor leaves ONLINE leaves the cursor where it may be. -/
theorem CursorFits.setRank (h : CursorFits u) {r : Nat} {x : RankRec}
    (hx : x.state = .online ↔ rankState u r = .online) : CursorFits (Machine.setRank r x u) := by
  have same : ∀ q, rankState (Machine.setRank r x u) q = .online ↔ rankState u q = .online := by
    intro q
    rw [rankState_setRank]
    split
    · rename_i hq
      exact hq.1 ▸ hx
    · rfl
  cases hc : u.psc.cursor with
  | some a =>
    rw [cursorFits_of_cursor hc] at h
    exact (cursorFits_of_cursor (s := Machine.setRank r x u) hc).mpr ⟨(same _).mpr h.1, h.2⟩
  | none =>
    rw [cursorFits_of_parked hc] at h
    exact (cursorFits_of_parked (s := Machine.setRank r x u) hc).mpr fun q hq => mt (same q).mp (h q hq)

/-- The cursor fits by the ranks' states, the depth and its own place. -/
theorem CursorFits.congr (h : CursorFits u) (hc : t.psc.cursor = u.psc.cursor)
    (hr : ∀ r, rankState t r = rankState u r) (hd : t.link.straps = u.link.straps) : CursorFits t := by
  have depths : depth t = depth u := by
    unfold depth
    rw [hd]
  unfold CursorFits at h ⊢
  simpa only [hc, hr, depths] using h

/-- A rank has become ONLINE: a parked cursor moves to it (R149). -/
theorem CursorFits.withOnline (h : CursorFits u) {r : Nat} {x : RankRec} (hx : x.state = .online)
    (ho : rankState u r ≠ .absent) : CursorFits (Machine.withOnline r x u) := by
  have hr : r < 4 := by
    by_contra hge
    exact ho (rankState_of_ge u (by omega))
  have online : ∀ q, rankState u q = .online → rankState (Machine.setRank r x u) q = .online := by
    intro q hq
    rw [rankState_setRank]
    split
    · exact hx
    · exact hq
  have here : rankState (Machine.setRank r x u) r = .online := by rw [rankState_setRank, if_pos ⟨rfl, hr⟩, hx]
  unfold Machine.withOnline
  cases hc : u.psc.cursor with
  | none =>
    show rankState (Machine.setRank r x u) (rankOf (lineAt r 0)) = .online ∧ 0 < depth u
    rw [rankOf_lineAt (by omega)]
    exact ⟨here, depth_pos u⟩
  | some a =>
    rw [cursorFits_of_cursor hc] at h
    exact (cursorFits_of_cursor (s := Machine.setRank r x u) hc).mpr ⟨online _ h.1, h.2⟩

/-- A rank has left ONLINE: a cursor on it moves on, or is parked (R149). -/
theorem CursorFits.withOffline (h : CursorFits u) {r : Nat} (x : RankRec) (ho : rankState u r = .online) :
    CursorFits (Machine.withOffline r x u) := by
  have hr : r < 4 := online_lt ho
  unfold Machine.withOffline
  cases hc : u.psc.cursor with
  | none => exact absurd ho ((cursorFits_of_parked hc).mp h r hr)
  | some a =>
    show CursorFits (if rankOf a = r then _ else _)
    split
    · exact cursorToFirst_fits fun q hq _ => mem_ranksAfter hr hq
    · rename_i hne
      rw [cursorFits_of_cursor hc] at h
      refine (cursorFits_of_cursor (s := Machine.setRank r x u) hc).mpr ⟨?_, h.2⟩
      rw [rankState_setRank, if_neg fun hq => hne hq.1.symm]
      exact h.1

theorem Moves.cursorFits (m : Moves K s t) (h : CursorFits s) : CursorFits t := by
  induction m with
  | link _ _ l _ hs _ _ ih => exact ih.congr rfl (fun _ => rfl) hs
  | train _ _ l _ hs _ _ ih => exact ih.congr rfl (fun _ => rfl) hs
  | leave _ _ l _ hs _ ih => exact ih.congr rfl (fun _ => rfl) hs
  | psc _ _ p _ hc _ _ _ ih => exact ih.congr hc (fun _ => rfl) rfl
  | cursor _ _ p _ _ _ _ hc ih => exact hc ih
  | rank _ _ r x hx ih =>
    refine ih.setRank ?_
    rcases hx with hx | ⟨hn, -, hx, -⟩
    · rw [hx]
    · exact ⟨fun h => absurd h hx, fun h => absurd h hn⟩
  | elapsed _ _ v hv ih => exact ih.congr rfl (rankState_withRanks hv) rfl
  | cameOnline _ _ r x hx ho ih => exact ih.withOnline hx ho
  | leftOnline _ _ r x _ ho ih => exact ih.withOffline x ho
  | retire => rw [retireEntry_eq]; assumption
  | handOff => rw [retireEntry_eq]; assumption
  | record _ _ x => cases x <;> assumption
  | release _ _ x => cases x <;> assumption
  | abort => rw [abortVisit_eq]; assumption
  | _ => assumption

/-- The ranks fit the straps by which of them are ABSENT. -/
theorem RanksFitStraps.congr (h : RanksFitStraps u)
    (hr : ∀ r, rankState t r = .absent ↔ rankState u r = .absent) (hs : t.link.straps = u.link.straps) :
    RanksFitStraps t := fun r hlt => by
  rw [hr, hs]
  exact h r hlt

/-- A rank that is written ABSENT only where it was ABSENT. -/
theorem rankState_setRank_absent {r : Nat} {x : RankRec} (hx : x.state = .absent ↔ rankState u r = .absent)
    (q : Nat) : rankState (setRank r x u) q = .absent ↔ rankState u q = .absent := by
  rw [rankState_setRank]
  split
  · rename_i hq
    exact hq.1 ▸ hx
  · rfl

theorem Moves.ranksFitStraps (m : Moves K s t) (h : RanksFitStraps s) : RanksFitStraps t := by
  induction m with
  | link _ _ l _ hs _ _ ih => exact ih.congr (fun _ => .rfl) hs
  | train _ _ l _ hs _ _ ih => exact ih.congr (fun _ => .rfl) hs
  | leave _ _ l _ hs _ ih => exact ih.congr (fun _ => .rfl) hs
  | rank _ _ r x hx ih =>
    refine ih.congr (rankState_setRank_absent ?_) rfl
    rcases hx with hx | ⟨-, hn, -, hx⟩
    · rw [hx]
    · exact ⟨fun h => absurd h hx, fun h => absurd h hn⟩
  | elapsed _ _ v hv ih => exact ih.congr (fun r => by rw [rankState_withRanks hv]) rfl
  | cameOnline _ _ r x hx ho ih =>
    rw [withOnline_eq]
    exact ih.congr (rankState_setRank_absent (x := x) (by simp [hx, ho])) rfl
  | leftOnline _ _ r x hx ho ih =>
    rw [withOffline_eq]
    exact ih.congr (rankState_setRank_absent (x := x) (by simp [hx, ho])) rfl
  | retire => rw [retireEntry_eq]; assumption
  | handOff => rw [retireEntry_eq]; assumption
  | record _ _ x => cases x <;> assumption
  | release _ _ x => cases x <;> assumption
  | abort => rw [abortVisit_eq]; assumption
  | _ => assumption

/-! ## The repair queue and the slots -/

/-- Entries that are some of the entries there were, changed in no more than state and flags. -/
theorem RepairQueueFits.of_kept (h : RepairQueueFits u)
    (hlines : (t.rpq.entries.map RepairEntry.line).Sublist (u.rpq.entries.map RepairEntry.line))
    (hids : (t.rpq.entries.map RepairEntry.id).Sublist (u.rpq.entries.map RepairEntry.id))
    (hn : u.stamp ≤ t.stamp) : RepairQueueFits t := by
  obtain ⟨few, lines, order, past⟩ := h
  refine ⟨?_, lines.sublist hlines, order.sublist hids, fun e he => ?_⟩
  · have := hids.length_le
    simp only [List.length_map] at this
    exact this.trans few
  · obtain ⟨x, hx, hid⟩ := List.mem_map.mp (hids.subset (List.mem_map_of_mem he))
    exact hid ▸ (past x hx).trans_le hn

theorem KeepsEntry.lines {f : RepairEntry → RepairEntry} (hf : KeepsEntry f) (l : List RepairEntry) :
    (l.map f).map RepairEntry.line = l.map RepairEntry.line := by
  rw [List.map_map]
  exact List.map_congr_left fun e _ => (hf e).2.1

theorem KeepsEntry.ids {f : RepairEntry → RepairEntry} (hf : KeepsEntry f) (l : List RepairEntry) :
    (l.map f).map RepairEntry.id = l.map RepairEntry.id := by
  rw [List.map_map]
  exact List.map_congr_left fun e _ => (hf e).1

theorem keepsEntry_if {f : RepairEntry → RepairEntry} (hf : KeepsEntry f) (id : Nat) :
    KeepsEntry fun e => if e.id = id then f e else e := by
  intro e
  by_cases he : e.id = id
  · simpa only [if_pos he] using hf e
  · simp [he]

theorem RepairQueueFits.map (h : RepairQueueFits u) {f : RepairEntry → RepairEntry} (hf : KeepsEntry f) :
    RepairQueueFits { u with rpq := { u.rpq with entries := u.rpq.entries.map f } } :=
  h.of_kept (by rw [hf.lines]) (by rw [hf.ids]) le_rfl

theorem RepairQueueFits.filter (h : RepairQueueFits u) (p : RepairEntry → Bool) :
    RepairQueueFits { u with rpq := { u.rpq with entries := u.rpq.entries.filter p } } :=
  h.of_kept (List.filter_sublist.map _) (List.filter_sublist.map _) le_rfl

theorem RepairQueueFits.retireEntry (h : RepairQueueFits u) (a : LineAddr) :
    RepairQueueFits (Machine.retireEntry a u) := by
  unfold Machine.retireEntry
  split
  · exact h
  · split
    · exact h.map (keepsEntry_if (f := fun x => { x with retired := true }) (fun e => ⟨rfl, rfl, rfl, rfl, rfl⟩) _)
    · exact h.filter _

/-- Entries with one name are one entry. -/
theorem RepairQueueFits.eq_of_id (h : RepairQueueFits u) {e x : RepairEntry} (he : e ∈ u.rpq.entries)
    (hx : x ∈ u.rpq.entries) (hid : e.id = x.id) : e = x := by
  obtain ⟨-, -, order, -⟩ := h
  exact List.inj_on_of_nodup_map (order.imp Nat.ne_of_lt) he hx hid

/-- Entries of one line are one entry. -/
theorem RepairQueueFits.eq_of_line (h : RepairQueueFits u) {e x : RepairEntry} (he : e ∈ u.rpq.entries)
    (hx : x ∈ u.rpq.entries) (hl : e.line = x.line) : e = x := by
  obtain ⟨-, lines, -⟩ := h
  exact List.inj_on_of_nodup_map lines he hx hl

/-- A slot that takes a line no other slot names leaves one slot to a line. -/
theorem SlotsFit.setSlot (h : SlotsFit u) {i : Nat} {x : Slot}
    (hx : ∀ a, x.line? = some a → (slotAt u i).line? = some a ∨ ∀ j < 32, (slotAt u j).line? ≠ some a) :
    SlotsFit (Machine.setSlot i x u) := by
  -- the slot written and another one never name the same line
  have apart : ∀ j < 32, i < 32 → i ≠ j → ∀ a, x.line? = some a → (slotAt u j).line? ≠ some a := by
    intro j hj hi hne a ha hja
    rcases hx a ha with hia | hnone
    · exact hne (h i hi j hj a hia hja)
    · exact hnone j hj hja
  intro j hj k hk a hja hka
  rw [slotAt_setSlot] at hja hka
  split at hja <;> split at hka
  · rename_i h₁ h₂
    exact h₁.1.symm.trans h₂.1
  · rename_i h₁ h₂
    exact absurd hka (apart k hk h₁.2 (fun hik => h₂ ⟨hik, h₁.2⟩) a hja)
  · rename_i h₁ h₂
    exact absurd hja (apart j hj h₂.2 (fun hij => h₁ ⟨hij, h₂.2⟩) a hka)
  · exact h j hj k hk a hja hka

theorem slotAt_retireEntry (a : LineAddr) (u : State) (i : Nat) : slotAt (retireEntry a u) i = slotAt u i := by
  rw [retireEntry_eq]
  rfl

/-- A slot written so that it holds at most the line `a`: any other line that a slot then holds, a slot held before. -/
theorem slotHolding_setSlot_other {i : Nat} {x : Slot} {a b : LineAddr} (hx : x.holds = true → x.line? = some a)
    (hb : b ≠ a) (h : (slotHolding b (setSlot i x u)).isSome) : (slotHolding b u).isSome := by
  obtain ⟨j, hj, hl, hh⟩ := slotHolding_isSome.mp h
  rw [slotAt_setSlot] at hl hh
  split at hl
  · rename_i hij
    rw [if_pos hij] at hh
    exact absurd (Option.some.inj (hl.symm.trans (hx hh))) hb
  · rename_i hij
    rw [if_neg hij] at hh
    exact slotHolding_isSome.mpr ⟨j, hj, hl, hh⟩

/-- Entries beside slots that hold no more lines than they did. -/
theorem OneHolder.of_fewer (h : OneHolder u) (he : ∀ e ∈ t.rpq.entries, e ∈ u.rpq.entries)
    (hs : ∀ a, (slotHolding a t).isSome → (slotHolding a u).isSome) : OneHolder t :=
  fun e hmem hheld => h e (he e hmem) (hs e.line hheld)

/-- The line of the entry of `a` becomes ACTIVE in a slot: the entry is gone, or in WRITING and marked (R64). -/
theorem OneHolder.retireEntry {i : Nat} {a : LineAddr} {x : Slot} (h : OneHolder u) (hq : RepairQueueFits u)
    (hx : x.holds = true → x.line? = some a) : OneHolder (Machine.retireEntry a (Machine.setSlot i x u)) := by
  -- the entries of other lines stand beside no new holder
  have others : ∀ e ∈ u.rpq.entries, e.line ≠ a →
      (slotHolding e.line (Machine.retireEntry a (Machine.setSlot i x u))).isSome →
      e.state = .writing ∧ e.retired = true := by
    intro e he hne hheld
    rw [slotHolding_of_lines (s := Machine.setSlot i x u)
      (fun k => by rw [slotAt_retireEntry]; exact ⟨rfl, rfl⟩)] at hheld
    exact h e he (slotHolding_setSlot_other hx hne hheld)
  intro e he hheld
  cases ho : entryOf a u with
  | none =>
    have same : Machine.retireEntry a (Machine.setSlot i x u) = Machine.setSlot i x u := by
      unfold Machine.retireEntry
      rw [show entryOf a (Machine.setSlot i x u) = none from ho]
    have hmem : e ∈ u.rpq.entries := by rw [same] at he; exact he
    exact others e hmem (entryOf_none ho e hmem) hheld
  | some y =>
    obtain ⟨hy, hya⟩ := entryOf_some ho
    have found : entryOf a (Machine.setSlot i x u) = some y := ho
    by_cases hw : y.state = .writing
    · have same : Machine.retireEntry a (Machine.setSlot i x u) =
          updateEntry y.id (fun z => { z with retired := true }) (Machine.setSlot i x u) := by
        unfold Machine.retireEntry
        rw [found]
        simp only [hw]
      rw [same] at he
      obtain ⟨z, hz, rfl⟩ := List.mem_map.mp he
      by_cases hid : z.id = y.id
      · obtain rfl := hq.eq_of_id hz hy hid
        rw [if_pos rfl]
        exact ⟨hw, rfl⟩
      · rw [if_neg hid] at hheld ⊢
        exact others z hz (fun hza => hid (congrArg _ (hq.eq_of_line hz hy (hza.trans hya.symm)))) hheld
    · have same : Machine.retireEntry a (Machine.setSlot i x u) = removeEntry y.id (Machine.setSlot i x u) := by
        unfold Machine.retireEntry
        rw [found]
        simp only
      rw [same] at he
      obtain ⟨hz, hid⟩ := List.mem_filter.mp he
      refine others e hz (fun hza => ?_) hheld
      simp [hq.eq_of_line hz hy (hza.trans hya.symm)] at hid

/-- The repair queue and the slots of a sound part (R52, R60, R64, R74). -/
def RepairsFit (s : State) : Prop := RepairQueueFits s ∧ SlotsFit s ∧ OneHolder s

theorem RepairsFit.queue (h : RepairsFit s) : RepairQueueFits s := h.1

theorem RepairsFit.slots (h : RepairsFit s) : SlotsFit s := h.2.1

theorem RepairsFit.holder (h : RepairsFit s) : OneHolder s := h.2.2

/-- A line that no slot but a WATCH of its own names is retired into a slot (R78). -/
theorem RepairsFit.retire (h : RepairsFit u) {i : Nat} {a : LineAddr} (d : StoredLine) (time : TimeBase)
    (hl : (slotAt u i).line? = some a ∨ ∀ j < 32, (slotAt u j).line? ≠ some a) :
    RepairsFit (retireEntry a (setSlot i (.active a d time) u)) := by
  have fits : SlotsFit (setSlot i (.active a d time) u) := h.slots.setSlot fun b hb => by
    obtain rfl : a = b := Option.some.inj hb
    exact hl
  refine ⟨RepairQueueFits.retireEntry (u := setSlot i _ u) h.queue a, fun j hj k hk b => ?_,
    h.holder.retireEntry h.queue fun _ => rfl⟩
  rw [slotAt_retireEntry, slotAt_retireEntry]
  exact fits j hj k hk b

/-- The removal of an entry leaves the rest as it was. -/
theorem RepairsFit.removeEntry (h : RepairsFit u) (id : Nat) : RepairsFit (Machine.removeEntry id u) :=
  ⟨h.queue.filter _, h.slots, h.holder.of_fewer (fun _ he => (List.mem_filter.mp he).1) fun _ hs => hs⟩

theorem Moves.repairsFit (m : Moves K s t) (h : RepairsFit s) : RepairsFit t := by
  induction m with
  | stamp _ _ ih => exact ⟨ih.queue.of_kept (.refl _) (.refl _) (Nat.le_succ _), ih.slots, ih.holder⟩
  | arrive _ _ r _ _ _ _ _ _ ih =>
    exact ⟨ih.queue.of_kept (.refl _) (.refl _) (Nat.le_succ _), ih.slots, ih.holder⟩
  | begins _ _ r a _ ih => exact ⟨ih.queue.of_kept (.refl _) (.refl _) (Nat.le_succ _), ih.slots, ih.holder⟩
  | repairs _ _ f hf hr ih =>
    refine ⟨ih.queue.map hf, ih.slots, fun e he hheld => ?_⟩
    obtain ⟨x, hx, rfl⟩ := List.mem_map.mp he
    rw [(hf x).2.1] at hheld
    exact hr x hx (ih.holder x hx hheld)
  | notRetired _ _ e f he hw hf ih =>
    refine ⟨ih.queue.map (keepsEntry_if hf e.id), ih.slots, fun y hy hheld => ?_⟩
    obtain ⟨x, hx, rfl⟩ := List.mem_map.mp hy
    by_cases hid : x.id = e.id
    · obtain rfl := ih.queue.eq_of_id hx he hid
      rw [if_pos rfl, (hf x).2.1] at hheld
      exact absurd (ih.holder x hx hheld) hw
    · rw [if_neg hid] at hheld ⊢
      exact ih.holder x hx hheld
  | unrepair _ _ p ih =>
    exact ⟨ih.queue.filter p, ih.slots, ih.holder.of_fewer (fun _ he => (List.mem_filter.mp he).1) fun _ hs => hs⟩
  | @create u _ _ e hi hr he hs ih =>
    obtain ⟨few, lines, order, past⟩ := ih.queue
    refine ⟨⟨?_, ?_, ?_, fun x hx => ?_⟩, ih.slots, fun x hx hheld => ?_⟩
    · show (u.rpq.entries ++ [e]).length ≤ 16
      rw [List.length_append]
      exact hr
    · show ((u.rpq.entries ++ [e]).map RepairEntry.line).Nodup
      rw [List.map_append, List.nodup_append]
      refine ⟨lines, by simp, fun l hl l' hl' => ?_⟩
      obtain ⟨x, hx, rfl⟩ := List.mem_map.mp hl
      obtain rfl : l' = e.line := by simpa using hl'
      exact entryOf_none he x hx
    · show ((u.rpq.entries ++ [e]).map RepairEntry.id).Pairwise (· < ·)
      rw [List.map_append, List.pairwise_append]
      refine ⟨order, by simp, fun n hn n' hn' => ?_⟩
      obtain ⟨x, hx, rfl⟩ := List.mem_map.mp hn
      obtain rfl : n' = e.id := by simpa using hn'
      exact hi ▸ past x hx
    · show x.id < u.stamp + 1
      rcases List.mem_append.mp hx with hx | hx
      · exact (past x hx).trans (Nat.lt_succ_self _)
      · obtain rfl : x = e := by simpa using hx
        omega
    · have heldBefore : (slotHolding x.line u).isSome := hheld
      rcases List.mem_append.mp hx with hx | hx
      · exact ih.holder x hx heldBefore
      · obtain rfl : x = e := by simpa using hx
        rw [hs] at heldBefore
        cases heldBefore
  | @slotData u _ _ i x hl hh ih =>
    have same : ∀ j, (slotAt (setSlot i x u) j).line? = (slotAt u j).line? ∧
        (slotAt (setSlot i x u) j).holds = (slotAt u j).holds := by
      intro j
      rw [slotAt_setSlot]
      split
      · rename_i hij
        exact hij.1 ▸ ⟨hl, hh⟩
      · exact ⟨rfl, rfl⟩
    exact ⟨ih.queue, ih.slots.setSlot fun a ha => .inl (hl ▸ ha),
      ih.holder.of_fewer (fun _ he => he) fun a hs => slotHolding_of_lines same ▸ hs⟩
  | freed _ _ i ih =>
    exact ⟨ih.queue, ih.slots.setSlot (fun a ha => by cases ha), ih.holder.of_fewer (fun _ he => he) fun a hs => by
      obtain ⟨j, hj, hl, hh⟩ := slotHolding_isSome.mp hs
      rw [slotAt_setSlot] at hl hh
      split at hl
      · cases hl
      · rename_i hij
        rw [if_neg hij] at hh
        exact slotHolding_isSome.mpr ⟨j, hj, hl, hh⟩⟩
  | watch _ _ i a n time _ hl ih =>
    exact ⟨ih.queue, ih.slots.setSlot (fun b hb => by
      obtain rfl : a = b := Option.some.inj hb
      exact hl), ih.holder.of_fewer (fun _ he => he) fun b hs => by
      obtain ⟨j, hj, hlj, hh⟩ := slotHolding_isSome.mp hs
      rw [slotAt_setSlot] at hlj hh
      split at hh
      · cases hh
      · rename_i hij
        rw [if_neg hij] at hlj
        exact slotHolding_isSome.mpr ⟨j, hj, hlj, hh⟩⟩
  | retire _ _ i a d time _ _ _ hl ih => exact ih.retire d time hl
  | @handOff u _ _ e i d time he hv _ _ hl ih =>
    -- a VERIFYING entry stands beside no slot that holds its line
    have unheld : ∀ j < 32, (slotAt u j).line? = some e.line → (slotAt u j).holds ≠ true := fun j hj hlj hh => by
      have := (ih.holder e he (slotHolding_isSome.mpr ⟨j, hj, hlj, hh⟩)).1
      rw [hv] at this
      cases this
    exact (ih.removeEntry e.id).retire d time (hl.imp_right fun hall j hj hlj => unheld j hj hlj (hall j hj hlj))
  | record _ _ x => cases x <;> assumption
  | release _ _ x => cases x <;> assumption
  | cameOnline _ _ r x _ _ ih => rw [withOnline_eq]; exact ⟨ih.queue, ih.slots, ih.holder⟩
  | leftOnline _ _ r x _ _ ih => rw [withOffline_eq]; exact ⟨ih.queue, ih.slots, ih.holder⟩
  | abort _ _ ih => rw [abortVisit_eq]; exact ⟨ih.queue, ih.slots, ih.holder⟩
  | refl => exact h
  | _ => assumption

/-! ## Power-on -/

theorem resetDevice_at_powerOn (por : Bool) (pins : StrapPins) (n : Nat) (q : List Instr) {k : Nat} (hk : k < 40) :
    deviceEntry (powerOn por pins n q) k = resetDevice := by
  unfold deviceEntry deviceAt powerOn
  rw [getAt_replicate _ _ _ hk]

theorem slotAt_powerOn (por : Bool) (pins : StrapPins) (n : Nat) (q : List Instr) (i : Nat) :
    slotAt (powerOn por pins n q) i = .free := by
  by_cases hi : i < 32
  · exact getAt_replicate (n := 32) Slot.free Slot.free i hi
  · exact slotAt_of_ge _ (by omega)

theorem rankRec_powerOn (por : Bool) (pins : StrapPins) (n : Nat) (q : List Instr) {r : Nat} (hr : r < 4) :
    rankRec (powerOn por pins n q) r = powerOnRank (r < pins.presentRanks) := by
  unfold rankRec powerOn
  rw [getAt_of_lt _ _ hr, Vector.getElem_ofFn]

theorem regionAt_powerOn (por : Bool) (pins : StrapPins) (n : Nat) (q : List Instr) {i : Nat} (hi : i < 16) :
    regionAt (powerOn por pins n q) i = ⟨emptyRegion, .sound⟩ := getAt_replicate (n := 16) _ _ i hi

theorem profileAt_powerOn (por : Bool) (pins : StrapPins) (n : Nat) (q : List Instr) {k : Nat} (hk : k < 8) :
    profileAt (powerOn por pins n q) k = defaultProfile := by
  unfold profileAt powerOn
  rw [getAt_replicate _ _ _ hk]

theorem powerOn_settingsInRange (por : Bool) (pins : StrapPins) (n : Nat) (q : List Instr) :
    SettingsInRange (powerOn por pins n q) := by
  have regions : ∀ i < 16, 1 ≤ (regionAt (powerOn por pins n q) i).value.level ∧
      (regionAt (powerOn por pins n q) i).value.level ≤ 7 := fun i hi => by
    rw [regionAt_powerOn _ _ _ _ hi]
    decide
  have profiles : ∀ k < 8, (profileAt (powerOn por pins n q) k).InRange := fun k hk => by
    rw [profileAt_powerOn _ _ _ _ hk]
    exact defaultProfile_inRange
  have injections : ∀ i < 2, ∀ e, getAt (powerOn por pins n q).cod.injections i none = some e →
      1 ≤ e.count ∧ e.count ≤ 255 := fun i hi e he => by
    rw [show getAt (powerOn por pins n q).cod.injections i none = none from
      getAt_replicate (n := 2) none none i hi] at he
    cases he
  refine ⟨regions, ?_, profiles, ?_, ?_, ?_, ?_, ?_, ?_, injections⟩ <;> simp [powerOn]

/-- The power-on state is sound, whatever the straps (R187). -/
theorem powerOn_sound (por : Bool) (pins : StrapPins) (n : Nat) (q : List Instr) : Sound (powerOn por pins n q) where
  credit := by simp [CreditBounded, powerOn]
  history := by simp [HistoryBounded, powerOn]
  link := by simp [Link.Fits, powerOn]
  devices k hk := by rw [resetDevice_at_powerOn _ _ _ _ hk]; exact resetDevice_fits
  marks r hr d hd d' _ hm := by
    rw [resetDevice_at_powerOn _ _ _ _ (by unfold entryNumber; omega)] at hm
    cases hm
  buffer := by simp [BufferFits, bufferedRequests, powerOn]
  named := by simp [RequestsNamed, powerOn]
  queued := by simp [QueuedFit, powerOn]
  holds := .nil
  repairs := by simp [RepairQueueFits, powerOn]
  slots i _ j _ a ha := by
    rw [slotAt_powerOn] at ha
    cases ha
  holder := by simp [OneHolder, powerOn]
  cursor := (cursorFits_of_parked rfl).mpr fun r hr => by
    unfold rankState
    rw [rankRec_powerOn _ _ _ _ hr]
    unfold powerOnRank
    split <;> simp
  ranks r hr := by
    unfold rankState
    rw [rankRec_powerOn _ _ _ _ hr]
    unfold powerOnRank
    simp [powerOn]
  settings := powerOn_settingsInRange por pins n q
  counters := by
    show zeroCounters.Bounded
    unfold Counters.Bounded
    decide

/-! ## What HALTED, the records and the port keep -/

/-- A HELD record is emptied by a release alone; a fault may lose it. -/
theorem Moves.heldRecord (m : Moves K s t) (h : .release ∉ K) {x : RecordName} {c : Capture}
    (hc : (recordAt s x).content = .held c) :
    (recordAt t x).content = .held c ∨ (recordAt t x).content = .lost := by
  induction m with
  | refl => exact .inl hc
  | @record u _ _ y d hd ih =>
    by_cases hxy : x = y
    · subst hxy
      rw [recordAt_setRecord]
      rcases hd with he | hk | hl
      · rw [he] at ih
        simp at ih
      · rw [hk]; exact ih
      · exact .inr hl
    · rw [recordAt_setRecord_other (Ne.symm hxy)]
      exact ih
  | release _ hk => exact absurd hk h
  | retire => rw [retireEntry_eq]; assumption
  | handOff => rw [retireEntry_eq]; assumption
  | cameOnline => rw [withOnline_eq]; assumption
  | leftOnline => rw [withOffline_eq]; assumption
  | abort => rw [abortVisit_eq]; assumption
  | _ => assumption

/-- An operation at the port leaves it at its finish alone; a visit may be marked as aborted meanwhile. -/
theorem Moves.portKept (m : Moves K s t) (h : .finish ∉ K) {g : Granted} (hg : s.drp.port = some g) :
    t.drp.port = some g ∨ ∃ b, g.op = .visitRead b ∧ t.drp.port = some { g with op := .visitRead true } := by
  induction m with
  | refl => exact .inl hg
  | granted _ _ _ hp ih => simp [hp] at ih
  | finish _ hk => exact absurd hk h
  | @abort u _ _ ih =>
    unfold abortVisit
    rcases ih with hp | ⟨b, hb, hp⟩
    · rw [hp]
      dsimp only
      split
      · rename_i b hb
        exact .inr ⟨b, hb, rfl⟩
      · exact .inl hp
    · rw [hp]
      exact .inr ⟨b, hb, rfl⟩
  | retire => rw [retireEntry_eq]; assumption
  | handOff => rw [retireEntry_eq]; assumption
  | record _ _ x => cases x <;> assumption
  | release _ _ x => cases x <;> assumption
  | cameOnline => rw [withOnline_eq]; assumption
  | leftOnline => rw [withOffline_eq]; assumption
  | _ => assumption

/-- Only an abort leaves HALTED. -/
theorem unhalt_notMem_kindsOf {c : Instr} (h : c ≠ .coreResetAbort) : Kind.unhalt ∉ kindsOf c := by
  have absent : (kindsOf c).contains .unhalt = false := by
    cases c with
    | coreResetAbort => exact absurd rfl h
    | _ => rfl
  simpa using absent

/-- Only a Capture Release empties a record. -/
theorem release_notMem_kindsOf {c : Instr} (h : c ≠ .captureRelease) : Kind.release ∉ kindsOf c := by
  have absent : (kindsOf c).contains .release = false := by
    cases c with
    | captureRelease => exact absurd rfl h
    | _ => rfl
  simpa using absent

/-- Only the three finish commands free the port. -/
theorem finish_notMem_kindsOf {c : Instr} (hr : ∀ beats, c ≠ .dramReadFinish beats) (hw : c ≠ .dramWriteFinish)
    (hf : c ≠ .refreshFinish) : Kind.finish ∉ kindsOf c := by
  have absent : (kindsOf c).contains .finish = false := by
    cases c with
    | dramReadFinish beats => exact absurd rfl (hr beats)
    | dramWriteFinish => exact absurd rfl hw
    | refreshFinish => exact absurd rfl hf
    | _ => rfl
  simpa using absent

/-! ## The obligations -/

/-- Settles O56. -/
theorem resetIsSound : Obligations.ResetIsSound := powerOn_sound _ _ _ _

/-- Settles O57, field by field over the elementary changes of a step. -/
theorem paceSettingsAndCursorStaySound : Obligations.PaceSettingsAndCursorStaySound := by
  intro s t h
  have on := fun pins n q => powerOn_sound true pins n q
  exact ⟨step_preserves h (fun pins n q => (on pins n q).credit) (fun _ _ => id) (fun _ => id) Moves.creditBounded,
    step_preserves h (fun pins n q => (on pins n q).history) (fun _ _ => id) (fun _ => id) Moves.historyBounded,
    step_preserves h (fun pins n q => (on pins n q).settings) (fun _ _ => id) (fun _ => id) Moves.settingsInRange,
    step_preserves (P := fun u => u.mgu.counters.Bounded) h (fun pins n q => (on pins n q).counters) (fun _ _ => id)
      (fun _ => id) Moves.countersBounded,
    step_preserves h (fun pins n q => (on pins n q).cursor) (fun _ _ => id) (fun _ => id) Moves.cursorFits,
    step_preserves h (fun pins n q => (on pins n q).ranks) (fun _ _ => id) (fun _ => id) Moves.ranksFitStraps,
    step_preserves (P := fun u => u.link.Fits) h (fun pins n q => (on pins n q).link) (fun _ _ => id) (fun _ => id)
      Moves.linkFits⟩

/-- Settles O58. -/
theorem deviceTableStaysSound : Obligations.DeviceTableStaysSound := fun _ _ h =>
  ⟨step_preserves h (fun pins n q => (powerOn_sound true pins n q).devices) (fun _ _ => id) (fun _ => id)
      Moves.devicesFit,
    step_preserves h (fun pins n q => (powerOn_sound true pins n q).marks) (fun _ _ => id) (fun _ => id)
      Moves.oneMarkPerRank⟩

/-- Settles O59. -/
theorem requestBufferStaysSound : Obligations.RequestBufferStaysSound := fun _ _ h =>
  ⟨step_preserves h (fun pins n q => (powerOn_sound true pins n q).buffer) (fun _ _ => id) (fun _ => id)
      Moves.bufferFits,
    step_preserves h (fun pins n q => (powerOn_sound true pins n q).named) (fun _ _ => id) (fun _ => id)
      Moves.requestsNamed,
    step_preserves h (fun pins n q => (powerOn_sound true pins n q).queued) (fun _ _ => id) (fun _ => id)
      Moves.queuedFit,
    step_preserves h (fun pins n q => (powerOn_sound true pins n q).holds) (fun _ _ => id) (fun _ => id)
      Moves.holdSetFits⟩

/-- Settles O60: the three parts are kept jointly. -/
theorem repairQueueAndSlotsStaySound : Obligations.RepairQueueAndSlotsStaySound := fun _ _ h hq hs ho =>
  step_preserves (P := RepairsFit) h
    (fun pins n q => have on := powerOn_sound true pins n q; ⟨on.repairs, on.slots, on.holder⟩)
    (fun _ _ => id) (fun _ => id) Moves.repairsFit ⟨hq, hs, ho⟩

/-- Settles O50. -/
theorem haltedAndCapturesPersist : Obligations.HaltedAndCapturesPersist := by
  intro s t h
  obtain ⟨pins, q, hp, -⟩ | ⟨q, -, rfl⟩ | ⟨c, q, hp, -, m⟩ | ⟨-, m⟩ := step_cases h
  · exact ⟨fun _ _ => .inr (.inr ⟨pins, q, hp⟩), fun _ _ _ => .inr (.inr (.inr ⟨pins, q, hp⟩))⟩
  · exact ⟨fun _ hh => .inl hh, fun _ _ hc => .inl hc⟩
  · refine ⟨fun cause hh => ?_, fun x d hd => ?_⟩
    · by_cases ha : c = .coreResetAbort
      · exact .inr (.inl ⟨q, ha ▸ hp⟩)
      · exact .inl ((m.stillHalted (unhalt_notMem_kindsOf ha) (Option.isSome_of_eq_some hh)).trans hh)
    · by_cases hr : c = .captureRelease
      · exact .inr (.inr (.inl ⟨q, hr ▸ hp⟩))
      · exact (m.heldRecord (release_notMem_kindsOf hr) hd).imp_right .inl
  · exact ⟨fun cause hh => .inl ((m.stillHalted (by decide) (Option.isSome_of_eq_some hh)).trans hh),
      fun x d hd => (m.heldRecord (by decide) hd).imp_right .inl⟩

/-- Settles O51. -/
theorem grantedOperationsAreNotCutShort : Obligations.GrantedOperationsAreNotCutShort := by
  intro s t g h hg none
  obtain ⟨pins, q, hp, -⟩ | ⟨q, -, rfl⟩ | ⟨c, q, hp, -, m⟩ | ⟨-, m⟩ := step_cases h
  · exact absurd rfl ((none _ _ hp).2.2.2 pins)
  · exact .inl hg
  · obtain ⟨hread, hwrite, hrefresh, -⟩ := none c q hp
    exact m.portKept (finish_notMem_kindsOf hread hwrite hrefresh) hg
  · exact m.portKept (by decide) hg

end Sys2Proof.Machine
end
section
/-! Commands and the pin, the exchange of training, the ways out of ACTIVE, the timers and the storage errors. -/

namespace Sys2Proof.Machine

variable {s t u : State}

/-! ## Commands and the POR pin -/

/-- With the POR pin released a command makes its effect. -/
theorem next_released (h : s.link.por = false) (u : State) :
    (Host.Outcome.next (if s.link.por then s else u) : Host.Outcome State Fault Refusal) = .next u := by
  rw [h]
  rfl

/-- With the POR pin asserted it makes none. -/
theorem next_held (h : s.link.por = true) (u : State) :
    (Host.Outcome.next (if s.link.por then s else u) : Host.Outcome State Fault Refusal) = .next s := by
  rw [h]
  rfl

theorem exec_answers (c : Instr) (s : State) : ∃ t, exec c s = .next t := by
  cases c <;> exact ⟨_, rfl⟩

theorem exec_pending {c : Instr} (h : exec c s = .next t) : t.pending = s.pending := by
  by_cases hp : ∃ pins, c = .porAsserted pins
  · obtain ⟨pins, rfl⟩ := hp
    cases h
    rfl
  · by_cases hr : c = .porReleased
    · subst hr
      cases h
      rfl
    · exact (exec_moves h (fun pins hc => hp ⟨pins, hc⟩) hr).pending

/-! ## Leaving ACTIVE -/

/-- Which requests stay as orphans, in the two spellings of the condition. -/
theorem orphanRequests_eq (s : State) : orphanRequests s = { s with dem := { s.dem with
    requests := (s.dem.requests.filter fun r => decide (r.phase ≠ .queued ∨ r.orphan = true)).map fun r =>
      { r with orphan := true } } } := by
  have same : (fun r : Request => r.phase != .queued || r.orphan) =
      fun r => decide (r.phase ≠ .queued ∨ r.orphan = true) := by
    funext r
    by_cases hq : r.phase = .queued <;> simp [hq]
  unfold orphanRequests
  rw [same]

/-- An event leaves no trace while the link is not ACTIVE (R173). -/
theorem raiseAt_inactive {k : EventKind} {n : Nat} {x : Subject} {y : Option RecordName}
    (h : s.link.state ≠ .active) : raiseAt k n x y s = s := by
  have silent : eventPasses n s = false := by simp [eventPasses, h]
  simp [raiseAt, silent]

theorem raise_inactive {k : EventKind} {x : Subject} (h : s.link.state ≠ .active) : raise k x s = s :=
  raiseAt_inactive h

/-- Two slips of the window before `time` are what a third one needs (R192). -/
theorem thirdSlip_iff (time : Nat) (slips : List Nat) :
    thirdSlip time slips = true ↔ slips.length = 2 ∧ ∀ p ∈ slips, time ≤ p + 1000 := by
  match slips with
  | [] => simp [thirdSlip]
  | [_] => simp [thirdSlip]
  | [p, q] =>
    have both : thirdSlip time [p, q] = true ↔ time ≤ p + 1000 ∧ time ≤ q + 1000 := by
      rw [← decide_eq_true_iff (p := time ≤ p + 1000), ← decide_eq_true_iff (p := time ≤ q + 1000)]
      exact Bool.and_eq_true_iff
    simp [both]
  | _ :: _ :: _ :: _ => simp [thirdSlip]

/-! ## Storage -/

theorem struck_eq (x : Storage) (severity : Severity) : x.struck severity =
    if x = .sound ∧ severity = .singleBit then .singleBit else .uncorrectable := by
  cases x <;> cases severity <;> rfl

theorem setAt_eq_set {α : Type} {n : Nat} (v : Vector α n) (i : Fin n) (x : α) : setAt v i x = v.set i x := by
  simp [setAt]

theorem getAt_eq_get {α : Type} {n : Nat} (v : Vector α n) (i : Fin n) (d : α) : getAt v i d = v[i] :=
  getAt_of_lt v d i.isLt

/-- Data struck is data with a single-bit error, or data whose bits the error changed. -/
theorem storedLine_struck_eq (d : StoredLine) (severity : Severity) (flips : Line) : d.struck severity flips =
    if d.storage.struck severity = .singleBit then { d with storage := .singleBit }
    else { d with storage := .uncorrectable, flips := Vector.ofFn fun i => d.flips[i] ^^^ flips[i] } := by
  unfold StoredLine.struck
  rw [struck_eq]
  by_cases hs : d.storage = .sound ∧ severity = .singleBit
  · simp [hs]
  · simp [hs]

/-- The end of a lazy wait is a change of the line's entry alone, which is the only one of its line. -/
theorem lazyWaitEnds_eq {a : LineAddr} (h : RepairQueueFits s) : lazyWaitEnds a s =
    if s.fcu.halted.isSome then s
    else { s with rpq := { s.rpq with entries := s.rpq.entries.map fun e =>
      match e.state with
      | .waiting _ => if e.line = a then { e with state := .ready } else e
      | _ => e } } := by
  unfold lazyWaitEnds
  cases found : entryOf a s with
  | none =>
    have other := entryOf_none found
    rw [List.map_congr_left (g := id) fun e he => by
      split
      · exact if_neg (other e he)
      · rfl, List.map_id]
    exact (ite_self s).symm
  | some e =>
    obtain ⟨he, rfl⟩ := entryOf_some found
    dsimp only
    cases hs : e.state with
    | waiting n =>
      refine if_congr Iff.rfl rfl ?_
      unfold updateEntry
      rw [List.map_congr_left fun x hx => ?_]
      by_cases hid : x.id = e.id
      · obtain rfl := h.eq_of_id hx he hid
        rw [hs, if_pos rfl]
        exact (if_pos rfl).symm
      · have hline : x.line ≠ e.line := fun hl => hid (h.eq_of_line hx he hl ▸ rfl)
        rw [if_neg hid]
        split
        · exact (if_neg hline).symm
        · rfl
    | _ =>
      rw [List.map_congr_left (g := id) fun x hx => by
        by_cases hline : x.line = e.line
        · obtain rfl := h.eq_of_line hx he hline
          rw [hs]
          rfl
        · split
          · exact if_neg hline
          · rfl, List.map_id]
      exact (ite_self s).symm

end Sys2Proof.Machine

namespace Sys2Proof

open Machine

/-- Settles O1. -/
theorem stepRunsTheFrontCommand : Obligations.StepRunsTheFrontCommand := fun _ _ => rfl

/-- Settles O2: every command answers a next state, and neither the pin's two nor an elementary change touches the
queue. -/
theorem commandsKeepTheQueue : Obligations.CommandsKeepTheQueue := by
  intro c s
  obtain ⟨t, h⟩ := exec_answers c s
  exact ⟨t, h, exec_pending h⟩

/-- Settles O3. -/
theorem idleStepElapsesOneMicrosecond : Obligations.IdleStepElapsesOneMicrosecond := by
  intro s idle
  have one : step s = .next (elapse s) := by
    unfold step
    rw [idle]
  refine ⟨fun hp => ?_, fun hp => ⟨elapse s, one, ?_⟩⟩
  · rw [one, show elapse s = s by simp [elapse, hp]]
  · have ranks : ∀ r < 4, rankRec (elapse s) r = (rankRec s r).elapsed := fun r hr => by
      unfold rankRec elapse
      rw [hp, getAt_of_lt _ _ hr, getAt_of_lt _ _ hr]
      simp
    have lazy : (elapse s).rpq = { s.rpq with entries :=
        if s.fcu.halted.isSome then s.rpq.entries else s.rpq.entries.map RepairEntry.elapsed } := by
      simp [elapse, hp]
    refine ⟨by simp [elapse, hp], by simp [elapse, hp], fun r hr => ?_, fun hh => ?_, fun hh => ?_, ?_⟩
    · unfold rankState
      rw [ranks r hr]
      exact ⟨rfl, rfl, rfl, rfl⟩
    · rw [lazy, if_pos hh]
    · rw [lazy, hh]
      rfl
    · simp [elapse, hp]

/-- Settles O4. -/
theorem strapsHeldUntilPor : Obligations.StrapsHeldUntilPor := by
  intro c s t h
  cases c with
  | porAsserted pins => cases h; rfl
  | _ => exact exec_keeps_straps (by simp) h

/-- Settles O5. -/
theorem porAssertedAndReleased : Obligations.PorAssertedAndReleased := by
  refine ⟨fun pins s => ⟨powerOn true pins s.stamp s.pending, rfl, ?_⟩, fun _ => rfl⟩
  have ranks : ∀ r < 4, rankRec (powerOn true pins s.stamp s.pending) r =
      if r < pins.presentRanks then ⟨.offline, true, 0, none⟩ else ⟨.absent, false, 0, none⟩ := fun r hr => by
    rw [rankRec_powerOn _ _ _ _ hr]
    unfold powerOnRank
    by_cases hp : r < pins.presentRanks <;> simp [hp]
  have records : ∀ x, recordAt (powerOn true pins s.stamp s.pending) x = ⟨.empty, .sound, .sound⟩ := fun x => by
    cases x <;> rfl
  exact ⟨rfl, rfl, fun i hi => regionAt_powerOn _ _ _ _ hi, rfl, rfl,
    fun n hn => getAt_replicate (n := 40) _ _ n hn, rfl, rfl, rfl, fun i _ => slotAt_powerOn _ _ _ _ i, rfl, rfl, rfl,
    records, rfl, rfl, rfl, fun n hn => getAt_replicate (n := 8) _ _ n hn, rfl, rfl, rfl, rfl, rfl, rfl, rfl, rfl,
    rfl, rfl, rfl, ranks, rfl, rfl, rfl, rfl, rfl, rfl⟩

/-- Settles O6. -/
theorem porHoldsThePart : Obligations.PorHoldsThePart := by
  intro c s hp hon hoff
  cases c with
  | porAsserted pins => exact absurd rfl (hon pins)
  | porReleased => exact absurd rfl hoff
  | _ => exact next_held hp _

/-- Settles O7, by the link state. -/
theorem trainingExchange : Obligations.TrainingExchange := by
  intro s hp
  have agree : ∀ width lanes, lanesAgree width lanes s = true ↔ width = s.link.straps.laneCount ∧
      lanes.take s.link.straps.laneCount = List.range s.link.straps.laneCount := fun width lanes => by
    simp [lanesAgree]
  refine ⟨(next_released hp _).trans ?_, fun width lanes => (next_released hp _).trans ?_,
    (next_released hp _).trans ?_, (next_released hp _).trans ?_⟩
  · unfold signalSeen
    split <;> simp_all
  · unfold lanesLocked
    split <;> simp_all
  · unfold lanesAligned
    split <;> simp_all
  · unfold marksExchanged
    split <;> simp_all

/-- Settles O8. -/
theorem lossOfSignal : Obligations.LossOfSignal := by
  intro s hp
  refine (next_released hp _).trans ?_
  unfold signalLost
  cases s.link.state with
  | active => exact congrArg _ (orphanRequests_eq _)
  | _ => rfl

/-- Settles O9, by the link state. -/
theorem elasticSlip : Obligations.ElasticSlip := by
  intro drift s hp
  refine (next_released hp _).trans (congrArg Host.Outcome.next ?_)
  have out : ∀ u : State, u.link.fill = s.link.fill → driftsOut drift.symbols u =
      decide (12 < (s.link.fill + drift.symbols).natAbs) := fun u hu => by
    rw [← hu]
    rfl
  unfold slip takeDrift
  cases hs : s.link.state with
  | active =>
    dsimp only
    rw [out s rfl, out (timerRuns drift.elapsed s) rfl]
    by_cases slips : 12 < (s.link.fill + drift.symbols).natAbs
    · simp only [slips, decide_true, if_true, not_true_eq_false, if_false, slipActive, timerRuns, thirdSlip_iff]
      by_cases third : s.link.slips.length = 2 ∧ ∀ p ∈ s.link.slips, s.link.timer + drift.elapsed ≤ p + 1000
      · rw [if_pos third, if_pos third, raise_inactive (by simp [leaveActive, orphanRequests])]
        exact orphanRequests_eq _
      · rw [if_neg third, if_neg third]
    · simp [slips, timerRuns]
  | down => rfl
  | echo =>
    dsimp only
    rw [out s rfl]
    simp
  | training step =>
    cases step with
    | laneLock => rfl
    | deskew =>
      dsimp only
      rw [out s rfl]
      simp
    | readyExchange =>
      dsimp only
      rw [out s rfl]
      simp

/-- Settles O38. -/
theorem timersAndStorageErrors : Obligations.TimersAndStorageErrors := by
  intro s hp
  refine ⟨fun a hq => (next_released hp _).trans (congrArg _ (lazyWaitEnds_eq hq)),
    (next_released hp _).trans (congrArg Host.Outcome.next ?_), fun severity => ⟨fun n => ?_, fun n => ?_, fun n => ?_, fun n flips hd => ?_,
      fun n flips d hd => ?_, fun x => ?_, fun x => ?_⟩⟩
  · have wraps : BitVec.ofNat 48 (s.mgu.timeBase.toNat + 1) = s.mgu.timeBase + 1 := by
      rw [BitVec.ofNat_add, BitVec.ofNat_toNat, BitVec.setWidth_eq]
      rfl
    rw [wraps]
    rfl
  all_goals refine (next_released hp _).trans (congrArg Host.Outcome.next ?_); unfold errorArises; simp only [struck_eq]
  · unfold setRegion regionAt
    simp only [setAt_eq_set, getAt_eq_get]
  · unfold setProfile storedProfile
    simp only [setAt_eq_set, getAt_eq_get]
  · unfold setDevice deviceAt
    simp only [setAt_eq_set, getAt_eq_get]
  · rw [hd]
  · rw [hd]
    simp only [storedLine_struck_eq, struck_eq]


end Sys2Proof
end
section
/-! What goes upstream, and downstream frames that are turned away, queue, or end at once. -/

namespace Sys2Proof.Machine

variable {f : List Byte} {a : LineAddr} {s t u : State} {r : Request}

/-! ## Completions in full -/

theorem completionTaken_iff (s : State) :
    completionTaken s = true ↔ s.dem.completions = [] ∧ s.link.upstream.length < 8 := by
  unfold completionTaken
  rw [Bool.and_eq_true, List.isEmpty_iff]
  exact and_congr_right fun _ => decide_eq_true_iff

theorem filter_coreReset_of_other {c : Option CoreReset} {id : Nat} (h : ∀ x, c = some x → x.request ≠ id) :
    c.filter (fun x => x.request != id) = c := by
  cases c with
  | none => rfl
  | some x => simp [Option.filter, h x rfl]

/-- The completion of a request of the buffer that nothing has completed yet (R19, R22, R195). -/
theorem complete_eq_finished {id : Nat} (x : UpFrame) (hf : findRequest id s = some r) (hp : r.phase ≠ .completing)
    (ho : r.orphan = false) (ha : s.link.state = .active) (hc : ∀ c, s.mgu.coreReset = some c → c.request ≠ r.id) :
    complete id x s = finished r x s := by
  obtain rfl : r.id = id := (findRequest_some hf).2
  have upward : (r.orphan || s.link.state != .active) = false := by simp [ho, ha]
  unfold complete finished
  rw [hf]
  dsimp only
  rw [if_neg hp, upward, if_neg Bool.false_ne_true]
  by_cases taken : s.dem.completions = [] ∧ s.link.upstream.length < 8
  · rw [if_pos taken, if_pos ((completionTaken_iff s).mpr taken), dropRequest_eq]
    have empty : s.dem.completions.filter (fun d => d.request != r.id) = s.dem.completions := by simp [taken.1]
    have same : s.mgu.coreReset.filter (fun x => x.request != r.id) = s.mgu.coreReset := filter_coreReset_of_other hc
    show { pushUp x s with
      dem := { s.dem with
        requests := s.dem.requests.filter fun q => q.id != r.id
        holdSet := match r.hold with
          | some key => if portHolds key s then s.dem.holdSet else s.dem.holdSet.erase key
          | none => s.dem.holdSet
        completions := s.dem.completions.filter fun d => d.request != r.id }
      mgu := { s.mgu with coreReset := s.mgu.coreReset.filter fun x => x.request != r.id } } = _
    rw [empty, same]
    rfl
  · rw [if_neg taken, if_neg (fun h => taken ((completionTaken_iff s).mp h))]
    rfl

/-- Which requests stay as orphans where one that is being served has left. -/
theorem filter_orphans (l : List Request) (id : Nat) :
    (((l.map fun q => if q.id = id then { q with phase := .serving } else q).filter fun q => q.id != id).filter
      fun q => decide (q.phase ≠ .queued ∨ q.orphan = true)) =
    l.filter fun q => decide (q.id ≠ id ∧ (q.phase ≠ .queued ∨ q.orphan = true)) := by
  rw [filter_map_id l id (fun q => { q with phase := .serving }) fun _ => rfl, List.filter_filter]
  congr 1
  funext q
  by_cases hi : q.id = id <;> simp [hi]

/-- A request that holds no line is handed on alone. -/
theorem finished_of_unheld (hh : r.hold = none) (x : UpFrame) (s : State) : finished r x s = handedOn r x s := by
  unfold finished handedOn
  rw [hh]

theorem completeDemand_eq_finished {id : Nat} (status : Status) (d : Line) (hf : findRequest id s = some r)
    (hp : r.phase ≠ .completing) (ho : r.orphan = false) (ha : s.link.state = .active)
    (hc : ∀ c, s.mgu.coreReset = some c → c.request ≠ r.id) :
    completeDemand id status d s = finished r (demandFrame r status d) s := by
  unfold completeDemand
  rw [hf]
  exact complete_eq_finished _ hf hp ho ha hc

/-! ## Sending -/

/-- With the lanes idle, LNK begins with the oldest frame, if it sends at all (R195). -/
theorem beginSending_idle {l : Link} (h : l.transmitting = none) : beginSending l =
    if l.state.sends then { l with
      transmitting := l.upstream.head?.map fun f => onLanes l.straps.laneCount f.bytes, upstream := l.upstream.tail }
    else l := by
  obtain ⟨por, straps, state, fill, timer, slips, upstream, transmitting⟩ := l
  obtain rfl : transmitting = none := h
  cases upstream with
  | nil => exact (ite_self _).symm
  | cons f rest => rfl

theorem sends_iff (x : LinkState) : x.sends = true ↔ x = .active ∨ x = .echo := by
  cases x <;> simp [LinkState.sends]

/-! ## Admission -/

/-- A frame that LNK and DEM let in, whatever Core Reset is in progress (R20, R21). -/
theorem receive_admits (ha : s.link.state = .active) (hg : goodFrame f = true) (room : (bufferedRequests s).length < 32)
    (free : ∀ r ∈ bufferedRequests s, r.tag ≠ frameTag f) : receive f s =
      match (frameBody f).line? with
      | some a => arriveDemand (newRequest (frameTag f) (frameBody f) s) a s
      | none => enqueue (newRequest (frameTag f) (frameBody f) s) s := by
  have below : ¬Config.bufferCapacity ≤ bufferCount s := by
    rw [bufferCount_eq]
    exact Nat.not_le.mpr room
  have unused : ¬tagInUse (frameTag f) s = true := fun h => by
    obtain ⟨r, hr, hrt⟩ := (tagInUse_iff _ _).mp h
    exact free r hr hrt
  unfold receive
  rw [ha]
  dsimp only
  rw [if_pos hg]
  unfold admitFrame
  rw [if_neg below, if_neg unused]
  rfl

/-- Whether a demand request that arrives waits: its place is taken, or waited for (R22). -/
def arrivalWaits (a : LineAddr) (s : State) : Prop := holdKey s a ∈ s.dem.holdSet ∨ queuedBefore (holdKey s a) s = true

theorem arriveDemand_waits {b : LineAddr} (h : arrivalWaits b s) (hc : s.mgu.coreReset = none) (r : Request) :
    arriveDemand r b s = enqueue r s := by
  have waits : (decide (holdKey s b ∈ s.dem.holdSet) || queuedBefore (holdKey s b) s) = true := by
    simpa [arrivalWaits] using h
  unfold arriveDemand
  rw [hc]
  dsimp only
  rw [waits, if_pos rfl]

/-- In a Core Reset a request is completed from the state that its flavour takes it in (R37, R38, R182). -/
theorem arriveDemand_inReset {b : LineAddr} {c : CoreReset} (hc : s.mgu.coreReset = some c) (r : Request) :
    arriveDemand r b s = completeDemand r.id (resetStatus c.flavour b s) zeroLine
      (takeInReset c.flavour r b (decide (holdKey s b ∈ s.dem.holdSet) || queuedBefore (holdKey s b) s) s) := by
  unfold arriveDemand
  rw [hc]

theorem lineExists_iff (a : LineAddr) (s : State) :
    lineExists a s = true ↔ rankState s (rankOf a) ≠ .absent ∧ a.index.toNat < depth s := by
  simp [lineExists]

/-- The checks of T18 in their order, outside codec-loop mode. -/
theorem startCheck_eq_some {status : Status} (hl : s.cod.loopLine = none)
    (h : (s.fcu.halted.isSome ∧ status = .halted) ∨ (s.fcu.halted = none ∧ ¬lineExists a s = true ∧ status = .range) ∨
      (s.fcu.halted = none ∧ lineExists a s = true ∧ rankState s (rankOf a) ≠ .online ∧ status = .notReady)) :
    startCheck a s = some status := by
  unfold startCheck
  obtain ⟨hh, rfl⟩ | ⟨hh, hx, rfl⟩ | ⟨hh, hx, ho, rfl⟩ := h
  · rw [if_pos hh]
  · simp [hh, hx]
  · simp [hh, hx, hl, ho]

/-- A let-in demand frame that a check of T18 meets at its start (R23). -/
theorem receive_refused (hL : LetIn f s) (hb : (frameBody f).line? = some a) (hl : s.cod.loopLine = none)
    (hf : HoldKey.line a ∉ s.dem.holdSet) (hp : portHolds (.line a) s = false) (hq : queuedBefore (.line a) s = false)
    {status : Status} (hs : startCheck a s = some status) : receive f s =
      completedAtOnce f a none (demandFrame (newRequest (frameTag f) (frameBody f) s) status zeroLine) s := by
  have check : startCheck a (withStarted f a none .waitRead s) = some status := hs
  rw [receive_starts hL hb hl hf hq]
  unfold startDemand
  rw [beginDemand_new hL.named hl]
  dsimp only
  rw [check]
  dsimp only
  unfold completeDemand
  show (match findRequest s.stamp _ with | none => _ | some r => _) = _
  rw [findRequest_withStarted _ _ hL.named]
  exact complete_withStarted _ _ _ hL.named (by decide) hL.active hf hp hL.noReset

/-- The status in a Core Reset (T23, R37, R38). -/
theorem resetStatus_eq {flavour : Flavour} {status : Status}
    (h : (s.fcu.halted.isSome ∧ status = .halted) ∨ (s.fcu.halted = none ∧ flavour = .abort ∧ status = .aborted) ∨
      (s.fcu.halted = none ∧ flavour = .drain ∧ ¬lineExists a s = true ∧ status = .range) ∨
      (s.fcu.halted = none ∧ flavour = .drain ∧ lineExists a s = true ∧ status = .notReady)) :
    resetStatus flavour a s = status := by
  unfold resetStatus
  obtain ⟨hh, rfl⟩ | ⟨hh, rfl, rfl⟩ | ⟨hh, rfl, hx, rfl⟩ | ⟨hh, rfl, hx, rfl⟩ := h
  · rw [if_pos hh]
  · simp [hh]
  · simp [hh, hx]
  · simp [hh, hx]

/-- A request that has just joined the buffer is completed. -/
theorem completeDemand_newest (status : Status) (d : Line) (hr : r.id = s.stamp)
    (hn : ∀ q ∈ s.dem.requests, q.id < s.stamp) (hu : u.dem.requests = s.dem.requests ++ [r])
    (hp : r.phase ≠ .completing) (ho : r.orphan = false) (ha : u.link.state = .active)
    (hc : ∀ c, u.mgu.coreReset = some c → c.request ≠ s.stamp) :
    completeDemand r.id status d u = finished r (demandFrame r status d) u := by
  refine completeDemand_eq_finished status d ?_ hp ho ha (hr ▸ hc)
  unfold findRequest
  rw [hu]
  exact find_newest r rfl (hr ▸ hn)

/-- The state with a request that has joined the buffer and begun: it is the newest, and its place is taken. -/
def withNewest (r : Request) (key : HoldKey) (s : State) : State :=
  { s with
    dem := { s.dem with requests := s.dem.requests ++ [r], holdSet := s.dem.holdSet ++ [key] }
    stamp := s.stamp + 2 }

/-- A request that arrives and begins, in codec-loop mode too. -/
theorem beginDemand_newest {tag : Byte} {b : RequestBody} (hn : ∀ q ∈ s.dem.requests, q.id < s.stamp) :
    beginDemand (newRequest tag b s) a (enqueue (newRequest tag b s) s) = withNewest { newRequest tag b s with
      phase := .waitRead, age := s.stamp + 1, hold := some (holdKey s a) } (holdKey s a) s := by
  unfold beginDemand enqueue passMoment updateRequest withNewest
  dsimp only
  rw [List.map_append, map_earlier (n := (newRequest tag b s).id) _ hn]
  simp only [List.map_cons, List.map_nil, if_true]
  rfl

/-- The phase in which the newest request stands is lost where it is completed. -/
theorem finished_newest_phase (p : Phase) (f : UpFrame) (key : HoldKey) (r : Request) (s : State) :
    finished r f (withNewest r key s) = finished { r with phase := p } f (withNewest { r with phase := p } key s) := by
  unfold finished withNewest
  dsimp only
  refine if_congr Iff.rfl ?_ ?_
  · simp only [List.filter_append, List.filter_cons, List.filter_nil, bne_self_eq_false, Bool.false_eq_true, if_false]
    rfl
  · simp only [List.map_append, List.map_cons, List.map_nil, if_true]

end Sys2Proof.Machine

namespace Sys2Proof

open Machine

/-- Settles O18. -/
theorem echoAndTransmission : Obligations.EchoAndTransmission := by
  intro s hp
  refine ⟨fun frame echoes c hc => ?_, ?_, fun args r hT => ?_⟩
  · have received : receive frame s = echo frame s := by
      unfold receive
      rw [echoes]
    have : exec c s = .next (receive frame s) := by
      simp only [List.mem_cons, List.not_mem_nil, or_false] at hc
      rcases hc with rfl | rfl | rfl | rfl | rfl <;> exact next_released hp _
    rw [this, received]
    rfl
  · refine (next_released hp _).trans ?_
    unfold frameSent
    rw [beginSending_idle rfl]
    by_cases hs : s.link.state = .active ∨ s.link.state = .echo
    · rw [if_pos ((sends_iff _).mpr hs), if_pos hs]
    · rw [if_neg (fun h => hs ((sends_iff _).mp h)), if_neg hs]
  · have same : s.mgu.coreReset.filter (fun x => x.request != r.id) = s.mgu.coreReset :=
      filter_coreReset_of_other hT.notReset
    have found := findRequest_setPhase .serving hT.named
    show Host.Outcome.next (if s.link.por then s else take 38 echoSet s) = _
    rw [taken_exec hT]
    unfold echoSet leaveForEcho
    rw [found]
    dsimp only
    rw [dropRequest_eq, orphanRequests_eq, hT.unheld]
    have left := filter_orphans s.dem.requests r.id
    refine congrArg Host.Outcome.next ?_
    unfold pushUp setPhase updateRequest
    dsimp only
    rw [left, same]

/-- Settles O19. -/
theorem completionIsHandedOver : Obligations.CompletionIsHandedOver := by
  intro s hp
  refine ⟨fun h => (next_released hp _).trans ?_, fun c rest r hc room found => (next_released hp _).trans ?_⟩
  · unfold handOverNext
    rcases h with empty | full
    · rw [empty]
    · cases s.dem.completions with
      | nil => rfl
      | cons c rest => exact congrArg _ (if_neg (Nat.not_lt.mpr full))
  · unfold handOverNext handOver
    rw [hc]
    dsimp only
    rw [if_pos (show s.link.upstream.length < Config.upstreamBound from room), found]
    dsimp only
    by_cases silent : r.orphan = true ∨ s.link.state ≠ .active
    · have dropped := dropRequest_eq r s
      rw [hc] at dropped
      rw [if_pos (by simpa using silent), if_pos silent]
      exact congrArg Host.Outcome.next dropped
    · have pushed : (pushUp c.frame s).dem.completions = c :: rest := hc
      have dropped := dropRequest_eq r (pushUp c.frame s)
      rw [pushed] at dropped
      rw [if_neg (by simpa using silent), if_neg silent]
      exact congrArg Host.Outcome.next dropped

/-- Settles O11. -/
theorem framesTurnedAway : Obligations.FramesTurnedAway := by
  intro frame s hp c hc
  have received : exec c s = .next (receive frame s) := by
    simp only [List.mem_cons, List.not_mem_nil, or_false] at hc
    rcases hc with rfl | rfl | rfl | rfl | rfl <;> exact next_released hp _
  rw [received]
  refine ⟨fun h => ?_, fun ha hg => ?_, fun ha hg full => ?_, fun ha hg room clash => ?_⟩
  all_goals unfold receive
  · obtain h | ⟨x, h⟩ := h <;> rw [h]
  · rw [ha]
    dsimp only
    rw [hg, if_neg Bool.false_ne_true]
  · rw [ha]
    dsimp only
    rw [if_pos hg]
    unfold admitFrame
    rw [← bufferCount_eq] at full
    rw [if_pos (show Config.bufferCapacity ≤ bufferCount s from full)]
    rfl
  · rw [ha]
    dsimp only
    rw [if_pos hg]
    unfold admitFrame
    rw [← bufferCount_eq] at room
    rw [if_neg (show ¬Config.bufferCapacity ≤ bufferCount s from Nat.not_le.mpr room),
      if_pos ((tagInUse_iff _ _).mpr clash)]

/-- Settles O12. -/
theorem framesThatQueue : Obligations.FramesThatQueue := by
  intro frame s hL queued
  have received : ∀ c ∈ [Instr.read frame, .write frame, .maskedWrite frame], exec c s = .next (receive frame s) := by
    intro c hc
    simp only [List.mem_cons, List.not_mem_nil, or_false] at hc
    rcases hc with rfl | rfl | rfl <;> exact next_released hL.released _
  have waits : ∀ b, (frameBody frame).line? = some b → arrivalWaits b s → receive frame s = queued := by
    intro b hb hw
    rw [receive_admits hL.active hL.good hL.room hL.free, hb]
    exact arriveDemand_waits hw hL.noReset _
  have unlined : ∀ kind args, frameBody frame = .manage kind args → (frameBody frame).line? = none :=
    fun kind args hb => hb ▸ rfl
  refine ⟨fun kind args hb => ⟨?_, fun reset => ?_⟩, fun b hb hl hw c hc => ?_, fun b hb hl hw c hc => ?_⟩
  · refine (next_released hL.released _).trans (congrArg _ ?_)
    rw [receive_admits hL.active hL.good hL.room hL.free, unlined kind args hb]
    rfl
  · refine (next_released (s := { s with mgu := { s.mgu with coreReset := some reset } }) hL.released _).trans
      (congrArg _ ?_)
    rw [receive_admits (s := { s with mgu := { s.mgu with coreReset := some reset } }) hL.active hL.good hL.room
      hL.free, unlined kind args hb]
    rfl
  · rw [received c hc, waits b hb]
    unfold arrivalWaits holdKey
    simpa [hl] using hw
  · rw [received c hc, waits b hb]
    unfold arrivalWaits holdKey
    simpa [hl] using hw

/-- Settles O16: the checks of T18 at the start of a let-in frame, and what a Core Reset makes of one. -/
theorem refusedAtStart : Obligations.RefusedAtStart := by
  refine ⟨?_, ?_⟩
  · intro frame a s hL hf hp hq hl exists_ status hs
    have check : startCheck a s = some status := by
      refine startCheck_eq_some hl ?_
      rw [lineExists_iff]
      exact hs
    have ends : ∀ b, (frameBody frame).line? = some a → frameBody frame = b → receive frame s = completedAtOnce frame a
        none (demandFrame (newRequest (frameTag frame) b s) status zeroLine) s := fun b hb h =>
      h ▸ receive_refused hL hb hl hf hp hq check
    exact ⟨fun hb => (next_released hL.released _).trans (congrArg _ (ends _ (hb ▸ rfl) hb)),
      fun data hb => (next_released hL.released _).trans (congrArg _ (ends _ (hb ▸ rfl) hb)),
      fun mask data hb => (next_released hL.released _).trans (congrArg _ (ends _ (hb ▸ rfl) hb))⟩
  · intro frame a s flavour id status hL hb exists_ hs hid key resetting arrived done c hc
    have received : exec c resetting = .next (receive frame resetting) := by
      simp only [List.mem_cons, List.not_mem_nil, or_false] at hc
      rcases hc with rfl | rfl | rfl <;> exact next_released (s := resetting) hL.released _
    have answer : resetStatus flavour a resetting = status := by
      refine resetStatus_eq ?_
      rw [lineExists_iff]
      exact hs
    have other : ∀ c, resetting.mgu.coreReset = some c → c.request ≠ s.stamp := fun c h => by
      cases h
      exact hid
    have taken : receive frame resetting = completeDemand arrived.id status zeroLine (takeInReset flavour arrived a
        (decide (key ∈ s.dem.holdSet) || queuedBefore key s) resetting) := by
      rw [receive_admits (s := resetting) hL.active hL.good hL.room hL.free, hb]
      dsimp only
      rw [arriveDemand_inReset (c := ⟨flavour, id⟩) rfl, answer]
      rfl
    rw [received, taken]
    refine ⟨fun waits => ?_, fun drains free unqueued => ?_⟩
    · have joins : takeInReset flavour arrived a (decide (key ∈ s.dem.holdSet) || queuedBefore key s) resetting =
          enqueue { arrived with beside := decide (flavour = .drain) } resetting := by
        cases flavour with
        | abort => rfl
        | drain =>
          have : (decide (key ∈ s.dem.holdSet) || queuedBefore key s) = true := by simpa using waits
          rw [this]
          rfl
      rw [joins]
      have ends := completeDemand_newest (s := s) (u := enqueue { arrived with beside := decide (flavour = .drain) }
        resetting) (r := { arrived with beside := decide (flavour = .drain) }) status zeroLine rfl hL.named rfl
        Phase.noConfusion rfl hL.active other
      rw [finished_of_unheld rfl] at ends
      exact congrArg _ ends
    · have unheld : (decide (key ∈ s.dem.holdSet) || queuedBefore key s) = false := by simp [free, unqueued]
      have begins : takeInReset flavour arrived a (decide (key ∈ s.dem.holdSet) || queuedBefore key s) resetting =
          withNewest { arrived with phase := .waitRead, age := s.stamp + 1, hold := some key } key resetting := by
        rw [drains, unheld]
        exact beginDemand_newest (s := resetting) hL.named
      rw [begins]
      refine congrArg _ (Eq.trans ?_ (finished_newest_phase .queued done key
        { arrived with phase := .waitRead, age := s.stamp + 1, hold := some key } resetting))
      exact completeDemand_newest (s := s) (r := { arrived with
        phase := .waitRead, age := s.stamp + 1, hold := some key }) status zeroLine rfl hL.named (by rfl)
        Phase.noConfusion rfl hL.active other

end Sys2Proof
end
section
/-! Requests that set a number, what becomes of an event, and the payloads of the readings, byte by byte (R44, R89, R93,
R151, R162, R172–R179, R198). -/

namespace Sys2Proof.Machine

variable {s : State} {r : Request} {args : List Byte}

/-! ## Parts of a payload -/

theorem flagByte_iff (b : Bool) : (if b then 1 else 0 : Byte) = 1 ↔ b = true := by
  cases b <;> decide

theorem packedName_eq (d : Option (Fin 10)) :
    packedName (d.map Fin.val) = [(d.map fun k => BitVec.ofNat 8 k.val).getD 0xFF] := by
  cases d with
  | none => rfl
  | some k => exact packed_one k.val

theorem packedCause_eq (c : Option HaltCause) : packedCause c =
    [(c.map fun x => x.table.code).getD 0xFF, (c.map fun x => BitVec.ofNat 8 x.index).getD 0xFF] := by
  cases c with
  | none => rfl
  | some x => exact congrArg _ (packed_one x.index)

/-- The word that names the cursor's line, all ones where it is parked (T92). -/
def cursorWord (c : Option LineAddr) : Nat := (c.map fun a => a.rank.toNat * 2 ^ 27 + a.index.toNat).getD 0xFFFFFFFF

theorem packedCursor_eq (c : Option LineAddr) : packedCursor c = packed 4 (cursorWord c) := by
  cases c with
  | none => decide
  | some a => rfl

/-- The bytes of the cursor read back. -/
theorem cursor_of_field {p : List Byte} {k : Nat} {c : Option LineAddr} (h : field p k 4 = packed 4 (cursorWord c)) :
    (∀ a, c = some a → addressOf (field p k 4) = a) ∧ (c = none → argument p k 4 = 0xFFFFFFFF) := by
  refine ⟨fun a ha => ?_, fun hn => ?_⟩
  · rw [h, ha]
    exact addressOf_packedAddress a
  · rw [argument_of_field_mod _ _ _ _ h, hn]
    rfl

theorem markStateCode_eq (s : State) (q : Nat) : markStateCode s q = ((markState s q).map DeviceState.code).getD 0 := by
  unfold markStateCode
  cases markState s q <;> rfl

/-! ## Payloads as runs of bytes -/

/-- A run of a payload, by the lengths of the runs. -/
theorem field_flatten {runs : List (List Byte)} {lengths : List Nat} {x : List Byte}
    (hl : runs.map List.length = lengths) (i : Nat) {k n : Nat} (h : runs[i]? = some x)
    (hk : (lengths.take i).sum = k) (hn : lengths[i]? = some n) : field runs.flatten k n = x := by
  obtain ⟨hi, rfl⟩ := List.getElem?_eq_some_iff.mp h
  have before : (runs.take i).flatten.length = k := by
    rw [List.length_flatten, ← List.map_take.symm, hl, hk]
  have this : runs[i].length = n := by
    rw [← hl, List.getElem?_map, h] at hn
    exact Option.some.inj hn
  have parts : runs.flatten = (runs.take i).flatten ++ (runs[i] ++ (runs.drop (i + 1)).flatten) := by
    rw [← List.flatten_cons, ← List.flatten_append, List.getElem_cons_drop, List.take_append_drop]
  unfold field
  rw [parts, List.drop_left' before, ← this, List.take_left' rfl]

theorem length_flatten_runs {runs : List (List Byte)} {lengths : List Nat} {n : Nat}
    (hl : runs.map List.length = lengths) (h : lengths.sum = n) : runs.flatten.length = n := by
  rw [List.length_flatten, hl, h]

/-- A byte of a payload stands in the run about it. -/
theorem byteAt_of_field {p x : List Byte} {k n i : Nat} (h : field p k n = x) (hi : i < n) :
    byteAt p (k + i) = byteAt x i := by
  subst h
  unfold byteAt field
  rw [List.getD_eq_getElem?_getD, List.getD_eq_getElem?_getD, List.getElem?_take, if_pos hi, List.getElem?_drop]

/-- A run of one byte. -/
theorem byteAt_of_run {p : List Byte} {k : Nat} {b : Byte} (h : field p k 1 = [b]) : byteAt p k = b :=
  byteAt_of_field h Nat.one_pos

theorem flag_of_run {p : List Byte} {k : Nat} {b : Bool} (h : field p k 1 = packedFlag b) :
    byteAt p k = 1 ↔ b = true := by
  rw [byteAt_of_run h]
  exact flagByte_iff b

/-- A number of one byte. -/
theorem argument_one (p : List Byte) (k : Nat) : argument p k 1 = (byteAt p k).toNat := by
  unfold argument field byteAt
  rw [List.getD_eq_getElem?_getD, ← Nat.add_zero k, ← List.getElem?_drop, Nat.add_zero]
  cases p.drop k with
  | nil => rfl
  | cons b l => simp [number]

/-- A number that fits one byte, by the byte. -/
theorem argument_of_byte {p : List Byte} {k v : Nat} (h : byteAt p k = BitVec.ofNat 8 v) (hv : v < 256) :
    argument p k 1 = v := by
  rw [argument_one, h, BitVec.toNat_ofNat]
  exact Nat.mod_eq_of_lt hv

/-- One byte for each rank. -/
theorem byteAt_ranks {p : List Byte} {k : Nat} {f : Nat → Byte} (h : field p k 4 = [0, 1, 2, 3].map f) {q : Nat}
    (hq : q < 4) : byteAt p (k + q) = f q := by
  rw [byteAt_of_field h hq]
  match q, hq with
  | 0, _ => rfl
  | 1, _ => rfl
  | 2, _ => rfl
  | 3, _ => rfl

/-! ## Readings made while the request is being served -/

theorem bufferCount_setPhase (id : Nat) (p : Phase) (s : State) : bufferCount (setPhase id p s) = bufferCount s := by
  unfold bufferCount setPhase updateRequest
  rw [List.countP_map]
  congr 1
  funext q
  simp only [Function.comp]
  split <;> rfl

theorem statusPayload_setPhase (id : Nat) (p : Phase) (s : State) :
    statusPayload (setPhase id p s) = statusPayload s := by
  unfold statusPayload
  rw [bufferCount_setPhase]
  rfl

/-- The payload of Status Read as runs of bytes. -/
def statusRuns (s : State) : List (List Byte) :=
  [packedFlag s.fcu.halted.isSome,
   [(s.fcu.halted.map fun x => x.table.code).getD 0xFF],
   [(s.fcu.halted.map fun x => BitVec.ofNat 8 x.index).getD 0xFF],
   [coreResetCode s.mgu.coreReset],
   packedFlag s.cod.loopLine.isSome,
   [0, 1, 2, 3].map fun q => (rankState s q).code,
   [0, 1, 2, 3].map fun q => ((markOf s q).map fun k => BitVec.ofNat 8 k.val).getD 0xFF,
   [0, 1, 2, 3].map (markStateCode s),
   packed 1 s.rpq.entries.length,
   [0, 1, 2, 3].map fun k => BitVec.ofNat 8 (s.rpq.entries.countP fun e => e.state.place == k),
   [0, 1, 2, 3, 4].map fun k => BitVec.ofNat 8 (s.sls.slots.toList.countP fun x => x.code == BitVec.ofNat 8 k),
   [s.fcu.recordA.content.code], [s.fcu.recordB.content.code], [recordCode s.fcu.next],
   packedFlag s.psc.running,
   packed 1 s.psc.phase, packed 4 s.psc.credit, packed 4 s.psc.lagLimit,
   packedFlag s.psc.steal, packedFlag s.psc.lagging,
   packed 4 (cursorWord s.psc.cursor),
   packed 1 s.mgu.mask, packed 6 s.mgu.timeBase.toNat, packed 1 (bufferCount s)]

theorem statusRuns_lengths (s : State) : (statusRuns s).map List.length =
    [1, 1, 1, 1, 1, 4, 4, 4, 1, 4, 5, 1, 1, 1, 1, 1, 4, 4, 1, 1, 4, 1, 6, 1] := by
  simp [statusRuns, length_packed, packedFlag]

theorem statusPayload_eq (s : State) : statusPayload s = (statusRuns s).flatten := by
  unfold statusPayload statusRuns
  rw [packedCause_eq, packedCursor_eq]
  simp only [packedName_eq, packed_one, List.flatMap_cons, List.flatMap_nil, List.map_cons, List.map_nil,
    List.flatten_cons, List.flatten_nil, List.append_nil, List.append_assoc, List.cons_append, List.nil_append]

theorem bump_eq (v : Vector Nat 4) (q : Nat) : bump v q =
    Vector.ofFn fun r => if r.val = q ∧ v[r] < 2 ^ 32 - 1 then v[r] + 1 else v[r] := by
  have ceiling : Config.counterCeiling = 2 ^ 32 - 1 := rfl
  apply Vector.ext
  intro i hi
  rw [Vector.getElem_ofFn]
  unfold bump saturate setAt
  by_cases hq : q < 4
  · rw [dif_pos hq, Vector.getElem_set, getAt_of_lt _ _ hq, ceiling]
    by_cases hqi : q = i
    · subst hqi
      simp
    · simp [hqi, Ne.symm hqi]
  · rw [dif_neg hq]
    have : i ≠ q := by omega
    simp [this]

/-! ## Counters, the cursor and the ranks -/

/-- The payload of Counter Read as runs of bytes. -/
def counterRuns (c : Counters) : List (List Byte) :=
  [packed 4 c.corrected[0], packed 4 c.corrected[1], packed 4 c.corrected[2], packed 4 c.corrected[3],
   packed 4 c.ueLines[0], packed 4 c.ueLines[1], packed 4 c.ueLines[2], packed 4 c.ueLines[3],
   packed 4 c.poisonedReads[0], packed 4 c.poisonedReads[1], packed 4 c.poisonedReads[2], packed 4 c.poisonedReads[3],
   packed 4 c.lagTicks, packed 4 c.overruns, packed 1 c.lostCaptures]

theorem counterRuns_lengths (c : Counters) :
    (counterRuns c).map List.length = [4, 4, 4, 4, 4, 4, 4, 4, 4, 4, 4, 4, 4, 4, 1] := by
  simp [counterRuns, length_packed]

theorem counterPayload_eq (c : Counters) : counterPayload c = (counterRuns c).flatten := by
  unfold counterPayload counterRuns
  simp only [toList_four, List.map_cons, List.map_nil, List.flatten_cons, List.flatten_nil, List.append_nil,
    List.append_assoc]

/-- The payload of Cursor Read as runs of bytes. -/
def cursorRuns (s : State) : List (List Byte) :=
  [packed 4 (cursorWord s.psc.cursor), packedFlag s.psc.wholeSweep, packedFlag s.psc.running, packed 4 s.psc.credit,
   packed 4 s.psc.lagLimit, packedFlag s.psc.steal, packedFlag s.psc.lagging, packed 1 s.psc.phase]

theorem cursorRuns_lengths (s : State) : (cursorRuns s).map List.length = [4, 1, 1, 4, 4, 1, 1, 1] := by
  simp [cursorRuns, length_packed, packedFlag]

theorem cursorRead_eq (id : Nat) (args : List Byte) (s : State) :
    cursorRead id args s = answer id .done (cursorRuns s).flatten s := by
  unfold cursorRead cursorRuns
  rw [packedCursor_eq]
  simp only [List.flatten_cons, List.flatten_nil, List.append_nil, List.append_assoc]

/-- The payload of Rank Status as runs of bytes. -/
def rankRuns (s : State) : List (List Byte) :=
  [[0, 1, 2, 3].map fun q => (rankState s q).code,
   [0, 1, 2, 3].map fun q => if (rankRec s q).selfRefresh then 1 else 0,
   packed 4 (rankRec s 0).fillPosition, packed 4 (rankRec s 1).fillPosition,
   packed 4 (rankRec s 2).fillPosition, packed 4 (rankRec s 3).fillPosition,
   [0, 1, 2, 3].map fun q => BitVec.ofNat 8 (waitingCount s q),
   [BitVec.ofNat 8 s.link.straps.presentRanks], [BitVec.ofNat 8 s.link.straps.depthExponent],
   [BitVec.ofNat 8 s.link.straps.laneCount]]

theorem rankRuns_lengths (s : State) : (rankRuns s).map List.length = [4, 4, 4, 4, 4, 4, 4, 1, 1, 1] := by
  simp [rankRuns, length_packed]

theorem rankStatus_eq (id : Nat) (args : List Byte) (s : State) :
    rankStatus id args s = answer id .done (rankRuns s).flatten s := by
  unfold rankStatus rankRuns
  rw [strapBytes_eq]
  simp only [packedFlag, packed_one, List.flatMap_cons, List.flatMap_nil, List.map_cons, List.map_nil,
    List.flatten_cons, List.flatten_nil, List.append_nil, List.append_assoc, List.cons_append, List.nil_append]

/-- A request that names no line waits for nothing, whatever its phase. -/
theorem waiting_setPhase {id : Nat} (p : Phase) (h : ∀ q ∈ s.dem.requests, q.id = id → q.body.line? = none) :
    waiting (setPhase id p s) = waiting s := by
  have demands : (setPhase id p s).dem.requests.flatMap waitingDemand = s.dem.requests.flatMap waitingDemand := by
    unfold setPhase updateRequest
    rw [List.flatMap_map]
    refine List.flatMap_congr fun q hq => ?_
    split
    · rename_i hid
      unfold waitingDemand
      rw [h q hq hid]
    · rfl
  unfold waiting
  rw [demands]
  rfl

theorem taken_names_no_line {k : Nat} (hT : Taken k args r s) (hn : RequestsNamed s) :
    ∀ q ∈ s.dem.requests, q.id = r.id → q.body.line? = none := by
  intro q hq hid
  obtain ⟨hr, hb, -⟩ := taken_manage hT
  obtain rfl := unique_name hn hq hr hid
  rw [hb]
  rfl

theorem rankRuns_serving {k : Nat} (hT : Taken k args r s) (hn : RequestsNamed s) :
    rankRuns (setPhase r.id .serving s) = rankRuns s := by
  have same : ∀ q, waitingCount (setPhase r.id .serving s) q = waitingCount s q := fun q => by
    unfold waitingCount
    rw [waiting_setPhase _ (taken_names_no_line hT hn)]
  unfold rankRuns
  simp only [same]
  rfl

theorem strap_numbers_small (p : StrapPins) : p.presentRanks ≤ 4 ∧ p.depthExponent < 256 ∧ p.laneCount ≤ 8 := by
  refine ⟨?_, ?_, ?_⟩
  · unfold StrapPins.presentRanks
    cases p.ranks <;> decide
  · unfold StrapPins.depthExponent
    cases p.depth <;> decide
  · unfold StrapPins.laneCount
    cases p.lanes <;> decide

/-! ## Events -/

/-- LNK goes on with the frame on the lanes, or begins with the oldest of the queue (R195). -/
theorem beginSending_eq {l : Link} (h : l.state = .active) : beginSending l = { l with
    upstream := if l.transmitting.isSome then l.upstream else l.upstream.tail
    transmitting := if l.transmitting.isSome then l.transmitting
      else l.upstream.head?.map fun f => onLanes l.straps.laneCount f.bytes } := by
  cases ht : l.transmitting with
  | none =>
    rw [beginSending_idle ht, if_pos ((sends_iff _).mpr (.inl h))]
    rfl
  | some x =>
    unfold beginSending
    rw [ht]
    dsimp only [Option.isSome_some]
    rw [if_pos rfl, if_pos rfl, ← ht]

/-- An event passes where the link is ACTIVE, its level is above the mask or 7, and there is room (R173, R195). -/
theorem raiseAt_passes (level : Nat) (s : State) : (eventPasses level s && alertTaken level s) = true ↔
    s.link.state = .active ∧ (s.mgu.mask < level ∨ level = 7) ∧
      (level = 7 ∨ s.link.upstream.length + roomClaims s < 8) := by
  have room : alertTaken level s = true ↔ level = 7 ∨ s.link.upstream.length + roomClaims s < 8 := by
    unfold alertTaken
    rw [Bool.or_eq_true, beq_iff_eq]
    exact or_congr_right decide_eq_true_iff
  rw [Bool.and_eq_true, room, eventPasses]
  simp [and_assoc]

/-! ## What loads spell -/

theorem classOf_some {n : Nat} {cls : RegionClass} (h : classOf n = some cls) : n ≤ 3 := by
  unfold classOf at h
  split at h
  · decide
  · decide
  · decide
  · decide
  · cases h

theorem loadedRegion_eq (args : List Byte) (cls : RegionClass) : loadedRegion args cls =
    { valid := decide (byteAt args 1 ≠ 0), base := addressOf (field args 2 4), rankMask := (byteAt args 6).setWidth 2,
      indexMask := BitVec.ofNat 27 (argument args 7 4), cls := cls,
      level := max 1 (min 7 (byteAt args 12).toNat) } := by
  have valid : flagOf (byteAt args 1) = decide (byteAt args 1 ≠ 0) := by
    rw [decide_not]
    rfl
  unfold loadedRegion
  rw [valid, clamp_eq _ _ _ (by decide)]
  rfl

theorem loadedInjection_eq (args : List Byte) : loadedInjection args =
    { line := addressOf (field args 1 4), device := (byteAt args 5).toNat, codewords := (byteAt args 6).setWidth 4,
      pattern := BitVec.ofNat 16 (argument args 7 2), count := max 1 (byteAt args 9).toNat } := by
  have count : clamp 1 255 (arg args 9) = max 1 (byteAt args 9).toNat := by
    have := (byteAt args 9).isLt
    rw [clamp_eq _ _ _ (by decide), arg]
    omega
  unfold loadedInjection
  rw [count]
  rfl

theorem injectionRefused_iff (n : Nat) (e : Injection) (s : State) : injectionRefused n e s = true ↔
    1 < n ∨ 3 < rankOf e.line ∨ depth s ≤ e.line.index.toNat ∨ 9 < e.device ∨ e.codewords = 0 ∨ e.pattern = 0 := by
  simp [injectionRefused, or_assoc]

theorem ranksIdle_iff (s : State) :
    ranksIdle s = true ↔ ∀ q < 4, rankState s q = .offline ∨ rankState s q = .absent := by
  have four : ∀ P : Nat → Prop, (∀ q < 4, P q) ↔ P 0 ∧ P 1 ∧ P 2 ∧ P 3 := fun P =>
    ⟨fun h => ⟨h 0 (by decide), h 1 (by decide), h 2 (by decide), h 3 (by decide)⟩, fun ⟨h0, h1, h2, h3⟩ q hq => by
      interval_cases q <;> assumption⟩
  rw [four]
  simp [ranksIdle]

/-- The line of zeros is a codeword of zeros. -/
theorem encode_zeroLine : encode zeroLine = zeroRaw := by decide +kernel

theorem loopSet_off {id : Nat} (h : arg args 0 = 0) : loopSet id args s = answer id .done [] (setLoop none s) := by
  unfold loopSet
  rw [h]
  rfl

theorem loopSet_on {id : Nat} (h : arg args 0 = 1) : loopSet id args s =
    if !ranksIdle s then answer id .wrongState [] s
    else if s.cod.loopLine.isSome then answer id .done [] s
    else answer id .done [] (setLoop (some zeroRaw) s) := by
  unfold loopSet
  rw [h]
  rfl

theorem loopSet_other {id : Nat} (h : 1 < arg args 0) : loopSet id args s = answer id .range [] s := by
  unfold loopSet
  split
  · omega
  · omega
  · rfl

/-! ## The checks on a request that is taken -/

/-- The kinds of T82 but Core Reset, each with the command that takes it. -/
def manageCommands : List (Nat × Instr) :=
  [(1, .regionLoad), (2, .regionRead), (3, .regionDefault), (4, .phaseLoad), (5, .phaseRead),
   (6, .phaseSet), (7, .deviceRead), (8, .deviceMark), (9, .deviceUnmark), (10, .healthParams),
   (11, .spareRead), (12, .spareRetire), (13, .spareRelease), (14, .spareParams),
   (15, .patrolStart), (16, .patrolStop), (17, .cursorRead), (18, .cursorSet), (19, .pacingSet),
   (20, .pacingReset), (21, .rankFill), (22, .rankOnline), (23, .rankOffline), (24, .rankStatus),
   (25, .captureRead), (26, .captureRelease), (27, .injectSet), (28, .injectClear),
   (29, .loopSet), (30, .alertMaskSet), (31, .counterRead), (32, .counterClear), (33, .timeSet),
   (34, .timeRead), (35, .statusRead), (36, .identityRead), (38, .echoSet)]

/-- Each of them takes the oldest QUEUED management request of its kind. -/
theorem exec_takes (hp : s.link.por = false) : ∀ p ∈ manageCommands,
    ∃ effect, exec p.2 s = .next (take p.1 effect s) := by
  simp only [manageCommands, List.forall_mem_cons, List.not_mem_nil, false_imp_iff, implies_true, and_true]
  and_intros <;> exact ⟨_, next_released hp _⟩

theorem take_other {k : Nat} {effect : Nat → List Byte → State → State}
    (h : ∀ q k' args, oldestManage s = some (q, k', args) → k' ≠ k) : take k effect s = s := by
  unfold take
  cases ho : oldestManage s with
  | none => rfl
  | some x =>
    obtain ⟨q, k', args⟩ := x
    exact if_neg (h q k' args ho)

theorem takeReset_other {abort : Bool} {effect : Nat → List Byte → State → State}
    (h : ∀ q k args, oldestManage s = some (q, k, args) → k ≠ 37) : takeReset abort effect s = s := by
  unfold takeReset
  cases ho : oldestManage s with
  | none => rfl
  | some x =>
    obtain ⟨q, k, args⟩ := x
    exact if_neg fun hk => h q k args ho hk.1

/-- The request of its kind, or the Core Reset of its flavour, is served by the command that takes it. -/
theorem exec_serves (hp : s.link.por = false) {k : Nat} (ho : oldestManage s = some (r, k, args)) :
    ∀ p ∈ manageCommands ++ [(37, if args.head? = some 1 then .coreResetAbort else .coreResetDrain)], p.1 = k →
      ∃ effect, exec p.2 s = .next (serve r.id k args effect s) := by
  intro p hm hk
  rcases List.mem_append.mp hm with hm | hm
  · obtain ⟨effect, he⟩ := exec_takes hp p hm
    refine ⟨effect, he.trans (congrArg _ ?_)⟩
    unfold take
    rw [ho]
    exact (if_pos hk.symm).trans (hk ▸ rfl)
  · obtain rfl : p = _ := List.mem_singleton.mp hm
    obtain rfl : 37 = k := hk
    have flavour : ∀ abort, (args.head? == some 1) = abort → ∀ effect,
        takeReset abort effect s = serve r.id 37 args effect s := fun abort ha effect => by
      unfold takeReset
      rw [ho]
      exact if_pos ⟨rfl, ha⟩
    by_cases ha : args.head? = some 1
    · rw [if_pos ha]
      exact ⟨_, (next_released hp _).trans (congrArg _ (flavour true (by simpa using ha) _))⟩
    · rw [if_neg ha]
      exact ⟨_, (next_released hp _).trans (congrArg _ (flavour false (by simpa using ha) _))⟩

/-- A refused request is answered, and nothing else changes. -/
theorem serve_refused {k : Nat} {res : Result} {effect : Nat → List Byte → State → State}
    (hc : takeCheck k args s = some res) (hres : res ≠ .done) (ha : s.link.state = .active)
    (hf : findRequest r.id s = some r) (ho : r.orphan = false) (hh : r.hold = none)
    (hr : ∀ c, s.mgu.coreReset = some c → c.request ≠ r.id) :
    serve r.id k args effect s = answered r res [] s := by
  unfold serve
  rw [hc]
  exact (answer_serving res [] ha hf ho hh hr).trans (by rw [if_neg hres])

/-- Which kinds HALTED does not refuse (T62). -/
theorem servedHalted_iff (k : Nat) (args : List Byte) : servedHalted k args = true ↔
    k ∈ [7, 25, 26, 31, 35, 36] ∨ (k = 37 ∧ args.head? = some 1) := by
  unfold servedHalted
  split <;> simp_all

end Sys2Proof.Machine

namespace Sys2Proof

open Machine

/-- Settles O33: the payload is laid out in runs of bytes, each read back on its own. -/
theorem statusRead : Obligations.StatusRead := by
  refine ⟨fun args s => ?_, fun args r s hT hS => ?_⟩
  · unfold takeCheck
    rw [if_neg (by simp), if_neg (by simp [servedHalted]), if_neg (show ¬args.length < argumentsNeeded 35 from Nat.not_lt_zero _)]
  refine ⟨statusPayload s, ?_, ?_⟩
  · refine taken_general hT rfl (u := s) ?_ rfl rfl rfl
    show answer r.id .done (statusPayload (setPhase r.id .serving s)) _ = answer r.id .done (statusPayload s) _
    rw [statusPayload_setPhase]
  have hl := statusRuns_lengths s

  have entries : s.rpq.entries.length ≤ 16 := hS.repairs.1
  have buffered : bufferCount s ≤ 32 := (bufferCount_eq s).trans_le hS.buffer.1
  obtain ⟨-, -, -, phase, -, -, -, -, mask, -⟩ := hS.settings
  obtain ⟨credit, lowest, limit⟩ := hS.credit
  rw [statusPayload_eq, ← bufferCount_eq]
  have table := byteAt_of_run (field_flatten hl 1 (k := 1) rfl rfl rfl)
  have index := byteAt_of_run (field_flatten hl 2 (k := 2) rfl rfl rfl)
  have places := field_flatten hl 9 (k := 18) rfl rfl rfl
  have codes := field_flatten hl 10 (k := 22) rfl rfl rfl
  have next := byteAt_of_run (field_flatten hl 13 (k := 29) rfl rfl rfl)
  refine ⟨length_flatten_runs hl rfl, flag_of_run (field_flatten hl 0 rfl rfl rfl), fun c hc => ?_, fun hc => ?_,
    byteAt_of_run (field_flatten hl 3 rfl rfl rfl), flag_of_run (field_flatten hl 4 rfl rfl rfl),
    fun q hq => byteAt_ranks (field_flatten hl 5 rfl rfl rfl) hq,
    fun q hq => byteAt_ranks (field_flatten hl 6 rfl rfl rfl) hq,
    fun q hq => (byteAt_ranks (field_flatten hl 7 rfl rfl rfl) hq).trans (markStateCode_eq s q),
    argument_of_field _ _ _ _ (field_flatten hl 8 rfl rfl rfl) (by omega), fun k hk => ?_, fun k hk => ?_,
    byteAt_of_run (field_flatten hl 11 rfl rfl rfl), byteAt_of_run (field_flatten hl 12 rfl rfl rfl), ?_,
    flag_of_run (field_flatten hl 14 rfl rfl rfl), argument_of_field _ _ _ _ (field_flatten hl 15 rfl rfl rfl) (by omega),
    argument_of_field _ _ _ _ (field_flatten hl 16 rfl rfl rfl) (by omega),
    argument_of_field _ _ _ _ (field_flatten hl 17 rfl rfl rfl) (by omega),
    flag_of_run (field_flatten hl 18 rfl rfl rfl), flag_of_run (field_flatten hl 19 rfl rfl rfl),
    (cursor_of_field (field_flatten hl 20 rfl rfl rfl)).1, (cursor_of_field (field_flatten hl 20 rfl rfl rfl)).2,
    argument_of_field _ _ _ _ (field_flatten hl 21 rfl rfl rfl) (by omega),
    argument_of_field _ _ _ _ (field_flatten hl 22 rfl rfl rfl) s.mgu.timeBase.isLt,
    argument_of_field _ _ _ _ (field_flatten hl 23 rfl rfl rfl) (by omega)⟩
  · rw [table, index, hc]
    exact ⟨rfl, rfl⟩
  · rw [table, index, hc]
    exact ⟨rfl, rfl⟩
  · have few : (s.rpq.entries.countP fun e => e.state.place = k) ≤ 16 := (List.countP_le_length).trans entries
    exact argument_of_byte (byteAt_ranks places hk) (by omega)
  · have few : (s.sls.slots.toList.countP fun x => x.code = BitVec.ofNat 8 k) ≤ 32 :=
      (List.countP_le_length).trans_eq (by simp)
    refine argument_of_byte ((byteAt_of_field codes hk).trans ?_) (by omega)
    match k, hk with
    | 0, _ => rfl
    | 1, _ => rfl
    | 2, _ => rfl
    | 3, _ => rfl
    | 4, _ => rfl
  · rw [next]
    cases s.fcu.next <;> decide

/-- Settles O32. -/
theorem counterAndTimeRead : Obligations.CounterAndTimeRead := by
  refine ⟨fun args r s => ⟨fun hT hB => ?_, fun hT => ?_⟩, fun q s => ⟨?_, ?_⟩⟩
  · have hl := counterRuns_lengths s.mgu.counters
    obtain ⟨ranks, lag, overruns, lost⟩ := hB
    refine ⟨counterPayload s.mgu.counters, taken_general hT rfl (u := s) rfl rfl rfl rfl, ?_⟩
    rw [counterPayload_eq]
    refine ⟨length_flatten_runs hl rfl, fun i => ?_,
      argument_of_field _ _ _ _ (field_flatten hl 12 rfl rfl rfl) lag,
      argument_of_field _ _ _ _ (field_flatten hl 13 rfl rfl rfl) overruns,
      argument_of_field _ _ _ _ (field_flatten hl 14 rfl rfl rfl) (by omega)⟩
    obtain ⟨corrected, ue, poisoned⟩ := ranks i
    refine ⟨argument_of_field _ _ _ _ ?_ corrected, argument_of_field _ _ _ _ ?_ ue,
      argument_of_field _ _ _ _ ?_ poisoned⟩
    · exact field_flatten hl i (by fin_cases i <;> rfl) (by fin_cases i <;> rfl) (by fin_cases i <;> rfl)
    · exact field_flatten hl (4 + i) (by fin_cases i <;> rfl) (by fin_cases i <;> rfl) (by fin_cases i <;> rfl)
    · exact field_flatten hl (8 + i) (by fin_cases i <;> rfl) (by fin_cases i <;> rfl) (by fin_cases i <;> rfl)
  · refine ⟨packed 6 s.mgu.timeBase.toNat, taken_general hT rfl (u := s) rfl rfl rfl rfl, length_packed _ _,
      argument_of_field _ _ _ _ ?_ s.mgu.timeBase.isLt⟩
    exact List.take_of_length_le (length_packed _ _).le
  · unfold countUe State.withCounters
    dsimp only
    rw [bump_eq]
  · unfold countPoisonedRead State.withCounters
    dsimp only
    rw [bump_eq]

/-- Settles O36. -/
theorem cursorAndRankReads : Obligations.CursorAndRankReads := by
  intro args r s hS
  obtain ⟨-, -, -, phase, -, -, -, -, mask, -⟩ := hS.settings
  obtain ⟨credit, lowest, limit⟩ := hS.credit
  refine ⟨fun hT => ⟨(cursorRuns s).flatten, ?_, ?_⟩, fun hT => ⟨(rankRuns s).flatten, ?_, ?_⟩⟩
  · exact taken_general hT rfl (u := s) (cursorRead_eq r.id args _) rfl rfl rfl
  · have hl := cursorRuns_lengths s
    exact ⟨length_flatten_runs hl rfl, (cursor_of_field (field_flatten hl 0 rfl rfl rfl)).1,
      (cursor_of_field (field_flatten hl 0 rfl rfl rfl)).2, flag_of_run (field_flatten hl 1 rfl rfl rfl),
      flag_of_run (field_flatten hl 2 rfl rfl rfl),
      argument_of_field _ _ _ _ (field_flatten hl 3 rfl rfl rfl) (by omega),
      argument_of_field _ _ _ _ (field_flatten hl 4 rfl rfl rfl) (by omega),
      flag_of_run (field_flatten hl 5 rfl rfl rfl), flag_of_run (field_flatten hl 6 rfl rfl rfl),
      argument_of_field _ _ _ _ (field_flatten hl 7 rfl rfl rfl) (by omega)⟩
  · refine taken_general hT rfl (u := s) (p := (rankRuns s).flatten) ?_ rfl rfl rfl
    rw [rankStatus_eq, rankRuns_serving hT hS.named]
  · have hl := rankRuns_lengths s
    obtain ⟨ranks, exponent, lanes⟩ := strap_numbers_small s.link.straps
    refine ⟨length_flatten_runs hl rfl, fun q hq => ⟨?_, ?_, ?_, ?_⟩,
      argument_of_byte (byteAt_of_run (field_flatten hl 7 rfl rfl rfl)) (by omega),
      argument_of_byte (byteAt_of_run (field_flatten hl 8 rfl rfl rfl)) (by omega),
      argument_of_byte (byteAt_of_run (field_flatten hl 9 rfl rfl rfl)) (by omega)⟩
    · have states := byteAt_ranks (field_flatten hl 0 (k := 0) rfl rfl rfl) hq
      rwa [Nat.zero_add] at states
    · rw [byteAt_ranks (field_flatten hl 1 (k := 4) rfl rfl rfl) hq]
      exact flagByte_iff _
    · refine argument_of_field_mod _ _ _ _ (field_flatten hl (2 + q) ?_ ?_ ?_) <;> interval_cases q <;> rfl
    · rw [argument_one, byteAt_ranks (field_flatten hl 6 (k := 24) rfl rfl rfl) hq]
      exact BitVec.toNat_ofNat _ _

/-- Settles O31. -/
theorem settingsTakeEffect : Obligations.SettingsTakeEffect := by
  refine ⟨fun args r s => ?_, fun kind level subject record s => ?_, fun _ _ _ => rfl, by decide, by decide⟩
  · have byte : ∀ i, (byteAt args i).toNat < 256 := fun i => (byteAt args i).isLt
    have two := argument_lt args 1 2
    have six := argument_lt args 0 6
    have region : clamp 1 7 (arg args 0) = max 1 (min 7 (byteAt args 0).toNat) := clamp_eq _ _ _ (by decide)
    have decay : clamp 0 255 (arg args 0) = (byteAt args 0).toNat := by
      have := byte 0
      rw [clamp_eq _ _ _ (by decide), arg]
      omega
    have probation : clamp 1 65535 (argument args 1 2) = max 1 (argument args 1 2) := by
      rw [clamp_eq _ _ _ (by decide)]
      omega
    have threshold : clamp 2 15 (arg args 0) = max 2 (min 15 (byteAt args 0).toNat) := clamp_eq _ _ _ (by decide)
    have mask : clamp 0 7 (arg args 0) = min 7 (byteAt args 0).toNat := by
      rw [clamp_eq _ _ _ (by decide), arg]
      omega
    have time : clamp 0 (2 ^ 48 - 1) (argument args 0 6) = argument args 0 6 := by
      rw [clamp_eq _ _ _ (by decide)]
      omega
    refine ⟨fun hT => ?_, fun hT => ?_, fun hT => ?_, fun hT => ?_, fun hT => ?_, fun hT => ?_⟩
    · rw [← region]
      exact taken_general hT rfl rfl rfl rfl rfl
    · rw [← decay, ← probation]
      exact taken_general hT rfl rfl rfl rfl rfl
    · rw [← threshold]
      exact taken_general hT rfl rfl rfl rfl rfl
    · rw [← mask]
      exact taken_general hT rfl rfl rfl rfl rfl
    · rw [← time]
      exact taken_general hT rfl rfl rfl rfl rfl
    · exact taken_general hT rfl rfl rfl rfl rfl
  · unfold raiseAt
    refine ⟨fun fails => if_neg fun h => fails ((raiseAt_passes level s).mp h), fun passes => ?_⟩
    rw [if_pos ((raiseAt_passes level s).mpr passes), pushUp]
    exact congrArg (fun l => { s with link := l }) (beginSending_eq
      (l := { s.link with upstream := s.link.upstream ++ [.alert kind level subject record s.mgu.timeBase] }) passes.1)

/-- Settles O39. -/
theorem takeChecksInOrder : Obligations.TakeChecksInOrder := by
  intro s hp
  refine ⟨fun p hm other => ?_, fun c hc other => ?_, fun r k args ho ha hf horphan hhold hreset => ⟨?_, ?_, ?_⟩⟩
  · obtain ⟨effect, he⟩ := exec_takes hp p hm
    rw [he, take_other other]
  · simp only [List.mem_cons, List.not_mem_nil, or_false] at hc
    rcases hc with rfl | rfl <;> exact (next_released hp _).trans (congrArg _ (takeReset_other other))
  · intro unknown
    refine (next_released hp _).trans (congrArg _ ?_)
    unfold takeUnknown
    rw [ho]
    exact (if_pos unknown).trans (answer_serving .unknown [] ha hf horphan hhold hreset)
  · intro low high
    refine (next_released hp _).trans (congrArg _ ?_)
    unfold takeUnknown
    rw [ho]
    exact if_neg (by omega)
  · intro p hm hk
    obtain ⟨effect, he⟩ := exec_serves hp ho p hm hk
    have refuses : ∀ res, takeCheck k args s = some res → res ≠ .done → exec p.2 s = .next (answered r res [] s) :=
      fun res hc hres => he.trans (congrArg _ (serve_refused hc hres ha hf horphan hhold hreset))
    refine ⟨fun busy hk35 => refuses .busy (if_pos ⟨busy, hk35⟩) (by decide), fun free halted hserved habort => ?_,
      fun free served short => ?_⟩
    · have refused : ¬servedHalted k args = true := fun h => ((servedHalted_iff k args).mp h).elim hserved habort
      refine refuses .halted ?_ (by decide)
      unfold takeCheck
      rw [if_neg (by simp [free]), if_pos ⟨halted, refused⟩]
    · refine refuses .range ?_ (by decide)
      unfold takeCheck
      rw [if_neg (by simp [free]), if_neg (by simp [served]), if_pos short]

/-- Settles O40. -/
theorem loadsReplaceTheirItem : Obligations.LoadsReplaceTheirItem := by
  intro args r s n
  refine ⟨fun hT => ⟨fun refused => ?_, fun cls hn hrank hdepth hcls => ?_⟩, fun hT => ⟨fun refused => ?_, fun fits => ?_⟩,
    fun hT => ?_, fun hT => ⟨fun h0 => ?_, fun h1 busy => ?_, fun h1 idle off => ?_, fun h1 idle on => ?_, fun h2 => ?_⟩⟩
  · refine taken_general hT rfl (u := s) (res := .range) (p := []) ?_ rfl rfl rfl
    unfold regionLoad
    cases hc : classOf (arg args 11) with
    | none => rfl
    | some cls =>
      have code := classOf_some hc
      refine if_pos ?_
      rcases refused with h | h | h | h
      · exact .inl h
      · exact .inr (.inl h)
      · exact .inr (.inr h)
      · exact absurd code (Nat.not_le.mpr h)
  · refine taken_general hT rfl (res := .done) (p := []) ?_ rfl rfl rfl
    unfold regionLoad
    rw [show classOf (arg args 11) = some cls by rw [arg, hcls]; cases cls <;> rfl]
    dsimp only
    rw [loadedRegion_eq]
    exact if_neg fun h => h.elim (fun h => absurd hn (Nat.not_le.mpr h))
      fun h => h.elim (fun h => absurd hrank (Nat.not_le.mpr h)) fun h => absurd hdepth (Nat.not_lt.mpr h)
  · refine taken_general hT rfl (u := s) (res := .range) (p := []) (if_pos ?_) rfl rfl rfl
    rw [injectionRefused_iff, loadedInjection_eq]
    exact refused
  · rw [← loadedInjection_eq]
    refine taken_general hT rfl (res := .done) (p := []) (if_neg ?_) rfl rfl rfl
    rw [injectionRefused_iff, loadedInjection_eq]
    exact fits
  · by_cases hn : 1 < n
    · rw [if_pos hn]
      exact taken_general hT rfl (u := s) (res := .range) (p := []) (if_pos hn) rfl rfl rfl
    · rw [if_neg hn]
      exact taken_general hT rfl (res := .done) (p := []) (if_neg hn) rfl rfl rfl
  · exact taken_general hT rfl (res := .done) (p := []) (loopSet_off h0) rfl rfl rfl
  · refine taken_general hT rfl (u := s) (res := .wrongState) (p := []) ?_ rfl rfl rfl
    have busy' : ranksIdle (setPhase r.id .serving s) = false := by
      rw [Bool.eq_false_iff]
      exact fun h => busy ((ranksIdle_iff s).mp h)
    rw [loopSet_on h1, busy']
    rfl
  · refine taken_general hT rfl (res := .done) (p := []) ?_ rfl rfl rfl
    have idle' : ranksIdle (setPhase r.id .serving s) = true := (ranksIdle_iff s).mpr idle
    have off' : (setPhase r.id .serving s).cod.loopLine = none := off
    rw [loopSet_on h1, encode_zeroLine, idle', off']
    rfl
  · refine taken_general hT rfl (u := s) (res := .done) (p := []) ?_ rfl rfl rfl
    have idle' : ranksIdle (setPhase r.id .serving s) = true := (ranksIdle_iff s).mpr idle
    have on' : (setPhase r.id .serving s).cod.loopLine.isSome = true := on
    rw [loopSet_on h1, idle', on']
    rfl
  · exact taken_general hT rfl (u := s) (res := .range) (p := []) (loopSet_other h2) rfl rfl rfl

end Sys2Proof
end
section
/-! The DRAM port: what waits, what the arbiter grants first, and what a grant makes of the port (R25, R32, R53, R80,
R84, R115, R145, R160, R163–R168). -/

namespace Sys2Proof.Machine

variable {s t u : State} {w : Waiting} {K : List Kind}

/-! ## What waits -/

/-- A waiting operation, by its requester. -/
inductive WaitsFor (s : State) : Waiting → Prop where
  | refresh (r : Nat) : r ∈ s.drp.refreshDue → WaitsFor s ⟨1, 0, .refresh, lineAt r 0, none⟩
  | retry (c : RetryContext) : s.fcu.halted = none → c ∈ s.fcu.contexts → atPort (.retryRead c.id) s = false →
      WaitsFor s ⟨2, c.id, .retryRead c.id, c.line, some c.cls⟩
  | visit (a : LineAddr) (c : Classification) : s.fcu.halted = none → waitingVisit s = some (a, c) →
      WaitsFor s ⟨if s.psc.steal = true ∧ s.drp.history = 7 then 3 else 7, 0, .visitRead false, a, some c⟩
  | read (q : Request) (a : LineAddr) : s.fcu.halted = none → q ∈ s.dem.requests → q.body.line? = some a →
      q.phase = .waitRead → WaitsFor s ⟨4, q.age, .demandRead q.id q.body.isMasked, a, q.cls⟩
  | write (q : Request) (a : LineAddr) (d : Line) (x : Status) : s.fcu.halted = none → q ∈ s.dem.requests →
      q.body.line? = some a → q.phase = .waitWrite d x → WaitsFor s ⟨4, q.age, .demandWrite q.id, a, q.cls⟩
  | retire (x : RetireWork) : s.fcu.halted = none → x ∈ s.sls.retires → atPort (.retireRead x.request) s = false →
      WaitsFor s ⟨4, x.age, .retireRead x.request, x.line, none⟩
  | repair (e : RepairEntry) : s.fcu.halted = none → e ∈ s.rpq.entries → e.state = .ready →
      WaitsFor s ⟨5, e.id, .repairWrite e.id, e.line, none⟩
  | verify (e : RepairEntry) : s.fcu.halted = none → e ∈ s.rpq.entries → e.state = .verifying →
      atPort (.verifyRead e.id) s = false → WaitsFor s ⟨5, e.id, .verifyRead e.id, e.line, none⟩
  | release (i : Nat) (a : LineAddr) (d : StoredLine) (m : TimeBase) (k : ReleaseWork) : s.fcu.halted = none → i < 32 →
      slotAt s i = .releasing a d m (some k) → atPort (.releaseWrite i k.age) s = false →
      WaitsFor s ⟨5, k.age, .releaseWrite i k.age, a, none⟩
  | fill (q : Nat) : s.fcu.halted = none → q < 4 → rankState s q = .filling → (rankRec s q).fillPosition < depth s →
      WaitsFor s ⟨6, fillTurn s q, .fillWrite, lineAt q (rankRec s q).fillPosition, none⟩

theorem mem_waiting_iff : w ∈ waiting s ↔ WaitsFor s w := by
  constructor
  · intro h
    rcases waiting_cases h with h | ⟨hh, h | h | ⟨q, hq, h⟩ | h | ⟨e, he, h⟩ | ⟨i, hi, h⟩ | ⟨q, hq, h⟩⟩
    · obtain ⟨r, hr, rfl⟩ := List.mem_map.mp h
      exact .refresh r hr
    · obtain ⟨c, hc, rfl⟩ := List.mem_map.mp h
      obtain ⟨hc, ha⟩ := List.mem_filter.mp hc
      exact .retry c hh hc (by simpa using ha)
    · unfold waitingVisits at h
      split at h
      · rename_i a c hv
        obtain rfl := List.mem_singleton.mp h
        exact .visit a c hh hv
      · cases h
    · unfold waitingDemand at h
      split at h
      · rename_i a hb hp
        obtain rfl := List.mem_singleton.mp h
        exact .read q a hh hq hb hp
      · rename_i a d x hb hp
        obtain rfl := List.mem_singleton.mp h
        exact .write q a d x hh hq hb hp
      · cases h
    · obtain ⟨x, hx, rfl⟩ := List.mem_map.mp h
      obtain ⟨hx, ha⟩ := List.mem_filter.mp hx
      exact .retire x hh hx (by simpa using ha)
    · unfold waitingRepair at h
      split at h
      · rename_i hs
        obtain rfl := List.mem_singleton.mp h
        exact .repair e hh he hs
      · rename_i hs
        split at h
        · cases h
        · rename_i ha
          obtain rfl := List.mem_singleton.mp h
          exact .verify e hh he hs (by simpa using ha)
      · cases h
    · unfold waitingRelease at h
      split at h
      · rename_i a d m k hs
        split at h
        · cases h
        · rename_i ha
          obtain rfl := List.mem_singleton.mp h
          exact .release i a d m k hh hi hs (by simpa using ha)
      · cases h
    · unfold waitingFill at h
      split at h
      · rename_i hf
        obtain rfl := List.mem_singleton.mp h
        exact .fill q hh hq hf.1 hf.2
      · cases h
  · intro h
    have outside : s.fcu.halted = none → waiting s =
        waitingRefreshes s ++ waitingRetries s ++ waitingVisits s ++ s.dem.requests.flatMap waitingDemand ++
          waitingRetires s ++ s.rpq.entries.flatMap (waitingRepair s) ++ (List.range 32).flatMap (waitingRelease s) ++
          (List.range 4).flatMap (waitingFill s) := fun hh => by
      unfold waiting
      rw [hh]
      rfl
    cases h with
    | refresh r hr =>
      have : (⟨1, 0, .refresh, lineAt r 0, none⟩ : Waiting) ∈ waitingRefreshes s := List.mem_map.mpr ⟨r, hr, rfl⟩
      unfold waiting
      split
      · exact this
      · simp only [List.mem_append, this, true_or]
    | retry c hh hc ha =>
      have : (⟨2, c.id, .retryRead c.id, c.line, some c.cls⟩ : Waiting) ∈ waitingRetries s :=
        List.mem_map.mpr ⟨c, List.mem_filter.mpr ⟨hc, by simp [ha]⟩, rfl⟩
      simp only [outside hh, List.mem_append, this, true_or, or_true]
    | visit a c hh hv =>
      have : (⟨if s.psc.steal = true ∧ s.drp.history = 7 then 3 else 7, 0, .visitRead false, a, some c⟩ : Waiting) ∈
          waitingVisits s := by
        unfold waitingVisits
        rw [hv]
        exact List.mem_singleton.mpr rfl
      simp only [outside hh, List.mem_append, this, true_or, or_true]
    | read q a hh hq hb hp =>
      have : (⟨4, q.age, .demandRead q.id q.body.isMasked, a, q.cls⟩ : Waiting) ∈
          s.dem.requests.flatMap waitingDemand := by
        refine List.mem_flatMap.mpr ⟨q, hq, ?_⟩
        unfold waitingDemand
        rw [hb, hp]
        exact List.mem_singleton.mpr rfl
      simp only [outside hh, List.mem_append, this, true_or, or_true]
    | write q a d x hh hq hb hp =>
      have : (⟨4, q.age, .demandWrite q.id, a, q.cls⟩ : Waiting) ∈ s.dem.requests.flatMap waitingDemand := by
        refine List.mem_flatMap.mpr ⟨q, hq, ?_⟩
        unfold waitingDemand
        rw [hb, hp]
        exact List.mem_singleton.mpr rfl
      simp only [outside hh, List.mem_append, this, true_or, or_true]
    | retire x hh hx ha =>
      have : (⟨4, x.age, .retireRead x.request, x.line, none⟩ : Waiting) ∈ waitingRetires s :=
        List.mem_map.mpr ⟨x, List.mem_filter.mpr ⟨hx, by simp [ha]⟩, rfl⟩
      simp only [outside hh, List.mem_append, this, true_or, or_true]
    | repair e hh he hs =>
      have : (⟨5, e.id, .repairWrite e.id, e.line, none⟩ : Waiting) ∈ s.rpq.entries.flatMap (waitingRepair s) := by
        refine List.mem_flatMap.mpr ⟨e, he, ?_⟩
        unfold waitingRepair
        rw [hs]
        exact List.mem_singleton.mpr rfl
      simp only [outside hh, List.mem_append, this, true_or, or_true]
    | verify e hh he hs ha =>
      have : (⟨5, e.id, .verifyRead e.id, e.line, none⟩ : Waiting) ∈ s.rpq.entries.flatMap (waitingRepair s) := by
        refine List.mem_flatMap.mpr ⟨e, he, ?_⟩
        unfold waitingRepair
        rw [hs, ha]
        exact List.mem_singleton.mpr rfl
      simp only [outside hh, List.mem_append, this, true_or, or_true]
    | release i a d m k hh hi hs ha =>
      have : (⟨5, k.age, .releaseWrite i k.age, a, none⟩ : Waiting) ∈ (List.range 32).flatMap (waitingRelease s) := by
        refine List.mem_flatMap.mpr ⟨i, List.mem_range.mpr hi, ?_⟩
        unfold waitingRelease
        rw [hs]
        dsimp only
        rw [ha]
        exact List.mem_singleton.mpr rfl
      simp only [outside hh, List.mem_append, this, true_or, or_true]
    | fill q hh hq hf hpos =>
      have : (⟨6, fillTurn s q, .fillWrite, lineAt q (rankRec s q).fillPosition, none⟩ : Waiting) ∈
          (List.range 4).flatMap (waitingFill s) := by
        refine List.mem_flatMap.mpr ⟨q, List.mem_range.mpr hq, ?_⟩
        unfold waitingFill
        rw [if_pos ⟨hf, hpos⟩]
        exact List.mem_singleton.mpr rfl
      simp only [outside hh, List.mem_append, this, or_true]

/-! ## The choice of the arbiter -/

/-- Of two that are level the earlier is chosen. -/
theorem firstWaiting_cons_of_not_before {x : Waiting} {l : List Waiting} (h : ∀ v ∈ l, ¬v.before x = true) :
    firstWaiting (x :: l) = some x := by
  unfold firstWaiting
  cases hf : firstWaiting l with
  | none => rfl
  | some v => exact if_neg (h v ((firstWaiting_spec l).2 v hf).1)

theorem WaitsFor.order_pos (h : WaitsFor s w) : 1 ≤ w.order := by
  cases h with
  | visit => dsimp only; split <;> decide
  | _ => exact Nat.succ_le_succ (Nat.zero_le _)

/-- A due refresh comes before all else, the first that fell due first. -/
theorem firstWaiting_refresh {r : Nat} {rest : List Nat} (h : s.drp.refreshDue = r :: rest) :
    firstWaiting (waiting s) = some ⟨1, 0, .refresh, lineAt r 0, none⟩ := by
  obtain ⟨l, hl⟩ : ∃ l, waiting s = ⟨1, 0, .refresh, lineAt r 0, none⟩ :: l := by
    have refreshes : waitingRefreshes s = ⟨1, 0, .refresh, lineAt r 0, none⟩ ::
        rest.map fun q => ⟨1, 0, .refresh, lineAt q 0, none⟩ := by
      unfold waitingRefreshes
      rw [h]
      rfl
    unfold waiting
    rw [refreshes]
    split
    · exact ⟨_, rfl⟩
    · exact ⟨_, rfl⟩
  rw [hl]
  refine firstWaiting_cons_of_not_before fun v hv hb => ?_
  have pos := (mem_waiting_iff.mp (show v ∈ waiting s from hl ▸ List.mem_cons_of_mem _ hv)).order_pos
  rw [before_iff] at hb
  dsimp only at hb
  omega

/-! ## The port and the history after a grant -/

theorem Moves.historyKept (m : Moves K s t) (h : .history ∉ K) : t.drp.history = s.drp.history := by
  induction m with
  | history _ hk => exact absurd hk h
  | retire => rw [retireEntry_eq]; assumption
  | handOff => rw [retireEntry_eq]; assumption
  | record _ _ x => cases x <;> assumption
  | release _ _ x => cases x <;> assumption
  | cameOnline _ _ r x _ _ ih => rw [withOnline_eq]; exact ih
  | leftOnline _ _ r x _ _ ih => rw [withOffline_eq]; exact ih
  | abort => rw [abortVisit_eq]; assumption
  | refl => rfl
  | _ => assumption

/-- The operation is at the port for this line, and the grant history is `n`. -/
def OccupiedBy (op : PortOp) (a : LineAddr) (n : Nat) (t : State) : Prop :=
  ∃ g, t.drp.port = some g ∧ g.op = op ∧ g.line = a ∧ g.overwritten = false ∧ t.drp.history = n

theorem occupiedBy_occupy (op : PortOp) (a : LineAddr) (c : Option Classification) (b : Option Burst) (u : State) :
    OccupiedBy op a u.drp.history (occupy op a c b u) := ⟨_, rfl, rfl, rfl, rfl, rfl⟩

theorem OccupiedBy.moves {op : PortOp} {a : LineAddr} {n : Nat} (h : OccupiedBy op a n u) (m : Moves K u t)
    (hg : .grant ∉ K) (hf : .finish ∉ K) (ha : .abort ∉ K) (hh : .history ∉ K) : OccupiedBy op a n t := by
  obtain ⟨g, hp, ho, hl, hov, hn⟩ := h
  exact ⟨g, (m.port hg hf ha).trans hp, ho, hl, hov, (m.historyKept hh).trans hn⟩

theorem occupiedBy_grantWrite (op : PortOp) (a : LineAddr) (d : Line) (b : Bool) {n : Nat} (h : u.drp.history = n) :
    OccupiedBy op a n (grantWrite op a d b u) := by
  have kept := (moves_formWrite a d b u).historyKept (by decide)
  unfold grantWrite
  rw [← h, ← kept]
  exact occupiedBy_occupy ..

theorem RepairQueueFits.findEntry_of_mem (h : RepairQueueFits s) {e : RepairEntry} (he : e ∈ s.rpq.entries) :
    findEntry e.id s = some e := by
  cases hf : findEntry e.id s with
  | none => exact absurd (List.find?_eq_none.mp hf e he) (by simp)
  | some x =>
    obtain ⟨hx, hid⟩ := findEntry_some hf
    rw [h.eq_of_id hx he hid]

/-- The granted operation is the one at the port, whatever it is. -/
theorem occupiedBy_grantOp (n : Nat) (hw : WaitsFor s w) (hn : RequestsNamed s) (hq : RepairQueueFits s) :
    OccupiedBy w.op w.line n (grantOp w { s with drp := { s.drp with history := n } }) := by
  cases hw with
  | refresh r hr => exact ⟨_, rfl, rfl, rfl, rfl, rfl⟩
  | retry c hh hc ha => exact occupiedBy_occupy ..
  | visit a c hh hv =>
    show OccupiedBy _ _ _ (grantVisit a (some c) _)
    unfold grantVisit
    exact (((occupiedBy_occupy ..).moves (moves_advanceCursor _ _) (by decide) (by decide) (by decide) (by decide)).moves
      (moves_evalSteal _) (by decide) (by decide) (by decide) (by decide)).moves (moves_patrolProceeds _) (by decide)
      (by decide) (by decide) (by decide)
  | read q a hh hq hb hp => exact occupiedBy_occupy ..
  | write q a d x hh hq hb hp =>
    show OccupiedBy _ _ _ (grantDemandWrite q.id a _)
    unfold grantDemandWrite
    rw [show findRequest q.id { s with drp := { s.drp with history := n } } = some q from find_of_nodup hn.1 hq]
    dsimp only
    rw [hp]
    exact occupiedBy_grantWrite _ _ _ _ rfl
  | retire x hh hx ha => exact occupiedBy_occupy ..
  | repair e hh he hs =>
    show OccupiedBy _ _ _ (grantRepair e.id e.line _)
    unfold grantRepair
    rw [show findEntry e.id { s with drp := { s.drp with history := n } } = some e from hq.findEntry_of_mem he]
    exact occupiedBy_grantWrite _ _ _ _ rfl
  | verify e hh he hs ha => exact occupiedBy_occupy ..
  | release i a d m k hh hi hs ha =>
    show OccupiedBy _ _ _ (grantRelease i k.age a _)
    have data : ∀ v : State, slotAt v i = .releasing a d m (some k) → (slotAt v i).data? = some d := fun v hv => by
      rw [hv]
      rfl
    unfold grantRelease readSlot
    rw [data { s with drp := { s.drp with history := n } } hs]
    dsimp only
    cases d.storage with
    | sound => exact occupiedBy_grantWrite _ _ _ _ rfl
    | singleBit => exact occupiedBy_grantWrite _ _ _ _ (by rw [raise_drp]; rfl)
    | uncorrectable =>
      dsimp only
      rw [data { s with drp := { s.drp with history := n } } hs]
      exact (occupiedBy_grantWrite _ _ _ _ rfl).moves (moves_slotDataLost ..) (by decide) (by decide) (by decide) (by decide)
  | fill q hh hq hf hpos =>
    obtain ⟨g, hp, ho, hl, hov, hn⟩ := occupiedBy_grantWrite .fillWrite (lineAt q (rankRec s q).fillPosition) zeroLine
      false (u := { s with drp := { s.drp with history := n } }) (n := n) rfl
    exact ⟨g, hp, ho, hl, hov, hn⟩

end Sys2Proof.Machine

namespace Sys2Proof

open Machine

/-- Settles O20: `WaitsFor` says what waits, the arbiter takes the first of it, and every grant leaves that operation at
the port. -/
theorem firstWaitingOperationIsGranted : Obligations.FirstWaitingOperationIsGranted := by
  refine ⟨fun s hp hn hq hport some => ?_, fun s => ⟨?_, ?_, ?_⟩⟩
  · obtain ⟨w, hw⟩ : ∃ w, firstWaiting (waiting s) = .some w :=
      Option.ne_none_iff_exists'.mp fun h => some ((firstWaiting_none _).mp h)
    obtain ⟨hmem, hfirst⟩ := (firstWaiting_spec (waiting s)).2 w hw
    have waits := mem_waiting_iff.mp hmem
    obtain ⟨g, hg, hop, hline, hov, hist⟩ :=
      occupiedBy_grantOp (historyAfter s.fcu.halted.isSome w.op s.drp.history) waits hn hq
    refine ⟨w, hmem, hfirst, grant w s, g, (next_released hp _).trans ?_, hg, hop, hline, hov, hist, fun isRefresh => ?_,
      fun v hv => ?_⟩
    · rw [arbiterGrants_first hport hw]
    · cases waits with
      | refresh r hr =>
        cases hd : s.drp.refreshDue with
        | nil => simp [hd] at hr
        | cons r' rest =>
          have first := hw.symm.trans (firstWaiting_refresh hd)
          exact ⟨r', rest, rfl, congrArg Waiting.line (Option.some.inj first)⟩
      | _ => cases isRefresh
    · cases mem_waiting_iff.mp hv with
      | refresh r hr => rfl
      | retry c hh hc ha => exact ⟨rfl, rfl⟩
      | visit a c hh hv => rfl
      | read q a hh hq hb hp => exact ⟨rfl, q, hq, rfl, rfl⟩
      | write q a d x hh hq hb hp => exact ⟨rfl, q, hq, rfl, rfl⟩
      | retire x hh hx ha => exact ⟨rfl, x, hx, rfl, rfl⟩
      | repair e hh he hs => exact ⟨rfl, rfl⟩
      | verify e hh he hs ha => exact ⟨rfl, rfl⟩
      | release i a d m k hh hi hs ha => exact ⟨rfl, rfl⟩
      | fill q hh hq hf hpos =>
        refine ⟨rfl, ?_⟩
        rw [rankOf_lineAt (by omega)] <;> rfl
  · exact fun r hr => ⟨_, mem_waiting_iff.mpr (.refresh r hr), rfl, rfl⟩
  · intro halted w hw
    cases mem_waiting_iff.mp hw with
    | refresh => rfl
    | _ => simp_all
  · intro hh
    refine ⟨fun q hq a hb => ⟨fun hp hm => ?_, fun hp hm => ?_, fun d x hp => ?_⟩, fun c hc ha => ?_, fun x hx ha => ?_,
      fun e he => ⟨fun hs => ?_, fun hs ha => ?_⟩, fun i hi a d m k hs ha => ?_, fun q hq hf hpos => ?_,
      fun a cls hc hph hcr hr hal => ?_⟩
    · refine ⟨_, mem_waiting_iff.mpr (.read q a hh hq hb hp), ?_, rfl⟩
      have : q.body.isMasked = false := by
        cases body : q.body with
        | maskedWrite b mask data =>
          rw [body] at hb
          obtain rfl : b = a := Option.some.inj hb
          exact absurd body (hm mask data)
        | _ => rfl
      rw [this]
    · refine ⟨_, mem_waiting_iff.mpr (.read q a hh hq hb hp), ?_, rfl⟩
      obtain ⟨mask, data, hm⟩ := hm
      rw [hm]
      rfl
    · exact ⟨_, mem_waiting_iff.mpr (.write q a d x hh hq hb hp), rfl, rfl⟩
    · exact ⟨_, mem_waiting_iff.mpr (.retry c hh hc ha), rfl, rfl⟩
    · exact ⟨_, mem_waiting_iff.mpr (.retire x hh hx ha), rfl, rfl⟩
    · exact ⟨_, mem_waiting_iff.mpr (.repair e hh he hs), rfl, rfl⟩
    · exact ⟨_, mem_waiting_iff.mpr (.verify e hh he hs ha), rfl, rfl⟩
    · exact ⟨_, mem_waiting_iff.mpr (.release i a d m k hh hi hs ha), rfl, rfl⟩
    · exact ⟨_, mem_waiting_iff.mpr (.fill q hh hq hf hpos), rfl, rfl⟩
    · have visits : waitingVisit s = some (a, cls) := by
        unfold waitingVisit
        rw [hc, hph]
        exact if_pos ⟨hcr, hr, hal, by rw [hh]; rfl⟩
      exact ⟨_, mem_waiting_iff.mpr (.visit a cls hh visits), rfl, rfl⟩

/-- Settles O21. -/
theorem readIsGranted : Obligations.ReadIsGranted := by
  refine fun s hp => ⟨fun h => (next_released hp _).trans (congrArg _ ?_), fun w hport hw => ?_⟩
  · unfold arbiterGrants
    rcases h with busy | idle
    · obtain ⟨g, hg⟩ := Option.isSome_iff_exists.mp busy
      rw [hg]
    · rw [idle]
      cases s.drp.port <;> rfl
  have granted : exec .arbiterGrant s = .next (grant w s) := by
    rw [← arbiterGrants_first hport hw]
    exact next_released hp _
  have waits := mem_waiting_iff.mp ((firstWaiting_spec (waiting s)).2 w hw).1
  refine ⟨fun id rmw hop => ?_, fun id hop => ?_⟩
  · cases waits with
    | read q a hh hq hb hph =>
      rw [granted]
      unfold grant
      rw [hh]
      cases hop
      rfl
    | _ => cases hop
  · cases waits with
    | retry c hh hc ha =>
      rw [granted]
      unfold grant
      rw [hh]
      rfl
    | retire x hh hx ha =>
      rw [granted]
      unfold grant
      rw [hh]
      rfl
    | verify e hh he hs ha =>
      rw [granted]
      unfold grant
      rw [hh]
      rfl
    | _ => rcases hop with h | h | h <;> cases h

/-- Settles O24. -/
theorem haltedGrantsRefreshesOnly : Obligations.HaltedGrantsRefreshesOnly := by
  intro s hp hh hport
  refine ⟨fun h => (next_released hp _).trans (congrArg _ ?_), fun r rest h hr => (next_released hp _).trans
    (congrArg _ ?_)⟩
  · have none : waiting s = [] := by
      unfold waiting waitingRefreshes
      rw [if_pos hh, h]
      rfl
    unfold arbiterGrants
    rw [hport, none]
    rfl
  · rw [arbiterGrants_first hport (firstWaiting_refresh h)]
    unfold grant
    rw [hh]
    show grantRefresh (lineAt r 0) _ = _
    unfold grantRefresh
    rw [rankOf_lineAt (by omega)]
    dsimp only
    rw [h, List.erase_cons_head]
    rfl

/-- Settles O25. -/
theorem refreshFallsDueAndFinishes : Obligations.RefreshFallsDueAndFinishes := by
  refine fun s hp => ⟨fun r => next_released hp _, fun g hg ho => (next_released hp _).trans (congrArg _ ?_),
    fun hn => (next_released hp _).trans (congrArg _ ?_), fun g hg ho hq => (next_released hp _).trans (congrArg _ ?_)⟩
  all_goals unfold refreshFinishes
  · rw [hg]
    exact if_neg ho
  · rw [hn]
  · rw [hg]
    exact (if_pos ho).trans (settle_quiet (s := freePort s) hq)

end Sys2Proof
end
section
/-! Granted DRAM writes: what is formed, and what a release write makes of the slot's data (R1, R4, R5, R6, R16, R33, R59,
R84, R86, R87, R116, R160). -/

namespace Sys2Proof.Machine

variable {s t u : State} {a : LineAddr}

/-! ## Captures in sound records -/

/-- With no error armed for a check-back, a capture is its placement and its report (R124, R125). -/
theorem capture_ready (h : RecordsReady s) (c : Capture) (report : Option RecordName → State → State) :
    capture c report s = report (placeCapture c s).1 (placeCapture c s).2 := by
  show haltIf (captureFailed (placeCapture c s).1 (placeCapture c s).2) _ = _
  rw [captureFailed_ready _ h]
  rfl

theorem slotDataLost_ready (h : RecordsReady s) (region : Option Nat) (held : Option (ByteMask × Line)) :
    slotDataLost a region held s = slotLost a region held s := capture_ready h _ _

/-! ## Events beside changes that they do not see -/

theorem raiseAt_link_congr {k : EventKind} {n : Nat} {x : Subject} {y : Option RecordName} (hl : t.link = s.link)
    (hd : t.dem = s.dem) (hm : t.mgu = s.mgu) : (raiseAt k n x y t).link = (raiseAt k n x y s).link := by
  have same : (eventPasses n t && alertTaken n t) = (eventPasses n s && alertTaken n s) := by
    unfold eventPasses alertTaken roomClaims
    rw [hl, hd, hm]
  unfold raiseAt
  rw [same]
  split
  · show beginSending { t.link with upstream := t.link.upstream ++ [.alert k n x y t.mgu.timeBase] } = _
    rw [hl, hm]
    rfl
  · exact hl

/-! ## Slots read with their check -/

theorem readSlot_sound {i : Nat} {d : StoredLine} (h : (slotAt s i).data? = some d) (hd : d.storage = .sound) :
    readSlot i s = (some d.data, s) := by
  unfold readSlot
  rw [h]
  dsimp only
  rw [hd]

theorem readSlot_singleBit {i : Nat} {d : StoredLine} (h : (slotAt s i).data? = some d) (hd : d.storage = .singleBit) :
    readSlot i s = (some d.data, raise .internalCorrected (.table .spare i)
      (setSlot i ((slotAt s i).withData ⟨d.data, .sound, zeroLine⟩) s)) := by
  unfold readSlot
  rw [h]
  dsimp only
  rw [hd]
  rfl

theorem readSlot_uncorrectable {i : Nat} {d : StoredLine} (h : (slotAt s i).data? = some d)
    (hd : d.storage = .uncorrectable) : readSlot i s = (none, s) := by
  unfold readSlot
  rw [h]
  dsimp only
  rw [hd]

theorem data_of_releasing {i : Nat} {b : LineAddr} {d : StoredLine} {m : TimeBase} {k : Option ReleaseWork}
    (h : slotAt s i = .releasing b d m k) : (slotAt s i).data? = some d := by
  rw [h]
  rfl

/-! ## Beats -/

theorem bytes_inj {a b c e : Byte} (h : (a ++ b : Sym) = c ++ e) : a = c ∧ b = e :=
  ⟨by rw [← (byte_of_symbol a b).1, h, (byte_of_symbol c e).1],
    by rw [← (byte_of_symbol a b).2, h, (byte_of_symbol c e).2]⟩

/-! ## The write at its grant -/

theorem grantWrite_link (op : PortOp) (a : LineAddr) (d : Line) (b : Bool) (u : State) :
    (grantWrite op a d b u).link = u.link := by
  obtain ⟨-, -, v, hv⟩ := inject_spec a (if b then poison (encode d) else encode d) u
  show (inject a (if b then poison (encode d) else encode d) u).2.link = u.link
  rw [hv]

theorem grantWrite_records (op : PortOp) (a : LineAddr) (d : Line) (b : Bool) (u : State) (x : RecordName) :
    recordAt (grantWrite op a d b u) x = recordAt u x := by
  obtain ⟨-, -, v, hv⟩ := inject_spec a (if b then poison (encode d) else encode d) u
  have records : ∀ y : State, y.fcu.recordA = u.fcu.recordA → y.fcu.recordB = u.fcu.recordB →
      recordAt y x = recordAt u x := fun y ha hb => by
    cases x
    · exact ha
    · exact hb
  refine records _ ?_ ?_
  · show (inject a (if b then poison (encode d) else encode d) u).2.fcu.recordA = _
    rw [hv]
  · show (inject a (if b then poison (encode d) else encode d) u).2.fcu.recordB = _
    rw [hv]

/-- The write at the port of `t`: the line `base` with the injection entries of `s` applied, sent in eight beats; the
entries are counted down, and ungranted patrol retries of the line withdrawn (R5, R16, R116). -/
def WriteFormed (op : PortOp) (a : LineAddr) (s : State) (base : RawLine) (t : State) : Prop :=
  ∃ beats : Burst, t.drp.port = some ⟨op, a, none, some beats, false⟩ ∧
    (∀ (j : Fin 4) (d : Fin 10), (beats[2 * j.val][d] ++ beats[2 * j.val + 1][d] : Sym) =
      base[j][d] ^^^ injected a s 0 j d ^^^ injected a s 1 j d) ∧
    (∀ i < 2, getAt t.cod.injections i none = spent a s i) ∧
    t.fcu.contexts = s.fcu.contexts.filter fun c => !(c.work == .patrol && c.line == a)

theorem grantWrite_formed (op : PortOp) (a : LineAddr) (d : Line) (b : Bool) (hp : u.drp.port = none)
    (hc : u.cod = s.cod) (hf : u.fcu = s.fcu) :
    WriteFormed op a s (if b then poison (encode d) else encode d) (grantWrite op a d b u) := by
  obtain ⟨⟨raw, port, symbols, entries, contexts⟩, -⟩ := grantWrite_spec op a d b u hp
  have inj : ∀ i j x, injected a u i j x = injected a s i j x := fun i j x => by
    unfold injected
    rw [hc]
  have sp : ∀ i, spent a u i = spent a s i := fun i => by
    unfold spent
    rw [hc]
  refine ⟨onBeats raw, port, fun j x => ?_, fun i hi => (entries i hi).trans (sp i), hf ▸ contexts⟩
  rw [← fromBeats_get, fromBeats_onBeats, symbols, inj, inj]

/-- The data bytes stand in the beats two devices' symbols apart, the high byte in the even beat (T95). -/
theorem dataBeat (data : Line) (b : Fin 8) (d : Fin 8) :
    (onBeats (encode data))[b][d.val] = data[16 * (b.val / 2) + 2 * d.val + b.val % 2] := by
  have hj : b.val / 2 < 4 := by omega
  have symbol : getAt (getAt (encode data) (b.val / 2) (Vector.replicate 10 0)) d.val 0 =
      dataSymbol data (b.val / 2) d.val := by
    rw [getAt_of_lt _ _ hj, getAt_of_lt _ _ (show d.val < 10 by omega)]
    simp [encode, encodeCodeword, d.isLt]
  have bytes := symbol_of_bytes (dataSymbol data (b.val / 2) d.val)
  obtain ⟨high, low⟩ := bytes_inj bytes
  show (onBeats (encode data))[b.val][d.val] = _
  unfold onBeats
  rw [Vector.getElem_ofFn, Vector.getElem_ofFn]
  dsimp only
  rw [symbol]
  split
  · rename_i even
    rw [high, getAt_of_lt _ _ (by omega)]
    simp [even]
  · rename_i odd
    rw [low, getAt_of_lt _ _ (by omega)]
    simp [show b.val % 2 = 1 by omega]

end Sys2Proof.Machine

namespace Sys2Proof

open Machine

/-- Settles O22. -/
theorem writeIsFormedAtItsGrant : Obligations.WriteIsFormedAtItsGrant := by
  refine ⟨fun data b d => ?_, fun s w hp hport hw => ?_⟩
  · exact dataBeat data b d
  have granted : exec .arbiterGrant s = .next (grant w s) := by
    rw [← arbiterGrants_first hport hw]
    exact next_released hp _
  rw [granted]
  unfold grant grantOp
  generalize historyAfter s.fcu.halted.isSome w.op s.drp.history = n
  refine ⟨fun id r data status hop hf hph => ?_, fun id e hop hf => ?_, fun i age b d time work hop hs =>
    ⟨fun hd => ?_, fun hd => ?_, fun hd ready => ?_⟩, fun hop hr => ?_⟩
  all_goals rw [hop]; dsimp only
  · unfold grantDemandWrite
    rw [show findRequest id { s with drp := { s.drp with history := n } } = some r from hf]
    dsimp only
    rw [hph]
    refine ⟨_, rfl, grantWrite_formed _ _ _ false hport rfl rfl, ?_⟩
    rw [(grantWrite_spec _ _ _ _ _ (by exact hport)).2.1]
    rfl
  · unfold grantRepair
    rw [show findEntry id { s with drp := { s.drp with history := n } } = some e from hf]
    refine ⟨_, rfl, ?_, ?_⟩
    · have formed := grantWrite_formed (s := s) (u := updateEntry id (fun x => { x with state := .writing })
        { s with drp := { s.drp with history := n } }) (.repairWrite id) w.line e.data (e.kind == .poison) hport rfl rfl
      simp only [beq_iff_eq] at formed
      exact formed
    · rw [(grantWrite_spec _ _ _ _ _ (by exact hport)).2.2.1]
      rfl
  · unfold grantRelease
    rw [readSlot_sound (s := { s with drp := { s.drp with history := n } }) (data_of_releasing hs) hd]
    refine ⟨_, rfl, grantWrite_formed _ _ _ false hport rfl rfl, ?_⟩
    rw [(grantWrite_spec _ _ _ _ _ (by exact hport)).2.2.2.1]
  · unfold grantRelease
    rw [readSlot_singleBit (s := { s with drp := { s.drp with history := n } }) (data_of_releasing hs) hd]
    refine ⟨_, rfl, grantWrite_formed _ _ _ false (by rw [raise_drp]; exact hport) (by rw [raise_cod]; rfl)
      (by rw [raise_fcu]; rfl), ?_, ?_⟩
    · rw [(grantWrite_spec _ _ _ _ _ (by rw [raise_drp]; exact hport)).2.2.2.1, raise_sls,
        show slotAt { s with drp := { s.drp with history := n } } i = .releasing b d time work from hs]
      rfl
    · rw [grantWrite_link]
      exact raiseAt_link_congr rfl rfl rfl
  · unfold grantRelease
    rw [readSlot_uncorrectable (s := { s with drp := { s.drp with history := n } }) (data_of_releasing hs) hd]
    dsimp only
    rw [data_of_releasing (s := { s with drp := { s.drp with history := n } }) hs]
    dsimp only
    have stored : d.asStored = Vector.ofFn fun k => d.data[k] ^^^ d.flips[k] := by
      unfold StoredLine.asStored
      rw [hd]
    refine ⟨_, congrArg _ (slotDataLost_ready ?_ _ _), ?_, ?_, grantWrite_link _ _ _ _ _⟩
    · intro x
      rw [grantWrite_records]
      exact ready x
    · rw [← stored]
      exact grantWrite_formed _ _ _ true hport rfl rfl
    · exact (grantWrite_spec _ _ _ _ _ (by exact hport)).2.2.2.1
  · unfold grantFill
    have formed := grantWrite_formed (s := s) (u := { s with drp := { s.drp with history := n } }) .fillWrite w.line
      zeroLine false hport rfl rfl
    have ranks := (grantWrite_spec .fillWrite w.line zeroLine false { s with drp := { s.drp with history := n } }
      hport).2.2.2.2
    refine ⟨_, rfl, formed, ?_, rfl⟩
    refine (rankRec_setRank (grantWrite .fillWrite w.line zeroLine false _) (rankOf w.line) (rankOf w.line) _).trans ?_
    rw [if_pos ⟨rfl, hr⟩, ranks]
    rfl

end Sys2Proof
end

section
/-! What the decode makes of an encoded line with the errors of one device, and of a line in poison form: the
syndromes are sums, so that of the encoded codeword drops out, and the weights tell the devices apart
(R3, R4, R6, R7, R9–R12). -/

namespace Sys2Proof.Machine

variable {a : LineAddr} {source : ReadSource} {mark : Option (Fin 10)} {cls : Option Classification}
  {overwritten : Bool} {raw : RawLine} {data : Line} {d : Fin 10} {e : Sym} {w : Codeword}

/-! ## One wrong symbol -/

/-- A codeword of an encoded line with the pattern `e` on device `d`. -/
def disturbed (data : Line) (j : Nat) (d : Fin 10) (e : Sym) : Codeword :=
  sumWords (encodeCodeword data j) (errorWord d e)

theorem syndromeZero_disturbed (j : Nat) : syndromeZero (disturbed data j d e) = e := by
  rw [disturbed, syndromeZero_sum, syndromeZero_encode, syndromeZero_error]
  exact BitVec.zero_xor

theorem syndromeOne_disturbed (j : Nat) :
    syndromeOne (disturbed data j d e) = fieldMul (deviceWeight d.val) e := by
  rw [disturbed, syndromeOne_sum, syndromeOne_encode, syndromeOne_error]
  exact BitVec.zero_xor

/-- The syndromes of one wrong symbol name its device. -/
theorem find_device (he : e ≠ 0) :
    ((List.finRange 10).find? fun k => fieldMul (deviceWeight d.val) e = fieldMul (deviceWeight k.val) e)
      = some d := by
  cases h : (List.finRange 10).find? fun k =>
      fieldMul (deviceWeight d.val) e = fieldMul (deviceWeight k.val) e with
  | none => simpa using List.find?_eq_none.mp h d (List.mem_finRange d)
  | some k =>
    have hk : fieldMul (deviceWeight d.val) e = fieldMul (deviceWeight k.val) e := by
      simpa using List.find?_some h
    rw [weight_injective he hk]

theorem outcomeUnmarked_disturbed (j : Nat) :
    outcomeOf none (disturbed data j d e) = if e = 0 then .clean else .fixed d e := by
  rw [outcomeOf, syndromeZero_disturbed, syndromeOne_disturbed, outcomeUnmarked]
  by_cases he : e = 0
  · subst he
    simp [fieldMul_zero_right]
  · rw [find_device he, if_neg (he ·.1), if_neg (he ·.1), if_neg he, if_neg he]

theorem outcomeMarked_disturbed (j : Nat) :
    outcomeOf (some d) (disturbed data j d e) = .filled e := by
  rw [outcomeOf, syndromeZero_disturbed, syndromeOne_disturbed, outcomeMarked]
  have notPoison : ¬(e = 0 ∧ fieldMul (deviceWeight d.val) e = Config.poisonSyndrome) := by
    rintro ⟨rfl, h⟩
    exact absurd ((fieldMul_zero_right _).symm.trans h) (by decide)
  exact (if_neg notPoison).trans (if_pos rfl)

/-- The pattern XOR-ed into its symbol once more takes the error away. -/
theorem disturbed_undone (j : Nat) :
    (disturbed data j d e).set d ((disturbed data j d e)[d] ^^^ e) = encodeCodeword data j := by
  apply Vector.ext
  intro k hk
  by_cases h : d.val = k
  · subst h
    simp [disturbed, sumWords, errorWord]
  · have h' : (⟨k, hk⟩ : Fin 10) ≠ d := fun he => h (congrArg Fin.val he).symm
    simp [disturbed, sumWords, errorWord, h, h']

theorem disturbed_zero (j : Nat) : disturbed data j d 0 = encodeCodeword data j := by
  apply Vector.ext
  intro k hk
  simp [disturbed, sumWords, errorWord]

theorem correctedUnmarked_disturbed (j : Nat) :
    correctedCodeword none (outcomeOf none (disturbed data j d e)) (disturbed data j d e)
      = encodeCodeword data j := by
  rw [outcomeUnmarked_disturbed]
  by_cases he : e = 0
  · subst he
    exact disturbed_zero j
  · rw [if_neg he]
    exact disturbed_undone j

theorem correctedMarked_disturbed (j : Nat) :
    correctedCodeword (some d) (outcomeOf (some d) (disturbed data j d e)) (disturbed data j d e)
      = encodeCodeword data j := by
  rw [outcomeMarked_disturbed]
  exact disturbed_undone j

/-! ## The line -/

/-- An encoded line with the patterns of `error` on device `d`, codeword by codeword. -/
theorem raw_eq_disturbed (error : Fin 4 → Sym) :
    (Vector.ofFn fun j : Fin 4 => Vector.ofFn fun k : Fin 10 =>
      if k = d then (encode data)[j][k] ^^^ error j else (encode data)[j][k] : RawLine)
      = Vector.ofFn fun j : Fin 4 => disturbed data j.val d (error j) := by
  apply Vector.ext
  intro j hj
  apply Vector.ext
  intro k hk
  by_cases h : (⟨k, hk⟩ : Fin 10) = d
  · simp [disturbed, sumWords, errorWord, encode, h]
  · simp [disturbed, sumWords, errorWord, encode, h]

/-- Codewords that are corrected to the encoded ones give the line back. -/
theorem dataBytes_corrected
    (h : ∀ j : Fin 4, correctedCodeword mark (outcomeOf mark raw[j]) raw[j] = encodeCodeword data j.val) :
    (decodeLine a source mark cls overwritten raw).corrected = data := by
  have hraw : correctedRaw mark raw = encode data := by
    apply Vector.ext
    intro j hj
    simpa [correctedRaw, encode] using h ⟨j, hj⟩
  have : (decodeLine a source mark cls overwritten raw).corrected = dataBytes (correctedRaw mark raw) := rfl
  rw [this, hraw, dataBytes_encode]

theorem outcomes_decodeLine (j : Fin 4) :
    (decodeLine a source mark cls overwritten raw).outcomes[j] = outcomeOf mark raw[j] := by
  simp [decodeLine, outcomesOf]

/-- With no codeword lost, the line is CORRECTED where some codeword was and CLEAN where none was. -/
theorem verdict_of_none_lost
    (h : ∀ j : Fin 4, outcomeOf mark raw[j] ≠ .uncorrectable ∧ outcomeOf mark raw[j] ≠ .poisonMark) :
    (decodeLine a source mark cls overwritten raw).verdict
      = if ∃ j : Fin 4, (outcomeOf mark raw[j]).isCorrection = true then .corrected else .clean := by
  obtain ⟨-, -, corrected, clean⟩ := lineVerdictByTheFirstCase.1 a source mark cls overwritten raw
  simp only [outcomes_decodeLine, ← isCorrection_iff] at corrected clean
  have notPoisoned : ¬∃ i j : Fin 4,
      i ≠ j ∧ outcomeOf mark raw[i] = .poisonMark ∧ outcomeOf mark raw[j] = .poisonMark :=
    fun ⟨i, _, _, hi, _⟩ => (h i).2 hi
  have notLost : ¬∃ j : Fin 4, outcomeOf mark raw[j] = .uncorrectable ∨ outcomeOf mark raw[j] = .poisonMark :=
    fun ⟨j, hj⟩ => hj.elim (h j).1 (h j).2
  split
  · next hm => exact corrected notPoisoned notLost hm
  · next hm => exact clean notPoisoned notLost hm

/-- A line each of whose codewords is a poison mark is POISONED. -/
theorem verdict_of_all_poison (h : ∀ j : Fin 4, outcomeOf mark raw[j] = .poisonMark) :
    (decodeLine a source mark cls overwritten raw).verdict = .poisoned := by
  obtain ⟨poisoned, -⟩ := lineVerdictByTheFirstCase.1 a source mark cls overwritten raw
  simp only [outcomes_decodeLine] at poisoned
  exact poisoned ⟨0, 1, by decide, h 0, h 1⟩

/-! ## The poison form -/

/-- What the poison form adds to a codeword: the poison constant at both check symbols. -/
def poisonWord : Codeword := sumWords (errorWord 8 Config.poisonConstant) (errorWord 9 Config.poisonConstant)

theorem poison_encode_eq (j : Fin 4) :
    (poison (encode data))[j] = sumWords (encodeCodeword data j.val) poisonWord := by
  apply Vector.ext
  intro k hk
  interval_cases k <;> simp [poison, encode, sumWords, poisonWord, errorWord]

theorem syndromeZero_poison (j : Fin 4) : syndromeZero (poison (encode data))[j] = 0 := by
  rw [poison_encode_eq, syndromeZero_sum, syndromeZero_encode, poisonWord, syndromeZero_sum,
    syndromeZero_error, syndromeZero_error, BitVec.xor_self]
  rfl

theorem syndromeOne_poison (j : Fin 4) :
    syndromeOne (poison (encode data))[j] = Config.poisonSyndrome := by
  rw [poison_encode_eq, syndromeOne_sum, syndromeOne_encode, poisonWord, syndromeOne_sum,
    syndromeOne_error, syndromeOne_error]
  decide +kernel

theorem outcomeOf_poison (mark : Option (Fin 10)) (j : Fin 4) :
    outcomeOf mark (poison (encode data))[j] = .poisonMark := by
  cases mark with
  | none =>
    rw [outcomeOf, syndromeZero_poison, syndromeOne_poison]
    decide
  | some m =>
    rw [outcomeOf, syndromeZero_poison, syndromeOne_poison, outcomeMarked, if_pos ⟨rfl, rfl⟩]

/-- The poison form leaves the data symbols as they are. -/
theorem dataBytes_poison (raw : RawLine) : dataBytes (poison raw) = dataBytes raw := by
  apply Vector.ext
  intro i hi
  have h1 : i / 16 < 4 := by omega
  have h2 : i % 16 / 2 < 8 := by omega
  have h3 : i % 16 / 2 < 10 := by omega
  simp [dataBytes, getAt_of_lt _ _ h1, getAt_of_lt _ _ h3, poison, h2]

end Sys2Proof.Machine

namespace Sys2Proof

open Machine

/-- Settles O28: a wrong symbol's syndromes name its device and carry its pattern. -/
theorem singleDeviceErrorsAreCorrected : Obligations.SingleDeviceErrorsAreCorrected := by
  intro a source cls overwritten data device error raw v
  have codeword (j : Fin 4) : raw[j] = disturbed data j.val device (error j) := by
    simp only [raw, raw_eq_disturbed]
    simp
  have outcome (j : Fin 4) : outcomeOf none raw[j] = if error j = 0 then .clean else .fixed device (error j) := by
    rw [codeword, outcomeUnmarked_disturbed]
  refine ⟨dataBytes_corrected fun j => ?_, fun j => (outcomes_decodeLine j).trans (outcome j), ?_⟩
  · rw [codeword]
    exact correctedUnmarked_disturbed j.val
  · have correction (j : Fin 4) : (outcomeOf none raw[j]).isCorrection = true ↔ ¬error j = 0 := by
      rw [outcome]
      split
      · next h => simp [CodewordOutcome.isCorrection, h]
      · next h => exact ⟨fun _ => h, fun _ => rfl⟩
    refine (verdict_of_none_lost fun j => ?_).trans ?_
    · rw [outcome]
      split <;> simp
    · simp only [correction, ← not_forall, ite_not]

/-- Settles O29: the marked device's pattern is the first syndrome, whatever it is. -/
theorem markedDeviceIsFilled : Obligations.MarkedDeviceIsFilled := by
  intro a source cls overwritten data device error raw v
  have codeword (j : Fin 4) : raw[j] = disturbed data j.val device (error j) := by
    simp only [raw, raw_eq_disturbed]
    simp
  have outcome (j : Fin 4) : outcomeOf (some device) raw[j] = .filled (error j) := by
    rw [codeword, outcomeMarked_disturbed]
  refine ⟨dataBytes_corrected fun j => ?_, fun j => (outcomes_decodeLine j).trans (outcome j), ?_⟩
  · rw [codeword]
    exact correctedMarked_disturbed j.val
  · have correction (j : Fin 4) : (outcomeOf (some device) raw[j]).isCorrection = true ↔ ¬error j = 0 := by
      rw [outcome]
      simp [CodewordOutcome.isCorrection]
    refine (verdict_of_none_lost fun j => ?_).trans ?_
    · rw [outcome]
      simp
    · simp only [correction, ← not_forall, ite_not]

/-- Settles O30: the poison constant on both check symbols keeps the sum and makes the weighted sum the poison
syndrome. -/
theorem poisonFormDecodesPoisoned : Obligations.PoisonFormDecodesPoisoned := by
  intro a source mark cls overwritten data v
  refine ⟨verdict_of_all_poison (outcomeOf_poison mark),
    fun j => (outcomes_decodeLine j).trans (outcomeOf_poison mark j), ?_⟩
  exact (dataBytes_poison (encode data)).trans (dataBytes_encode data)

end Sys2Proof
end

section
/-! Frames as runs of bytes before their check: the host's frames read back, the part's frames with the fields of T94,
and the frame check bit by bit (R193, R194, R197, R198). -/

namespace Sys2Proof.Machine

/-! ## The frame check -/

/-- The frame check takes the bits of the bytes one by one, the highest of each byte first. -/
theorem frameCheck_eq_foldl_bits (bytes : List Byte) : frameCheck bytes =
    (bytes.flatMap fun b => [7, 6, 5, 4, 3, 2, 1, 0].map fun i => b.getLsbD i).foldl
      (fun (c : Sym) bit => if c.msb = bit then c <<< 1 else (c <<< 1) ^^^ 0x1021#16) 0xFFFF#16 := by
  have bit (c : Sym) (b : Bool) : checkBit c b = if c.msb = b then c <<< 1 else (c <<< 1) ^^^ 0x1021#16 := by
    rw [checkBit]
    cases c.msb <;> cases b <;> rfl
  rw [List.foldl_flatMap, frameCheck]
  simp only [List.foldl_map, ← bit]
  rfl

theorem length_checked (body : List Byte) : (checked body).length = body.length + 2 := by
  rw [checked, List.length_append, length_packed]

theorem take_checked (body : List Byte) : (checked body).take ((checked body).length - 2) = body := by
  rw [length_checked, Nat.add_sub_cancel, checked, List.take_left' rfl]

/-- A checked frame ends with the frame check of what stands before it. -/
theorem check_of_checked (body : List Byte) :
    2 ≤ (checked body).length ∧ argument (checked body) ((checked body).length - 2) 2 =
      (frameCheck ((checked body).take ((checked body).length - 2))).toNat := by
  refine ⟨by rw [length_checked]; exact Nat.le_add_left 2 _, ?_⟩
  rw [take_checked]
  refine argument_of_field _ _ _ _ ?_ (frameCheck body).isLt
  rw [length_checked, Nat.add_sub_cancel, field, checked, List.drop_left' rfl]
  exact List.take_of_length_le (length_packed _ _).le

/-! ## Fields of a checked frame -/

/-- A run of a frame before its check. -/
theorem field_checked {frame : List Byte} {runs : List (List Byte)} {lengths : List Nat} {x : List Byte}
    (hf : frame = checked runs.flatten) (hl : runs.map List.length = lengths) (i : Nat) {k n : Nat}
    (h : runs[i]? = some x) (hk : (lengths.take i).sum = k) (hn : lengths[i]? = some n) : field frame k n = x := by
  have inside : k + n ≤ runs.flatten.length := by
    obtain ⟨hi, rfl⟩ := List.getElem?_eq_some_iff.mp hn
    rw [List.length_flatten, hl, ← hk, ← List.sum_take_succ lengths i hi]
    conv_rhs => rw [← List.take_append_drop (i + 1) lengths, List.sum_append]
    exact Nat.le_add_right _ _
  rw [← field_flatten hl i h hk hn, hf, checked]
  unfold field
  rw [List.drop_append_of_le_length (Nat.le_trans (Nat.le_add_right k n) inside),
    List.take_append_of_le_length (by rw [List.length_drop]; omega)]

theorem length_of_runs {frame : List Byte} {runs : List (List Byte)} {lengths : List Nat} {n : Nat}
    (hf : frame = checked runs.flatten) (hl : runs.map List.length = lengths) (h : lengths.sum + 2 = n) :
    frame.length = n := by
  rw [hf, length_checked, length_flatten_runs hl rfl, h]

theorem lineOf_line (data : Line) : lineOf data.toList = data := by
  have h := lineOf_toList data []
  rwa [List.append_nil, List.take_of_length_le (by simp)] at h

/-! ## The host's frames -/

theorem hostRead_eq (tag : Byte) (a : LineAddr) :
    hostFrame tag (.read a) = checked [[0x10, tag], packedAddress a].flatten := by
  simp [hostFrame]

theorem hostWrite_eq (tag : Byte) (a : LineAddr) (data : Line) :
    hostFrame tag (.write a data) = checked [[0x11, tag], packedAddress a, data.toList].flatten := by
  simp [hostFrame]

theorem hostMaskedWrite_eq (tag : Byte) (a : LineAddr) (mask : ByteMask) (data : Line) :
    hostFrame tag (.maskedWrite a mask data) =
      checked [[0x12, tag], packedAddress a, packedMask mask, data.toList].flatten := by
  simp [hostFrame]

theorem hostManage_eq (tag : Byte) (kind : Nat) (args : List Byte) :
    hostFrame tag (.manage kind args) =
      checked [[0x13, tag, BitVec.ofNat 8 kind, BitVec.ofNat 8 args.length], args,
        List.replicate (64 - args.length) 0].flatten := by
  simp [hostFrame]

/-- The four bytes before a MANAGE frame's arguments. -/
theorem byteAt_hostManage (tag : Byte) (kind : Nat) (args : List Byte) :
    byteAt (hostFrame tag (.manage kind args)) 2 = BitVec.ofNat 8 kind ∧
      byteAt (hostFrame tag (.manage kind args)) 3 = BitVec.ofNat 8 args.length := ⟨rfl, rfl⟩

theorem frameBody_hostRead (tag : Byte) (a : LineAddr) : frameBody (hostFrame tag (.read a)) = .read a := by
  have address : field (hostFrame tag (.read a)) 2 4 = packedAddress a :=
    field_checked (hostRead_eq tag a) (lengths := [2, 4]) (by simp [length_packedAddress]) 1 rfl rfl rfl
  have kind : byteAt (hostFrame tag (.read a)) 0 = 0x10 := rfl
  rw [frameBody, if_pos kind, address, addressOf_packedAddress]

theorem frameBody_hostWrite (tag : Byte) (a : LineAddr) (data : Line) :
    frameBody (hostFrame tag (.write a data)) = .write a data := by
  have lengths : [[0x11, tag], packedAddress a, data.toList].map List.length = [2, 4, 64] := by
    simp [length_packedAddress]
  have address : field (hostFrame tag (.write a data)) 2 4 = packedAddress a :=
    field_checked (hostWrite_eq tag a data) lengths 1 rfl rfl rfl
  have bytes : field (hostFrame tag (.write a data)) 6 64 = data.toList :=
    field_checked (hostWrite_eq tag a data) lengths 2 rfl rfl rfl
  have kind : byteAt (hostFrame tag (.write a data)) 0 = 0x11 := rfl
  rw [frameBody, if_neg (by rw [kind]; decide), if_pos kind, address, bytes, addressOf_packedAddress, lineOf_line]

theorem frameBody_hostMaskedWrite (tag : Byte) (a : LineAddr) (mask : ByteMask) (data : Line) :
    frameBody (hostFrame tag (.maskedWrite a mask data)) = .maskedWrite a mask data := by
  have lengths : [[0x12, tag], packedAddress a, packedMask mask, data.toList].map List.length = [2, 4, 8, 64] := by
    simp [length_packedAddress, length_packedMask]
  have address : field (hostFrame tag (.maskedWrite a mask data)) 2 4 = packedAddress a :=
    field_checked (hostMaskedWrite_eq tag a mask data) lengths 1 rfl rfl rfl
  have flags : field (hostFrame tag (.maskedWrite a mask data)) 6 8 = packedMask mask :=
    field_checked (hostMaskedWrite_eq tag a mask data) lengths 2 rfl rfl rfl
  have bytes : field (hostFrame tag (.maskedWrite a mask data)) 14 64 = data.toList :=
    field_checked (hostMaskedWrite_eq tag a mask data) lengths 3 rfl rfl rfl
  have kind : byteAt (hostFrame tag (.maskedWrite a mask data)) 0 = 0x12 := rfl
  rw [frameBody, if_neg (by rw [kind]; decide), if_neg (by rw [kind]; decide), if_pos kind, address, flags, bytes,
    addressOf_packedAddress, maskOf_packedMask, lineOf_line]

theorem frameBody_hostManage (tag : Byte) {kind : Nat} {args : List Byte} (hk : kind < 256)
    (ha : args.length ≤ 64) : frameBody (hostFrame tag (.manage kind args)) = .manage kind args := by
  have bytes : field (hostFrame tag (.manage kind args)) 4 args.length = args :=
    field_checked (hostManage_eq tag kind args) (lengths := [4, args.length, 64 - args.length]) (by simp) 1
      rfl rfl rfl
  have notOther (b : Byte) (hb : b ≠ 0x13) : ¬(byteAt (hostFrame tag (.manage kind args)) 0 = b) :=
    fun h => hb h.symm
  rw [frameBody, if_neg (notOther _ (by decide)), if_neg (notOther _ (by decide)), if_neg (notOther _ (by decide)),
    (byteAt_hostManage tag kind args).1, (byteAt_hostManage tag kind args).2, BitVec.toNat_ofNat, BitVec.toNat_ofNat,
    Nat.mod_eq_of_lt hk, Nat.mod_eq_of_lt (show args.length < 2 ^ 8 by omega), Nat.min_eq_right ha, bytes]

/-- What a host can form is good, and is read as it was formed (R193, R194). -/
theorem hostFrame_readBack (tag : Byte) (body : RequestBody)
    (h : ∀ kind args, body = .manage kind args → kind < 256 ∧ args.length ≤ 64) :
    goodFrame (hostFrame tag body) = true ∧ frameTag (hostFrame tag body) = tag ∧
      frameBody (hostFrame tag body) = body := by
  cases body with
  | read a =>
    refine ⟨goodFrame_checked _ _ ?_, rfl, frameBody_hostRead tag a⟩
    simp [length_packedAddress, downstreamLength]
  | write a data =>
    refine ⟨goodFrame_checked _ _ ?_, rfl, frameBody_hostWrite tag a data⟩
    simp [length_packedAddress, downstreamLength]
  | maskedWrite a mask data =>
    refine ⟨goodFrame_checked _ _ ?_, rfl, frameBody_hostMaskedWrite tag a mask data⟩
    simp [length_packedAddress, length_packedMask, downstreamLength]
  | manage kind args =>
    obtain ⟨hk, ha⟩ := h kind args rfl
    refine ⟨goodFrame_checked _ _ ?_, rfl, frameBody_hostManage tag hk ha⟩
    have : args.length + (64 - args.length) = 64 := by omega
    simp [downstreamLength, this]

/-! ## The part's frames -/

theorem readDone_eq (tag : Byte) (status : Status) (data : Line) :
    (UpFrame.readDone tag status data).bytes = checked [[0x20, tag, status.code], data.toList].flatten := by
  simp [UpFrame.bytes]

theorem manageDone_eq (tag : Byte) (result : Result) (payload : List Byte) :
    (UpFrame.manageDone tag result payload).bytes =
      checked [[0x22, tag, result.code, BitVec.ofNat 8 payload.length],
        payload ++ List.replicate (64 - payload.length) 0].flatten := by
  simp [UpFrame.bytes]

theorem alert_eq (event : EventKind) (level : Nat) (subject : Subject) (record : Option RecordName)
    (time : TimeBase) : (UpFrame.alert event level subject record time).bytes =
      checked [[0x23, event.code, BitVec.ofNat 8 level], subject.packed, packedRecord record,
        packed 6 time.toNat].flatten := by
  simp [UpFrame.bytes]

theorem byteAt_padded (payload : List Byte) (n i : Nat) :
    byteAt (payload ++ List.replicate n 0) i = payload.getD i 0 := by
  unfold byteAt
  rw [List.getD_eq_getElem?_getD, List.getD_eq_getElem?_getD, List.getElem?_append, List.getElem?_replicate]
  split
  · rfl
  · next h =>
    rw [List.getElem?_eq_none (Nat.le_of_not_lt h)]
    split <;> rfl

theorem readDone_fields (tag : Byte) (status : Status) (data : Line) :
    let b := (UpFrame.readDone tag status data).bytes
    b.length = 69 ∧ field b 0 3 = [0x20, tag, status.code] ∧ ∀ i : Fin 64, byteAt b (3 + i.val) = data[i] := by
  intro b
  have hb : b = _ := readDone_eq tag status data
  have lengths : [[0x20, tag, status.code], data.toList].map List.length = [3, 64] := by simp
  have bytes : field b 3 64 = data.toList := field_checked hb lengths 1 rfl rfl rfl
  refine ⟨length_of_runs hb lengths rfl, field_checked hb lengths 0 rfl rfl rfl, fun i => ?_⟩
  rw [byteAt_of_field bytes i.isLt]
  simp [byteAt, List.getD]

theorem manageDone_fields (tag : Byte) (result : Result) {payload : List Byte} (h : payload.length ≤ 64) :
    let b := (UpFrame.manageDone tag result payload).bytes
    b.length = 70 ∧ field b 0 4 = [0x22, tag, result.code, BitVec.ofNat 8 payload.length] ∧
      ∀ i < 64, byteAt b (4 + i) = payload.getD i 0 := by
  intro b
  have hb : b = _ := manageDone_eq tag result payload
  have lengths : [[0x22, tag, result.code, BitVec.ofNat 8 payload.length],
      payload ++ List.replicate (64 - payload.length) 0].map List.length = [4, 64] := by
    simp
    omega
  have bytes : field b 4 64 = payload ++ List.replicate (64 - payload.length) 0 :=
    field_checked hb lengths 1 rfl rfl rfl
  refine ⟨length_of_runs hb lengths rfl, field_checked hb lengths 0 rfl rfl rfl, fun i hi => ?_⟩
  rw [byteAt_of_field bytes hi, byteAt_padded]

theorem alert_fields (event : EventKind) (level : Nat) (subject : Subject) (record : Option RecordName)
    (time : TimeBase) :
    let b := (UpFrame.alert event level subject record time).bytes
    b.length = 18 ∧ field b 0 3 = [0x23, event.code, BitVec.ofNat 8 level] ∧ field b 3 6 = subject.packed ∧
      field b 9 1 = packedRecord record ∧ field b 10 6 = packed 6 time.toNat := by
  intro b
  have hb : b = _ := alert_eq event level subject record time
  have subjectLength : subject.packed.length = 6 := by
    cases subject <;> simp [Subject.packed, length_packedAddress]
  have recordLength : (packedRecord record).length = 1 := by
    cases record <;> rfl
  have lengths : [[0x23, event.code, BitVec.ofNat 8 level], subject.packed, packedRecord record,
      packed 6 time.toNat].map List.length = [3, 6, 1, 6] := by
    simp [subjectLength, recordLength, length_packed]
  exact ⟨length_of_runs hb lengths rfl, field_checked hb lengths 0 rfl rfl rfl, field_checked hb lengths 1 rfl rfl rfl,
    field_checked hb lengths 2 rfl rfl rfl, field_checked hb lengths 3 rfl rfl rfl⟩

/-- The address in an ALERT's subject. -/
theorem subjectLine_fields {b : List Byte} {a : LineAddr} (h : field b 3 6 = (Subject.line a).packed) :
    byteAt b 3 = 3 ∧ addressOf (field b 4 4) = a ∧ byteAt b 8 = 0 := by
  have byte (i : Nat) (hi : i < 6) : byteAt b (3 + i) = byteAt (Subject.line a).packed i := byteAt_of_field h hi
  have address : field b 4 4 = packedAddress a := by
    have inner : field b 4 4 = ((field b 3 6).drop 1).take 4 := by
      simp [field, List.drop_take, List.take_take, List.drop_drop]
    rw [inner, h]
    exact List.take_left' (length_packedAddress a)
  exact ⟨byte 0 (by decide), by rw [address, addressOf_packedAddress], byte 5 (by decide)⟩

end Sys2Proof.Machine

namespace Sys2Proof

open Machine

/-- Settles O10: each frame is runs of bytes before its check, and the runs stand where T93 and T94 place them. -/
theorem hostFramesAreReadBack : Obligations.HostFramesAreReadBack := by
  refine ⟨hostFrame_readBack, frameCheck_eq_foldl_bits, fun f hf => ?_, readDone_fields,
    fun tag status => ⟨length_checked _, rfl⟩, fun tag result payload h => manageDone_fields tag result h, fun event level subject record time => ?_,
    fun _ => rfl, ⟨rfl, rfl, rfl, rfl⟩, fun width frame hw => ?_⟩
  · cases f with
    | echoed bytes => exact absurd rfl (hf bytes)
    | readDone | writeDone | manageDone | alert => exact check_of_checked _

  · obtain ⟨length, kind, subjectRun, recordRun, timeRun⟩ := alert_fields event level subject record time
    refine ⟨length, kind, ?_, ?_, argument_of_field _ _ _ _ timeRun time.isLt⟩
    · cases subject with
      | line a => exact subjectLine_fields subjectRun
      | none | rank | device | table => exact subjectRun
    · cases record with
      | none => exact byteAt_of_run recordRun
      | some x => cases x <;> exact byteAt_of_run recordRun
  · refine ⟨by simp [onLanes], fun i hi => ?_, fun k hk => ?_, fromLanes_onLanes hw frame⟩
    · have hk : i % width < 8 := lt_of_lt_of_le (Nat.mod_lt _ (by omega)) (by omega)
      have lane : (onLanes width frame).getD (i % width) [] = laneBytes width frame (i % width) := by
        simp [onLanes, List.getD_eq_getElem?_getD, hk]
      rw [lane, laneBytes_getD hw frame i hi]
    · by_cases h8 : k < 8
      · simp [onLanes, List.getD_eq_getElem?_getD, h8, laneBytes_rest hk]
      · simp [onLanes, List.getD_eq_getElem?_getD, h8]

end Sys2Proof
end

section
/-! Answers on their way: once handed over, a frame stays in the upstream queue, on the lanes or pending, whatever
else a command completes (R36, R195); and what a command that completes some requests leaves of the others. -/

namespace Sys2Proof.Machine

variable {s t u : State} {f g : UpFrame} {id k : Nat} {r : Request}

/-! ## A frame on its way -/

/-- The frame waits in the upstream queue or is on the lanes. -/
def Link.Carries (f : UpFrame) (l : Link) : Prop :=
  f ∈ l.upstream ∨ l.transmitting = some (onLanes l.straps.laneCount f.bytes)

theorem Link.Carries.beginSending {l : Link} (h : l.Carries f) : (beginSending l).Carries f := by
  unfold Machine.beginSending
  split
  · next x rest htransmitting hupstream =>
    split
    · unfold Link.Carries at h
      rw [htransmitting, hupstream] at h
      rcases h with h | h
      · rcases List.mem_cons.mp h with rfl | h
        · exact .inr rfl
        · exact .inl h
      · cases h
    · exact h
  · exact h

theorem carries_pushUp (h : s.link.Carries f) : (pushUp g s).link.Carries f := by
  refine Link.Carries.beginSending ?_
  rcases h with h | h
  · exact .inl (List.mem_append_left _ h)
  · exact .inr h

theorem carries_pushUp_self : (pushUp f s).link.Carries f :=
  Link.Carries.beginSending (.inl (List.mem_append_right _ (List.mem_singleton.mpr rfl)))

theorem carries_raiseAt (kind : EventKind) (level : Nat) (x : Subject) (record : Option RecordName)
    (h : s.link.Carries f) : (raiseAt kind level x record s).link.Carries f := by
  unfold raiseAt
  split
  · exact carries_pushUp h
  · exact h

/-- The answer `f` of the request named `id` goes up: it is on its way, or it is pending and its request completing. -/
def Delivered (id : Nat) (f : UpFrame) (s : State) : Prop :=
  s.link.Carries f ∨
    (⟨id, f⟩ ∈ s.dem.completions ∧ ∃ r, findRequest id s = some r ∧ r.phase = .completing)

theorem Delivered.handedOn (h : Delivered id f s) : HandedOn id f s := by
  rcases h with (h | h) | h
  · exact .inl h
  · exact .inr (.inl h)
  · exact .inr (.inr h.1)

/-! ## What a command that completes requests leaves -/

/-- `t` comes from `s` by events, by completions of requests whose names are in `ids`, and by changes outside LNK and
DEM. -/
structure Completes (ids : Nat → Prop) (s t : State) : Prop where
  active : t.link.state = s.link.state
  find : ∀ k, ¬ids k → findRequest k t = findRequest k s
  delivered : ∀ k f, Delivered k f s → Delivered k f t
  names : (t.dem.requests.map Request.id).Sublist (s.dem.requests.map Request.id)
  rest : ∀ q ∈ t.dem.requests, q ∈ s.dem.requests ∨ q.phase = .completing
  reset : ∀ c, t.mgu.coreReset = some c → s.mgu.coreReset = some c
  resetKept : ∀ c, s.mgu.coreReset = some c → ¬ids c.request → t.mgu.coreReset = some c

namespace Completes

variable {ids ids' : Nat → Prop}

theorem refl : Completes ids s s :=
  ⟨rfl, fun _ _ => rfl, fun _ _ h => h, .refl _, fun _ h => .inl h, fun _ h => h, fun _ h _ => h⟩

theorem trans (h : Completes ids s t) (h' : Completes ids t u) : Completes ids s u where
  active := h'.active.trans h.active
  find k hk := (h'.find k hk).trans (h.find k hk)
  delivered k f hd := h'.delivered k f (h.delivered k f hd)
  names := h'.names.trans h.names
  rest q hq := (h'.rest q hq).elim (h.rest q) .inr
  reset c hc := h.reset c (h'.reset c hc)
  resetKept c hc hk := h'.resetKept c (h.resetKept c hc hk) hk

theorem mono (h : Completes ids s t) (hi : ∀ k, ids k → ids' k) : Completes ids' s t where
  active := h.active
  find k hk := h.find k fun hx => hk (hi k hx)
  delivered := h.delivered
  names := h.names
  rest := h.rest
  reset := h.reset
  resetKept c hc hk := h.resetKept c hc fun hx => hk (hi _ hx)

/-- A change outside LNK and DEM that leaves the Core Reset. -/
theorem of_same (hl : t.link = s.link) (hd : t.dem = s.dem) (hm : t.mgu.coreReset = s.mgu.coreReset) :
    Completes ids s t where
  active := by rw [hl]
  find k _ := by unfold findRequest; rw [hd]
  delivered k f h := by
    unfold Delivered findRequest at *
    rwa [hl, hd]
  names := by rw [hd]
  rest q hq := .inl (by rwa [hd] at hq)
  reset c hc := by rwa [hm] at hc
  resetKept c hc _ := by rwa [hm]

theorem raiseAt (kind : EventKind) (level : Nat) (x : Subject) (record : Option RecordName) (s : State) :
    Completes ids s (raiseAt kind level x record s) := by
  have hd : (Machine.raiseAt kind level x record s).dem = s.dem := by rw [raiseAt_eq]
  have hm : (Machine.raiseAt kind level x record s).mgu = s.mgu := by rw [raiseAt_eq]
  refine ⟨?_, fun k _ => ?_, fun k f h => ?_, by rw [hd], fun q hq => .inl (by rwa [hd] at hq),
    fun c hc => by rwa [hm] at hc, fun c hc _ => by rwa [hm]⟩
  · unfold Machine.raiseAt
    split
    · exact pushUp_linkState _ _
    · rfl
  · unfold findRequest
    rw [hd]
  · rcases h with h | h
    · exact .inl (carries_raiseAt _ _ _ _ h)
    · refine .inr ?_
      unfold findRequest
      rwa [hd]

theorem raise (kind : EventKind) (x : Subject) (s : State) : Completes ids s (raise kind x s) := raiseAt ..

/-- A request leaves the buffer. -/
theorem dropRequest (hf : findRequest k s = some r) (hp : r.phase ≠ .completing)
    (hl : u.link.state = s.link.state) (hc : ∀ f, s.link.Carries f → u.link.Carries f) (hd : u.dem = s.dem)
    (hm : u.mgu = s.mgu) : Completes (· = k) s (dropRequest r u) := by
  obtain ⟨-, hid⟩ := findRequest_some hf
  have gone : (Machine.dropRequest r u).dem.requests = s.dem.requests.filter fun q => q.id != r.id := by
    rw [dropRequest_requests, hd]
  have link : (Machine.dropRequest r u).link = u.link := dropRequest_link r u
  have mgu : (Machine.dropRequest r u).mgu.coreReset = s.mgu.coreReset.filter fun x => x.request != r.id := by
    rw [dropRequest_eq, ← hm]
  have other (n : Nat) (hn : ¬n = k) : findRequest n (Machine.dropRequest r u) = findRequest n s := by
    unfold findRequest
    rw [gone, hid, find_filter_ne _ _ _ hn]
  refine ⟨by rw [link, hl], other, fun n f h => ?_, by rw [gone]; exact List.filter_sublist.map _,
    fun q hq => .inl (by rw [gone] at hq; exact List.mem_of_mem_filter hq), fun c hx => ?_, fun c hx hn => ?_⟩
  · rcases h with h | ⟨hmem, q, hq, hphase⟩
    · exact .inl (by rw [link]; exact hc f h)
    · have hn : ¬n = k := by
        rintro rfl
        rw [hf] at hq
        exact hp (Option.some.inj hq ▸ hphase)
      refine .inr ⟨?_, q, (other n hn).trans hq, hphase⟩
      rw [dropRequest_eq]
      refine List.mem_filter.mpr ⟨by rw [hd]; exact hmem, ?_⟩
      simpa [hid] using hn
  · rw [mgu] at hx
    exact (Option.filter_eq_some_iff.mp hx).1
  · rw [mgu, Option.filter_eq_some_iff]
    exact ⟨hx, by simpa [hid] using hn⟩

/-- A completion touches the request it names alone. -/
theorem complete (k : Nat) (f : UpFrame) (s : State) : Completes (· = k) s (complete k f s) := by
  unfold Machine.complete
  split
  · exact .refl
  · next r hf =>
    split
    · exact .refl
    · next hp =>
      split
      · exact dropRequest hf hp rfl (fun _ h => h) rfl rfl
      · split
        · exact dropRequest hf hp (pushUp_linkState _ _) (fun _ h => carries_pushUp h) rfl rfl
        · have names : (setPhase k .completing { s with dem := { s.dem with
              completions := s.dem.completions ++ [⟨k, f⟩] } }).dem.requests.map Request.id =
                s.dem.requests.map Request.id := by
            show (s.dem.requests.map _).map _ = _
            rw [List.map_map]
            refine List.map_congr_left fun q _ => ?_
            simp only [Function.comp]
            split <;> rfl
          have other (n : Nat) (hn : ¬n = k) : findRequest n (setPhase k .completing { s with dem := { s.dem with
              completions := s.dem.completions ++ [⟨k, f⟩] } }) = findRequest n s := by
            have := complete_find k f s n hn
            unfold Machine.complete at this
            rw [hf] at this
            dsimp only at this
            rwa [if_neg hp, if_neg (by assumption), if_neg (by assumption)] at this
          refine ⟨rfl, other, fun n g h => ?_, by rw [names], fun q hq => ?_, fun _ h => h, fun _ h _ => h⟩
          · rcases h with h | ⟨hmem, q, hq, hphase⟩
            · exact .inl h
            · have hn : ¬n = k := by
                rintro rfl
                rw [hf] at hq
                exact hp (Option.some.inj hq ▸ hphase)
              exact .inr ⟨List.mem_append_left _ hmem, q, (other n hn).trans hq, hphase⟩
          · obtain ⟨x, hx, rfl⟩ := List.mem_map.mp hq
            by_cases hi : x.id = k
            · exact .inr (by simp [hi])
            · exact .inl (by simpa [hi] using hx)

theorem completeDemand (k : Nat) (st : Status) (data : Line) (s : State) :
    Completes (· = k) s (completeDemand k st data s) := by
  unfold Machine.completeDemand
  split
  · exact .refl
  · exact complete ..

theorem answer (k : Nat) (res : Result) (p : List Byte) (s : State) : Completes (· = k) s (answer k res p s) := by
  unfold Machine.answer
  split
  · exact .refl
  · exact complete ..

/-- A run of steps. -/
theorem foldl {α : Type} {step : State → α → State} {l : List α} (h : ∀ u, ∀ x ∈ l, Completes ids u (step u x))
    (s : State) : Completes ids s (l.foldl step s) := by
  induction l generalizing s with
  | nil => exact .refl
  | cons x l ih =>
    exact (h s x List.mem_cons_self).trans (ih (fun u y hy => h u y (List.mem_cons_of_mem _ hy)) _)

end Completes

/-! ## Requests that wait for an answer -/

/-- The link is ACTIVE, and the request is found as it was. -/
structure Waits (r : Request) (s : State) : Prop where
  active : s.link.state = .active
  found : findRequest r.id s = some r

theorem Waits.after {ids : Nat → Prop} (h : Waits r s) (hc : Completes ids s t) (hi : ¬ids r.id) : Waits r t :=
  ⟨hc.active.trans h.active, (hc.find _ hi).trans h.found⟩

/-- With distinct names every request of the buffer of an ACTIVE link waits. -/
theorem waits_of_mem (hn : (s.dem.requests.map Request.id).Nodup) (ha : s.link.state = .active)
    (hr : r ∈ s.dem.requests) : Waits r s :=
  ⟨ha, find_of_nodup hn hr⟩

/-- The completion of a request that waits is on its way, or pending. -/
theorem Waits.complete (h : Waits r s) (ho : r.orphan = false) (hp : r.phase ≠ .completing) :
    Delivered r.id f (complete r.id f s) := by
  unfold Machine.complete
  rw [h.found]
  dsimp only
  rw [if_neg hp, if_neg (by simp [ho, h.active])]
  split
  · exact .inl (by rw [dropRequest_link]; exact carries_pushUp_self)
  · refine .inr ⟨List.mem_append_right _ (List.mem_singleton.mpr rfl), { r with phase := .completing }, ?_, rfl⟩
    exact findRequest_setPhase .completing h.found

theorem completionFrame_eq (r : Request) (st : Status) : completionFrame r st = demandFrame r st zeroLine := by
  unfold completionFrame demandFrame
  cases r.body <;> rfl

theorem Waits.completeDemand (h : Waits r s) (ho : r.orphan = false) (hp : r.phase ≠ .completing) (st : Status)
    (data : Line) : Delivered r.id (demandFrame r st data) (completeDemand r.id st data s) := by
  unfold Machine.completeDemand
  rw [h.found]
  exact h.complete ho hp

theorem Waits.answer (h : Waits r s) (ho : r.orphan = false) (hp : r.phase ≠ .completing) (res : Result)
    (p : List Byte) :
    Delivered r.id (.manageDone r.tag res (if res = .done then p else [])) (answer r.id res p s) := by
  unfold Machine.answer
  rw [h.found]
  exact h.complete ho hp

/-- Of a run of steps that keep `P`, and of which one makes `P` of `I`, the end meets `P` where the start met `I` and
no step ends `I` without `P`. -/
theorem foldl_reaches {α : Type} {step : State → α → State} {I P : State → Prop} {l : List α} {x : α}
    (hP : ∀ u y, y ∈ l → P u → P (step u y)) (hI : ∀ u y, y ∈ l → I u → I (step u y) ∨ P (step u y))
    (hx : ∀ u, I u → P (step u x)) (hm : x ∈ l) (hs : I s ∨ P s) : P (l.foldl step s) := by
  induction l generalizing s with
  | nil => cases hm
  | cons y l ih =>
    have keep : ∀ u, P u → P (l.foldl step u) := by
      intro u hu
      refine List.foldlRecOn l step hu fun v hv z hz => ?_
      exact hP v z (List.mem_cons_of_mem _ hz) hv
    rw [List.foldl_cons]
    rcases hs with hs | hs
    · rcases List.mem_cons.mp hm with rfl | hm
      · exact keep _ (hx s hs)
      · exact ih (fun u z hz => hP u z (List.mem_cons_of_mem _ hz))
          (fun u z hz => hI u z (List.mem_cons_of_mem _ hz)) hm (hI s y List.mem_cons_self hs)
    · exact keep _ (hP s y List.mem_cons_self hs)

end Sys2Proof.Machine

end

section
/-! Entering HALTED, stage by stage: what the end of the work in flight leaves of every block, which requests it
answers, and that the answers go up (R39, R85, R127, R152, R161, R183). -/

namespace Sys2Proof.Machine

variable {s t u : State} {f : UpFrame} {id k : Nat} {r q : Request}

/-! ## The stages -/

/-- The retries as HALTED leaves them: those at DRAM, ended. -/
def haltedContexts (s : State) : List RetryContext :=
  (s.fcu.contexts.filter fun x => atPort (.retryRead x.id) s).map fun x => { x with ended := true }

/-- The first stage: the retries alone. -/
def retriesEnded (s : State) : State := { s with fcu := { s.fcu with contexts := haltedContexts s } }

theorem endGrantedRetries_eq (s : State) : endGrantedRetries (dropUngrantedRetries s) = retriesEnded s := rfl

/-- The stages up to the Spare Releases. -/
def releasesEnded (s : State) : State := (List.range 32).foldl haltRelease (haltDemand (retriesEnded s))

/-- The stages before the patrol stops. -/
def worksAnswered (s : State) : State := (releasesEnded s).sls.retires.foldl haltRetire (releasesEnded s)

theorem endWorkAtHalt_eq (s : State) :
    endWorkAtHalt s = settle (haltDrain (stopFills (stopPatrol (worksAnswered s)))) := by
  unfold endWorkAtHalt worksAnswered releasesEnded
  rw [endGrantedRetries_eq]

theorem enterHalted_of_halted (cause : HaltCause) (h : s.fcu.halted.isSome) : enterHalted cause s = s := if_pos h

theorem enterHalted_of_served (cause : HaltCause) (h : s.fcu.halted = none) : enterHalted cause s =
    endWorkAtHalt (raise .halted (.table cause.table cause.index)
      { s with fcu := { s.fcu with halted := some cause } }) :=
  if_neg (by simp [h])

/-! ## Demand requests -/

theorem haltRequest_answers (s : State) (r : Request) : Answers s (haltRequest s r) := by
  unfold haltRequest
  split
  · exact answers_completeDemand ..
  · exact .refl _

theorem haltDemand_answers (s : State) : Answers s (haltDemand s) := answers_foldl haltRequest_answers _ _

theorem haltRequest_completes (s : State) (r : Request) :
    Completes (fun k => r.isDemand = true ∧ r.id = k) s (haltRequest s r) := by
  unfold haltRequest
  split
  · next h =>
    rw [Bool.and_eq_true] at h
    exact (Completes.completeDemand ..).mono fun k hk => ⟨h.1, hk.symm⟩
  · exact .refl

/-- `k` is the name of a demand request. -/
def NamesDemand (s : State) (k : Nat) : Prop := ∃ q ∈ s.dem.requests, q.isDemand = true ∧ q.id = k

theorem haltDemand_completes (s : State) : Completes (NamesDemand s) s (haltDemand s) :=
  .foldl (fun u r hr => (haltRequest_completes u r).mono fun _ ⟨hd, hk⟩ => ⟨r, hr, hd, hk⟩) s

theorem endsAtHalt_congr (h : u.fcu = s.fcu) (r : Request) : endsAtHalt r u = endsAtHalt r s := by
  unfold endsAtHalt underRetry
  rw [h]

theorem haltRequest_fcu (s : State) (r : Request) : (haltRequest s r).fcu = s.fcu := by
  obtain ⟨l, d, c, h⟩ := haltRequest_answers s r
  rw [h]

/-- A demand request that waits is answered HALTED. -/
theorem haltDemand_delivers (hn : (s.dem.requests.map Request.id).Nodup) (ha : s.link.state = .active)
    (hq : q ∈ s.dem.requests) (ho : q.orphan = false) (hp : q.phase ≠ .completing) (hd : q.isDemand = true)
    (he : endsAtHalt q s = true) : Delivered q.id (completionFrame q .halted) (haltDemand s) := by
  refine foldl_reaches (I := fun u => Waits q u ∧ u.fcu = s.fcu) (x := q)
    (fun u y _ h => (haltRequest_completes u y).delivered _ _ h) (fun u y hy hu => ?_) (fun u hu => ?_) hq
    (.inl ⟨waits_of_mem hn ha hq, rfl⟩)
  · by_cases hid : y.id = q.id
    · have : y = q := by
        have h1 := find_of_nodup hn hy
        have h2 := find_of_nodup hn hq
        rw [hid, h2] at h1
        exact (Option.some.inj h1).symm
      subst this
      right
      unfold haltRequest
      rw [hd, endsAtHalt_congr hu.2, he]
      rw [completionFrame_eq]
      exact hu.1.completeDemand ho hp _ _
    · exact .inl ⟨hu.1.after (haltRequest_completes u y) fun h => hid h.2, (haltRequest_fcu u y).trans hu.2⟩
  · unfold haltRequest
    rw [hd, endsAtHalt_congr hu.2, he, completionFrame_eq]
    exact hu.1.completeDemand ho hp _ _

/-- No demand request is left that waits for a grant or a holder. -/
theorem haltDemand_rest (hn : (s.dem.requests.map Request.id).Nodup) (hq : q ∈ (haltDemand s).dem.requests)
    (hd : q.isDemand = true) : endsAtHalt q s = false := by
  by_contra he
  rw [Bool.not_eq_false] at he
  have waits : q.phase ≠ .completing := by
    intro hc
    unfold endsAtHalt at he
    rw [hc] at he
    cases he
  have was : q ∈ s.dem.requests := ((haltDemand_completes s).rest q hq).resolve_right waits
  have all : ∀ x ∈ (haltDemand s).dem.requests, x.id = q.id → x.phase = .completing := by
    refine foldl_reaches (I := fun u => (u.dem.requests.map Request.id).Nodup ∧ u.fcu = s.fcu)
      (P := fun u => ∀ x ∈ u.dem.requests, x.id = q.id → x.phase = .completing) (x := q)
      (fun u y _ h x hx hid => ?_) (fun u y _ hu => .inl ⟨?_, (haltRequest_fcu u y).trans hu.2⟩)
      (fun u hu x hx hid => ?_) was (.inl ⟨hn, rfl⟩)
    · exact ((haltRequest_completes u y).rest x hx).elim (h x · hid) fun h => h
    · exact (haltRequest_completes u y).names.nodup hu.1
    · unfold haltRequest at hx
      rw [hd, endsAtHalt_congr hu.2, he] at hx
      exact (completeDemand_requests _ _ _ _ hu.1 x hx).resolve_left fun h => h.2 hid
  exact waits (all q hq rfl)

/-! ## Spare Releases -/

/-- A release whose slot has the Spare Release named `k` in hand. -/
def ReleaseAsked (s : State) (k : Nat) : Prop :=
  ∃ i < 32, ∃ a d time w, slotAt s i = .releasing a d time (some w) ∧ w.request = k

/-- `t` comes from `s` by answers and by changes of slots. -/
def AnswersSlots (s t : State) : Prop :=
  ∃ l d c v, t = { s with
    link := l, dem := d, mgu := { s.mgu with coreReset := c }, sls := { s.sls with slots := v } }

theorem AnswersSlots.refl (s : State) : AnswersSlots s s := ⟨s.link, s.dem, s.mgu.coreReset, s.sls.slots, rfl⟩

theorem AnswersSlots.trans (h : AnswersSlots s t) (h' : AnswersSlots t u) : AnswersSlots s u := by
  obtain ⟨l, d, c, v, rfl⟩ := h
  obtain ⟨l', d', c', v', rfl⟩ := h'
  exact ⟨l', d', c', v', rfl⟩

theorem Answers.answersSlots (h : Answers s t) : AnswersSlots s t := by
  obtain ⟨l, d, c, rfl⟩ := h
  exact ⟨l, d, c, s.sls.slots, rfl⟩

theorem AnswersSlots.atPort (h : AnswersSlots s t) (op : PortOp) : atPort op t = atPort op s := by
  obtain ⟨l, d, c, v, rfl⟩ := h
  rfl

theorem AnswersSlots.foldl {α : Type} {step : State → α → State} (h : ∀ u x, AnswersSlots u (step u x)) (l : List α)
    (s : State) : AnswersSlots s (l.foldl step s) := by
  induction l generalizing s with
  | nil => exact .refl _
  | cons x l ih => exact (h s x).trans (ih _)

theorem answersSlots_setSlot (i : Nat) (x : Slot) (s : State) : AnswersSlots s (setSlot i x s) :=
  ⟨s.link, s.dem, s.mgu.coreReset, _, rfl⟩

theorem haltRelease_answersSlots (s : State) (i : Nat) : AnswersSlots s (haltRelease s i) := by
  unfold haltRelease
  split
  · split
    · exact .refl _
    · exact (answersSlots_setSlot i _ s).trans (answers_answer _ _ _ _).answersSlots
  · exact .refl _

/-- Slot `i` as HALTED leaves it. -/
def haltedSlot (s : State) (i : Nat) : Slot :=
  match slotAt s i with
  | .releasing a d time (some w) =>
    .releasing a d time (if atPort (.releaseWrite i w.age) s then some w else none)
  | x => x

/-- The slots after a run of releases is ended. -/
theorem foldl_haltRelease_slot {l : List Nat} (hl : l.Nodup) (h32 : ∀ i ∈ l, i < 32) (s : State) (j : Nat) :
    slotAt (l.foldl haltRelease s) j = if j ∈ l then haltedSlot s j else slotAt s j := by
  induction l generalizing s with
  | nil => rfl
  | cons i l ih =>
    obtain ⟨hi, hl⟩ := List.nodup_cons.mp hl
    have step := haltRelease_slot s i j (h32 i List.mem_cons_self)
    rw [List.foldl_cons, ih hl fun x hx => h32 x (List.mem_cons_of_mem _ hx)]
    by_cases hij : i = j
    · subst hij
      rw [if_neg hi, if_pos List.mem_cons_self, step, if_pos rfl]
      rfl
    · rw [if_neg hij] at step
      have same : haltedSlot (haltRelease s i) j = haltedSlot s j := by
        unfold haltedSlot
        simp only [step, (haltRelease_answersSlots s i).atPort]
      simp only [List.mem_cons, Ne.symm hij, false_or, same, step]

theorem haltRelease_completes (s : State) {i : Nat} (hi : i < 32) :
    Completes (ReleaseAsked s) s (haltRelease s i) := by
  unfold haltRelease
  split
  · next a d time w hw =>
    split
    · exact .refl
    · have freed : Completes (ReleaseAsked s) s (setSlot i (.releasing a d time none) s) := .of_same rfl rfl rfl
      exact freed.trans ((Completes.answer ..).mono fun k hk => ⟨i, hi, a, d, time, w, hw, hk.symm⟩)
  · exact .refl

/-- Ending releases asks for none. -/
theorem haltRelease_asked {i : Nat} (hi : i < 32) (h : ReleaseAsked (haltRelease s i) k) : ReleaseAsked s k := by
  obtain ⟨j, hj, a, d, time, w, hw, hk⟩ := h
  rw [haltRelease_slot s i j hi] at hw
  by_cases hij : i = j
  · subst hij
    rw [if_pos rfl] at hw
    split at hw
    · next a' d' time' w' hs =>
      split at hw
      · obtain ⟨-, -, -, same⟩ := Slot.releasing.inj hw
        obtain rfl := Option.some.inj same
        exact ⟨i, hi, a', d', time', w', hs, hk⟩
      · cases hw
    · exact ⟨i, hi, a, d, time, w, hw, hk⟩
  · rw [if_neg hij] at hw
    exact ⟨j, hj, a, d, time, w, hw, hk⟩

theorem foldl_haltRelease_completes {l : List Nat} (h32 : ∀ i ∈ l, i < 32) (s : State) :
    Completes (ReleaseAsked s) s (l.foldl haltRelease s) := by
  induction l generalizing s with
  | nil => exact .refl
  | cons i l ih =>
    have hi := h32 i List.mem_cons_self
    exact (haltRelease_completes s hi).trans
      ((ih (fun x hx => h32 x (List.mem_cons_of_mem _ hx)) _).mono fun k hk => haltRelease_asked hi hk)

/-! ## Spare Retires -/

/-- `k` is the name of a Spare Retire in progress. -/
def RetireAsked (s : State) (k : Nat) : Prop := ∃ w ∈ s.sls.retires, w.request = k

/-- The end of a Spare Retire at HALTED: answers, and the work that is not at DRAM. -/
theorem haltRetire_form (s : State) (w : RetireWork) :
    Answers { s with sls := { s.sls with retires := (s.sls.retires.filter fun x =>
      x.request != w.request || atPort (.retireRead x.request) s) } } (haltRetire s w) := by
  unfold haltRetire
  by_cases hp : atPort (.retireRead w.request) s = true
  · have all : (s.sls.retires.filter fun x => x.request != w.request || atPort (.retireRead x.request) s) =
        s.sls.retires := by
      rw [List.filter_eq_self]
      intro x _
      by_cases hx : x.request = w.request
      · rw [hx, hp, Bool.or_true]
      · simp [hx]
    rw [if_pos hp, all]
    exact .refl _
  · have gone : (s.sls.retires.filter fun x => x.request != w.request || atPort (.retireRead x.request) s) =
        s.sls.retires.filter fun x => x.request != w.request := by
      refine List.filter_congr fun x _ => ?_
      by_cases hx : x.request = w.request
      · simp [hx, hp]
      · simp [hx]
    rw [if_neg hp, gone]
    exact answers_answer _ _ _ _

theorem foldl_haltRetire_form (l : List RetireWork) (s : State) :
    Answers { s with sls := { s.sls with retires := (s.sls.retires.filter fun x =>
      (l.all fun w => x.request != w.request) || atPort (.retireRead x.request) s) } } (l.foldl haltRetire s) := by
  induction l generalizing s with
  | nil =>
    have all : (s.sls.retires.filter fun x =>
        (([] : List RetireWork).all fun w => x.request != w.request) || atPort (.retireRead x.request) s) =
          s.sls.retires := List.filter_eq_self.mpr fun _ _ => rfl
    rw [all]
    exact .refl _
  | cons w l ih =>
    obtain ⟨k, d, c, h⟩ := haltRetire_form s w
    obtain ⟨k', d', c', h'⟩ := ih (haltRetire s w)
    refine ⟨k', d', c', ?_⟩
    rw [List.foldl_cons, h', h]
    have both : ((s.sls.retires.filter fun x => x.request != w.request || atPort (.retireRead x.request) s).filter
        fun x => (l.all fun w => x.request != w.request) || atPort (.retireRead x.request) s) =
          s.sls.retires.filter fun x => ((w :: l).all fun w => x.request != w.request) ||
            atPort (.retireRead x.request) s := by
      rw [List.filter_filter]
      refine List.filter_congr fun x _ => ?_
      rw [List.all_cons]
      cases atPort (.retireRead x.request) s <;> simp [Bool.and_comm]
    exact congrArg (fun ws => { s with
      link := k', dem := d', mgu := { s.mgu with coreReset := c' }, sls := { s.sls with retires := ws } }) both

theorem haltRetire_completes (s : State) (w : RetireWork) :
    Completes (· = w.request) s (haltRetire s w) := by
  unfold haltRetire
  split
  · exact .refl
  · have ended : Completes (· = w.request) s (endRetire w.request s) := .of_same rfl rfl rfl
    exact ended.trans (.answer ..)

theorem foldl_haltRetire_completes (s : State) :
    Completes (RetireAsked s) s (s.sls.retires.foldl haltRetire s) :=
  .foldl (fun u w hw => (haltRetire_completes u w).mono fun _ hk => ⟨w, hw, hk.symm⟩) s

/-! ## The drain -/

theorem haltDrain_answers (s : State) : Answers s (haltDrain s) := by
  unfold haltDrain
  split
  · exact answers_answer _ _ _ _
  · exact .refl _

theorem haltDrain_completes (s : State) :
    Completes (fun k => s.mgu.coreReset = some ⟨.drain, k⟩) s (haltDrain s) := by
  unfold haltDrain
  split
  · next id h => exact (Completes.answer ..).mono fun k hk => hk ▸ h
  · exact .refl

/-! ## The stages together -/

theorem foldl_haltRelease_form (l : List Nat) (s : State) : AnswersSlots s (l.foldl haltRelease s) :=
  .foldl haltRelease_answersSlots l s

/-- After the answers: the retries, the slots and the Spare Retires as HALTED leaves them. -/
theorem worksAnswered_form (s : State) : ∃ l d c v, worksAnswered s = { s with
      link := l, dem := d, mgu := { s.mgu with coreReset := c }
      fcu := { s.fcu with contexts := haltedContexts s }
      sls := { s.sls with
        slots := v, retires := s.sls.retires.filter fun w => atPort (.retireRead w.request) s } } ∧
    ∀ i < 32, getAt v i .free = haltedSlot s i := by
  obtain ⟨l, d, c, hdemand⟩ := haltDemand_answers (retriesEnded s)
  have slots := foldl_haltRelease_slot List.nodup_range (fun i => List.mem_range.mp)
    (haltDemand (retriesEnded s))
  obtain ⟨l', d', c', v, hrelease⟩ := foldl_haltRelease_form (List.range 32) (haltDemand (retriesEnded s))
  obtain ⟨l'', d'', c'', hretire⟩ := foldl_haltRetire_form (releasesEnded s).sls.retires (releasesEnded s)
  refine ⟨l'', d'', c'', v, ?_, fun i hi => ?_⟩
  · unfold worksAnswered
    rw [hretire, releasesEnded, hrelease, hdemand]
    have port : (s.sls.retires.filter fun x => (s.sls.retires.all fun w => x.request != w.request) ||
        atPort (.retireRead x.request) s) = s.sls.retires.filter fun w => atPort (.retireRead w.request) s := by
      refine List.filter_congr fun x hx => ?_
      have : (s.sls.retires.all fun w => x.request != w.request) = false := by
        rw [Bool.eq_false_iff]
        intro h
        simpa using List.all_eq_true.mp h x hx
      rw [this, Bool.false_or]
    exact congrArg (fun ws => { s with
      link := l'', dem := d'', mgu := { s.mgu with coreReset := c'' }
      fcu := { s.fcu with contexts := haltedContexts s }
      sls := { s.sls with slots := v, retires := ws } }) port
  · have at_i := slots i
    rw [if_pos (List.mem_range.mpr hi)] at at_i
    have hv : slotAt ((List.range 32).foldl haltRelease (haltDemand (retriesEnded s))) i = getAt v i .free := by
      rw [hrelease]
      rfl
    rw [← hv, at_i, hdemand]
    rfl

/-- The end of the work, block by block. -/
theorem endWorkAtHalt_form (s : State) : ∃ l d c v ranks due, endWorkAtHalt s = { s with
      link := l, dem := d, mgu := { s.mgu with coreReset := c }
      fcu := { s.fcu with contexts := haltedContexts s }
      sls := { s.sls with
        slots := v, retires := s.sls.retires.filter fun w => atPort (.retireRead w.request) s }
      psc := { s.psc with running := false, cursorPhase := .untested }
      drp := { s.drp with ranks := ranks, refreshDue := due } } ∧
    ∀ i < 32, getAt v i .free = haltedSlot s i := by
  obtain ⟨l, d, c, v, hw, hv⟩ := worksAnswered_form s
  obtain ⟨l', ranks, hfill, -⟩ := stopFills_form (stopPatrol (worksAnswered s))
  obtain ⟨l'', d'', c'', hdrain⟩ := haltDrain_answers (stopFills (stopPatrol (worksAnswered s)))
  obtain ⟨ranks', due, hsettle⟩ := settle_form (haltDrain (stopFills (stopPatrol (worksAnswered s))))
  refine ⟨l'', d'', c'', v, ranks', due, ?_, hv⟩
  rw [endWorkAtHalt_eq, hsettle, hdrain, hfill, hw]
  rfl

theorem endWorkAtHalt_rank (s : State) {q : Nat} (hq : q < 4) :
    (rankRec (endWorkAtHalt s) q).fillPosition = (rankRec s q).fillPosition ∧
      rankState (endWorkAtHalt s) q = if rankState s q = .filling then .offline else rankState s q := by
  obtain ⟨l, d, c, v, hw, -⟩ := worksAnswered_form s
  obtain ⟨l', d', c', hdrain⟩ := haltDrain_answers (stopFills (stopPatrol (worksAnswered s)))
  have before : rankRec (stopPatrol (worksAnswered s)) q = rankRec s q := by
    rw [hw]
    rfl
  have stopped := stopFills_rank (stopPatrol (worksAnswered s)) q hq
  rw [show rankState (stopPatrol (worksAnswered s)) q = rankState s q from congrArg RankRec.state before, before]
    at stopped
  have drained : rankRec (haltDrain (stopFills (stopPatrol (worksAnswered s)))) q =
      rankRec (stopFills (stopPatrol (worksAnswered s))) q := by
    unfold rankRec
    rw [hdrain]
  obtain ⟨state, position⟩ := settle_rank (haltDrain (stopFills (stopPatrol (worksAnswered s)))) q
  rw [endWorkAtHalt_eq, state, position, rankState, drained, stopped]
  constructor
  · split <;> rfl
  · split <;> rfl

/-! ## Which requests the end of the work answers -/

/-- HALTED answers the request named `k`. -/
def EndsAtHalt (s : State) (k : Nat) : Prop :=
  NamesDemand s k ∨ ReleaseAsked s k ∨ RetireAsked s k ∨ s.mgu.coreReset = some ⟨.drain, k⟩

theorem stopFill_completes {ids : Nat → Prop} (s : State) (r : Nat) : Completes ids s (stopFill s r) := by
  unfold stopFill
  split
  · have offline : Completes ids s (setRank r { rankRec s r with state := .offline } s) := .of_same rfl rfl rfl
    exact offline.trans (.raise ..)
  · exact .refl

theorem stopPatrol_completes {ids : Nat → Prop} (s : State) : Completes ids s (stopPatrol s) := .of_same rfl rfl rfl

theorem settle_completes {ids : Nat → Prop} (s : State) : Completes ids s (settle s) := by
  obtain ⟨v, d, h⟩ := settle_form s
  rw [h]
  exact .of_same rfl rfl rfl

theorem stopFills_completes {ids : Nat → Prop} (s : State) : Completes ids s (stopFills s) :=
  .foldl (fun u r _ => stopFill_completes u r) s

/-- The first two stages, up to the Spare Releases. -/
theorem releasesEnded_completes (s : State) :
    Completes (fun k => NamesDemand s k ∨ ReleaseAsked s k) s (releasesEnded s) := by
  have retries : Completes (NamesDemand s) s (retriesEnded s) := .of_same rfl rfl rfl
  have demand : Completes (NamesDemand s) s (haltDemand (retriesEnded s)) :=
    retries.trans (haltDemand_completes (retriesEnded s))
  have release := foldl_haltRelease_completes (l := List.range 32) (fun _ => List.mem_range.mp)
    (haltDemand (retriesEnded s))
  refine (demand.mono fun _ => .inl).trans (release.mono fun k hk => .inr ?_)
  obtain ⟨i, hi, a, d, time, w, hw, hk⟩ := hk
  exact ⟨i, hi, a, d, time, w, by rwa [slotAt_answers (haltDemand_answers _)] at hw, hk⟩

theorem releasesEnded_retires (s : State) : (releasesEnded s).sls.retires = s.sls.retires := by
  obtain ⟨l, d, c, hdemand⟩ := haltDemand_answers (retriesEnded s)
  obtain ⟨l', d', c', v, hrelease⟩ := foldl_haltRelease_form (List.range 32) (haltDemand (retriesEnded s))
  rw [releasesEnded, hrelease, hdemand]
  rfl

theorem worksAnswered_completes (s : State) : Completes
    (fun k => NamesDemand s k ∨ ReleaseAsked s k ∨ RetireAsked s k) s (worksAnswered s) := by
  have retires : Completes (RetireAsked (releasesEnded s)) (releasesEnded s) (worksAnswered s) :=
    foldl_haltRetire_completes _
  refine ((releasesEnded_completes s).mono fun k hk => ?_).trans (retires.mono fun k hk => ?_)
  · exact hk.elim .inl fun h => .inr (.inl h)
  · obtain ⟨w, hw, hk⟩ := hk
    exact .inr (.inr ⟨w, by rwa [releasesEnded_retires] at hw, hk⟩)

/-- Everything up to the end of the drain. -/
theorem beforeDrain_completes (s : State) : Completes
    (fun k => NamesDemand s k ∨ ReleaseAsked s k ∨ RetireAsked s k) s (stopFills (stopPatrol (worksAnswered s))) := by
  have stopped (u : State) : Completes (fun k => NamesDemand s k ∨ ReleaseAsked s k ∨ RetireAsked s k) u
      (stopFills (stopPatrol u)) :=
    (stopPatrol_completes u).trans (stopFills_completes _)
  exact (worksAnswered_completes s).trans (stopped _)

theorem endWorkAtHalt_completes (s : State) : Completes (EndsAtHalt s) s (endWorkAtHalt s) := by
  have before := beforeDrain_completes s
  rw [endWorkAtHalt_eq]
  refine ((before.mono fun k hk => ?_).trans ((haltDrain_completes _).mono fun k hk => ?_)).trans (settle_completes _)
  · exact hk.elim .inl fun h => .inr (h.elim .inl fun h => .inr (.inl h))
  · exact .inr (.inr (.inr (before.reset _ hk)))

theorem enterHalted_completes (cause : HaltCause) (s : State) : Completes (EndsAtHalt s) s (enterHalted cause s) := by
  by_cases h : s.fcu.halted.isSome
  · rw [enterHalted_of_halted cause h]
    exact .refl
  · rw [enterHalted_of_served cause (by simpa using h)]
    have raised : EndsAtHalt (raise .halted (.table cause.table cause.index)
        { s with fcu := { s.fcu with halted := some cause } }) = EndsAtHalt s := by
      rw [raise_eq]
      rfl
    have same : Completes (EndsAtHalt s) s { s with fcu := { s.fcu with halted := some cause } } :=
      .of_same rfl rfl rfl
    exact (same.trans (Completes.raise ..)).trans (raised ▸ endWorkAtHalt_completes _)

/-! ## Entering HALTED, block by block -/

/-- What HALTED leaves of every block. -/
theorem enterHalted_form (cause : HaltCause) (h : s.fcu.halted = none) : ∃ l d c v ranks due,
    enterHalted cause s = { s with
      link := l, dem := d, mgu := { s.mgu with coreReset := c }
      fcu := { s.fcu with halted := some cause, contexts := haltedContexts s }
      sls := { s.sls with
        slots := v, retires := s.sls.retires.filter fun w => atPort (.retireRead w.request) s }
      psc := { s.psc with running := false, cursorPhase := .untested }
      drp := { s.drp with ranks := ranks, refreshDue := due } } ∧
    ∀ i < 32, getAt v i .free = haltedSlot s i := by
  rw [enterHalted_of_served cause h, raise_eq]
  obtain ⟨l, d, c, v, ranks, due, hw, hv⟩ := endWorkAtHalt_form
    { s with
      fcu := { s.fcu with halted := some cause }
      link := (raise .halted (.table cause.table cause.index)
        { s with fcu := { s.fcu with halted := some cause } }).link }
  exact ⟨l, d, c, v, ranks, due, hw, hv⟩

theorem enterHalted_rank (cause : HaltCause) (h : s.fcu.halted = none) {q : Nat} (hq : q < 4) :
    (rankRec (enterHalted cause s) q).fillPosition = (rankRec s q).fillPosition ∧
      rankState (enterHalted cause s) q = if rankState s q = .filling then .offline else rankState s q := by
  rw [enterHalted_of_served cause h]
  have same : rankRec (raise .halted (.table cause.table cause.index)
      { s with fcu := { s.fcu with halted := some cause } }) q = rankRec s q := by
    rw [raise_eq]
    rfl
  have ranks := endWorkAtHalt_rank (raise .halted (.table cause.table cause.index)
    { s with fcu := { s.fcu with halted := some cause } }) hq
  unfold rankState at ranks ⊢
  rwa [same] at ranks

theorem enterHalted_halted (cause : HaltCause) (h : s.fcu.halted = none) :
    (enterHalted cause s).fcu.halted = some cause := by
  obtain ⟨l, d, c, v, ranks, due, hw, -⟩ := enterHalted_form cause h
  rw [hw]

theorem enterHalted_dht (cause : HaltCause) (s : State) : (enterHalted cause s).dht = s.dht := by
  cases h : s.fcu.halted with
  | some c => rw [enterHalted_of_halted cause (by rw [h]; rfl)]
  | none =>
    obtain ⟨l, d, c, v, ranks, due, hw, -⟩ := enterHalted_form cause h
    rw [hw]

/-! ## The answers of HALTED -/

/-- Everything behind the demand requests. -/
theorem behindDemand_completes (s : State) :
    Completes (fun _ => True) (haltDemand (retriesEnded s)) (endWorkAtHalt s) := by
  have releases : Completes (fun _ => True) (haltDemand (retriesEnded s)) (releasesEnded s) :=
    (foldl_haltRelease_completes (l := List.range 32) (fun _ => List.mem_range.mp)
      (haltDemand (retriesEnded s))).mono fun _ _ => trivial
  have retires : Completes (fun _ => True) (releasesEnded s) (worksAnswered s) :=
    (foldl_haltRetire_completes (releasesEnded s)).mono fun _ _ => trivial
  have stopped := (stopPatrol_completes (ids := fun _ => True) (worksAnswered s)).trans (stopFills_completes _)
  have drained : Completes (fun _ => True) _ (haltDrain (stopFills (stopPatrol (worksAnswered s)))) :=
    (haltDrain_completes _).mono fun _ _ => trivial
  rw [endWorkAtHalt_eq]
  exact (releases.trans retires).trans ((stopped.trans drained).trans (settle_completes _))

/-- A demand request that waits for a grant or a holder, or whose retry is withdrawn, is answered HALTED (R39). -/
theorem endWorkAtHalt_delivers_demand (hn : RequestsNamed s) (ha : s.link.state = .active)
    (hq : q ∈ s.dem.requests) (ho : q.orphan = false) (hp : q.phase ≠ .completing) (hd : q.isDemand = true)
    (he : endsAtHalt q (retriesEnded s) = true) : Delivered q.id (completionFrame q .halted) (endWorkAtHalt s) :=
  (behindDemand_completes s).delivered _ _ (haltDemand_delivers (s := retriesEnded s) hn.1 ha hq ho hp hd he)

/-- A management request that HALTED may answer still waits, its Core Reset with it. -/
structure HaltOpen (q : Request) (s u : State) : Prop where
  waits : Waits q u
  port : u.drp = s.drp
  reset : s.mgu.coreReset = some ⟨.drain, q.id⟩ → u.mgu.coreReset = some ⟨.drain, q.id⟩

/-- It still waits, or is answered HALTED. -/
def HaltAnswers (q : Request) (s u : State) : Prop :=
  HaltOpen q s u ∨ Delivered q.id (.manageDone q.tag .halted []) u

section

variable (ho : q.orphan = false) (hp : q.phase ≠ .completing)
include ho hp

theorem HaltOpen.answer (h : HaltOpen q s u) (k : Nat) : HaltAnswers q s (answer k .halted [] u) := by
  by_cases hk : k = q.id
  · subst hk
    exact .inr (h.waits.answer ho hp .halted [])
  · have hc := Completes.answer k .halted [] u
    have other : ¬q.id = k := fun e => hk e.symm
    refine .inl ⟨h.waits.after hc other, ?_, fun hr => hc.resetKept _ (h.reset hr) other⟩
    obtain ⟨l, d, c, he⟩ := answers_answer k .halted [] u
    rw [he]
    exact h.port

omit ho hp in
theorem HaltOpen.same (h : HaltOpen q s u) (hl : t.link = u.link) (hd : t.dem = u.dem)
    (hm : t.mgu.coreReset = u.mgu.coreReset) (hdrp : t.drp = u.drp) : HaltOpen q s t :=
  ⟨h.waits.after (ids := fun _ => False) (.of_same hl hd hm) not_false, hdrp.trans h.port,
    fun hr => hm.trans (h.reset hr)⟩

theorem HaltAnswers.haltRelease (h : HaltAnswers q s u) {i : Nat} (hi : i < 32) :
    HaltAnswers q s (haltRelease u i) := by
  rcases h with h | h
  · unfold Machine.haltRelease
    split
    · split
      · exact .inl h
      · refine HaltOpen.answer ho hp ?_ _
        exact h.same rfl rfl rfl rfl
    · exact .inl h
  · exact .inr ((haltRelease_completes u hi).delivered _ _ h)

theorem HaltAnswers.haltRetire (h : HaltAnswers q s u) (w : RetireWork) : HaltAnswers q s (haltRetire u w) := by
  rcases h with h | h
  · unfold Machine.haltRetire
    split
    · exact .inl h
    · refine HaltOpen.answer ho hp ?_ _
      exact h.same rfl rfl rfl rfl
  · exact .inr ((haltRetire_completes u w).delivered _ _ h)

omit ho hp in
/-- Before the releases are ended every management request still waits. -/
theorem haltDemand_open (hn : RequestsNamed s) (ha : s.link.state = .active) (hq : q ∈ s.dem.requests)
    (hd : q.isDemand = false) : HaltOpen q s (haltDemand (retriesEnded s)) := by
  have notDemand : ¬NamesDemand (retriesEnded s) q.id := by
    rintro ⟨x, hx, hxd, hid⟩
    obtain rfl := unique_name hn hx hq hid
    rw [hd] at hxd
    cases hxd
  have hc := haltDemand_completes (retriesEnded s)
  have start : Waits q (retriesEnded s) := waits_of_mem hn.1 ha hq
  refine ⟨start.after hc notDemand, ?_, fun hr => hc.resetKept _ hr notDemand⟩
  obtain ⟨l, d, c, he⟩ := haltDemand_answers (retriesEnded s)
  rw [he]
  rfl

omit ho hp in
theorem HaltOpen.atPort (h : HaltOpen q s u) (op : PortOp) : atPort op u = atPort op s := by
  unfold Machine.atPort
  rw [h.port]

theorem HaltOpen.haltRelease (h : HaltOpen q s u) {i : Nat} {a : LineAddr} {d : StoredLine} {time : TimeBase}
    {w : ReleaseWork} (hs : slotAt u i = .releasing a d time (some w)) (hid : w.request = q.id)
    (hport : Machine.atPort (.releaseWrite i w.age) s = false) :
    Delivered q.id (.manageDone q.tag .halted []) (haltRelease u i) := by
  have open' : HaltOpen q s (setSlot i (.releasing a d time none) u) := h.same rfl rfl rfl rfl
  unfold Machine.haltRelease
  rw [hs]
  dsimp only
  rw [h.atPort, hport, hid]
  exact open'.waits.answer ho hp .halted []

theorem HaltOpen.haltRetire (h : HaltOpen q s u) {w : RetireWork} (hid : w.request = q.id)
    (hport : Machine.atPort (.retireRead q.id) s = false) :
    Delivered q.id (.manageDone q.tag .halted []) (haltRetire u w) := by
  have open' : HaltOpen q s (endRetire q.id u) := h.same rfl rfl rfl rfl
  unfold Machine.haltRetire
  rw [hid, h.atPort, hport]
  exact open'.waits.answer ho hp .halted []

theorem releasesEnded_open (start : HaltOpen q s (haltDemand (retriesEnded s))) :
    HaltAnswers q s (releasesEnded s) :=
  List.foldlRecOn _ _ (.inl start) fun _ hu _ hi => HaltAnswers.haltRelease ho hp hu (List.mem_range.mp hi)

theorem worksAnswered_open (start : HaltOpen q s (haltDemand (retriesEnded s))) :
    HaltAnswers q s (worksAnswered s) :=
  List.foldlRecOn _ _ (releasesEnded_open ho hp start) fun _ hu w _ => HaltAnswers.haltRetire ho hp hu w

theorem releasesEnded_delivers (start : HaltOpen q s (haltDemand (retriesEnded s))) {i : Nat} (hi : i < 32)
    {a : LineAddr} {d : StoredLine} {time : TimeBase} {w : ReleaseWork}
    (hw : slotAt s i = .releasing a d time (some w)) (hid : w.request = q.id)
    (hport : Machine.atPort (.releaseWrite i w.age) s = false) :
    Delivered q.id (.manageDone q.tag .halted []) (releasesEnded s) := by
  have slot : slotAt (haltDemand (retriesEnded s)) i = .releasing a d time (some w) := by
    rw [slotAt_answers (haltDemand_answers _)]
    exact hw
  refine foldl_reaches (I := fun u => HaltOpen q s u ∧ slotAt u i = .releasing a d time (some w)) (x := i)
    (fun u j hj h => (haltRelease_completes u (List.mem_range.mp hj)).delivered _ _ h) (fun u j hj hu => ?_)
    (fun u hu => hu.1.haltRelease ho hp hu.2 hid hport) (List.mem_range.mpr hi) (.inl ⟨start, slot⟩)
  by_cases hij : j = i
  · exact .inr (by rw [hij]; exact hu.1.haltRelease ho hp hu.2 hid hport)
  · rcases HaltAnswers.haltRelease ho hp (.inl hu.1) (List.mem_range.mp hj) with h | h
    · refine .inl ⟨h, ?_⟩
      rw [haltRelease_slot u j i (List.mem_range.mp hj), if_neg hij]
      exact hu.2
    · exact .inr h

theorem worksAnswered_delivers (start : HaltOpen q s (haltDemand (retriesEnded s))) {w : RetireWork}
    (hw : w ∈ s.sls.retires) (hid : w.request = q.id) (hport : Machine.atPort (.retireRead q.id) s = false) :
    Delivered q.id (.manageDone q.tag .halted []) (worksAnswered s) := by
  have hw' : w ∈ (releasesEnded s).sls.retires := by rwa [releasesEnded_retires]
  exact foldl_reaches (I := fun u => HaltOpen q s u) (x := w)
    (fun u x _ h => (haltRetire_completes u x).delivered _ _ h)
    (fun u x _ hu => HaltAnswers.haltRetire ho hp (.inl hu) x) (fun u hu => hu.haltRetire ho hp hid hport) hw'
    (releasesEnded_open ho hp start)

/-- The requests of releases, Spare Retires and a drain that HALTED ends are answered HALTED (R85, R127). -/
theorem endWorkAtHalt_delivers (hn : RequestsNamed s) (ha : s.link.state = .active) (hq : q ∈ s.dem.requests)
    (hd : q.isDemand = false)
    (ends : (∃ w ∈ s.sls.retires, w.request = q.id ∧ Machine.atPort (.retireRead q.id) s = false) ∨
      (∃ i < 32, ∃ a d time w, slotAt s i = .releasing a d time (some w) ∧ w.request = q.id ∧
        Machine.atPort (.releaseWrite i w.age) s = false) ∨
      s.mgu.coreReset = some ⟨.drain, q.id⟩) :
    Delivered q.id (.manageDone q.tag .halted []) (endWorkAtHalt s) := by
  have start := haltDemand_open hn ha hq hd
  have afterReleases : Completes (fun _ => True) (releasesEnded s) (worksAnswered s) :=
    (foldl_haltRetire_completes (releasesEnded s)).mono fun _ _ => trivial
  have stopped : Completes (fun _ => False) (worksAnswered s) (stopFills (stopPatrol (worksAnswered s))) :=
    (stopPatrol_completes _).trans (stopFills_completes _)
  have drained := haltDrain_completes (stopFills (stopPatrol (worksAnswered s)))
  have settled : ∀ u, Delivered q.id (.manageDone q.tag .halted []) u →
      Delivered q.id (.manageDone q.tag .halted []) (settle u) :=
    fun u h => (settle_completes (ids := fun _ => False) u).delivered _ _ h
  rw [endWorkAtHalt_eq]
  refine settled _ ?_
  rcases ends with ⟨w, hw, hid, hport⟩ | ⟨i, hi, a, d, time, w, hw, hid, hport⟩ | hreset
  · exact drained.delivered _ _ (stopped.delivered _ _ (worksAnswered_delivers ho hp start hw hid hport))
  · exact drained.delivered _ _ (stopped.delivered _ _
      (afterReleases.delivered _ _ (releasesEnded_delivers ho hp start hi hw hid hport)))
  · rcases worksAnswered_open ho hp start with h | h
    · have waits := h.waits.after stopped not_false
      have reset := stopped.resetKept _ (h.reset hreset) not_false
      unfold haltDrain
      rw [reset]
      exact waits.answer ho hp .halted []
    · exact drained.delivered _ _ (stopped.delivered _ _ h)

end

end Sys2Proof.Machine
end

section
/-! Checked reads of one item of a table, and that a request being served beside them changes nothing of what they do
(R50, R51, R110, R111, R136). -/

namespace Sys2Proof.Machine

variable {s t u : State} {f : UpFrame} {id k n i : Nat} {r q : Request} {args : List Byte} {p : Phase}

/-! ## A request that changes its phase beside a capture -/

theorem recordAt_setPhase (x : RecordName) : recordAt (setPhase id p s) x = recordAt s x := by
  cases x <;> rfl

theorem setRecord_setPhase (x : RecordName) (c : CaptureRecord) :
    setRecord x c (setPhase id p s) = setPhase id p (setRecord x c s) := by
  cases x <;> rfl

theorem checkBack_setPhase (x : RecordName) : checkBack x (setPhase id p s) = setPhase id p (checkBack x s) := by
  unfold checkBack
  rw [recordAt_setPhase]
  split
  · rfl
  · rw [setRecord_setPhase, raise_setPhase]
  · exact setRecord_setPhase ..

theorem writeCapture_setPhase (x : RecordName) (c : Capture) :
    writeCapture x c (setPhase id p s) = setPhase id p (writeCapture x c s) := by
  have written := setRecord_setPhase (id := id) (p := p) (s := { s with fcu := { s.fcu with next := otherRecord x } }) x
    ⟨.held { c with phase := s.psc.phase, time := s.mgu.timeBase }, .sound, (recordAt s x).strike⟩
  unfold writeCapture
  rw [recordAt_setPhase]
  exact (congrArg (checkBack x) written).trans (checkBack_setPhase x)

theorem captureTarget_setPhase : captureTarget (setPhase id p s) = captureTarget s := by
  unfold captureTarget
  simp only [recordAt_setPhase]
  rfl

theorem placeCapture_setPhase (c : Capture) :
    placeCapture c (setPhase id p s) = ((placeCapture c s).1, setPhase id p (placeCapture c s).2) := by
  unfold placeCapture
  rw [captureTarget_setPhase]
  by_cases halted : s.fcu.halted.isSome
  · rw [if_pos halted, if_pos (show (setPhase id p s).fcu.halted.isSome from halted)]
  · rw [if_neg halted, if_neg (show ¬(setPhase id p s).fcu.halted.isSome from halted)]
    cases captureTarget s with
    | some x => exact congrArg (Prod.mk _) (writeCapture_setPhase x c)
    | none => exact congrArg (Prod.mk _) (raise_setPhase .captureLost c.subject id p (countLostCapture s))

theorem itemLost_setPhase (x : TableId) (i : Nat) :
    itemLost x i (setPhase id p s) = setPhase id p (itemLost x i s) := by
  unfold itemLost reported
  rw [placeCapture_setPhase]
  exact raiseAt_setPhase ..

theorem recordsReady_setPhase (h : RecordsReady s) : RecordsReady (setPhase id p s) :=
  fun x => by rw [recordAt_setPhase]; exact h x

/-! ## What a capture leaves -/

theorem checkBack_link_state (x : RecordName) (s : State) : (checkBack x s).link.state = s.link.state := by
  unfold checkBack
  split
  · rfl
  · rw [raise_link_state, setRecord_link]
  · rw [setRecord_link]

theorem placeCapture_link_state (c : Capture) (s : State) : (placeCapture c s).2.link.state = s.link.state := by
  unfold placeCapture
  split
  · rfl
  · split
    · exact (checkBack_link_state _ _).trans (by rw [setRecord_link])
    · exact raise_link_state ..

theorem raiseAt_link_state (kind : EventKind) (level : Nat) (x : Subject) (record : Option RecordName) (s : State) :
    (raiseAt kind level x record s).link.state = s.link.state := by
  unfold raiseAt
  split
  · exact pushUp_linkState _ _
  · rfl

theorem itemLost_link_state (x : TableId) (i : Nat) (s : State) : (itemLost x i s).link.state = s.link.state :=
  (raiseAt_link_state ..).trans (placeCapture_link_state _ _)

theorem raiseAt_mgu (kind : EventKind) (level : Nat) (x : Subject) (record : Option RecordName) (s : State) :
    (raiseAt kind level x record s).mgu = s.mgu := by
  rw [raiseAt_eq]

theorem raiseAt_psc (kind : EventKind) (level : Nat) (x : Subject) (record : Option RecordName) (s : State) :
    (raiseAt kind level x record s).psc = s.psc := by
  rw [raiseAt_eq]

theorem checkBack_psc (x : RecordName) (s : State) : (checkBack x s).psc = s.psc := by
  unfold checkBack
  split
  · rfl
  · rw [raise_psc, setRecord_psc]
  · rw [setRecord_psc]

theorem checkBack_mgu (x : RecordName) (s : State) : (checkBack x s).mgu = s.mgu := by
  unfold checkBack
  split
  · rfl
  · rw [raise_mgu, setRecord_mgu]
  · rw [setRecord_mgu]

theorem placeCapture_psc (c : Capture) (s : State) : (placeCapture c s).2.psc = s.psc := by
  unfold placeCapture
  split
  · rfl
  · split
    · exact (checkBack_psc _ _).trans (by rw [setRecord_psc])
    · exact (raise_psc ..).trans rfl

theorem placeCapture_coreReset (c : Capture) (s : State) :
    (placeCapture c s).2.mgu.coreReset = s.mgu.coreReset := by
  unfold placeCapture
  split
  · rfl
  · split
    · exact congrArg Mgu.coreReset ((checkBack_mgu _ _).trans (by rw [setRecord_mgu]))
    · exact (congrArg Mgu.coreReset (raise_mgu ..)).trans rfl

theorem itemLost_psc (x : TableId) (i : Nat) (s : State) : (itemLost x i s).psc = s.psc :=
  (raiseAt_psc ..).trans (placeCapture_psc _ _)

theorem itemLost_coreReset (x : TableId) (i : Nat) (s : State) :
    (itemLost x i s).mgu.coreReset = s.mgu.coreReset :=
  (congrArg Mgu.coreReset (raiseAt_mgu ..)).trans (placeCapture_coreReset _ _)

theorem itemLost_rgt (x : TableId) (i : Nat) (s : State) : (itemLost x i s).rgt = s.rgt :=
  (raiseAt_rgt ..).trans (placeCapture_rgt _ _)

/-! ## A region entry -/

theorem checkRegion_single (h : (regionAt s i).storage = .singleBit) : checkRegion s i =
    raise .internalCorrected (.table .region i) (setRegion i ⟨(regionAt s i).value, .sound⟩ s) := by
  unfold checkRegion
  rw [h]

theorem checkRegion_lost (h : (regionAt s i).storage = .uncorrectable) (hr : RecordsReady s) :
    checkRegion s i = itemLost .region i (setRegion i ⟨emptyRegion, .sound⟩ s) := by
  unfold checkRegion
  rw [h]
  exact tableFault_ready hr

/-! ## A profile -/

theorem checkProfile_single (h : (storedProfile s n).storage = .singleBit) : checkProfile n s =
    raise .internalCorrected (.table .phase n) (setProfile n ⟨profileAt s n, .sound⟩ s) := by
  unfold checkProfile
  rw [h]
  rfl

/-- Steal mode keeps its value in HALTED, and is judged otherwise (R141, log 21). -/
theorem evalStealAgainst_eq (threshold : Nat) (s : State) : evalStealAgainst threshold s =
    if s.fcu.halted = none then stealJudged threshold s else s := by
  unfold evalStealAgainst stealJudged
  by_cases h : s.fcu.halted = none
  · rw [if_neg (by simp [h]), if_pos h]
    simp only [Bool.not_eq_true]
  · rw [if_pos (Option.isSome_iff_ne_none.mpr h), if_neg h]

/-- The state after a profile was found lost: its defaults, and steal mode judged for the current one. -/
def profileLost (n : Nat) (s : State) : State :=
  if n = s.psc.phase ∧ s.fcu.halted = none then
    stealJudged defaultProfile.steal (itemLost .phase n (setProfile n ⟨defaultProfile, .sound⟩ s))
  else itemLost .phase n (setProfile n ⟨defaultProfile, .sound⟩ s)

theorem checkProfile_lost (h : (storedProfile s n).storage = .uncorrectable) (hr : RecordsReady s) :
    checkProfile n s = profileLost n s := by
  have ready : RecordsReady (setProfile n ⟨defaultProfile, .sound⟩ s) := hr
  have phase : (itemLost .phase n (setProfile n ⟨defaultProfile, .sound⟩ s)).psc.phase = s.psc.phase :=
    (congrArg Psc.phase (itemLost_psc _ _ _)).trans rfl
  have halted : (itemLost .phase n (setProfile n ⟨defaultProfile, .sound⟩ s)).fcu.halted = s.fcu.halted :=
    (sameWork_itemLost _ _ _).halted
  unfold checkProfile profileLost
  rw [h]
  dsimp only
  rw [tableFault_ready ready, phase, evalStealAgainst_eq, halted]
  by_cases hn : n = s.psc.phase
  · by_cases hh : s.fcu.halted = none
    · rw [if_pos hn, if_pos hh, if_pos ⟨hn, hh⟩]
    · rw [if_pos hn, if_neg hh, if_neg fun hx => hh hx.2]
  · rw [if_neg hn, if_neg fun hx => hn hx.1]

/-- The judgement of steal mode changes the flag, and raises an event. -/
theorem stealJudged_form (threshold : Nat) (s : State) : ∃ l b, stealJudged threshold s =
    { s with link := l, psc := { s.psc with steal := b } } ∧ l.state = s.link.state := by
  unfold stealJudged
  split
  · rw [raise_eq]
    exact ⟨_, true, rfl, raise_link_state ..⟩
  · split
    · rw [raise_eq]
      exact ⟨_, false, rfl, raise_link_state ..⟩
    · exact ⟨s.link, s.psc.steal, rfl, rfl⟩

theorem stealJudged_setPhase (threshold : Nat) :
    stealJudged threshold (setPhase id p s) = setPhase id p (stealJudged threshold s) := by
  unfold stealJudged
  split
  · next h =>
    rw [if_pos (show s.psc.steal = false ∧ threshold ≠ 0 ∧ threshold ≤ s.psc.credit from h)]
    exact raise_setPhase _ _ _ _ { s with psc := { s.psc with steal := true } }
  · next h =>
    rw [if_neg (show ¬(s.psc.steal = false ∧ threshold ≠ 0 ∧ threshold ≤ s.psc.credit) from h)]
    split
    · next h' =>
      rw [if_pos (show s.psc.steal = true ∧ (s.psc.credit ≤ threshold / 2 ∨ threshold = 0) from h')]
      exact raise_setPhase _ _ _ _ { s with psc := { s.psc with steal := false } }
    · next h' => rw [if_neg (show ¬(s.psc.steal = true ∧ (s.psc.credit ≤ threshold / 2 ∨ threshold = 0)) from h')]

/-- With no line to test the patrol does nothing. -/
theorem patrolProceeds_noLine (h : NoLineToTest s) : patrolProceeds s = s := by
  unfold patrolProceeds
  refine if_neg ?_
  rintro ⟨running, -, cursor, untested⟩
  rcases h with h | h | h
  · rw [h] at running
    cases running
  · rw [h] at cursor
    cases cursor
  · exact h untested

/-! ## Some device entries -/

theorem readDevices_one_sound (h : (deviceAt s n).storage = .sound) : readDevices [n] s = (true, s) := by
  have kept : correctDevice s n = s := correctDevice_other (by rw [h]; decide)
  simp [readDevices, kept, faultyAmong, h]

theorem readDevices_one_single (hn : n < 40) (h : (deviceAt s n).storage = .singleBit) : readDevices [n] s =
    (true, raise .internalCorrected (.table .health n) (setDevice n ⟨deviceEntry s n, .sound⟩ s)) := by
  have fixed : correctDevice s n =
      raise .internalCorrected (.table .health n) (setDevice n ⟨deviceEntry s n, .sound⟩ s) := by
    unfold correctDevice
    rw [h]
    rfl
  have sound : (deviceAt (correctDevice s n) n).storage = .sound := by
    rw [fixed, deviceAt_raise, deviceAt_setDevice, if_pos ⟨rfl, hn⟩]
  have none_faulty : faultyAmong [n] (correctDevice s n) = none := by
    simp [faultyAmong, sound]
  unfold readDevices
  simp only [List.foldl_cons, List.foldl_nil, none_faulty]
  rw [fixed]

theorem readDevices_one_faulty (h : (deviceAt s n).storage = .uncorrectable) :
    readDevices [n] s = (false, enterHalted ⟨.health, n⟩ s) := by
  have kept : correctDevice s n = s := correctDevice_other (by rw [h]; decide)
  simp [readDevices, kept, faultyAmong, h]

theorem markOf_congr (h : ∀ n, stateSeen t n = stateSeen s n) (r : Nat) : markOf t r = markOf s r := by
  unfold markOf
  simp only [h]

/-- The mark of a rank shows alike with a single-bit error in an entry and with the entry corrected. -/
theorem markOf_corrected (h : (deviceAt s n).storage = .singleBit) (x : Subject) (r : Nat) :
    markOf (raise .internalCorrected x (setDevice n ⟨deviceEntry s n, .sound⟩ s)) r = markOf s r := by
  refine markOf_congr (fun m => ?_) r
  unfold stateSeen
  rw [raise_mgu, deviceAt_raise, deviceAt_setDevice]
  by_cases hm : n = m ∧ n < 40
  · rw [if_pos hm, ← hm.1, h]
    rfl
  · rw [if_neg hm]
    rfl

/-! ## A request that is served while the part enters HALTED -/

theorem endsAtHalt_of_same (hd : t.dem = s.dem) (hs : t.sls = s.sls) (hm : t.mgu.coreReset = s.mgu.coreReset)
    (h : EndsAtHalt t k) : EndsAtHalt s k := by
  unfold EndsAtHalt NamesDemand ReleaseAsked RetireAsked slotAt at *
  rwa [hd, hs, hm] at h

/-- HALTED answers the request that is being served no more than any other that is in no work. -/
theorem taken_notEnds (hT : Taken k args r s) (hn : RequestsNamed s) (hw : ∀ w ∈ s.sls.retires, w.request ≠ r.id)
    (hs : ∀ i < 32, ∀ a d t w, slotAt s i = .releasing a d t (some w) → w.request ≠ r.id) :
    ¬EndsAtHalt (setPhase r.id .serving s) r.id := by
  rintro (⟨q, hq, hd, hid⟩ | ⟨i, hi, a, d, time, w, hslot, hid⟩ | ⟨w, hmem, hid⟩ | h)
  · exact serving_demand hT hn q hq hd hid
  · exact hs i hi a d time w hslot hid
  · exact hw w hmem hid
  · exact hT.notReset _ h rfl

/-- A request that is served waits for its answer. -/
theorem taken_waits (hT : Taken k args r s) : Waits { r with phase := .serving } (setPhase r.id .serving s) :=
  ⟨hT.active, findRequest_setPhase .serving hT.named⟩

/-- The answer to a request that is served goes up behind whatever HALTED answered. -/
theorem Waits.delivers_after_halt {cause : HaltCause} (h : Waits q u) (hn : ¬EndsAtHalt u q.id)
    (ho : q.orphan = false) (hp : q.phase ≠ .completing) (res : Result) (p : List Byte) :
    Delivered q.id (.manageDone q.tag res (if res = .done then p else []))
      (Machine.answer q.id res p (enterHalted cause u)) :=
  (h.after (enterHalted_completes cause u) hn).answer ho hp res p

end Sys2Proof.Machine
end

section
/-! The payloads of the table reads, run by run (R49, R89, R109, R135, R198). -/

namespace Sys2Proof.Machine

variable {s u : State} {n : Nat} {r : Request} {args : List Byte}

/-- A byte of the arguments comes back in the payload. -/
theorem packed_arg (args : List Byte) (i : Nat) : packed 1 (arg args i) = [byteAt args i] := by
  rw [packed_one, arg, BitVec.ofNat_toNat, BitVec.setWidth_eq]

/-! ## Region Read -/

def regionRuns (b : Byte) (e : RegionEntry) (level : Nat) : List (List Byte) :=
  [[b], packedFlag e.valid, packedAddress e.base, packed 1 e.rankMask.toNat, packed 4 e.indexMask.toNat,
   [e.cls.code], packed 1 e.level, packed 1 level]

theorem regionRuns_lengths (b : Byte) (e : RegionEntry) (level : Nat) :
    (regionRuns b e level).map List.length = [1, 1, 4, 1, 4, 1, 1, 1] := by
  simp [regionRuns, length_packed, length_packedAddress, packedFlag]

theorem regionPayload_eq (args : List Byte) (s : State) : regionPayload (arg args 0) s =
    (regionRuns (byteAt args 0) (regionAt s (arg args 0)).value s.rgt.defaultLevel).flatten := by
  unfold regionPayload regionRuns
  rw [packed_arg]
  simp only [List.flatten_cons, List.flatten_nil, List.append_nil, List.append_assoc]

/-- The fields of Region Read. -/
theorem regionRuns_fields (b : Byte) (e : RegionEntry) (level : Nat) :
    let p := (regionRuns b e level).flatten
    p.length = 14 ∧ byteAt p 0 = b ∧ (byteAt p 1 = 1 ↔ e.valid) ∧ addressOf (field p 2 4) = e.base ∧
      argument p 6 1 = e.rankMask.toNat ∧ argument p 7 4 = e.indexMask.toNat ∧ byteAt p 11 = e.cls.code ∧
      byteAt p 12 = BitVec.ofNat 8 e.level ∧ byteAt p 13 = BitVec.ofNat 8 level := by
  intro p
  have hl := regionRuns_lengths b e level
  have rankMask := e.rankMask.isLt
  have indexMask := e.indexMask.isLt
  have base : field p 2 4 = packedAddress e.base := field_flatten hl 2 rfl rfl rfl
  have level' : field p 12 1 = packed 1 e.level := field_flatten hl 6 rfl rfl rfl
  have default : field p 13 1 = packed 1 level := field_flatten hl 7 rfl rfl rfl
  rw [packed_one] at level' default
  exact ⟨length_flatten_runs hl rfl, byteAt_of_run (field_flatten hl 0 rfl rfl rfl),
    flag_of_run (field_flatten hl 1 rfl rfl rfl), by rw [base, addressOf_packedAddress],
    argument_of_field _ _ _ _ (field_flatten hl 3 rfl rfl rfl) (by omega),
    argument_of_field _ _ _ _ (field_flatten hl 4 rfl rfl rfl) (by omega),
    byteAt_of_run (field_flatten hl 5 rfl rfl rfl), byteAt_of_run level', byteAt_of_run default⟩

/-- Region Read of an entry there is, where its check leaves `u`. -/
theorem exec_regionRead (hT : Taken 2 args r s) (hn : arg args 0 ≤ 15)
    (hu : checkRegion (setPhase r.id .serving s) (arg args 0) = setPhase r.id .serving u)
    (hl : u.link.state = s.link.state) (hd : u.dem = s.dem) (hm : u.mgu.coreReset = s.mgu.coreReset) :
    exec .regionRead s = .next (answered r .done
      (regionRuns (byteAt args 0) (regionAt u (arg args 0)).value u.rgt.defaultLevel).flatten u) := by
  refine taken_general hT rfl (u := u) (res := .done) ?_ hl hd hm
  unfold regionRead
  dsimp only
  rw [if_neg (Nat.not_lt.mpr hn), hu, regionPayload_eq]
  rfl

theorem regionRead_sound (hT : Taken 2 args r s) (hn : arg args 0 ≤ 15)
    (h : (regionAt s (arg args 0)).storage = .sound) : exec .regionRead s = .next (answered r .done
      (regionRuns (byteAt args 0) (regionAt s (arg args 0)).value s.rgt.defaultLevel).flatten s) :=
  exec_regionRead hT hn (u := s) (checkRegion_sound (s := setPhase r.id .serving s) h) rfl rfl rfl

theorem regionRead_single (hT : Taken 2 args r s) (hn : arg args 0 ≤ 15)
    (h : (regionAt s (arg args 0)).storage = .singleBit) : exec .regionRead s = .next (answered r .done
      (regionRuns (byteAt args 0) (regionAt s (arg args 0)).value s.rgt.defaultLevel).flatten
      (raise .internalCorrected (.table .region (arg args 0))
        (setRegion (arg args 0) ⟨(regionAt s (arg args 0)).value, .sound⟩ s))) := by
  generalize hw : setRegion (arg args 0) ⟨(regionAt s (arg args 0)).value, .sound⟩ s = w
  have hu : checkRegion (setPhase r.id .serving s) (arg args 0) =
      setPhase r.id .serving (raise .internalCorrected (.table .region (arg args 0)) w) := by
    rw [← raise_setPhase, ← hw]
    exact checkRegion_single (s := setPhase r.id .serving s) h
  have entry : regionAt (raise .internalCorrected (.table .region (arg args 0)) w) (arg args 0) =
      ⟨(regionAt s (arg args 0)).value, .sound⟩ := by
    rw [regionAt_congr (raise_rgt ..), ← hw, regionAt_setRegion, if_pos ⟨rfl, by omega⟩]
  have level : (raise .internalCorrected (.table .region (arg args 0)) w).rgt.defaultLevel = s.rgt.defaultLevel := by
    rw [raise_rgt, ← hw]
    rfl
  have run := exec_regionRead hT hn hu (by rw [raise_link_state, ← hw]; rfl) (by rw [raise_dem, ← hw]; rfl)
    (by rw [raise_mgu, ← hw]; rfl)
  rwa [entry, level] at run

theorem regionRead_lost (hT : Taken 2 args r s) (hn : arg args 0 ≤ 15)
    (h : (regionAt s (arg args 0)).storage = .uncorrectable) (hr : RecordsReady s) :
    exec .regionRead s = .next (answered r .done
      (regionRuns (byteAt args 0) emptyRegion s.rgt.defaultLevel).flatten
      (itemLost .region (arg args 0) (setRegion (arg args 0) ⟨emptyRegion, .sound⟩ s))) := by
  generalize hw : setRegion (arg args 0) ⟨emptyRegion, .sound⟩ s = w
  have hu : checkRegion (setPhase r.id .serving s) (arg args 0) =
      setPhase r.id .serving (itemLost .region (arg args 0) w) := by
    rw [← itemLost_setPhase, ← hw]
    exact checkRegion_lost (s := setPhase r.id .serving s) h (recordsReady_setPhase hr)
  have entry : regionAt (itemLost .region (arg args 0) w) (arg args 0) = ⟨emptyRegion, .sound⟩ := by
    rw [regionAt_congr (itemLost_rgt ..), ← hw, regionAt_setRegion, if_pos ⟨rfl, by omega⟩]
  have level : (itemLost .region (arg args 0) w).rgt.defaultLevel = s.rgt.defaultLevel := by
    rw [itemLost_rgt, ← hw]
    rfl
  have run := exec_regionRead hT hn hu (by rw [itemLost_link_state, ← hw]; rfl)
    (by rw [(sameWork_itemLost ..).dem, ← hw]; rfl) (by rw [itemLost_coreReset, ← hw]; rfl)
  rwa [entry, level] at run

/-! ## Phase Read -/

def phaseRuns (b : Byte) (x : Profile) (phase : Nat) : List (List Byte) :=
  [[b], packed 2 x.period, packedFlag x.allowed, packed 4 x.steal, packed 2 x.lazyWait, packed 1 phase]

theorem phaseRuns_lengths (b : Byte) (x : Profile) (phase : Nat) :
    (phaseRuns b x phase).map List.length = [1, 2, 1, 4, 2, 1] := by
  simp [phaseRuns, length_packed, packedFlag]

theorem phasePayload_eq (args : List Byte) (x : Profile) (s : State) :
    phasePayload (arg args 0) x s = (phaseRuns (byteAt args 0) x s.psc.phase).flatten := by
  unfold phasePayload phaseRuns
  rw [packed_arg]
  simp only [List.flatten_cons, List.flatten_nil, List.append_nil, List.append_assoc]

theorem phaseRuns_fields (b : Byte) {x : Profile} (hx : x.InRange) (phase : Nat) :
    let p := (phaseRuns b x phase).flatten
    p.length = 11 ∧ byteAt p 0 = b ∧ argument p 1 2 = x.period ∧ (byteAt p 3 = 1 ↔ x.allowed) ∧
      argument p 4 4 = x.steal ∧ argument p 8 2 = x.lazyWait ∧ byteAt p 10 = BitVec.ofNat 8 phase := by
  intro p
  have hl := phaseRuns_lengths b x phase
  obtain ⟨-, period, steal, lazy⟩ := hx
  have last : field p 10 1 = packed 1 phase := field_flatten hl 5 rfl rfl rfl
  rw [packed_one] at last
  exact ⟨length_flatten_runs hl rfl, byteAt_of_run (field_flatten hl 0 rfl rfl rfl),
    argument_of_field _ _ _ _ (field_flatten hl 1 rfl rfl rfl) (by omega),
    flag_of_run (field_flatten hl 2 rfl rfl rfl),
    argument_of_field _ _ _ _ (field_flatten hl 3 rfl rfl rfl) (by omega),
    argument_of_field _ _ _ _ (field_flatten hl 4 rfl rfl rfl) (by omega), byteAt_of_run last⟩

/-- Phase Read of a profile there is, where its check leaves `u` and PSC has nothing to test. -/
theorem exec_phaseRead (hT : Taken 5 args r s) (hn : arg args 0 ≤ 7)
    (hu : checkProfile (arg args 0) (setPhase r.id .serving s) = setPhase r.id .serving u)
    (ht : arg args 0 ≠ s.psc.phase ∨ s.psc.running = false) (hphase : u.psc.phase = s.psc.phase)
    (hrunning : u.psc.running = s.psc.running) (hl : u.link.state = s.link.state) (hd : u.dem = s.dem)
    (hm : u.mgu.coreReset = s.mgu.coreReset) :
    exec .phaseRead s = .next (answered r .done
      (phaseRuns (byteAt args 0) (profileAt u (arg args 0)) s.psc.phase).flatten u) := by
  refine taken_general hT rfl (u := u) (res := .done) ?_ hl hd hm
  have quiet : (if arg args 0 = (setPhase r.id .serving u).psc.phase then patrolProceeds (setPhase r.id .serving u)
      else setPhase r.id .serving u) = setPhase r.id .serving u := by
    rcases ht with ht | ht
    · exact if_neg (hphase ▸ ht)
    · rw [patrolProceeds_noLine (s := setPhase r.id .serving u) (.inl (hrunning.trans ht)), ite_self]
  unfold phaseRead readProfile
  dsimp only
  rw [if_neg (Nat.not_lt.mpr hn), hu, quiet, phasePayload_eq, ← hphase]
  rfl

theorem phaseRead_sound (hT : Taken 5 args r s) (hn : arg args 0 ≤ 7)
    (ht : arg args 0 ≠ s.psc.phase ∨ s.psc.running = false) (h : (storedProfile s (arg args 0)).storage = .sound) :
    exec .phaseRead s = .next (answered r .done
      (phaseRuns (byteAt args 0) (profileAt s (arg args 0)) s.psc.phase).flatten s) :=
  exec_phaseRead hT hn (u := s) (checkProfile_sound (s := setPhase r.id .serving s) h) ht rfl rfl rfl rfl rfl

theorem profileAt_setProfile {x : Stored Profile} (hn : n ≤ 7) : profileAt (setProfile n x s) n = x.value :=
  congrArg Stored.value ((storedProfile_setProfile s n n x).trans (if_pos ⟨rfl, by omega⟩))

theorem profileAt_congr {t : State} (h : t.psc = s.psc) : profileAt t n = profileAt s n := by
  unfold profileAt
  rw [h]

theorem phaseRead_single (hT : Taken 5 args r s) (hn : arg args 0 ≤ 7)
    (ht : arg args 0 ≠ s.psc.phase ∨ s.psc.running = false)
    (h : (storedProfile s (arg args 0)).storage = .singleBit) : exec .phaseRead s = .next (answered r .done
      (phaseRuns (byteAt args 0) (profileAt s (arg args 0)) s.psc.phase).flatten
      (raise .internalCorrected (.table .phase (arg args 0))
        (setProfile (arg args 0) ⟨profileAt s (arg args 0), .sound⟩ s))) := by
  have profile : profileAt (setProfile (arg args 0) ⟨profileAt s (arg args 0), .sound⟩ s) (arg args 0) =
      profileAt s (arg args 0) := profileAt_setProfile hn
  generalize hw : setProfile (arg args 0) ⟨profileAt s (arg args 0), .sound⟩ s = w at profile ⊢
  have hu : checkProfile (arg args 0) (setPhase r.id .serving s) =
      setPhase r.id .serving (raise .internalCorrected (.table .phase (arg args 0)) w) := by
    rw [← raise_setPhase, ← hw]
    exact checkProfile_single (s := setPhase r.id .serving s) h
  have run := exec_phaseRead hT hn hu ht (by rw [raise_psc, ← hw]; rfl) (by rw [raise_psc, ← hw]; rfl)
    (by rw [raise_link_state, ← hw]; rfl) (by rw [raise_dem, ← hw]; rfl) (by rw [raise_mgu, ← hw]; rfl)
  rwa [profileAt_congr (raise_psc ..), profile] at run

theorem profileLost_setPhase (id : Nat) (p : Phase) :
    profileLost n (setPhase id p s) = setPhase id p (profileLost n s) := by
  have lost : itemLost .phase n (setProfile n ⟨defaultProfile, .sound⟩ (setPhase id p s)) =
      setPhase id p (itemLost .phase n (setProfile n ⟨defaultProfile, .sound⟩ s)) := by
    rw [← itemLost_setPhase]
    rfl
  unfold profileLost
  rw [lost, stealJudged_setPhase]
  by_cases hc : n = s.psc.phase ∧ s.fcu.halted = none
  · rw [if_pos hc, if_pos (show n = (setPhase id p s).psc.phase ∧ (setPhase id p s).fcu.halted = none from hc)]
  · rw [if_neg hc, if_neg (show ¬(n = (setPhase id p s).psc.phase ∧ (setPhase id p s).fcu.halted = none) from hc)]

/-- A lost profile leaves the buffer and PSC but the profile and steal mode. -/
theorem profileLost_form (n : Nat) (s : State) : ∃ b,
    (profileLost n s).psc = { (setProfile n ⟨defaultProfile, .sound⟩ s).psc with steal := b } ∧
      (profileLost n s).link.state = s.link.state ∧ (profileLost n s).dem = s.dem ∧
      (profileLost n s).mgu.coreReset = s.mgu.coreReset ∧ (profileLost n s).fcu.halted = s.fcu.halted := by
  have hpsc := itemLost_psc .phase n (setProfile n ⟨defaultProfile, .sound⟩ s)
  have hstate : _ = s.link.state := itemLost_link_state .phase n (setProfile n ⟨defaultProfile, .sound⟩ s)
  have hwork := sameWork_itemLost .phase n (setProfile n ⟨defaultProfile, .sound⟩ s)
  have hdem : _ = s.dem := hwork.dem
  have hhalted : _ = s.fcu.halted := hwork.halted
  have hreset : _ = s.mgu.coreReset := itemLost_coreReset .phase n (setProfile n ⟨defaultProfile, .sound⟩ s)
  unfold profileLost
  generalize itemLost .phase n (setProfile n ⟨defaultProfile, .sound⟩ s) = lost at *
  split
  · obtain ⟨l, b, hform, hl⟩ := stealJudged_form defaultProfile.steal lost
    rw [hform]
    exact ⟨b, by rw [hpsc], hl.trans hstate, hdem, hreset, hhalted⟩
  · exact ⟨s.psc.steal, hpsc, hstate, hdem, hreset, hhalted⟩

theorem phaseRead_lost (hT : Taken 5 args r s) (hn : arg args 0 ≤ 7)
    (ht : arg args 0 ≠ s.psc.phase ∨ s.psc.running = false)
    (h : (storedProfile s (arg args 0)).storage = .uncorrectable) (hr : RecordsReady s) :
    exec .phaseRead s = .next (answered r .done (phaseRuns (byteAt args 0) defaultProfile s.psc.phase).flatten
      (profileLost (arg args 0) s)) := by
  obtain ⟨b, hpsc, hl, hd, hm, -⟩ := profileLost_form (arg args 0) s
  have profile : profileAt (profileLost (arg args 0) s) (arg args 0) = defaultProfile := by
    unfold profileAt
    rw [hpsc]
    exact profileAt_setProfile (s := s) hn
  have hu : checkProfile (arg args 0) (setPhase r.id .serving s) =
      setPhase r.id .serving (profileLost (arg args 0) s) :=
    (checkProfile_lost (s := setPhase r.id .serving s) h (recordsReady_setPhase hr)).trans (profileLost_setPhase ..)
  have run := exec_phaseRead hT hn hu ht (by rw [hpsc]; rfl) (by rw [hpsc]; rfl) hl hd hm
  rwa [profile] at run

/-! ## Device Read -/

/-- The entry part of the payload, as Device Read shows it: the storage-fault indication in place of a faulty entry. -/
structure DeviceShown where
  tally : List Byte
  state : Byte
  touched : Byte
  capped : Byte
  count : List Byte

def shownEntry (e : DeviceEntry) : DeviceShown :=
  ⟨packed 2 e.tally, e.state.code, if e.touched then 1 else 0, if e.capped then 1 else 0,
    packed 2 (if e.state = .probation then e.count else 0)⟩

def shownFault : DeviceShown := ⟨[0, 0], 4, 0, 0, [0, 0]⟩

def deviceRuns (k : Nat) (x : DeviceShown) (mark : Option (Fin 10)) (dht : Dht) : List (List Byte) :=
  [packed 1 k, x.tally, [x.state], [x.touched], [x.capped], x.count,
   [(mark.map fun d => BitVec.ofNat 8 d.val).getD 0xFF], packed 1 dht.decayQ, packed 2 dht.probationK]

theorem deviceRuns_lengths (k : Nat) (x : DeviceShown) (mark : Option (Fin 10)) (dht : Dht)
    (ht : x.tally.length = 2) (hc : x.count.length = 2) :
    (deviceRuns k x mark dht).map List.length = [1, 2, 1, 1, 1, 2, 1, 1, 2] := by
  simp [deviceRuns, length_packed, ht, hc]

theorem devicePayload_eq (k q : Nat) (s : State) :
    devicePayload k s ++ packedName ((markOf s q).map Fin.val) ++ packed 1 s.dht.decayQ ++
        packed 2 s.dht.probationK =
      (deviceRuns k (if (deviceAt s k).storage = .uncorrectable then shownFault else shownEntry (deviceEntry s k))
        (markOf s q) s.dht).flatten := by
  rw [packedName_eq]
  unfold devicePayload deviceRuns
  by_cases h : (deviceAt s k).storage = .uncorrectable
  · rw [h, if_pos rfl]
    simp [shownFault]
  · have payload : (match (deviceAt s k).storage with
        | .uncorrectable => packed 1 k ++ [0, 0, 4, 0, 0, 0, 0]
        | _ =>
          packed 1 k ++ packed 2 (deviceEntry s k).tally ++ [(deviceEntry s k).state.code] ++
            packedFlag (deviceEntry s k).touched ++ packedFlag (deviceEntry s k).capped ++
              packed 2 (if (deviceEntry s k).state = .probation then (deviceEntry s k).count else 0)) =
        packed 1 k ++ packed 2 (deviceEntry s k).tally ++ [(deviceEntry s k).state.code] ++
          packedFlag (deviceEntry s k).touched ++ packedFlag (deviceEntry s k).capped ++
            packed 2 (if (deviceEntry s k).state = .probation then (deviceEntry s k).count else 0) := by
      cases hx : (deviceAt s k).storage with
      | uncorrectable => exact absurd hx h
      | sound | singleBit => rfl
    rw [if_neg h]
    refine (congrArg (· ++ _ ++ _ ++ _) payload).trans ?_
    simp [shownEntry, packedFlag]

theorem deviceRuns_rest (k : Nat) (x : DeviceShown) (mark : Option (Fin 10)) (dht : Dht)
    (ht : x.tally.length = 2) (hc : x.count.length = 2) :
    let p := (deviceRuns k x mark dht).flatten
    p.length = 12 ∧ byteAt p 0 = BitVec.ofNat 8 k ∧ byteAt p 9 = BitVec.ofNat 8 dht.decayQ ∧
      argument p 10 2 = dht.probationK % 65536 := by
  intro p
  have hl := deviceRuns_lengths k x mark dht ht hc
  have first : field p 0 1 = packed 1 k := field_flatten hl 0 rfl rfl rfl
  have decay : field p 9 1 = packed 1 dht.decayQ := field_flatten hl 7 rfl rfl rfl
  rw [packed_one] at first decay
  exact ⟨length_flatten_runs hl rfl, byteAt_of_run first, byteAt_of_run decay,
    argument_of_field_mod _ _ _ _ (field_flatten hl 8 rfl rfl rfl)⟩

theorem deviceRuns_entry (k : Nat) (e : DeviceEntry) (mark : Option (Fin 10)) (dht : Dht) :
    let p := (deviceRuns k (shownEntry e) mark dht).flatten
    argument p 1 2 = e.tally % 65536 ∧ byteAt p 3 = e.state.code ∧ (byteAt p 4 = 1 ↔ e.touched) ∧
      (byteAt p 5 = 1 ↔ e.capped) ∧ argument p 6 2 = (if e.state = .probation then e.count % 65536 else 0) ∧
      byteAt p 8 = (mark.map fun d => BitVec.ofNat 8 d.val).getD 0xFF := by
  intro p
  have hl := deviceRuns_lengths k (shownEntry e) mark dht (length_packed _ _) (length_packed _ _)
  have count : argument p 6 2 = (if e.state = .probation then e.count else 0) % 65536 :=
    argument_of_field_mod _ _ _ _ (field_flatten hl 5 rfl rfl rfl)
  refine ⟨argument_of_field_mod _ _ _ _ (field_flatten hl 1 rfl rfl rfl),
    byteAt_of_run (field_flatten hl 2 rfl rfl rfl), flag_of_run (field_flatten hl 3 rfl rfl rfl),
    flag_of_run (field_flatten hl 4 rfl rfl rfl), ?_, byteAt_of_run (field_flatten hl 6 rfl rfl rfl)⟩
  rw [count]
  split <;> rfl

theorem deviceRuns_fault (k : Nat) (mark : Option (Fin 10)) (dht : Dht) :
    let p := (deviceRuns k shownFault mark dht).flatten
    byteAt p 3 = 4 ∧ ∀ i ∈ [1, 2, 4, 5, 6, 7], byteAt p i = 0 := by
  intro p
  have hl := deviceRuns_lengths k shownFault mark dht rfl rfl
  have tally : field p 1 2 = [0, 0] := field_flatten hl 1 rfl rfl rfl
  have count : field p 6 2 = [0, 0] := field_flatten hl 5 rfl rfl rfl
  refine ⟨byteAt_of_run (field_flatten hl 2 rfl rfl rfl), ?_⟩
  simp only [List.forall_mem_cons, List.not_mem_nil, false_imp_iff, implies_true, and_true]
  exact ⟨byteAt_of_field tally (i := 0) (by decide), byteAt_of_field tally (i := 1) (by decide),
    byteAt_of_run (field_flatten hl 3 rfl rfl rfl), byteAt_of_run (field_flatten hl 4 rfl rfl rfl),
    byteAt_of_field count (i := 0) (by decide), byteAt_of_field count (i := 1) (by decide)⟩

theorem deviceRead_eq {id : Nat} (hr : arg args 0 ≤ 3) (hd : arg args 1 ≤ 9)
    (hu : (readDevices [entryNumber (arg args 0) (arg args 1)] s).2 = u) :
    deviceRead id args s = answer id .done (deviceRuns (entryNumber (arg args 0) (arg args 1))
      (if (deviceAt u (entryNumber (arg args 0) (arg args 1))).storage = .uncorrectable then shownFault
        else shownEntry (deviceEntry u (entryNumber (arg args 0) (arg args 1))))
      (markOf u (arg args 0)) u.dht).flatten u := by
  unfold deviceRead
  dsimp only
  rw [if_neg (by omega), hu, devicePayload_eq]

/-- Device Read of an entry there is, where its check leaves `u` with an entry that can be read. -/
theorem exec_deviceRead (hT : Taken 7 args r s) (hr : arg args 0 ≤ 3) (hd : arg args 1 ≤ 9)
    (hu : (readDevices [entryNumber (arg args 0) (arg args 1)] (setPhase r.id .serving s)).2 =
      setPhase r.id .serving u)
    (hl : u.link.state = s.link.state) (hdem : u.dem = s.dem) (hm : u.mgu.coreReset = s.mgu.coreReset) :
    exec .deviceRead s = .next (answered r .done (deviceRuns (entryNumber (arg args 0) (arg args 1))
      (if (deviceAt u (entryNumber (arg args 0) (arg args 1))).storage = .uncorrectable then shownFault
        else shownEntry (deviceEntry u (entryNumber (arg args 0) (arg args 1))))
      (markOf u (arg args 0)) u.dht).flatten u) :=
  taken_general hT rfl (u := u) (res := .done) (deviceRead_eq hr hd hu) hl hdem hm

theorem deviceRead_sound (hT : Taken 7 args r s) (hr : arg args 0 ≤ 3) (hd : arg args 1 ≤ 9)
    (h : (deviceAt s (entryNumber (arg args 0) (arg args 1))).storage = .sound) :
    exec .deviceRead s = .next (answered r .done (deviceRuns (entryNumber (arg args 0) (arg args 1))
      (shownEntry (deviceEntry s (entryNumber (arg args 0) (arg args 1)))) (markOf s (arg args 0)) s.dht).flatten s) := by
  have run := exec_deviceRead hT hr hd (u := s)
    (congrArg Prod.snd (readDevices_one_sound (s := setPhase r.id .serving s) h)) rfl rfl rfl
  rwa [if_neg (by rw [h]; decide)] at run

theorem deviceRead_single (hT : Taken 7 args r s) (hr : arg args 0 ≤ 3) (hd : arg args 1 ≤ 9)
    (h : (deviceAt s (entryNumber (arg args 0) (arg args 1))).storage = .singleBit) :
    exec .deviceRead s = .next (answered r .done (deviceRuns (entryNumber (arg args 0) (arg args 1))
      (shownEntry (deviceEntry s (entryNumber (arg args 0) (arg args 1)))) (markOf s (arg args 0)) s.dht).flatten
      (raise .internalCorrected (.table .health (entryNumber (arg args 0) (arg args 1)))
        (setDevice (entryNumber (arg args 0) (arg args 1))
          ⟨deviceEntry s (entryNumber (arg args 0) (arg args 1)), .sound⟩ s))) := by
  have h40 : entryNumber (arg args 0) (arg args 1) < 40 := by
    unfold entryNumber
    omega
  generalize hk : entryNumber (arg args 0) (arg args 1) = k at h h40 ⊢
  have mark := markOf_corrected h (.table .health k) (arg args 0)
  generalize hw : setDevice k ⟨deviceEntry s k, .sound⟩ s = w at mark ⊢
  have hu : (readDevices [entryNumber (arg args 0) (arg args 1)] (setPhase r.id .serving s)).2 =
      setPhase r.id .serving (raise .internalCorrected (.table .health k) w) := by
    rw [← raise_setPhase, ← hw, hk]
    exact congrArg Prod.snd (readDevices_one_single (s := setPhase r.id .serving s) h40 h)
  have entry : deviceAt (raise .internalCorrected (.table .health k) w) k = ⟨deviceEntry s k, .sound⟩ := by
    rw [deviceAt_raise, ← hw, deviceAt_setDevice, if_pos ⟨rfl, h40⟩]
  have run := exec_deviceRead hT hr hd hu (by rw [raise_link_state, ← hw]; rfl) (by rw [raise_dem, ← hw]; rfl)
    (by rw [raise_mgu, ← hw]; rfl)
  have dht : (deviceRuns k (shownEntry (deviceEntry s k)) (markOf s (arg args 0))
      (raise .internalCorrected (.table .health k) w).dht) =
      deviceRuns k (shownEntry (deviceEntry s k)) (markOf s (arg args 0)) s.dht := by
    rw [raise_dht, ← hw]
    rfl
  rwa [hk, mark, deviceEntry, entry, if_neg (by simp), dht] at run

theorem deviceRead_faulty_halted (hT : Taken 7 args r s) (hr : arg args 0 ≤ 3) (hd : arg args 1 ≤ 9)
    (h : (deviceAt s (entryNumber (arg args 0) (arg args 1))).storage = .uncorrectable) (hh : s.fcu.halted.isSome) :
    exec .deviceRead s = .next (answered r .done (deviceRuns (entryNumber (arg args 0) (arg args 1))
      shownFault (markOf s (arg args 0)) s.dht).flatten s) := by
  have hu : (readDevices [entryNumber (arg args 0) (arg args 1)] (setPhase r.id .serving s)).2 =
      setPhase r.id .serving s :=
    (congrArg Prod.snd (readDevices_one_faulty (s := setPhase r.id .serving s) h)).trans (enterHalted_of_halted _ hh)
  have run := exec_deviceRead hT hr hd (u := s) hu rfl rfl rfl
  rwa [if_pos h] at run

/-- Device Read of a faulty entry in a part that is not HALTED yet: the part enters HALTED, and the answer follows. -/
theorem deviceRead_faulty (hT : Taken 7 args r s) (hr : arg args 0 ≤ 3) (hd : arg args 1 ≤ 9)
    (h : (deviceAt s (entryNumber (arg args 0) (arg args 1))).storage = .uncorrectable) :
    ∃ mark, exec .deviceRead s = .next (answer r.id .done (deviceRuns (entryNumber (arg args 0) (arg args 1))
      shownFault mark s.dht).flatten
      (enterHalted ⟨.health, entryNumber (arg args 0) (arg args 1)⟩ (setPhase r.id .serving s))) := by
  generalize hw : enterHalted ⟨.health, entryNumber (arg args 0) (arg args 1)⟩ (setPhase r.id .serving s) = w
  have hu : (readDevices [entryNumber (arg args 0) (arg args 1)] (setPhase r.id .serving s)).2 = w := by
    rw [← hw]
    exact congrArg Prod.snd (readDevices_one_faulty (s := setPhase r.id .serving s) h)
  have dht : w.dht = s.dht := by
    rw [← hw, enterHalted_dht]
    rfl
  have fault : (deviceAt w (entryNumber (arg args 0) (arg args 1))).storage = .uncorrectable := by
    unfold deviceAt
    rwa [dht]
  have run : exec .deviceRead s = .next _ :=
    congrArg Host.Outcome.next ((taken_exec hT deviceRead).trans (deviceRead_eq (id := r.id) hr hd hu))
  rw [if_pos fault, dht] at run
  exact ⟨_, run⟩

/-! ## Spare Read -/

def slotRuns (x : Slot) : List (List Byte) :=
  match x with
  | .free => [List.replicate 4 0, [0], List.replicate 6 0, List.replicate 6 0]
  | .watch a hits time => [packedAddress a, packed 1 hits, packed 6 time.toNat, List.replicate 6 0]
  | .active a _ time => [packedAddress a, [0], List.replicate 6 0, packed 6 time.toNat]
  | .failed a _ time => [packedAddress a, [0], List.replicate 6 0, packed 6 time.toNat]
  | .releasing a _ time _ => [packedAddress a, [0], List.replicate 6 0, packed 6 time.toNat]

theorem slotFields_eq (x : Slot) : slotFields x = (slotRuns x).flatten := by
  cases x <;> simp [slotFields, slotRuns, List.replicate]

def spareRuns (b : Byte) (x : Slot) (sls : Sls) : List (List Byte) :=
  [[b], [x.code]] ++ slotRuns x ++ [packed 1 sls.threshold, packedFlag sls.allocationFailed]

theorem spareRuns_lengths (b : Byte) (x : Slot) (sls : Sls) :
    (spareRuns b x sls).map List.length = [1, 1, 4, 1, 6, 6, 1, 1] := by
  cases x <;> simp [spareRuns, slotRuns, length_packed, length_packedAddress, packedFlag]

theorem spareRead_eq {id : Nat} (hn : arg args 0 ≤ 31) : spareRead id args s = answer id .done
    (spareRuns (byteAt args 0) (slotAt s (arg args 0)) s.sls).flatten s := by
  unfold spareRead
  dsimp only
  rw [if_neg (Nat.not_lt.mpr hn), packed_arg, slotFields_eq]
  simp [spareRuns]

/-- The fields that each slot has. -/
theorem slotRuns_get (x : Slot) :
    (∀ a, x.line? = some a → (slotRuns x)[0]? = some (packedAddress a)) ∧
    (∀ a hits t, x = .watch a hits t →
      (slotRuns x)[1]? = some (packed 1 hits) ∧ (slotRuns x)[2]? = some (packed 6 t.toNat)) ∧
    ∀ a d t, x = .active a d t ∨ x = .failed a d t ∨ (∃ w, x = .releasing a d t w) →
      (slotRuns x)[3]? = some (packed 6 t.toNat) := by
  refine ⟨fun a ha => ?_, fun a hits t hx => ?_, fun a d t hx => ?_⟩
  · cases x with
    | free => cases ha
    | watch | active | failed | releasing =>
      obtain rfl := Option.some.inj ha
      rfl
  · subst hx
    exact ⟨rfl, rfl⟩
  · rcases hx with rfl | rfl | ⟨w, rfl⟩ <;> rfl

theorem slotRuns_length (x : Slot) : (slotRuns x).length = 4 := by
  cases x <;> rfl

theorem spareRuns_get (b : Byte) (x : Slot) (sls : Sls) {i : Nat} (hi : i < 4) :
    (spareRuns b x sls)[2 + i]? = (slotRuns x)[i]? := by
  unfold spareRuns
  rw [List.append_assoc, List.getElem?_append_right (by simp), List.getElem?_append_left
    (by rw [slotRuns_length]; simpa using hi)]
  congr 1
  simp

theorem spareRuns_last (b : Byte) (x : Slot) (sls : Sls) :
    (spareRuns b x sls)[6]? = some (packed 1 sls.threshold) ∧
      (spareRuns b x sls)[7]? = some (packedFlag sls.allocationFailed) := by
  cases x <;> exact ⟨rfl, rfl⟩

theorem spareRuns_fields (b : Byte) (x : Slot) (sls : Sls) :
    let p := (spareRuns b x sls).flatten
    p.length = 21 ∧ byteAt p 0 = b ∧ byteAt p 1 = x.code ∧
      (∀ a, x.line? = some a → addressOf (field p 2 4) = a) ∧
      (∀ a hits t, x = .watch a hits t → byteAt p 6 = BitVec.ofNat 8 hits ∧ argument p 7 6 = t.toNat) ∧
      (∀ a d t, x = .active a d t ∨ x = .failed a d t ∨ (∃ w, x = .releasing a d t w) →
        argument p 13 6 = t.toNat) ∧
      byteAt p 19 = BitVec.ofNat 8 sls.threshold ∧ (byteAt p 20 = 1 ↔ sls.allocationFailed) := by
  intro p
  have hl := spareRuns_lengths b x sls
  obtain ⟨line, watch, retired⟩ := slotRuns_get x
  obtain ⟨threshold, failed⟩ := spareRuns_last b x sls
  have get {i : Nat} (hi : i < 4) : (spareRuns b x sls)[2 + i]? = (slotRuns x)[i]? := spareRuns_get b x sls hi
  refine ⟨length_flatten_runs hl rfl, byteAt_of_run (field_flatten hl 0 rfl rfl rfl),
    byteAt_of_run (field_flatten hl 1 rfl rfl rfl), fun a ha => ?_, fun a hits t hx => ⟨?_, ?_⟩, fun a d t hx => ?_,
    ?_, flag_of_run (field_flatten hl 7 failed rfl rfl)⟩
  · have run : field p 2 4 = packedAddress a :=
      field_flatten hl 2 ((get (i := 0) (by decide)).trans (line a ha)) rfl rfl
    rw [run, addressOf_packedAddress]
  · have run : field p 6 1 = packed 1 hits :=
      field_flatten hl 3 ((get (i := 1) (by decide)).trans (watch a hits t hx).1) rfl rfl
    rw [packed_one] at run
    exact byteAt_of_run run
  · exact argument_of_field _ _ _ _
      (field_flatten hl 4 ((get (i := 2) (by decide)).trans (watch a hits t hx).2) rfl rfl) t.isLt
  · exact argument_of_field _ _ _ _
      (field_flatten hl 5 ((get (i := 3) (by decide)).trans (retired a d t hx)) rfl rfl) t.isLt
  · have run : field p 19 1 = packed 1 sls.threshold := field_flatten hl 6 threshold rfl rfl
    rw [packed_one] at run
    exact byteAt_of_run run

end Sys2Proof.Machine

namespace Sys2Proof

open Machine

/-- Settles O35: each read answers from the state that the item's check leaves, and the payload is runs of bytes. -/
theorem tableReads : Obligations.TableReads := by
  intro args r s n m
  refine ⟨fun hT => ?_, fun hT => ?_, fun hT => ?_, fun hT => ?_⟩
  · exact ⟨fun hn => taken_general hT rfl (u := s) (res := .range) (p := []) (if_pos hn) rfl rfl rfl,
      fun hn h => ⟨_, regionRead_sound hT hn h, regionRuns_fields ..⟩,
      fun hn h => ⟨_, regionRead_single hT hn h, regionRuns_fields ..⟩,
      fun hn h hr => ⟨_, regionRead_lost hT hn h hr, regionRuns_fields ..⟩⟩
  · have inRange : defaultProfile.InRange := by
      unfold Profile.InRange
      decide
    exact ⟨fun hn => taken_general hT rfl (u := s) (res := .range) (p := []) (if_pos hn) rfl rfl rfl,
      fun hn ht => ⟨fun h hx => ⟨_, phaseRead_sound hT hn ht h, phaseRuns_fields _ hx _⟩,
        fun h hx => ⟨_, phaseRead_single hT hn ht h, phaseRuns_fields _ hx _⟩,
        fun h hr => ⟨_, phaseRead_lost hT hn ht h hr, phaseRuns_fields _ inRange _⟩⟩⟩
  · have shown (k : Nat) (e : DeviceEntry) (mark : Option (Fin 10)) :=
      And.intro (deviceRuns_rest k (shownEntry e) mark s.dht (length_packed _ _) (length_packed _ _))
        (deviceRuns_entry k e mark s.dht)
    have fault (k : Nat) (mark : Option (Fin 10)) :=
      And.intro (deviceRuns_rest k shownFault mark s.dht rfl rfl) (deviceRuns_fault k mark s.dht)
    refine ⟨fun hout => taken_general hT rfl (u := s) (res := .range) (p := []) (if_pos hout) rfl rfl rfl,
      fun hn hm h => ⟨_, deviceRead_sound hT hn hm h, shown ..⟩,
      fun hn hm h => ⟨_, deviceRead_single hT hn hm h, shown ..⟩,
      fun hn hm h => ⟨fun hh => ⟨_, deviceRead_faulty_halted hT hn hm h hh, fault ..⟩, fun hh hN hw hs => ?_⟩⟩
    obtain ⟨mark, run⟩ := deviceRead_faulty hT hn hm h
    have goes := (taken_waits hT).delivers_after_halt (cause := ⟨.health, entryNumber n m⟩)
      (taken_notEnds hT hN hw hs) hT.buffered nofun .done
        (deviceRuns (entryNumber n m) shownFault mark s.dht).flatten
    have halts := enterHalted_halted (s := setPhase r.id .serving s) ⟨.health, entryNumber n m⟩ hh
    have dht := enterHalted_dht ⟨.health, entryNumber n m⟩ (setPhase r.id .serving s)
    obtain ⟨l, d, c, answers⟩ := answers_answer r.id .done (deviceRuns (entryNumber n m) shownFault mark s.dht).flatten
      (enterHalted ⟨.health, entryNumber n m⟩ (setPhase r.id .serving s))
    exact ⟨_, _, run, (congrArg (fun t => t.fcu.halted) answers).trans halts,
      (congrArg State.dht answers).trans dht, goes.handedOn, fault ..⟩
  · exact ⟨fun hn => taken_general hT rfl (u := s) (res := .range) (p := []) (if_pos hn) rfl rfl rfl,
      fun hn => ⟨_, taken_general hT rfl (u := s) (res := .done) (spareRead_eq hn) rfl rfl rfl, spareRuns_fields ..⟩⟩

end Sys2Proof
end

section
/-! Phase Load and Phase Set, Device Mark and Device Unmark, and a checked read of a rank whose entries hold errors
(R103, R104, R110, R111, R133, R134, R141). -/

namespace Sys2Proof.Machine

variable {s t u : State} {id k n : Nat} {r : Request} {args : List Byte}

/-! ## Steal mode and the patrol-allowed field -/

theorem evalSteal_sound (h : (storedProfile s s.psc.phase).storage = .sound) (hh : s.fcu.halted = none) :
    evalSteal s = stealJudged (currentProfile s).steal s := by
  unfold evalSteal readProfile
  rw [checkProfile_sound h, evalStealAgainst_eq, if_pos hh]
  rfl

/-- The patrol-allowed field of `p` comes into force. -/
def withAllowance (p : Profile) (s : State) : State :=
  if p.allowed then s else { s with psc := { s.psc with cursorPhase := .untested } }

theorem allowanceChanged_noLine (h : (currentProfile s).allowed = false ∨ NoLineToTest s) :
    allowanceChanged s = withAllowance (currentProfile s) s := by
  unfold allowanceChanged withAllowance
  cases ha : (currentProfile s).allowed with
  | false => rfl
  | true => exact patrolProceeds_noLine (h.resolve_left (by simp [ha]))

theorem currentProfile_stealJudged (threshold : Nat) (s : State) :
    currentProfile (stealJudged threshold s) = currentProfile s := by
  obtain ⟨l, b, h, -⟩ := stealJudged_form threshold s
  rw [h]
  rfl

theorem noLineToTest_stealJudged (threshold : Nat) (h : NoLineToTest s) : NoLineToTest (stealJudged threshold s) := by
  obtain ⟨l, b, hform, -⟩ := stealJudged_form threshold s
  rw [hform]
  exact h

/-- With a sound current profile and nothing to test, steal mode is judged and the allowance comes into force. -/
theorem allowanceChanged_evalSteal (hs : (storedProfile s s.psc.phase).storage = .sound) (hh : s.fcu.halted = none)
    (h : (currentProfile s).allowed = false ∨ NoLineToTest s) : allowanceChanged (evalSteal s) =
      withAllowance (currentProfile s) (stealJudged (currentProfile s).steal s) := by
  rw [evalSteal_sound hs hh, allowanceChanged_noLine, currentProfile_stealJudged]
  rw [currentProfile_stealJudged]
  exact h.imp_right (noLineToTest_stealJudged _)

theorem withAllowance_setPhase (p : Profile) (id : Nat) (x : Phase) (s : State) :
    withAllowance p (setPhase id x s) = setPhase id x (withAllowance p s) := by
  unfold withAllowance
  split <;> rfl

theorem withAllowance_link (p : Profile) (s : State) : (withAllowance p s).link = s.link := by
  unfold withAllowance
  split <;> rfl

theorem withAllowance_dem (p : Profile) (s : State) : (withAllowance p s).dem = s.dem := by
  unfold withAllowance
  split <;> rfl

theorem withAllowance_mgu (p : Profile) (s : State) : (withAllowance p s).mgu = s.mgu := by
  unfold withAllowance
  split <;> rfl

/-- A request whose effect is a change of PSC with steal mode judged and the allowance in force is answered DONE. -/
theorem taken_allowance {c : Instr} {eff : Nat → List Byte → State → State} {p : Profile} (hT : Taken k args r s)
    (hc : exec c s = .next (if s.link.por then s else take k eff s)) (hl : u.link = s.link) (hd : u.dem = s.dem)
    (hm : u.mgu = s.mgu)
    (he : eff r.id args (setPhase r.id .serving s) =
      answer r.id .done [] (withAllowance p (stealJudged p.steal (setPhase r.id .serving u)))) :
    exec c s = .next (answered r .done [] (withAllowance p (stealJudged p.steal u))) := by
  obtain ⟨l, b, hform, hstate⟩ := stealJudged_form p.steal u
  refine taken_general hT hc (res := .done) (p := []) ?_ ?_ ?_ ?_
  · rw [he, stealJudged_setPhase, withAllowance_setPhase]
  · rw [withAllowance_link, hform]
    exact hstate.trans (by rw [hl])
  · rw [withAllowance_dem, hform]
    exact hd
  · rw [withAllowance_mgu, hform]
    exact congrArg Mgu.coreReset hm

theorem loadedProfile_eq (args : List Byte) : loadedProfile args =
    { period := max 1 (argument args 1 2), allowed := decide (byteAt args 3 ≠ 0),
      steal := min 4194303 (argument args 4 4), lazyWait := argument args 8 2 } := by
  have h2 := argument_lt args 1 2
  have h8 := argument_lt args 8 2
  have period : clamp 1 65535 (argument args 1 2) = max 1 (argument args 1 2) := by
    rw [clamp_eq _ _ _ (by decide)]
    omega
  have allowed : flagOf (byteAt args 3) = decide (byteAt args 3 ≠ 0) := by
    rw [decide_not]
    rfl
  have ceiling : Config.creditCeiling = 4194303 := rfl
  have steal : clamp 0 Config.creditCeiling (argument args 4 4) = min 4194303 (argument args 4 4) := by
    rw [clamp_eq _ _ _ (by decide), ceiling]
    omega
  have lazy : clamp 0 65535 (argument args 8 2) = argument args 8 2 := by
    rw [clamp_eq _ _ _ (by decide)]
    omega
  unfold loadedProfile
  rw [period, allowed, steal, lazy]

/-! ## A checked read of a rank -/

/-- The state after the single-bit errors of rank `r` are corrected. -/
def corrected (r : Nat) (s : State) : State := (rankEntries r).foldl correctDevice s

/-- What a checked read leaves of an entry that it does not lose. -/
def entryAsRead (x : Stored DeviceEntry) : Stored DeviceEntry :=
  match x.storage with
  | .singleBit => ⟨x.value, .sound⟩
  | _ => x

theorem correctDevice_form (s : State) (n : Nat) : ∃ l v, correctDevice s n =
    { s with link := l, dht := { s.dht with devices := v } } := by
  unfold correctDevice
  split
  · rw [raise_eq]
    exact ⟨_, _, rfl⟩
  · exact ⟨s.link, s.dht.devices, rfl⟩

theorem corrected_form (r : Nat) (s : State) : ∃ l v, corrected r s =
    { s with link := l, dht := { s.dht with devices := v } } := by
  unfold corrected
  refine List.foldlRecOn (motive := fun u => ∃ l v, u = { s with link := l, dht := { s.dht with devices := v } })
    _ _ ⟨s.link, s.dht.devices, rfl⟩ fun u hu n _ => ?_
  obtain ⟨l, v, rfl⟩ := hu
  obtain ⟨l', v', h⟩ := correctDevice_form { s with link := l, dht := { s.dht with devices := v } } n
  exact ⟨l', v', h⟩

theorem deviceAt_correctDevice (hn : n < 40) (m : Nat) :
    deviceAt (correctDevice s n) m = if n = m then entryAsRead (deviceAt s m) else deviceAt s m := by
  unfold correctDevice entryAsRead
  cases h : (deviceAt s n).storage with
  | singleBit =>
    dsimp only
    rw [deviceAt_raise, deviceAt_setDevice]
    by_cases hm : n = m
    · subst hm
      rw [if_pos ⟨rfl, hn⟩, if_pos rfl, h]
    · rw [if_neg fun x => hm x.1, if_neg hm]
  | sound | uncorrectable =>
    by_cases hm : n = m
    · subst hm
      rw [if_pos rfl, h]
    · rw [if_neg hm]

theorem deviceAt_foldl_correct {l : List Nat} (hl : l.Nodup) (h40 : ∀ n ∈ l, n < 40) (s : State) (m : Nat) :
    deviceAt (l.foldl correctDevice s) m = if m ∈ l then entryAsRead (deviceAt s m) else deviceAt s m := by
  induction l generalizing s with
  | nil => rfl
  | cons n l ih =>
    obtain ⟨hn, hl⟩ := List.nodup_cons.mp hl
    have step := deviceAt_correctDevice (s := s) (h40 n List.mem_cons_self) m
    rw [List.foldl_cons, ih hl fun x hx => h40 x (List.mem_cons_of_mem _ hx), step]
    by_cases hm : n = m
    · subst hm
      rw [if_neg hn, if_pos rfl, if_pos List.mem_cons_self]
    · rw [if_neg hm]
      simp only [List.mem_cons, Ne.symm hm, false_or]

theorem mem_rankEntries {r m : Nat} : m ∈ rankEntries r ↔ m / 10 = r := by
  unfold rankEntries entryNumber
  simp only [List.mem_map, List.mem_range]
  constructor
  · rintro ⟨d, hd, rfl⟩
    omega
  · intro h
    exact ⟨m % 10, Nat.mod_lt _ (by decide), by omega⟩

theorem nodup_rankEntries (r : Nat) : (rankEntries r).Nodup :=
  List.nodup_range.map fun _ _ h => entryNumber_inj.mp h

/-- The entries of rank `r` after a checked read; the others stay. -/
theorem deviceAt_corrected {r : Nat} (hr : r < 4) (s : State) (m : Nat) :
    deviceAt (corrected r s) m = if m / 10 = r then entryAsRead (deviceAt s m) else deviceAt s m := by
  have h40 : ∀ n ∈ rankEntries r, n < 40 := fun n hn => by
    have := mem_rankEntries.mp hn
    omega
  unfold corrected
  rw [deviceAt_foldl_correct (nodup_rankEntries r) h40]
  simp only [mem_rankEntries]

theorem entryAsRead_faulty_iff (x : Stored DeviceEntry) :
    (entryAsRead x).storage = .uncorrectable ↔ x.storage = .uncorrectable := by
  unfold entryAsRead
  cases h : x.storage <;> simp [h]

/-- A rank with entries beyond correction is not read: the part enters HALTED naming the lowest of them, the single-bit
errors of the rank corrected (R110, R111, log 20). -/
theorem readRank_faults {r k : Nat} (hr : r < 4) (hk : k < 10)
    (h : (deviceAt s (entryNumber r k)).storage = .uncorrectable)
    (lowest : ∀ j < k, (deviceAt s (entryNumber r j)).storage ≠ .uncorrectable) :
    readRank r s = (false, enterHalted ⟨.health, entryNumber r k⟩ (corrected r s)) := by
  have seen (j : Nat) (hj : j < 10) : ((deviceAt (corrected r s) (entryNumber r j)).storage == .uncorrectable) =
      ((deviceAt s (entryNumber r j)).storage == .uncorrectable) := by
    have rank : entryNumber r j / 10 = r := by
      unfold entryNumber
      omega
    rw [deviceAt_corrected hr, if_pos rank, Bool.eq_iff_iff, beq_iff_eq, beq_iff_eq, entryAsRead_faulty_iff]
  have found : faultyAmong (rankEntries r) (corrected r s) = some (entryNumber r k) := by
    unfold faultyAmong
    rw [rankEntries_split hk, List.find?_append, List.find?_eq_none.mpr]
    · rw [Option.none_or, List.find?_cons_of_pos]
      rw [seen k hk, h]
      rfl
    · intro n hn
      obtain ⟨j, hj, rfl⟩ := List.mem_map.mp hn
      rw [List.mem_range] at hj
      rw [seen j (by omega)]
      simpa using lowest j hj
  show readDevices (rankEntries r) s = _
  unfold readDevices
  show (match faultyAmong (rankEntries r) (corrected r s) with
    | some n => (false, enterHalted ⟨.health, n⟩ (corrected r s))
    | none => (true, corrected r s)) = _
  rw [found]

theorem corrected_completes {ids : Nat → Prop} (r : Nat) (s : State) : Completes ids s (corrected r s) := by
  refine .foldl (fun u n _ => ?_) s
  unfold correctDevice
  split
  · have written : Completes ids u (setDevice n ⟨(deviceAt u n).value, .sound⟩ u) := .of_same rfl rfl rfl
    exact written.trans (.raise ..)
  · exact .refl

/-- The lowest of the faulty entries. -/
theorem lowest_faulty {r : Nat} (h : ∃ i < 10, (deviceAt s (entryNumber r i)).storage = .uncorrectable) :
    ∃ k < 10, (deviceAt s (entryNumber r k)).storage = .uncorrectable ∧
      ∀ j < k, (deviceAt s (entryNumber r j)).storage ≠ .uncorrectable := by
  classical
  obtain ⟨hk, hfault⟩ := Nat.find_spec h
  refine ⟨Nat.find h, hk, hfault, fun j hj hx => ?_⟩
  exact Nat.find_min h hj ⟨hj.trans hk, hx⟩

/-! ## A mark or an unmark under faulty entries -/

theorem deviceMark_inside {id : Nat} (h : ¬(3 < arg args 0 ∨ rankState s (arg args 0) = .absent ∨ 9 < arg args 1)) :
    deviceMark id args s = match readRank (arg args 0) s with
      | (false, s) => answer id .halted [] s
      | (true, s) =>
        if (markOf s (arg args 0)).isSome then answer id .wrongState [] s
        else answer id .done [] (raise .deviceMarked (.device (arg args 0) (arg args 1))
          (putDevice (entryNumber (arg args 0) (arg args 1))
            { deviceEntry s (entryNumber (arg args 0) (arg args 1)) with
              tally := 256, state := .marked, capped := false, count := 0 } s)) := if_neg h

theorem deviceUnmark_inside {id : Nat} (h : ¬(3 < arg args 0 ∨ rankState s (arg args 0) = .absent ∨ 9 < arg args 1)) :
    deviceUnmark id args s = match readRank (arg args 0) s with
      | (false, s) => answer id .halted [] s
      | (true, s) =>
        if (deviceEntry s (entryNumber (arg args 0) (arg args 1))).state ≠ .marked then answer id .wrongState [] s
        else answer id .done [] (putDevice (entryNumber (arg args 0) (arg args 1))
          { deviceEntry s (entryNumber (arg args 0) (arg args 1)) with state := .probation, count := 0 } s) := if_neg h

/-- Both are answered HALTED by a part that enters HALTED naming the lowest faulty entry. -/
theorem exec_mark_faulty {c : Instr} (hc : (k = 8 ∧ c = .deviceMark) ∨ (k = 9 ∧ c = .deviceUnmark))
    (hT : Taken k args r s)
    (hin : ¬(3 < arg args 0 ∨ rankState s (arg args 0) = .absent ∨ 9 < arg args 1)) {i : Nat} (hi : i < 10)
    (h : (deviceAt s (entryNumber (arg args 0) i)).storage = .uncorrectable)
    (lowest : ∀ j < i, (deviceAt s (entryNumber (arg args 0) j)).storage ≠ .uncorrectable) :
    exec c s = .next (answer r.id .halted []
      (enterHalted ⟨.health, entryNumber (arg args 0) i⟩ (corrected (arg args 0) (setPhase r.id .serving s)))) := by
  have hr : arg args 0 < 4 := by omega
  have read := readRank_faults (s := setPhase r.id .serving s) hr hi h lowest
  have inside : ¬(3 < arg args 0 ∨ rankState (setPhase r.id .serving s) (arg args 0) = .absent ∨ 9 < arg args 1) := hin
  rcases hc with ⟨rfl, rfl⟩ | ⟨rfl, rfl⟩
  · refine congrArg Host.Outcome.next ((taken_exec hT deviceMark).trans ?_)
    rw [deviceMark_inside inside, read]
  · refine congrArg Host.Outcome.next ((taken_exec hT deviceUnmark).trans ?_)
    rw [deviceUnmark_inside inside, read]

theorem entryAsRead_cases (x : Stored DeviceEntry) : (entryAsRead x).value = x.value ∧
    ((entryAsRead x).storage = x.storage ∨ x.storage = .singleBit ∧ (entryAsRead x).storage = .sound) := by
  unfold entryAsRead
  cases h : x.storage <;> simp [h]

/-! ## A management request in a part that enters HALTED -/

/-- Ended by HALTED or not, a management request waits or has been answered HALTED. -/
theorem endWorkAtHalt_open {q : Request} (hn : RequestsNamed s) (ha : s.link.state = .active)
    (hq : q ∈ s.dem.requests) (hd : q.isDemand = false) (ho : q.orphan = false) (hp : q.phase ≠ .completing) :
    Waits q (endWorkAtHalt s) ∨ Delivered q.id (.manageDone q.tag .halted []) (endWorkAtHalt s) := by
  have stopped : Completes (fun _ => False) (worksAnswered s) (stopFills (stopPatrol (worksAnswered s))) :=
    (stopPatrol_completes _).trans (stopFills_completes _)
  have settled := settle_completes (ids := fun _ => False) (haltDrain (stopFills (stopPatrol (worksAnswered s))))
  rw [endWorkAtHalt_eq]
  rcases worksAnswered_open ho hp (haltDemand_open hn ha hq hd) with h | h
  · have waits := h.waits.after stopped not_false
    generalize stopFills (stopPatrol (worksAnswered s)) = u at waits settled ⊢
    have drained : Waits q (haltDrain u) ∨ Delivered q.id (.manageDone q.tag .halted []) (haltDrain u) := by
      unfold haltDrain
      split
      · next id _ =>
        by_cases hid : id = q.id
        · subst hid
          exact .inr (waits.answer ho hp .halted [])
        · exact .inl (waits.after (.answer ..) fun e => hid e.symm)
      · exact .inl waits
    exact drained.imp (·.after settled not_false) (settled.delivered _ _)
  · exact .inr (settled.delivered _ _ ((haltDrain_completes _).delivered _ _ (stopped.delivered _ _ h)))

theorem enterHalted_open {q : Request} {cause : HaltCause} (hh : s.fcu.halted = none) (hn : RequestsNamed s)
    (ha : s.link.state = .active) (hq : q ∈ s.dem.requests) (hd : q.isDemand = false) (ho : q.orphan = false)
    (hp : q.phase ≠ .completing) :
    Waits q (enterHalted cause s) ∨ Delivered q.id (.manageDone q.tag .halted []) (enterHalted cause s) := by
  rw [enterHalted_of_served cause hh]
  generalize hu : raise .halted (.table cause.table cause.index)
    { s with fcu := { s.fcu with halted := some cause } } = u
  have dem : u.dem = s.dem := by
    rw [← hu, raise_dem]
  have stamp : u.stamp = s.stamp := by
    rw [← hu, raise_stamp]
  have link : u.link.state = .active := by
    rw [← hu, raise_link_state]
    exact ha
  refine endWorkAtHalt_open ?_ link (by rwa [dem]) hd ho hp
  unfold RequestsNamed at hn ⊢
  rwa [dem, stamp]

/-- The names stay when a request changes its phase. -/
theorem requestsNamed_setPhase {x : Phase} (hn : RequestsNamed s) : RequestsNamed (setPhase id x s) := by
  have names : (setPhase id x s).dem.requests.map Request.id = s.dem.requests.map Request.id := by
    show (s.dem.requests.map _).map _ = _
    rw [List.map_map]
    refine List.map_congr_left fun q _ => ?_
    simp only [Function.comp]
    split <;> rfl
  refine ⟨names ▸ hn.1, fun q hq => ?_⟩
  have mem : q.id ∈ s.dem.requests.map Request.id := names ▸ List.mem_map_of_mem hq
  obtain ⟨x, hx, hid⟩ := List.mem_map.mp mem
  exact hid ▸ hn.2 x hx

/-- A Device Mark or Unmark that finds an entry of the rank beyond correction: the lowest of them is the cause, the
request is answered HALTED, and the entries are those of the checked read. -/
theorem exec_mark_halts {k : Nat} {c : Instr} (hc : (k = 8 ∧ c = .deviceMark) ∨ (k = 9 ∧ c = .deviceUnmark))
    (hT : Taken k args r s) (hin : ¬(3 < arg args 0 ∨ rankState s (arg args 0) = .absent ∨ 9 < arg args 1))
    (hfault : ∃ i < 10, (deviceAt s (entryNumber (arg args 0) i)).storage = .uncorrectable) (hN : RequestsNamed s) :
    ∃ t cause, exec c s = .next t ∧ t.fcu.halted = some cause ∧ cause.table = .health ∧
      (deviceAt s cause.index).storage = .uncorrectable ∧ cause.index / 10 = arg args 0 ∧
      HandedOn r.id (.manageDone r.tag .halted []) t ∧
      ∀ n < 40, (deviceAt t n).value = (deviceAt s n).value ∧
        ((deviceAt t n).storage = (deviceAt s n).storage ∨
          n / 10 = arg args 0 ∧ (deviceAt s n).storage = .singleBit ∧ (deviceAt t n).storage = .sound) := by
  obtain ⟨i, hi, fault, lowest⟩ := lowest_faulty hfault
  have hq : (arg args 0) < 4 := by
    have : ¬3 < (arg args 0) := fun h => hin (.inl h)
    omega
  have served : s.fcu.halted = none :=
    taken_not_halted hT (by rcases hc with ⟨rfl, -⟩ | ⟨rfl, -⟩ <;> rfl)
  obtain ⟨hmem, hbody, hqueued⟩ := taken_manage hT
  have run := exec_mark_faulty hc hT hin hi fault lowest
  have waits := (taken_waits hT).after (corrected_completes (ids := fun _ => False) (arg args 0) _) not_false
  obtain ⟨l, v, hform⟩ := corrected_form (arg args 0) (setPhase r.id .serving s)
  have entry := fun m => deviceAt_corrected hq (setPhase r.id .serving s) m
  generalize corrected (arg args 0) (setPhase r.id .serving s) = u at waits hform entry run
  have halted : u.fcu.halted = none := by
    rw [hform]
    exact served
  have named : RequestsNamed u := by
    rw [hform]
    exact requestsNamed_setPhase (s := s) hN
  have open' := enterHalted_open (cause := ⟨.health, entryNumber (arg args 0) i⟩) halted named waits.active
    (findRequest_some waits.found).1 (by unfold Request.isDemand; rw [hbody]; rfl) hT.buffered nofun
  have dht := enterHalted_dht ⟨.health, entryNumber (arg args 0) i⟩ u
  have halts := enterHalted_halted (s := u) ⟨.health, entryNumber (arg args 0) i⟩ halted
  have answers := answers_answer r.id .halted [] (enterHalted ⟨.health, entryNumber (arg args 0) i⟩ u)
  generalize enterHalted ⟨.health, entryNumber (arg args 0) i⟩ u = w at open' dht halts answers run
  refine ⟨_, ⟨.health, entryNumber (arg args 0) i⟩, run, ?_, rfl, fault, ?_, ?_, fun n hn => ?_⟩
  · obtain ⟨_, _, _, he⟩ := answers
    rw [he]
    exact halts
  · show entryNumber (arg args 0) i / 10 = (arg args 0)
    unfold entryNumber
    omega
  · rcases open' with h | h
    · have goes : Delivered r.id (.manageDone r.tag .halted []) (answer r.id .halted [] w) :=
        h.answer hT.buffered nofun .halted []
      exact goes.handedOn
    · have goes : Delivered r.id (.manageDone r.tag .halted []) (answer r.id .halted [] w) :=
        (Completes.answer ..).delivered _ _ h
      exact goes.handedOn
  · have same : deviceAt (answer r.id .halted [] w) n = deviceAt u n := by
      obtain ⟨_, _, _, he⟩ := answers
      unfold deviceAt
      rw [he]
      exact congrArg (fun x : Dht => getAt x.devices n ⟨resetDevice, .sound⟩) dht
    rw [same, entry n]
    by_cases hr : n / 10 = (arg args 0)
    · rw [if_pos hr]
      obtain ⟨hv, hs⟩ := entryAsRead_cases (deviceAt s n)
      exact ⟨hv, hs.imp_right fun h => ⟨hr, h⟩⟩
    · rw [if_neg hr]
      exact ⟨rfl, .inl rfl⟩

end Sys2Proof.Machine

namespace Sys2Proof

open Machine

/-- Settles O41: with the profile sound, both requests judge steal mode by its S and bring its allowance into force. -/
theorem phaseLoadAndSet : Obligations.PhaseLoadAndSet := by
  intro args r s n allowance
  refine ⟨fun hT => ?_, fun hT => ?_⟩
  · have served : s.fcu.halted = none := taken_not_halted hT rfl
    have inside (hn : n ≤ 7) : ¬7 < arg args 0 := Nat.not_lt.mpr hn
    intro p loaded
    have spelt : loadedProfile args = p := loadedProfile_eq args
    refine ⟨fun hn => ?_, fun hn other => ?_, fun hn current quiet => ?_⟩
    · exact taken_general hT rfl (u := s) (res := .range) (p := []) (if_pos hn) rfl rfl rfl
    · refine taken_general hT rfl (u := loaded) (res := .done) (p := []) ?_ rfl rfl rfl
      unfold phaseLoad
      dsimp only
      rw [if_neg (inside hn), spelt]
      exact congrArg (answer r.id .done []) (if_neg other)
    · refine taken_allowance hT rfl (u := loaded) rfl rfl rfl ?_
      have written : setProfile (arg args 0) ⟨p, .sound⟩ (setPhase r.id .serving s) = setPhase r.id .serving loaded := rfl
      have stored : storedProfile (setPhase r.id .serving loaded) (setPhase r.id .serving loaded).psc.phase = ⟨p, .sound⟩ := by
        have := storedProfile_setProfile s n s.psc.phase ⟨p, .sound⟩
        rwa [if_pos ⟨current, by omega⟩] at this
      have profile : currentProfile (setPhase r.id .serving loaded) = p := congrArg Stored.value stored
      unfold phaseLoad
      dsimp only
      rw [if_neg (inside hn), spelt, written]
      refine congrArg (answer r.id .done []) ((if_pos current).trans ?_)
      have judged := allowanceChanged_evalSteal (s := setPhase r.id .serving loaded) (by rw [stored]) served
        (by rw [profile]; exact quiet)
      rwa [profile] at judged
  · have served : s.fcu.halted = none := taken_not_halted hT rfl
    have inside (hn : n ≤ 7) : ¬7 < arg args 0 := Nat.not_lt.mpr hn
    intro p current
    refine ⟨fun hn => ?_, fun hn sound quiet => ?_⟩
    · exact taken_general hT rfl (u := s) (res := .range) (p := []) (if_pos hn) rfl rfl rfl
    · refine taken_allowance hT rfl (u := current) rfl rfl rfl ?_
      unfold phaseSet readProfile
      dsimp only
      rw [if_neg (inside hn), checkProfile_sound (n := arg args 0) (s := setPhase r.id .serving s) sound]
      exact congrArg (answer r.id .done [])
        (allowanceChanged_evalSteal (s := setPhase r.id .serving current) sound served quiet)

/-- Settles O42: under sound entries by the mark of the rank and the state of the device; with an entry beyond
correction by the checked read that makes the part enter HALTED. -/
theorem markAndUnmark : Obligations.MarkAndUnmark := by
  intro args r s q d outside e put
  refine ⟨fun hT => ⟨fun hout => ?_, fun hin sound marked => ?_, fun hin sound free => ?_⟩,
    fun hT => ⟨fun hout => ?_, fun hin sound other => ?_, fun hin sound marked => ?_⟩,
    fun k c hc hT hin hfault hN => ?_⟩
  · exact taken_general hT rfl (u := s) (res := .range) (p := []) (if_pos hout) rfl rfl rfl
  · refine taken_general hT rfl (u := s) (res := .wrongState) (p := []) ?_ rfl rfl rfl
    rw [deviceMark_inside (s := setPhase r.id .serving s) (args := args) hin,
      readRank_sound (r := arg args 0) (s := setPhase r.id .serving s) sound]
    exact if_pos marked
  · refine taken_general hT rfl (res := .done) (p := []) ?_ (raise_link_state ..) (raise_dem ..) (by rw [raise_mgu])
    rw [deviceMark_inside (s := setPhase r.id .serving s) (args := args) hin,
      readRank_sound (r := arg args 0) (s := setPhase r.id .serving s) sound, ← raise_setPhase]
    exact if_neg (by rw [show markOf (setPhase r.id .serving s) (arg args 0) = none from free]; decide)
  · exact taken_general hT rfl (u := s) (res := .range) (p := []) (if_pos hout) rfl rfl rfl
  · refine taken_general hT rfl (u := s) (res := .wrongState) (p := []) ?_ rfl rfl rfl
    rw [deviceUnmark_inside (s := setPhase r.id .serving s) (args := args) hin,
      readRank_sound (r := arg args 0) (s := setPhase r.id .serving s) sound]
    exact if_pos other
  · refine taken_general hT rfl (res := .done) (p := []) ?_ rfl rfl rfl
    rw [deviceUnmark_inside (s := setPhase r.id .serving s) (args := args) hin,
      readRank_sound (r := arg args 0) (s := setPhase r.id .serving s) sound]
    exact if_neg (not_not.mpr marked)
  · exact exec_mark_halts hc hT hin hfault hN

end Sys2Proof
end

section
/-! Capture records: the parts a Capture Read returns, the placement and the check-back by the error that strikes, and
what enters HALTED behind it (R119, R122, R124, R125, R126, R127, R199). -/

namespace Sys2Proof.Machine

variable {s u : State} {r : Request} {args : List Byte} {x : RecordName} {c : Capture}

/-! ## The head of a HELD record -/

theorem field_of_field {p x : List Byte} {k n : Nat} (h : field p k n = x) (i m : Nat) (hm : i + m ≤ n) :
    field p (k + i) m = field x i m := by
  subst h
  unfold field
  rw [List.drop_take, List.take_take, List.drop_drop, Nat.min_eq_left (by omega)]

/-- The head of a HELD record as runs of bytes. -/
def headRuns (c : Capture) : List (List Byte) :=
  [[1], [c.kind.code], [c.presence], (c.line.map packedAddress).getD [0, 0, 0, 0],
   [(c.region.map fun i => BitVec.ofNat 8 i).getD 0xFF], packed 1 c.phase, packed 6 c.time.toNat, packedRetry c.retry,
   c.outcomes[0].packed, c.outcomes[1].packed, c.outcomes[2].packed, c.outcomes[3].packed,
   [(c.mark.map fun i => BitVec.ofNat 8 i).getD 0xFF],
   (c.table.map fun y => [y.1.code, BitVec.ofNat 8 y.2]).getD [0, 0]]

theorem length_packedOutcome (o : CodewordOutcome) : o.packed.length = 5 := by
  cases o <;> simp [CodewordOutcome.packed, length_packed]

theorem length_packedRetry (o : Option RetryOutcome) : (packedRetry o).length = 3 := by
  cases o with
  | none => rfl
  | some o => cases o <;> simp [packedRetry, length_packed]

theorem packedName_number (n : Option Nat) : packedName n = [(n.map fun k => BitVec.ofNat 8 k).getD 0xFF] := by
  cases n with
  | none => rfl
  | some k => exact packed_one k

theorem headRuns_lengths (c : Capture) :
    (headRuns c).map List.length = [1, 1, 1, 4, 1, 1, 6, 3, 5, 5, 5, 5, 1, 2] := by
  have address : ((c.line.map packedAddress).getD [0, 0, 0, 0]).length = 4 := by
    cases c.line with
    | none => rfl
    | some a => exact length_packedAddress a
  have table : ((c.table.map fun y => [y.1.code, BitVec.ofNat 8 y.2]).getD [0, 0]).length = 2 := by
    cases c.table <;> rfl
  simp only [headRuns, List.map_cons, List.map_nil, address, table, length_packed, length_packedOutcome,
    length_packedRetry, List.length_cons, List.length_nil]

theorem head_eq (c : Capture) : c.head = (headRuns c).flatten := by
  have outcomes : (c.outcomes.toList.map CodewordOutcome.packed).flatten =
      c.outcomes[0].packed ++ (c.outcomes[1].packed ++ (c.outcomes[2].packed ++ c.outcomes[3].packed)) := by
    rw [toList_four]
    simp only [List.map_cons, List.map_nil, List.flatten_cons, List.flatten_nil, List.append_nil]
  have parts : c.head = [1, c.kind.code, c.presence] ++ (c.line.map packedAddress).getD [0, 0, 0, 0] ++
      packedName c.region ++ packed 1 c.phase ++ packed 6 c.time.toNat ++ packedRetry c.retry ++
      (c.outcomes.toList.map CodewordOutcome.packed).flatten ++ packedName c.mark ++
      (c.table.map fun y => [y.1.code, BitVec.ofNat 8 y.2]).getD [0, 0] := by
    obtain ⟨kind, line, region, phase, time, retry, outcomes, mark, held, table⟩ := c
    cases line <;> cases table <;> rfl
  unfold headRuns
  rw [parts, outcomes, packedName_number, packedName_number]
  simp only [List.flatten_cons, List.flatten_nil, List.append_nil, List.append_assoc, List.cons_append, List.nil_append]

theorem head_outcome (c : Capture) (j : Fin 4) : field c.head (18 + 5 * j.val) 5 = c.outcomes[j].packed := by
  have hl := headRuns_lengths c
  rw [head_eq]
  match j with
  | 0 => exact field_flatten hl 8 rfl rfl rfl
  | 1 => exact field_flatten hl 9 rfl rfl rfl
  | 2 => exact field_flatten hl 10 rfl rfl rfl
  | 3 => exact field_flatten hl 11 rfl rfl rfl

theorem presence_bit (c : Capture) : ∀ i < 8, c.presence.getLsbD i = true ↔
    (i = 0 ∧ c.line.isSome) ∨ (i = 1 ∧ c.retry.isSome) ∨ (i = 2 ∧ c.held.isSome) ∨ (i = 3 ∧ c.table.isSome) := by
  intro i hi
  unfold Capture.presence
  generalize c.line.isSome = a, c.retry.isSome = b, c.held.isSome = d, c.table.isSome = e
  revert a b d e
  interval_cases i <;> decide

/-- What the five bytes of a codeword outcome say (T12, T60). -/
theorem outcome_fields {p : List Byte} {k k' k'' : Nat} (h2 : k' = k + 2) (h4 : k'' = k + 4) (o : CodewordOutcome) :
    field p k 5 = o.packed →
    match o with
    | .clean => field p k 5 = [0, 0xFF, 0, 0, 0]
    | .fixed d x => field p k 2 = [1, BitVec.ofNat 8 d.val] ∧ argument p k' 2 = x.toNat ∧
        argument p k'' 1 = (List.range 16).countP fun i => x.getLsbD i
    | .filled x => field p k 2 = [2, 0xFF] ∧ argument p k' 2 = x.toNat ∧ byteAt p k'' = 0
    | .poisonMark => field p k 5 = [3, 0xFF, 0, 0, 0]
    | .uncorrectable => field p k 5 = [4, 0xFF, 0, 0, 0]
    | .notRead => field p k 5 = [5, 0xFF, 0, 0, 0] := by
  subst h2 h4
  intro h
  have head := field_of_field h 0 2 (by decide)
  have pattern := field_of_field h 2 2 (by decide)
  have last := field_of_field h 4 1 (by decide)
  cases o with
  | clean | poisonMark | uncorrectable | notRead => exact h
  | fixed d x =>
    have weight : patternWeight x < 256 := by
      have : patternWeight x ≤ (List.range 16).length := List.countP_le_length
      rw [List.length_range] at this
      omega
    exact ⟨head, argument_of_field _ _ _ _ pattern x.isLt, argument_of_field _ _ _ _ last weight⟩
  | filled x => exact ⟨head, argument_of_field _ _ _ _ pattern x.isLt, byteAt_of_run last⟩

/-- The fields of the head (T96). -/
theorem head_fields (c : Capture) :
    let p := c.head
    p.length = 41 ∧ byteAt p 0 = 1 ∧ byteAt p 1 = c.kind.code ∧
      (∀ i < 8, (byteAt p 2).getLsbD i = true ↔ (i = 0 ∧ c.line.isSome) ∨ (i = 1 ∧ c.retry.isSome) ∨
        (i = 2 ∧ c.held.isSome) ∨ (i = 3 ∧ c.table.isSome)) ∧
      (∀ a, c.line = some a → addressOf (field p 3 4) = a) ∧
      (c.line = none → field p 3 4 = [0, 0, 0, 0]) ∧
      byteAt p 7 = (c.region.map fun i => BitVec.ofNat 8 i).getD 0xFF ∧
      byteAt p 8 = BitVec.ofNat 8 c.phase ∧ argument p 9 6 = c.time.toNat ∧
      (match c.retry with
        | some (.unstable devices) => byteAt p 15 = 1 ∧ argument p 16 2 = devices.toNat
        | _ => field p 15 3 = [0, 0, 0]) ∧
      (∀ j : Fin 4, field p (18 + 5 * j.val) 5 = c.outcomes[j].packed) ∧
      byteAt p 38 = (c.mark.map fun i => BitVec.ofNat 8 i).getD 0xFF ∧
      (match c.table with
        | some (x, i) => field p 39 2 = [x.code, BitVec.ofNat 8 i]
        | none => field p 39 2 = [0, 0]) := by
  intro p
  have hl := headRuns_lengths c
  have run {y : List Byte} {k n : Nat} (i : Nat) (h : (headRuns c)[i]? = some y)
      (hk : ([1, 1, 1, 4, 1, 1, 6, 3, 5, 5, 5, 5, 1, 2].take i).sum = k)
      (hn : [1, 1, 1, 4, 1, 1, 6, 3, 5, 5, 5, 5, 1, 2][i]? = some n) : field p k n = y := by
    rw [show p = (headRuns c).flatten from head_eq c]
    exact field_flatten hl i h hk hn
  have presence : byteAt p 2 = c.presence := byteAt_of_run (run 2 rfl rfl rfl)
  have address : field p 3 4 = _ := run 3 rfl rfl rfl
  have phase : field p 8 1 = packed 1 c.phase := run 5 rfl rfl rfl
  have retry : field p 15 3 = packedRetry c.retry := run 7 rfl rfl rfl
  have table : field p 39 2 = _ := run 13 rfl rfl rfl
  rw [packed_one] at phase
  refine ⟨?_, byteAt_of_run (run 0 rfl rfl rfl), byteAt_of_run (run 1 rfl rfl rfl), ?_, ?_, ?_,
    byteAt_of_run (run 4 rfl rfl rfl), byteAt_of_run phase,
    argument_of_field _ _ _ _ (run 6 rfl rfl rfl) c.time.isLt, ?_, head_outcome c,
    byteAt_of_run (run 12 rfl rfl rfl), ?_⟩
  · rw [show p = (headRuns c).flatten from head_eq c]
    exact length_flatten_runs hl rfl
  · rw [presence]
    exact presence_bit c
  · intro a ha
    rw [address, ha]
    exact addressOf_packedAddress a
  · intro h
    rw [address, h]
    rfl
  · match hr : c.retry with
    | none | some .persistent =>
      rw [hr] at retry
      exact retry
    | some (.unstable devices) =>
      rw [hr] at retry
      exact ⟨byteAt_of_run (field_of_field retry 0 1 (by decide)), argument_of_field _ _ _ _
        (field_of_field retry 1 2 (by decide)) (Nat.lt_trans devices.isLt (by decide))⟩
  · match ht : c.table with
    | none | some (y, i) =>
      rw [ht] at table
      exact table

/-! ## Capture Read and Capture Release -/

theorem recordOf_code (h : byteAt args 0 = recordCode x) : recordOf (arg args 0) = some x := by
  rw [arg, h]
  cases x <;> rfl

theorem recordOf_outside {n : Nat} (h : 1 < n) : recordOf n = none := by
  match n, h with
  | n + 2, _ => rfl

theorem captureRead_outside (h : 1 < arg args 0 ∨ 2 < arg args 1) (id : Nat) (s : State) :
    captureRead id args s = answer id .range [] s := by
  unfold captureRead
  rcases h with h | h
  · rw [recordOf_outside h]
  · cases recordOf (arg args 0) with
    | none => rfl
    | some x => exact if_pos h

theorem checkRecord_single (h : (recordAt s x).storage = .singleBit) : checkRecord x s =
    raise .internalCorrected (.table .capture (recordIndex x)) (setRecord x { recordAt s x with storage := .sound } s) := by
  unfold checkRecord
  rw [h]

theorem checkRecord_lost (h : (recordAt s x).storage = .uncorrectable) : checkRecord x s =
    raise .tableFault (.table .capture (recordIndex x)) (setRecord x { recordAt s x with content := .lost } s) := by
  unfold checkRecord
  rw [h]

/-- Capture Read of a part there is, where its check leaves `u`. -/
theorem exec_captureRead (hT : Taken 25 args r s) (hx : byteAt args 0 = recordCode x) (hm : arg args 1 ≤ 2)
    (hu : checkRecord x (setPhase r.id .serving s) = setPhase r.id .serving u)
    (hl : u.link.state = s.link.state) (hd : u.dem = s.dem) (hc : u.mgu = s.mgu) :
    exec .captureRead s = .next (answered r .done ((recordAt u x).content.part (arg args 1)) u) := by
  refine taken_general hT rfl (u := u) (res := .done) ?_ hl hd (congrArg _ hc)
  unfold captureRead
  rw [recordOf_code hx]
  dsimp only
  rw [if_neg (Nat.not_lt.mpr hm), hu, recordAt_setPhase]
  rfl

theorem captureRead_sound (hT : Taken 25 args r s) (hx : byteAt args 0 = recordCode x) (hm : arg args 1 ≤ 2)
    (h : (recordAt s x).storage = .sound) :
    exec .captureRead s = .next (answered r .done ((recordAt s x).content.part (arg args 1)) s) := by
  refine exec_captureRead hT hx hm (u := s) ?_ rfl rfl rfl
  unfold checkRecord
  rw [recordAt_setPhase, h]

theorem captureRead_single (hT : Taken 25 args r s) (hx : byteAt args 0 = recordCode x) (hm : arg args 1 ≤ 2)
    (h : (recordAt s x).storage = .singleBit) :
    exec .captureRead s = .next (answered r .done ((recordAt s x).content.part (arg args 1))
      (raise .internalCorrected (.table .capture (recordIndex x))
        (setRecord x { recordAt s x with storage := .sound } s))) := by
  have hu : checkRecord x (setPhase r.id .serving s) = setPhase r.id .serving
      (raise .internalCorrected (.table .capture (recordIndex x))
        (setRecord x { recordAt s x with storage := .sound } s)) := by
    rw [checkRecord_single (by rw [recordAt_setPhase]; exact h), recordAt_setPhase, setRecord_setPhase, raise_setPhase]
  have run := exec_captureRead hT hx hm hu (by rw [raise_link_state, setRecord_link]) (by rw [raise_dem, setRecord_dem])
    (by rw [raise_mgu, setRecord_mgu])
  rwa [recordAt_raise, recordAt_setRecord] at run

theorem captureRead_lost (hT : Taken 25 args r s) (hx : byteAt args 0 = recordCode x) (hm : arg args 1 ≤ 2)
    (h : (recordAt s x).storage = .uncorrectable) :
    exec .captureRead s = .next (answered r .done [2]
      (raise .tableFault (.table .capture (recordIndex x)) (setRecord x { recordAt s x with content := .lost } s))) := by
  have hu : checkRecord x (setPhase r.id .serving s) = setPhase r.id .serving
      (raise .tableFault (.table .capture (recordIndex x))
        (setRecord x { recordAt s x with content := .lost } s)) := by
    rw [checkRecord_lost (by rw [recordAt_setPhase]; exact h), recordAt_setPhase, setRecord_setPhase, raise_setPhase]
  have run := exec_captureRead hT hx hm hu (by rw [raise_link_state, setRecord_link]) (by rw [raise_dem, setRecord_dem])
    (by rw [raise_mgu, setRecord_mgu])
  rwa [recordAt_raise, recordAt_setRecord] at run

theorem part_one {mask : ByteMask} {data : Line} (h : c.held = some (mask, data)) :
    (RecordContent.held c).part 1 = packedMask mask ++ data.toList.take 32 := by
  cases c
  cases h
  rfl

theorem part_two {mask : ByteMask} {data : Line} (h : c.held = some (mask, data)) :
    (RecordContent.held c).part 2 = data.toList.drop 32 := by
  cases c
  cases h
  rfl

theorem part_unheld (h : c.held = none) {k : Nat} (hk : 0 < k) : (RecordContent.held c).part k = [] := by
  cases c
  cases h
  match k, hk with
  | 1, _ => rfl
  | 2, _ => rfl
  | k + 3, _ => rfl

/-- The second part: the mask and the first half of the bytes. -/
theorem heldPart_one (mask : ByteMask) (data : Line) :
    let p := packedMask mask ++ data.toList.take 32
    maskOf (field p 0 8) = mask ∧ ∀ i : Fin 32, byteAt p (8 + i.val) = data[i.val] := by
  intro p
  have hmask : field p 0 8 = packedMask mask := List.take_left' (length_packedMask mask)
  refine ⟨by rw [hmask, maskOf_packedMask], fun i => ?_⟩
  unfold byteAt
  rw [List.getD_eq_getElem?_getD, List.getElem?_append_right (by rw [length_packedMask]; omega), length_packedMask,
    Nat.add_sub_cancel_left, List.getElem?_take, if_pos i.isLt, Vector.getElem?_toList,
    Vector.getElem?_eq_getElem (by omega)]
  rfl

theorem heldPart_two (data : Line) :
    (data.toList.drop 32).length = 32 ∧ ∀ i : Fin 32, byteAt (data.toList.drop 32) i.val = data[32 + i.val] := by
  refine ⟨by simp, fun i => ?_⟩
  unfold byteAt
  rw [List.getD_eq_getElem?_getD, List.getElem?_drop, Vector.getElem?_toList, Vector.getElem?_eq_getElem (by omega)]
  rfl

theorem captureRelease_outside (h : 1 < arg args 0) (id : Nat) (s : State) :
    captureRelease id args s = answer id .range [] s := by
  unfold captureRelease
  rw [recordOf_outside h]

theorem exec_captureRelease (hT : Taken 26 args r s) (hx : byteAt args 0 = recordCode x) :
    exec .captureRelease s = .next (answered r .done []
      (setRecord x { recordAt s x with content := .empty, storage := .sound } s)) := by
  refine taken_general hT rfl (res := .done) (p := []) ?_ (by rw [setRecord_link]) (setRecord_dem ..)
    (by rw [setRecord_mgu])
  unfold captureRelease
  rw [recordOf_code hx, ← setRecord_setPhase]
  dsimp only
  rw [recordAt_setPhase]

/-! ## Placing a capture -/

/-- The capture as it is written: with the phase and the time of its placement (R124). -/
def Capture.placed (c : Capture) (s : State) : Capture := { c with phase := s.psc.phase, time := s.mgu.timeBase }

/-- Record `x` replaced and the next pointer moved past it. -/
def recordWritten (x : RecordName) (record : CaptureRecord) (s : State) : State :=
  setRecord x record { s with fcu := { s.fcu with next := otherRecord x } }

theorem setRecord_setRecord (x : RecordName) (b d : CaptureRecord) (s : State) :
    setRecord x b (setRecord x d s) = setRecord x b s := by
  cases x <;> rfl

theorem recordAt_recordWritten (x : RecordName) (record : CaptureRecord) (s : State) :
    recordAt (recordWritten x record s) x = record := recordAt_setRecord ..

theorem otherRecord_otherRecord (x : RecordName) : otherRecord (otherRecord x) = x := by
  cases x <;> rfl

theorem otherRecord_eq (x : RecordName) : otherRecord x = if x = .a then .b else .a := by
  cases x <;> rfl

/-- Where the capture goes: the record next, else the other (R124). -/
def CaptureGoes (x : RecordName) (s : State) : Prop :=
  (x = s.fcu.next ∧ (recordAt s x).content = .empty) ∨
    (x = otherRecord s.fcu.next ∧ (recordAt s s.fcu.next).content ≠ .empty ∧ (recordAt s x).content = .empty)

theorem CaptureGoes.target (h : CaptureGoes x s) : captureTarget s = some x := by
  unfold captureTarget
  rcases h with ⟨rfl, he⟩ | ⟨rfl, hn, he⟩
  · exact if_pos he
  · rw [if_neg hn, if_pos he]

theorem captureTarget_none (h : ∀ x, (recordAt s x).content ≠ .empty) : captureTarget s = none := by
  unfold captureTarget
  rw [if_neg (h _), if_neg (h _)]

theorem placeCapture_goes (hh : s.fcu.halted = none) (h : CaptureGoes x s) (c : Capture) :
    placeCapture c s = (some x, writeCapture x c s) := by
  unfold placeCapture
  rw [if_neg (by rw [hh]; nofun), h.target]

theorem placeCapture_lost (hh : s.fcu.halted = none) (h : ∀ x, (recordAt s x).content ≠ .empty) (c : Capture) :
    placeCapture c s = (none, raise .captureLost c.subject (countLostCapture s)) := by
  unfold placeCapture
  rw [if_neg (by rw [hh]; nofun), captureTarget_none h]

theorem writeCapture_sound (h : (recordAt s x).strike = .sound) (c : Capture) :
    writeCapture x c s = recordWritten x ⟨.held (c.placed s), .sound, .sound⟩ s := by
  unfold writeCapture checkBack
  rw [recordAt_setRecord]
  dsimp only
  rw [h]
  rfl

theorem writeCapture_single (h : (recordAt s x).strike = .singleBit) (c : Capture) :
    writeCapture x c s = raise .internalCorrected (.table .capture (recordIndex x))
      (recordWritten x ⟨.held (c.placed s), .sound, .sound⟩ s) := by
  unfold writeCapture checkBack
  rw [recordAt_setRecord]
  dsimp only
  rw [h]
  dsimp only
  rw [setRecord_setRecord]
  rfl

theorem writeCapture_lost (h : (recordAt s x).strike = .uncorrectable) (c : Capture) :
    writeCapture x c s = recordWritten x ⟨.lost, .uncorrectable, .sound⟩ s := by
  unfold writeCapture checkBack
  rw [recordAt_setRecord]
  dsimp only
  rw [h]
  dsimp only
  rw [setRecord_setRecord]
  rfl

/-- A capture is reported, and enters HALTED where its record is found lost. -/
theorem capture_eq (c : Capture) (report : Option RecordName → State → State) (s : State) :
    capture c report s = haltIf (captureFailed (placeCapture c s).1 (placeCapture c s).2)
      (report (placeCapture c s).1 (placeCapture c s).2) := rfl

theorem captureFailed_held {d : Capture} (h : (recordAt s x).content = .held d) : captureFailed (some x) s = none :=
  if_neg (by rw [h]; nofun)

theorem captureFailed_lost (h : (recordAt s x).content = .lost) :
    captureFailed (some x) s = some ⟨.capture, recordIndex x⟩ := if_pos h

theorem capture_sound (hh : s.fcu.halted = none) (hx : CaptureGoes x s) (h : (recordAt s x).strike = .sound)
    (c : Capture) (report : Option RecordName → State → State) :
    capture c report s = report (some x) (recordWritten x ⟨.held (c.placed s), .sound, .sound⟩ s) := by
  rw [capture_eq, placeCapture_goes hh hx, writeCapture_sound h]
  dsimp only
  rw [captureFailed_held (congrArg _ (recordAt_recordWritten ..))]
  rfl

theorem capture_single (hh : s.fcu.halted = none) (hx : CaptureGoes x s) (h : (recordAt s x).strike = .singleBit)
    (c : Capture) (report : Option RecordName → State → State) :
    capture c report s = report (some x) (raise .internalCorrected (.table .capture (recordIndex x))
      (recordWritten x ⟨.held (c.placed s), .sound, .sound⟩ s)) := by
  rw [capture_eq, placeCapture_goes hh hx, writeCapture_single h]
  dsimp only
  rw [captureFailed_held (congrArg _ ((recordAt_raise ..).trans (recordAt_recordWritten ..)))]
  rfl

theorem capture_lost (hh : s.fcu.halted = none) (hx : CaptureGoes x s) (h : (recordAt s x).strike = .uncorrectable)
    (c : Capture) (report : Option RecordName → State → State) :
    capture c report s = enterHalted ⟨.capture, recordIndex x⟩
      (report (some x) (recordWritten x ⟨.lost, .uncorrectable, .sound⟩ s)) := by
  rw [capture_eq, placeCapture_goes hh hx, writeCapture_lost h]
  dsimp only
  rw [captureFailed_lost (congrArg _ (recordAt_recordWritten ..))]
  rfl

/-! ## A Region Read whose TABLE_FAULT capture is struck -/

theorem recordAt_of_fcu {t : State} (ha : t.fcu.recordA = s.fcu.recordA) (hb : t.fcu.recordB = s.fcu.recordB)
    (x : RecordName) : recordAt t x = recordAt s x := by
  cases x
  · exact ha
  · exact hb

/-- The Region Read is answered DONE by a part that enters HALTED naming the record, the entry in its empty form. -/
theorem regionRead_struck (hT : Taken 2 args r s) (hn : arg args 0 ≤ 15)
    (hfault : (regionAt s (arg args 0)).storage = .uncorrectable) (hh : s.fcu.halted = none)
    (hempty : (recordAt s s.fcu.next).content = .empty) (hstrike : (recordAt s s.fcu.next).strike = .uncorrectable)
    (hN : RequestsNamed s) (hw : ∀ w ∈ s.sls.retires, w.request ≠ r.id)
    (hs : ∀ i < 32, ∀ a d t w, slotAt s i = .releasing a d t (some w) → w.request ≠ r.id) :
    ∃ t p, exec .regionRead s = .next t ∧ t.fcu.halted = some ⟨.capture, recordIndex s.fcu.next⟩ ∧
      recordAt t s.fcu.next = ⟨.lost, .uncorrectable, .sound⟩ ∧ t.fcu.next = otherRecord s.fcu.next ∧
      regionAt t (arg args 0) = ⟨emptyRegion, .sound⟩ ∧ HandedOn r.id (.manageDone r.tag .done p) t := by
  generalize hv : setRegion (arg args 0) ⟨emptyRegion, .sound⟩ (setPhase r.id .serving s) = v
  have region : regionAt v (arg args 0) = ⟨emptyRegion, .sound⟩ := by
    rw [← hv, regionAt_setRegion, if_pos ⟨rfl, by omega⟩]
  have fcu : v.fcu = s.fcu := by
    rw [← hv]
    rfl
  have record (y : RecordName) : recordAt v y = recordAt s y :=
    recordAt_of_fcu (congrArg _ fcu) (congrArg _ fcu) y
  have waits : Waits { r with phase := .serving } v := by
    rw [← hv]
    exact (taken_waits hT).after (ids := fun _ => False) (.of_same rfl rfl rfl) not_false
  have kept : ¬EndsAtHalt v r.id := by
    refine fun h => taken_notEnds hT hN hw hs ?_
    rw [← hv] at h
    exact endsAtHalt_of_same (s := setPhase r.id .serving s) rfl rfl rfl h
  have check : checkRegion (setPhase r.id .serving s) (arg args 0) = tableFault .region (arg args 0) v := by
    rw [← hv]
    unfold checkRegion
    rw [show (regionAt (setPhase r.id .serving s) (arg args 0)).storage = .uncorrectable from hfault]
  have goes : CaptureGoes s.fcu.next v := .inl ⟨by rw [fcu], by rw [record, hempty]⟩
  have struck := capture_lost (by rw [fcu, hh]) goes (by rw [record, hstrike]) (tableCapture .region (arg args 0))
    (fun x => raiseAt .tableFault 5 (.table .region (arg args 0)) x)
  generalize hlost : recordWritten s.fcu.next ⟨.lost, .uncorrectable, .sound⟩ v = lost at struck
  have lostFcu : lost.fcu.halted = none ∧ lost.fcu.next = otherRecord s.fcu.next ∧
      recordAt lost s.fcu.next = ⟨.lost, .uncorrectable, .sound⟩ := by
    rw [← hlost]
    refine ⟨?_, setRecord_fcu_next .., recordAt_recordWritten ..⟩
    exact (setRecord_fcu_halted ..).trans ((congrArg Fcu.halted fcu).trans hh)
  have lostSame : lost.rgt = v.rgt ∧ lost.link = v.link ∧ lost.dem = v.dem ∧ lost.mgu = v.mgu ∧ lost.sls = v.sls := by
    rw [← hlost]
    exact ⟨setRecord_rgt .., setRecord_link .., setRecord_dem .., setRecord_mgu .., setRecord_sls ..⟩
  obtain ⟨halted, next, found⟩ := lostFcu
  obtain ⟨rgt, link, dem, mgu, sls⟩ := lostSame
  have reported : Completes (fun _ => False) v
      (raiseAt .tableFault 5 (.table .region (arg args 0)) (some s.fcu.next) lost) :=
    (Completes.of_same link dem (congrArg _ mgu)).trans (.raiseAt ..)
  have open' : ¬EndsAtHalt (raiseAt .tableFault 5 (.table .region (arg args 0)) (some s.fcu.next) lost) r.id := by
    refine fun h => kept (endsAtHalt_of_same ?_ ?_ ?_ h)
    · rw [raiseAt_eq]
      exact dem
    · rw [raiseAt_eq]
      exact sls
    · exact congrArg Mgu.coreReset ((raiseAt_mgu ..).trans mgu)
  have raised : ∃ l, raiseAt .tableFault 5 (.table .region (arg args 0)) (some s.fcu.next) lost =
      { lost with link := l } := ⟨_, raiseAt_eq ..⟩
  generalize raiseAt .tableFault 5 (.table .region (arg args 0)) (some s.fcu.next) lost = u at *
  obtain ⟨l, rfl⟩ := raised
  obtain ⟨l', d', c', v', ranks, due, form, -⟩ :=
    enterHalted_form (s := { lost with link := l }) ⟨.capture, recordIndex s.fcu.next⟩ halted
  have delivered (p : List Byte) := (waits.after reported not_false).delivers_after_halt
    (cause := ⟨.capture, recordIndex s.fcu.next⟩) open' hT.buffered nofun .done p
  have run : exec .regionRead s = .next (answer r.id .done (regionPayload (arg args 0)
      (enterHalted ⟨.capture, recordIndex s.fcu.next⟩ { lost with link := l }))
      (enterHalted ⟨.capture, recordIndex s.fcu.next⟩ { lost with link := l })) := by
    refine congrArg Host.Outcome.next ((taken_exec hT regionRead).trans ?_)
    unfold regionRead
    dsimp only
    rw [if_neg (Nat.not_lt.mpr hn), check]
    exact congrArg (fun w => answer r.id .done (regionPayload (arg args 0) w) w) struck
  generalize regionPayload (arg args 0) (enterHalted ⟨.capture, recordIndex s.fcu.next⟩ { lost with link := l }) = p
    at run
  have goes := (delivered p).handedOn
  generalize enterHalted ⟨.capture, recordIndex s.fcu.next⟩ { lost with link := l } = w at *
  obtain ⟨l'', d'', c'', answers⟩ := answers_answer r.id .done p w
  refine ⟨_, p, run, ?_, ?_, ?_, ?_, goes⟩
  · rw [answers, form]
  · rw [answers, form]
    exact (recordAt_of_fcu (s := lost) rfl rfl _).trans found
  · rw [answers, form]
    exact next
  · rw [answers, form]
    exact (regionAt_congr (s := v) rgt _).trans region

end Sys2Proof.Machine

namespace Sys2Proof

open Machine

/-- Settles O46: the parts by the content of the record, the placements by the record they go to and the error that
strikes there. -/
theorem capturesArePlacedReadAndReleased : Obligations.CapturesArePlacedReadAndReleased := by
  refine ⟨rfl, fun args r s => ⟨fun hT => ⟨fun outside => ?_, fun x hx hm => ?_⟩, fun hT => ⟨fun outside => ?_,
    fun x hx => exec_captureRelease hT hx⟩⟩, fun args r s hT hn hfault hh hempty hstrike hN hw hs => ?_,
    fun c s => ⟨fun hh => if_pos hh, fun hh ready => ⟨fun hempty => ?_, fun hheld hempty => ?_, fun hfull => ?_⟩,
      fun hh x hx => ?_⟩⟩
  · exact taken_general hT rfl (u := s) (res := .range) (p := []) (captureRead_outside outside _ _) rfl rfl rfl
  · refine ⟨fun sound => ?_, captureRead_single hT hx hm, captureRead_lost hT hx hm⟩
    have run := captureRead_sound hT hx hm sound
    refine ⟨fun content => ?_, fun content => ?_, fun c content part => ?_, fun c mask data content held => ?_,
      fun c content held part => ?_⟩
    · rw [content] at run
      exact run
    · rw [content] at run
      exact run
    · rw [content, show arg args 1 = 0 from part] at run
      obtain ⟨length, state, kind, presence, line, noLine, region, phase, time, retry, outcomes, mark, table⟩ :=
        head_fields c
      refine ⟨c.head, run, length, state, kind, presence, line, noLine, region, phase, time, ?_, fun j => ?_, mark, ?_⟩
      · exact retry
      · exact outcome_fields (Nat.add_right_comm 18 2 _) (Nat.add_right_comm 18 4 _) _ (outcomes j)
      · exact table
    · rw [content] at run
      refine ⟨fun part => ?_, fun part => ?_⟩
      · rw [show arg args 1 = 1 from part, part_one held] at run
        exact ⟨_, run, heldPart_one mask data⟩
      · rw [show arg args 1 = 2 from part, part_two held] at run
        exact ⟨_, run, heldPart_two data⟩
    · rwa [content, part_unheld held (k := arg args 1) part] at run
  · refine taken_general hT rfl (u := s) (res := .range) (p := []) ?_ rfl rfl rfl
    exact captureRelease_outside outside _ _
  · rw [← otherRecord_eq]
    exact regionRead_struck hT hn hfault hh hempty hstrike hN hw hs
  · have goes : CaptureGoes s.fcu.next s := .inl ⟨rfl, hempty⟩
    have placed := placeCapture_goes hh goes c
    rw [writeCapture_sound (ready _), recordWritten, otherRecord_eq] at placed
    exact placed
  · rw [← otherRecord_eq] at hempty ⊢
    have goes : CaptureGoes (otherRecord s.fcu.next) s := .inr ⟨rfl, hheld, hempty⟩
    have placed := placeCapture_goes hh goes c
    rw [writeCapture_sound (ready _), recordWritten, otherRecord_otherRecord] at placed
    exact placed
  · exact placeCapture_lost hh hfull c
  · have goes : CaptureGoes x s := by
      unfold CaptureGoes
      rwa [otherRecord_eq]
    intro written whole corrected lost enters
    have written_eq (record : CaptureRecord) : recordWritten x record s = written record := by
      rw [recordWritten, otherRecord_eq]
    refine ⟨fun h report => ?_, fun h => ⟨?_, fun report => ?_⟩, fun h => ⟨?_, fun report => ?_, fun table i hc => ?_⟩⟩
    · rw [capture_sound hh goes h, written_eq]
      rfl
    · rw [placeCapture_goes hh goes, writeCapture_single h, written_eq]
      rfl
    · rw [capture_single hh goes h, written_eq]
      rfl
    · rw [placeCapture_goes hh goes, writeCapture_lost h, written_eq]
    · rw [capture_lost hh goes h, written_eq]
    · refine (capture_lost hh goes h _ _).trans ?_
      rw [written_eq]
      rfl

end Sys2Proof
end

section
/-! Core Reset of both flavours, stage by stage: the requests it completes, what the reset effects leave, and the answer
(R37, R38, R69, R85, R161, R181–R185). -/

namespace Sys2Proof.Machine

variable {s t u : State} {r q : Request} {f : UpFrame} {args : List Byte}

/-! ## Runs over the demand requests -/

section

variable {step : State → Request → State} {J : State → Prop}

/-- A run over the requests completes demand requests alone. -/
theorem foldl_requests_completes
    (hc : ∀ u y, Completes (fun k => y.isDemand = true ∧ y.id = k) u (step u y)) (s : State) :
    Completes (NamesDemand s) s (s.dem.requests.foldl step s) :=
  .foldl (fun u y hy => (hc u y).mono fun _ ⟨hd, hk⟩ => ⟨y, hy, hd, hk⟩) s

variable (hc : ∀ u y, Completes (fun k => y.isDemand = true ∧ y.id = k) u (step u y))
  (hJ : ∀ u y, J u → J (step u y)) (hn : (s.dem.requests.map Request.id).Nodup) (hs : J s)
include hc hJ hn hs

/-- A request that its step answers is answered by the run. -/
theorem foldl_requests_delivers (ha : s.link.state = .active) (hq : q ∈ s.dem.requests)
    (hd : ∀ u, J u → Waits q u → Delivered q.id f (step u q)) : Delivered q.id f (s.dem.requests.foldl step s) := by
  refine foldl_reaches (I := fun u => Waits q u ∧ J u) (x := q) (fun u y _ h => (hc u y).delivered _ _ h)
    (fun u y hy hu => ?_) (fun u hu => hd u hu.2 hu.1) hq (.inl ⟨waits_of_mem hn ha hq, hs⟩)
  by_cases hid : y.id = q.id
  · have same := find_of_nodup hn hy
    rw [hid, find_of_nodup hn hq] at same
    obtain rfl := Option.some.inj same
    exact .inr (hd u hu.2 hu.1)
  · exact .inl ⟨hu.1.after (hc u y) fun h => hid h.2, hJ u y hu.2⟩

/-- A request that its step completes is left completing, or not at all. -/
theorem foldl_requests_rest (hq : q ∈ (s.dem.requests.foldl step s).dem.requests)
    (hd : ∀ u, J u → (u.dem.requests.map Request.id).Nodup →
      ∀ x ∈ (step u q).dem.requests, x.id = q.id → x.phase = .completing) : q.phase = .completing := by
  by_contra waits
  have was : q ∈ s.dem.requests := ((foldl_requests_completes hc s).rest q hq).resolve_right waits
  have all : ∀ x ∈ (s.dem.requests.foldl step s).dem.requests, x.id = q.id → x.phase = .completing := by
    refine foldl_reaches (I := fun u => (u.dem.requests.map Request.id).Nodup ∧ J u)
      (P := fun u => ∀ x ∈ u.dem.requests, x.id = q.id → x.phase = .completing) (x := q)
      (fun u y _ h x hx hid => ?_) (fun u y _ hu => .inl ⟨(hc u y).names.nodup hu.1, hJ u y hu.2⟩)
      (fun u hu => hd u hu.2 hu.1) was (.inl ⟨hn, hs⟩)
    exact ((hc u y).rest x hx).elim (h x · hid) fun h => h
  exact waits (all q hq rfl)

end

/-! ## The requests a drain completes -/

theorem drainRequest_of_queued {a : LineAddr} (hb : q.body.line? = some a) (hp : q.phase = .queued) (u : State) :
    drainRequest u q = completeDemand q.id (if lineExists a u then .notReady else .range) zeroLine u := by
  unfold drainRequest
  rw [hb, hp]

theorem drainRequest_completes (u : State) (y : Request) :
    Completes (fun k => y.isDemand = true ∧ y.id = k) u (drainRequest u y) := by
  unfold drainRequest
  split
  · next a ha _ =>
    have demand : y.isDemand = true := by
      unfold Request.isDemand
      rw [ha]
      rfl
    exact (Completes.completeDemand ..).mono fun k hk => ⟨demand, hk.symm⟩
  · exact .refl

theorem drainRequest_answers (u : State) (y : Request) : Answers u (drainRequest u y) := by
  unfold drainRequest
  split
  · exact answers_completeDemand ..
  · exact .refl _

theorem drainRequest_lineExists (a : LineAddr) (u : State) (y : Request) :
    lineExists a (drainRequest u y) = lineExists a u := by
  have straps := (moves_drainRequest u y).straps
  obtain ⟨l, d, c, h⟩ := drainRequest_answers u y
  unfold lineExists rankState rankRec depth
  rw [straps, h]

def drainDemand (s : State) : State := s.dem.requests.foldl drainRequest s

theorem drainDemand_rest (hn : (s.dem.requests.map Request.id).Nodup) (hq : q ∈ (drainDemand s).dem.requests)
    (hd : q.isDemand = true) : q.phase ≠ .queued := by
  intro hp
  obtain ⟨a, ha⟩ := Option.isSome_iff_exists.mp hd
  have done := foldl_requests_rest (J := fun _ => True) drainRequest_completes (fun _ _ _ => trivial) hn trivial hq
    (fun u _ hu x hx hid => by
      rw [drainRequest_of_queued ha hp] at hx
      exact (completeDemand_requests _ _ _ _ hu x hx).resolve_left fun h => h.2 hid)
  rw [hp] at done
  cases done

theorem drainDemand_delivers {a : LineAddr} (hn : (s.dem.requests.map Request.id).Nodup)
    (ha : s.link.state = .active) (hq : q ∈ s.dem.requests) (hb : q.body.line? = some a) (hp : q.phase = .queued)
    (ho : q.orphan = false) : Delivered q.id (completionFrame q (if lineExists a s then .notReady else .range))
      (drainDemand s) := by
  refine foldl_requests_delivers (J := fun u => lineExists a u = lineExists a s) drainRequest_completes
    (fun u y hu => (drainRequest_lineExists a u y).trans hu) hn rfl ha hq fun u hu waits => ?_
  rw [drainRequest_of_queued hb hp, hu, completionFrame_eq]
  exact waits.completeDemand ho (by rw [hp]; nofun) _ _

theorem coreResetDrain_eq (id : Nat) (h : arg args 0 = 0) (s : State) : coreResetDrain id args s =
    settle (stopFills (readyEntries (stopPatrol (drainDemand (beginReset .drain id s))))) := if_neg (not_not.mpr h)

/-- A Core Reset that is taken is served by the command of its flavour. -/
theorem takeReset_taken {abort : Bool} {eff : Nat → List Byte → State → State} (hT : Taken 37 args r s)
    (h : (args.head? == some 1) = abort) : takeReset abort eff s = eff r.id args (setPhase r.id .serving s) := by
  unfold takeReset
  rw [hT.oldest]
  dsimp only
  rw [if_pos ⟨rfl, h⟩]
  unfold serve
  rw [hT.passes]

theorem exec_coreResetDrain (hT : Taken 37 args r s) (h : args.head? ≠ some 1) :
    exec .coreResetDrain s = .next (coreResetDrain r.id args (setPhase r.id .serving s)) :=
  (next_released hT.released _).trans (congrArg _ (takeReset_taken hT (by simpa using h)))

theorem exec_coreResetAbort (hT : Taken 37 args r s) (h : args.head? = some 1) :
    exec .coreResetAbort s = .next (coreResetAbort r.id args (setPhase r.id .serving s)) :=
  (next_released hT.released _).trans (congrArg _ (takeReset_taken hT (by simpa using h)))

theorem coreResetDrain_range (hT : Taken 37 args r s) (h : args.head? ≠ some 1) (hr : byteAt args 0 ≠ 0) :
    exec .coreResetDrain s = .next (answered r .range [] s) := by
  rw [exec_coreResetDrain hT h]
  refine congrArg _ ((if_pos ?_).trans (answer_serving .range [] hT.active hT.named hT.buffered hT.unheld hT.notReset))
  intro h0
  exact hr (BitVec.eq_of_toNat_eq h0)

/-- What the start of a drain leaves of every block. -/
theorem coreResetDrain_form (id : Nat) (h : arg args 0 = 0) (s : State) : ∃ l d c ranks due,
    coreResetDrain id args s = { s with
      link := l, dem := d, mgu := { s.mgu with coreReset := c }
      psc := { s.psc with running := false, cursorPhase := .untested }
      rpq := { s.rpq with entries := s.rpq.entries.map RepairEntry.drained }
      drp := { s.drp with ranks := ranks, refreshDue := due } } := by
  obtain ⟨l, d, c, hdemand⟩ := answers_foldl drainRequest_answers (beginReset .drain id s).dem.requests
    (beginReset .drain id s)
  obtain ⟨l', ranks, hfill, -⟩ := stopFills_form (readyEntries (stopPatrol (drainDemand (beginReset .drain id s))))
  obtain ⟨ranks', due, hsettle⟩ :=
    settle_form (stopFills (readyEntries (stopPatrol (drainDemand (beginReset .drain id s)))))
  refine ⟨l', d, c, ranks', due, ?_⟩
  rw [coreResetDrain_eq id h, hsettle, hfill, drainDemand, hdemand]
  rfl

theorem coreResetDrain_rank (id : Nat) (h : arg args 0 = 0) (s : State) {k : Nat} (hk : k < 4) :
    (rankRec (coreResetDrain id args s) k).fillPosition = (rankRec s k).fillPosition ∧
      rankState (coreResetDrain id args s) k = if rankState s k = .filling then .offline else rankState s k := by
  obtain ⟨l, d, c, hdemand⟩ := answers_foldl drainRequest_answers (beginReset .drain id s).dem.requests
    (beginReset .drain id s)
  have before : rankRec (readyEntries (stopPatrol (drainDemand (beginReset .drain id s)))) k = rankRec s k := by
    rw [drainDemand, hdemand]
    rfl
  have stopped := stopFills_rank (readyEntries (stopPatrol (drainDemand (beginReset .drain id s)))) k hk
  rw [rankState, before] at stopped
  obtain ⟨state, position⟩ :=
    settle_rank (stopFills (readyEntries (stopPatrol (drainDemand (beginReset .drain id s))))) k
  rw [coreResetDrain_eq id h, state, position, rankState, stopped]
  constructor
  · split <;> rfl
  · rw [rankState]
    split <;> rfl

/-- After the demand requests a drain completes nothing. -/
theorem coreResetDrain_completes (id : Nat) (h : arg args 0 = 0) (s : State) :
    Completes (fun _ => False) (drainDemand (beginReset .drain id s)) (coreResetDrain id args s) := by
  rw [coreResetDrain_eq id h]
  have ready : Completes (fun _ => False) (stopPatrol (drainDemand (beginReset .drain id s)))
      (readyEntries (stopPatrol (drainDemand (beginReset .drain id s)))) := .of_same rfl rfl rfl
  exact (stopPatrol_completes _).trans (ready.trans ((stopFills_completes _).trans (settle_completes _)))

/-! ## The answer to a Core Reset -/

/-- The answer of the request whose Core Reset is in progress: the Core Reset is over with its hand-over (R182). -/
theorem answer_ownReset {c : CoreReset} (hf : findRequest r.id s = some r) (hp : r.phase ≠ .completing)
    (ho : r.orphan = false) (ha : s.link.state = .active) (hh : r.hold = none) (hc : s.mgu.coreReset = some c)
    (hid : c.request = r.id) :
    answer r.id .done [] s = answered r .done [] { s with mgu := { s.mgu with
      coreReset := if s.dem.completions = [] ∧ s.link.upstream.length < 8 then none else s.mgu.coreReset } } := by
  have upward : (r.orphan || s.link.state != .active) = false := by simp [ho, ha]
  have framed : answer r.id .done [] s = complete r.id (.manageDone r.tag .done []) s := by
    unfold answer
    rw [hf]
    rfl
  rw [framed]
  unfold answered handedOn complete
  rw [hf]
  dsimp only
  rw [if_neg hp, upward, if_neg Bool.false_ne_true]
  by_cases taken : s.dem.completions = [] ∧ s.link.upstream.length < 8
  · rw [if_pos taken, if_pos taken, if_pos ((completionTaken_iff s).mpr taken), dropRequest_eq, hh]
    have empty : (pushUp (.manageDone r.tag .done []) s).dem.completions.filter (fun d => d.request != r.id) =
        s.dem.completions := by
      show s.dem.completions.filter _ = _
      simp [taken.1]
    have cleared : (pushUp (.manageDone r.tag .done []) s).mgu.coreReset.filter (fun x => x.request != r.id) = none := by
      show s.mgu.coreReset.filter _ = _
      rw [hc]
      simp [Option.filter, hid]
    dsimp only
    rw [empty, cleared]
    rfl
  · rw [if_neg taken, if_neg taken, if_neg fun h => taken ((completionTaken_iff s).mp h)]
    rfl

/-- The answer to an orphan, or off the link, is discarded, and its Core Reset is cleared (R182). -/
theorem answer_discarded {c : CoreReset} (hf : findRequest r.id s = some r) (hp : r.phase ≠ .completing)
    (ho : r.orphan = true ∨ s.link.state ≠ .active) (hh : r.hold = none) (hc : s.mgu.coreReset = some c)
    (hid : c.request = r.id) :
    answer r.id .done [] s = { s with
      mgu := { s.mgu with coreReset := none }
      dem := { s.dem with
        requests := s.dem.requests.filter fun q => q.id != r.id
        completions := s.dem.completions.filter fun c => c.request != r.id } } := by
  have discarded : (r.orphan || s.link.state != .active) = true := by simpa using ho
  have cleared : s.mgu.coreReset.filter (fun x => x.request != r.id) = none := by
    rw [hc]
    simp [Option.filter, hid]
  unfold answer complete
  rw [hf]
  dsimp only
  rw [if_neg hp, discarded, if_pos rfl, dropRequest_eq, hh, cleared]

/-! ## The end of a drain -/

/-- The six conditions of R182. -/
theorem drained_iff (s : State) : drained s = true ↔
    (∀ q ∈ s.dem.requests, q.isDemand = true → q.hold = none ∧ q.beside = false ∧ q.orphan = false) ∧
      s.fcu.contexts = [] ∧ (∀ g, s.drp.port = some g → ∀ b, g.op ≠ .visitRead b) ∧
      s.rpq.entries = [] ∧ (∀ i < 32, ∀ a d t w, slotAt s i ≠ .releasing a d t w) ∧ s.sls.retires = [] := by
  have requests : (s.dem.requests.all fun r => !r.isInHand) = true ↔
      ∀ q ∈ s.dem.requests, q.isDemand = true → q.hold = none ∧ q.beside = false ∧ q.orphan = false := by
    rw [List.all_eq_true]
    refine forall₂_congr fun q _ => ?_
    unfold Request.isInHand
    cases q.isDemand <;> simp [and_assoc]
  have visits : (!visitAtPort s) = true ↔ ∀ g, s.drp.port = some g → ∀ b, g.op ≠ .visitRead b := by
    unfold visitAtPort
    cases s.drp.port with
    | none => simp
    | some g => cases hg : g.op <;> simp [hg]
  have slots : (!someReleasing s) = true ↔ ∀ i < 32, ∀ a d t w, slotAt s i ≠ .releasing a d t w := by
    unfold someReleasing
    rw [Bool.not_eq_true', List.any_eq_false]
    constructor
    · intro h i hi a d t w hs
      refine h (slotAt s i) ?_ (by rw [hs])
      unfold slotAt
      rw [getAt_of_lt _ _ hi]
      exact Vector.mem_toList_iff.mpr (Vector.getElem_mem hi)
    · intro h x hx hr
      obtain ⟨i, hi, rfl⟩ := List.getElem_of_mem hx
      have hi' : i < 32 := by simpa using hi
      have := h i hi'
      unfold slotAt at this
      rw [getAt_of_lt _ _ hi'] at this
      split at hr
      · next hs => exact this _ _ _ _ hs
      · cases hr
  unfold drained
  simp only [Bool.and_eq_true, requests, visits, slots, List.isEmpty_iff, and_assoc]

theorem drainEnds_of_finished (hc : s.mgu.coreReset = some ⟨.drain, r.id⟩) (hf : findRequest r.id s = some r)
    (hp : r.phase = .serving) :
    drainEnds s = if drained s then answer r.id .done [] (resetEffects s) else s := by
  unfold drainEnds drainRunning
  rw [hc]
  dsimp only
  rw [hf]
  dsimp only
  rw [if_pos hp]

theorem exec_drainEnd (hp : s.link.por = false) : exec .drainEnd s = .next (drainEnds s) := next_released hp _

/-- The reset effects hold of their own state, where no fill runs and no slot is RELEASING. -/
theorem resetEffects_own (hs : ∀ i < 32, ∀ a d t w, slotAt s i ≠ .releasing a d t w)
    (hr : ∀ q < 4, rankState s q ≠ .filling) {x : Option CoreReset} (l : Link) (d : Dem) (hl : l.state = s.link.state) :
    ResetEffects s { resetEffects s with link := l, dem := d, mgu := { s.mgu with coreReset := x } } := by
  obtain ⟨p, form, psc⟩ := resetEffects_form s
  rw [form]
  refine ⟨rfl, psc.stopped, psc.pace, psc.countdown, psc.cursor, psc.sweep, fun i hi => ?_, rfl, rfl, rfl, psc.phases,
    ⟨rfl, rfl⟩, ⟨rfl, rfl⟩, fun i hi => ?_, ⟨fun y => by cases y <;> rfl, rfl⟩, ⟨rfl, rfl, rfl⟩, fun k hk => ⟨rfl, ?_⟩,
    hl, rfl⟩
  · exact (getAt_of_lt _ _ hi).trans (Vector.getElem_replicate hi)
  · show slotAt s i = _
    cases h : slotAt s i with
    | releasing a d t w => exact absurd h (hs i hi a d t w)
    | free | watch | active | failed => rfl
  · exact (if_neg (hr k hk)).symm

/-! ## The stages of an abort -/

def abortDemand (s : State) : State := s.dem.requests.foldl abortRequest s

/-- The visit at DRAM marked, the ungranted retries dropped and the repair queue emptied. -/
def abortFreed (s : State) : State :=
  { abortVisit (dropUngrantedRetries (abortDemand s)) with
    rpq := { (abortVisit (dropUngrantedRetries (abortDemand s))).rpq with entries := [] } }

@[irreducible] def abortReleased (s : State) : State := (List.range 32).foldl abortRelease (abortFreed s)

def abortAnswered (s : State) : State := (abortReleased s).sls.retires.foldl abortRetire (abortReleased s)

/-- Everything before the reset effects. -/
def abortStopped (s : State) : State := stopFills (stopPatrol (abortAnswered s))

theorem abortRequest_answers (u : State) (y : Request) : Answers u (abortRequest u y) := by
  unfold abortRequest
  split
  · exact answers_completeDemand ..
  · exact .refl _

theorem abortDemand_answers (s : State) : Answers s (abortDemand s) := answers_foldl abortRequest_answers _ _

theorem coreResetAbort_eq (id : Nat) (args : List Byte) (s : State) : coreResetAbort id args s =
    answer id .done [] (settle (leaveHalted (resetEffects (abortStopped (beginReset .abort id s))))) := by
  unfold coreResetAbort abortStopped abortAnswered abortReleased
  generalize List.range 32 = slots
  rfl

theorem abortRequest_completes (u : State) (y : Request) :
    Completes (fun k => y.isDemand = true ∧ y.id = k) u (abortRequest u y) := by
  unfold abortRequest
  split
  · next h => exact (Completes.completeDemand ..).mono fun k hk => ⟨h, hk.symm⟩
  · exact .refl

theorem abortDemand_rest (hn : (s.dem.requests.map Request.id).Nodup) (hq : q ∈ (abortDemand s).dem.requests)
    (hd : q.isDemand = true) : q.phase = .completing :=
  foldl_requests_rest (J := fun _ => True) abortRequest_completes (fun _ _ _ => trivial) hn trivial hq
    fun u _ hu x hx hid => by
      unfold abortRequest at hx
      rw [if_pos hd] at hx
      exact (completeDemand_requests _ _ _ _ hu x hx).resolve_left fun h => h.2 hid

theorem abortDemand_delivers (hn : (s.dem.requests.map Request.id).Nodup)
    (ha : s.link.state = .active) (hq : q ∈ s.dem.requests) (hd : q.isDemand = true) (hp : q.phase ≠ .completing)
    (ho : q.orphan = false) : Delivered q.id (completionFrame q .aborted) (abortDemand s) := by
  refine foldl_requests_delivers (J := fun _ => True) abortRequest_completes
    (fun _ _ _ => trivial) hn trivial ha hq fun u _ waits => ?_
  unfold abortRequest
  rw [if_pos hd, completionFrame_eq]
  exact waits.completeDemand ho hp _ _

/-- What an abort leaves at the port: a visit is marked (log 39). -/
def abortedPort (x : Option Granted) : Option Granted :=
  x.map fun g => match g.op with
    | .visitRead _ => { g with op := .visitRead true }
    | _ => g

theorem abortVisit_portEq (s : State) :
    abortVisit s = { s with drp := { s.drp with port := abortedPort s.drp.port } } := by
  unfold abortVisit
  cases h : s.drp.port with
  | none => exact congrArg (fun x => { s with drp := { s.drp with port := x } }) h
  | some g =>
    dsimp only
    cases hg : g.op with
    | visitRead b =>
      unfold abortedPort
      rw [Option.map_some, hg]
    | _ =>
      unfold abortedPort
      rw [Option.map_some, hg]
      exact congrArg (fun x => { s with drp := { s.drp with port := x } }) h

theorem abortFreed_form (s : State) : ∃ l d c, abortFreed s = { s with
    link := l, dem := d, mgu := { s.mgu with coreReset := c }
    fcu := { s.fcu with contexts := s.fcu.contexts.filter fun x => atPort (.retryRead x.id) s }
    rpq := { s.rpq with entries := [] }
    drp := { s.drp with port := abortedPort s.drp.port } } := by
  obtain ⟨l, d, c, h⟩ := abortDemand_answers s
  refine ⟨l, d, c, ?_⟩
  unfold abortFreed
  rw [abortVisit_portEq, h]
  rfl

theorem abortFreed_ofDemand {ids : Nat → Prop} (s : State) : Completes ids (abortDemand s) (abortFreed s) := by
  unfold abortFreed
  rw [abortVisit_portEq]
  exact .of_same rfl rfl rfl

theorem abortFreed_completes (s : State) : Completes (NamesDemand s) s (abortFreed s) :=
  (foldl_requests_completes abortRequest_completes s).trans (abortFreed_ofDemand s)

/-! ## Releases and Spare Retires called back -/

theorem abortRelease_answersSlots (u : State) (i : Nat) : AnswersSlots u (abortRelease u i) := by
  unfold abortRelease
  split
  · next a d t w _ => exact (answersSlots_setSlot i (.active a d t) u).trans (answers_answer _ _ _ _).answersSlots
  · exact answersSlots_setSlot ..
  · exact .refl _

theorem foldl_abortRelease_slot {l : List Nat} (hl : l.Nodup) (h32 : ∀ i ∈ l, i < 32) (s : State) (j : Nat) :
    slotAt (l.foldl abortRelease s) j = if j ∈ l then unreleased (slotAt s j) else slotAt s j := by
  induction l generalizing s with
  | nil => rfl
  | cons i l ih =>
    obtain ⟨hi, hl⟩ := List.nodup_cons.mp hl
    rw [List.foldl_cons, ih hl fun x hx => h32 x (List.mem_cons_of_mem _ hx),
      abortRelease_slot s i j (h32 i List.mem_cons_self)]
    by_cases hij : i = j
    · subst hij
      rw [if_neg hi, if_pos List.mem_cons_self, if_pos rfl]
    · simp only [if_neg hij, List.mem_cons, Ne.symm hij, false_or]

theorem abortRelease_asks {i : Nat} (hi : i < 32) {k : Nat} (h : ReleaseAsked (abortRelease s i) k) :
    ReleaseAsked s k := by
  obtain ⟨j, hj, a, d, time, w, hw, hk⟩ := h
  rw [abortRelease_slot s i j hi] at hw
  by_cases hij : i = j
  · rw [if_pos hij] at hw
    unfold unreleased at hw
    split at hw
    · cases hw
    · next h => exact absurd hw (h _ _ _ _)
  · rw [if_neg hij] at hw
    exact ⟨j, hj, a, d, time, w, hw, hk⟩

theorem abortRelease_completes (s : State) {i : Nat} (hi : i < 32) :
    Completes (ReleaseAsked s) s (abortRelease s i) := by
  unfold abortRelease
  split
  · next a d time w hw =>
    have freed : Completes (ReleaseAsked s) s (setSlot i (.active a d time) s) := .of_same rfl rfl rfl
    exact freed.trans ((Completes.answer ..).mono fun k hk => ⟨i, hi, a, d, time, w, hw, hk.symm⟩)
  · exact .of_same rfl rfl rfl
  · exact .refl

theorem foldl_abortRelease_completes {l : List Nat} (h32 : ∀ i ∈ l, i < 32) (s : State) :
    Completes (ReleaseAsked s) s (l.foldl abortRelease s) := by
  induction l generalizing s with
  | nil => exact .refl
  | cons i l ih =>
    have hi := h32 i List.mem_cons_self
    exact (abortRelease_completes s hi).trans
      ((ih (fun x hx => h32 x (List.mem_cons_of_mem _ hx)) _).mono fun k hk => abortRelease_asks hi hk)

theorem abortRetire_completes (s : State) (w : RetireWork) : Completes (· = w.request) s (abortRetire s w) := by
  have ended : Completes (· = w.request) s (endRetire w.request s) := .of_same rfl rfl rfl
  exact ended.trans (.answer ..)

theorem abortReleased_answersSlots (s : State) : AnswersSlots (abortFreed s) (abortReleased s) := by
  unfold abortReleased
  exact .foldl abortRelease_answersSlots ..

theorem abortReleased_completes (s : State) :
    Completes (ReleaseAsked (abortFreed s)) (abortFreed s) (abortReleased s) := by
  unfold abortReleased
  exact foldl_abortRelease_completes (fun _ => List.mem_range.mp) _

theorem abortReleased_slot (s : State) {i : Nat} (hi : i < 32) :
    slotAt (abortReleased s) i = unreleased (slotAt s i) := by
  obtain ⟨l, d, c, h⟩ := abortFreed_form s
  have same : slotAt (abortFreed s) i = slotAt s i := by
    rw [h]
    rfl
  unfold abortReleased
  rw [foldl_abortRelease_slot List.nodup_range (fun i => List.mem_range.mp), if_pos (List.mem_range.mpr hi), same]

theorem abortReleased_retires (s : State) : (abortReleased s).sls.retires = s.sls.retires := by
  obtain ⟨l, d, c, v, h⟩ := abortReleased_answersSlots s
  obtain ⟨l', d', c', h'⟩ := abortFreed_form s
  rw [h, h']

theorem abortAnswered_ofFreed (s : State) :
    Completes (fun k => ReleaseAsked s k ∨ RetireAsked s k) (abortFreed s) (abortAnswered s) := by
  have asked : ∀ k, ReleaseAsked (abortFreed s) k → ReleaseAsked s k := fun k h => by
    obtain ⟨l, d, c, form⟩ := abortFreed_form s
    rwa [form] at h
  have retires : Completes (RetireAsked s) (abortReleased s) (abortAnswered s) :=
    .foldl (fun u w hw => (abortRetire_completes u w).mono fun k hk =>
      ⟨w, by rwa [abortReleased_retires] at hw, hk.symm⟩) _
  exact ((abortReleased_completes s).mono fun k h => .inl (asked k h)).trans (retires.mono fun _ h => .inr h)

/-- The Spare Retires are ended, and answers are given. -/
theorem foldl_abortRetire_form (l : List RetireWork) (s : State) :
    Answers { s with sls := { s.sls with
      retires := s.sls.retires.filter fun x => l.all fun w => x.request != w.request } } (l.foldl abortRetire s) := by
  induction l generalizing s with
  | nil =>
    have all : (s.sls.retires.filter fun x => ([] : List RetireWork).all fun w => x.request != w.request) =
        s.sls.retires := List.filter_eq_self.mpr fun _ _ => rfl
    rw [all]
    exact .refl _
  | cons w l ih =>
    obtain ⟨k, d, c, h⟩ := answers_answer w.request .busy [] (endRetire w.request s)
    obtain ⟨k', d', c', h'⟩ := ih (abortRetire s w)
    refine ⟨k', d', c', ?_⟩
    have both : ((s.sls.retires.filter fun x => x.request != w.request).filter
        fun x => l.all fun w => x.request != w.request) =
          s.sls.retires.filter fun x => (w :: l).all fun w => x.request != w.request := by
      rw [List.filter_filter]
      exact List.filter_congr fun x _ => Bool.and_comm ..
    rw [List.foldl_cons, h', abortRetire, h]
    exact congrArg (fun ws => { s with
      link := k', dem := d', mgu := { s.mgu with coreReset := c' }, sls := { s.sls with retires := ws } }) both

theorem abortAnswered_form (s : State) : ∃ l d c v, abortAnswered s = { s with
      link := l, dem := d, mgu := { s.mgu with coreReset := c }
      fcu := { s.fcu with contexts := s.fcu.contexts.filter fun x => atPort (.retryRead x.id) s }
      rpq := { s.rpq with entries := [] }
      sls := { s.sls with slots := v, retires := [] }
      drp := { s.drp with port := abortedPort s.drp.port } } ∧
    ∀ i < 32, getAt v i .free = unreleased (slotAt s i) := by
  obtain ⟨l, d, c, hfreed⟩ := abortFreed_form s
  obtain ⟨l', d', c', v, hrelease⟩ := abortReleased_answersSlots s
  obtain ⟨l'', d'', c'', hretire⟩ := foldl_abortRetire_form (abortReleased s).sls.retires (abortReleased s)
  have none_left : ((abortReleased s).sls.retires.filter fun x =>
      (abortReleased s).sls.retires.all fun w => x.request != w.request) = [] := by
    rw [List.filter_eq_nil_iff]
    intro x hx h
    simpa using List.all_eq_true.mp h x hx
  refine ⟨l'', d'', c'', v, ?_, fun i hi => ?_⟩
  · unfold abortAnswered
    rw [hretire, none_left, hrelease, hfreed]
  · rw [← abortReleased_slot s hi, hrelease]
    rfl

theorem abortStopped_form (s : State) : ∃ l d c v ranks, abortStopped s = { s with
      link := l, dem := d, mgu := { s.mgu with coreReset := c }
      fcu := { s.fcu with contexts := s.fcu.contexts.filter fun x => atPort (.retryRead x.id) s }
      rpq := { s.rpq with entries := [] }
      sls := { s.sls with slots := v, retires := [] }
      psc := { s.psc with running := false, cursorPhase := .untested }
      drp := { s.drp with ranks := ranks, port := abortedPort s.drp.port } } ∧
    ∀ i < 32, getAt v i .free = unreleased (slotAt s i) := by
  obtain ⟨l, d, c, v, h, hv⟩ := abortAnswered_form s
  obtain ⟨l', ranks, hfill, -⟩ := stopFills_form (stopPatrol (abortAnswered s))
  refine ⟨l', d, c, v, ranks, ?_, hv⟩
  unfold abortStopped
  rw [hfill, h]
  rfl

theorem abortStopped_ofAnswered {ids : Nat → Prop} (s : State) :
    Completes ids (abortAnswered s) (abortStopped s) :=
  (stopPatrol_completes _).trans (stopFills_completes _)

theorem abortStopped_rank (s : State) {k : Nat} (hk : k < 4) : rankRec (abortStopped s) k =
    if rankState s k = .filling then { rankRec s k with state := .offline } else rankRec s k := by
  obtain ⟨l, d, c, v, h, -⟩ := abortAnswered_form s
  have before : rankRec (stopPatrol (abortAnswered s)) k = rankRec s k := by
    rw [h]
    rfl
  have stopped := stopFills_rank (stopPatrol (abortAnswered s)) k hk
  rwa [rankState, before] at stopped

/-! ## The answers of an abort -/

section

variable (ho : q.orphan = false) (hp : q.phase ≠ .completing)
include ho hp

theorem abortRelease_open (h : Waits q u) (i : Nat) :
    Waits q (abortRelease u i) ∨ Delivered q.id (.manageDone q.tag .busy []) (abortRelease u i) := by
  unfold abortRelease
  split
  · next a d t w _ =>
    have freed : Waits q (setSlot i (.active a d t) u) := h.after (ids := fun _ => False) (.of_same rfl rfl rfl) not_false
    by_cases hid : w.request = q.id
    · rw [hid]
      exact .inr (freed.answer ho hp .busy [])
    · exact .inl (freed.after (.answer ..) fun e => hid e.symm)
  · exact .inl (h.after (ids := fun _ => False) (.of_same rfl rfl rfl) not_false)
  · exact .inl h

theorem abortRelease_delivers (h : Waits q u) {i : Nat} {a : LineAddr} {d : StoredLine} {time : TimeBase}
    {w : ReleaseWork} (hs : slotAt u i = .releasing a d time (some w)) (hid : w.request = q.id) :
    Delivered q.id (.manageDone q.tag .busy []) (abortRelease u i) := by
  have freed : Waits q (setSlot i (.active a d time) u) :=
    h.after (ids := fun _ => False) (.of_same rfl rfl rfl) not_false
  unfold abortRelease
  rw [hs]
  dsimp only
  rw [hid]
  exact freed.answer ho hp .busy []

theorem abortRetire_open (h : Waits q u) (w : RetireWork) :
    Waits q (abortRetire u w) ∨ Delivered q.id (.manageDone q.tag .busy []) (abortRetire u w) := by
  have ended : Waits q (endRetire w.request u) := h.after (ids := fun _ => False) (.of_same rfl rfl rfl) not_false
  unfold abortRetire
  by_cases hid : w.request = q.id
  · rw [hid] at ended ⊢
    exact .inr (ended.answer ho hp .busy [])
  · exact .inl (ended.after (.answer ..) fun e => hid e.symm)

theorem abortRetire_delivers (h : Waits q u) {w : RetireWork} (hid : w.request = q.id) :
    Delivered q.id (.manageDone q.tag .busy []) (abortRetire u w) := by
  have ended : Waits q (endRetire q.id u) := h.after (ids := fun _ => False) (.of_same rfl rfl rfl) not_false
  unfold abortRetire
  rw [hid]
  exact ended.answer ho hp .busy []

theorem foldl_abortRelease_open {l : List Nat} (h32 : ∀ i ∈ l, i < 32) (start : Waits q u) :
    Waits q (l.foldl abortRelease u) ∨ Delivered q.id (.manageDone q.tag .busy []) (l.foldl abortRelease u) :=
  List.foldlRecOn (motive := fun v => Waits q v ∨ Delivered q.id (.manageDone q.tag .busy []) v) _ _ (.inl start)
    fun v hv i hi => hv.elim (fun h => abortRelease_open ho hp h i)
      fun h => .inr ((abortRelease_completes v (h32 i hi)).delivered _ _ h)

/-- A Spare Release or a Spare Retire in progress is answered BUSY (R85, R184). -/
theorem abortAnswered_delivers (start : Waits q (abortFreed s))
    (asks : (∃ w ∈ s.sls.retires, w.request = q.id) ∨
      ∃ i < 32, ∃ a d time w, slotAt s i = .releasing a d time (some w) ∧ w.request = q.id) :
    Delivered q.id (.manageDone q.tag .busy []) (abortAnswered s) := by
  have retire (u : State) (w : RetireWork) (h : Delivered q.id (.manageDone q.tag .busy []) u) :
      Delivered q.id (.manageDone q.tag .busy []) (abortRetire u w) := (abortRetire_completes u w).delivered _ _ h
  have released : Waits q (abortReleased s) ∨ Delivered q.id (.manageDone q.tag .busy []) (abortReleased s) := by
    unfold abortReleased
    exact foldl_abortRelease_open ho hp (fun _ => List.mem_range.mp) start
  rcases asks with ⟨w, hw, hid⟩ | ⟨i, hi, a, d, time, w, hw, hid⟩
  · exact foldl_reaches (I := fun u => Waits q u) (x := w) (fun u y _ h => retire u y h)
      (fun u y _ hu => abortRetire_open ho hp hu y) (fun u hu => abortRetire_delivers ho hp hu hid)
      (by rwa [abortReleased_retires]) released
  · have slot : slotAt (abortFreed s) i = .releasing a d time (some w) := by
      obtain ⟨l, d', c, h⟩ := abortFreed_form s
      rw [h]
      exact hw
    refine List.foldlRecOn _ _ ?_ fun u hu y _ => retire u y hu
    unfold abortReleased
    refine foldl_reaches (I := fun u => Waits q u ∧ slotAt u i = .releasing a d time (some w)) (x := i)
      (fun u j hj h => (abortRelease_completes u (List.mem_range.mp hj)).delivered _ _ h) (fun u j hj hu => ?_)
      (fun u hu => abortRelease_delivers ho hp hu.1 hu.2 hid) (List.mem_range.mpr hi) (.inl ⟨start, slot⟩)
    by_cases hij : j = i
    · exact .inr (by rw [hij]; exact abortRelease_delivers ho hp hu.1 hu.2 hid)
    · refine (abortRelease_open ho hp hu.1 j).imp_left fun h => ⟨h, ?_⟩
      rw [abortRelease_slot u j i (List.mem_range.mp hj), if_neg hij]
      exact hu.2

end

/-! ## The end of an abort -/

/-- PSC's reset depends on the profiles, the lag limit and the ONLINE ranks alone. -/
theorem PscReset.of_same {p : Psc} (h : PscReset t p) (hp : t.psc.profiles = s.psc.profiles)
    (hl : t.psc.lagLimit = s.psc.lagLimit)
    (hr : ∀ k < 4, (rankState t k = .online ↔ rankState s k = .online)) : PscReset s p := by
  have stored (n : Nat) : storedProfile t n = storedProfile s n := by
    unfold storedProfile
    rw [hp]
  have ranks : ((List.range 4).find? fun k => decide (rankState t k = .online)) =
      (List.range 4).find? fun k => decide (rankState s k = .online) := by
    simp only [show List.range 4 = [0, 1, 2, 3] from rfl, List.find?_cons, List.find?_nil,
      hr 0 (by decide), hr 1 (by decide), hr 2 (by decide), hr 3 (by decide)]
  obtain ⟨stopped, pace, countdown, cursor, sweep, phases⟩ := h
  refine ⟨stopped, pace, fun hs => ?_, ranks ▸ cursor, sweep, phases.1.trans hp, phases.2.trans hl⟩
  have := countdown (by rwa [stored])
  unfold profileAt at this ⊢
  rwa [hp] at this

theorem leaveHalted_form (s : State) : ∃ v, leaveHalted s = { s with
      fcu := { s.fcu with halted := none }, dht := { s.dht with devices := v } } ∧
    (s.fcu.halted.isSome → v = Vector.replicate 40 ⟨resetDevice, .sound⟩) ∧
    (s.fcu.halted = none → v = s.dht.devices) := by
  unfold leaveHalted
  by_cases h : s.fcu.halted.isSome
  · rw [if_pos h]
    exact ⟨_, rfl, fun _ => rfl, fun hn => by rw [hn] at h; cases h⟩
  · have hn : s.fcu.halted = none := by simpa using h
    rw [if_neg h]
    refine ⟨s.dht.devices, ?_, fun hs => absurd hs h, fun _ => rfl⟩
    exact congrArg (fun x => { s with fcu := { s.fcu with halted := x } }) hn

/-- The reset effects and the end of HALTED complete nothing and keep the ranks. -/
theorem leaveReset_completes {ids : Nat → Prop} (s : State) :
    Completes ids s (leaveHalted (resetEffects s)) := by
  obtain ⟨p, reset, -⟩ := resetEffects_form s
  obtain ⟨v, leave, -⟩ := leaveHalted_form (resetEffects s)
  rw [leave, reset]
  exact .of_same rfl rfl rfl

theorem leaveReset_rank (s : State) (k : Nat) : rankRec (leaveHalted (resetEffects s)) k = rankRec s k := by
  obtain ⟨p, reset, -⟩ := resetEffects_form s
  obtain ⟨v, leave, -⟩ := leaveHalted_form (resetEffects s)
  rw [leave, reset]
  rfl

/-- The state that answers the abort. -/
@[irreducible] def abortSettled (s : State) : State := settle (leaveHalted (resetEffects (abortStopped s)))

theorem coreResetAbort_settled (id : Nat) (args : List Byte) (s : State) :
    coreResetAbort id args s = answer id .done [] (abortSettled (beginReset .abort id s)) := by
  unfold abortSettled
  exact coreResetAbort_eq ..

theorem abortSettled_ofStopped {ids : Nat → Prop} (s : State) : Completes ids (abortStopped s) (abortSettled s) := by
  unfold abortSettled
  exact (leaveReset_completes _).trans (settle_completes _)

theorem abortSettled_completes (s : State) :
    Completes (fun k => NamesDemand s k ∨ ReleaseAsked s k ∨ RetireAsked s k) s (abortSettled s) :=
  ((abortFreed_completes s).mono fun _ => .inl).trans (((abortAnswered_ofFreed s).mono fun _ => .inr).trans
    ((abortStopped_ofAnswered s).trans (abortSettled_ofStopped s)))

theorem abortSettled_ofDemand (s : State) : Completes (fun _ => True) (abortDemand s) (abortSettled s) :=
  (abortFreed_ofDemand s).trans (((abortAnswered_ofFreed s).mono fun _ _ => trivial).trans
    ((abortStopped_ofAnswered s).trans (abortSettled_ofStopped s)))

/-- What an abort leaves of every block, before its answer. -/
theorem abortSettled_form (s : State) : ∃ l d c v ranks due p devices, abortSettled s = { s with
      link := l, dem := d, mgu := { s.mgu with coreReset := c }
      cod := { s.cod with injections := Vector.replicate 2 none, loopLine := none }
      dht := { s.dht with devices := devices }
      fcu := { s.fcu with
        halted := none, contexts := s.fcu.contexts.filter fun x => atPort (.retryRead x.id) s }
      rpq := { s.rpq with entries := [] }
      sls := { s.sls with slots := v, retires := [] }
      psc := p
      drp := { s.drp with ranks := ranks, refreshDue := due, port := abortedPort s.drp.port, history := 7 } } ∧
    (∀ i < 32, getAt v i .free = unreleased (slotAt s i)) ∧ PscReset s p ∧
    (s.fcu.halted.isSome → devices = Vector.replicate 40 ⟨resetDevice, .sound⟩) ∧
    (s.fcu.halted = none → devices = s.dht.devices) := by
  obtain ⟨l, d, c, v, ranks, stopped, slots⟩ := abortStopped_form s
  obtain ⟨p, reset, psc⟩ := resetEffects_form (abortStopped s)
  obtain ⟨devices, leave, halted, served⟩ := leaveHalted_form (resetEffects (abortStopped s))
  obtain ⟨ranks', due, settled⟩ := settle_form (leaveHalted (resetEffects (abortStopped s)))
  have online : ∀ k < 4, (rankState (abortStopped s) k = .online ↔ rankState s k = .online) := fun k hk => by
    rw [rankState, abortStopped_rank s hk]
    by_cases hf : rankState s k = .filling
    · rw [if_pos hf, hf]
      exact ⟨nofun, nofun⟩
    · rw [if_neg hf]
      rfl
  have psc' : PscReset s p := psc.of_same (by rw [stopped]) (by rw [stopped]) online
  rw [reset, stopped] at halted served
  refine ⟨l, d, c, v, ranks', due, p, devices, ?_, slots, psc', halted, served⟩
  unfold abortSettled
  rw [settled, leave, reset, stopped]

theorem abortSettled_rank (s : State) {k : Nat} (hk : k < 4) :
    (rankRec (abortSettled s) k).fillPosition = (rankRec s k).fillPosition ∧
      rankState (abortSettled s) k = if rankState s k = .filling then .offline else rankState s k := by
  obtain ⟨state, position⟩ := settle_rank (leaveHalted (resetEffects (abortStopped s))) k
  unfold abortSettled
  rw [state, position, rankState, leaveReset_rank, abortStopped_rank s hk]
  constructor
  · split <;> rfl
  · rw [rankState]
    split <;> rfl

/-- The reset effects hold behind an abort (R185). -/
theorem resetEffects_abort (id : Nat) (s : State) : ResetEffects s (answer id .done [] (abortSettled s)) := by
  obtain ⟨l, d, c, v, ranks, due, p, devices, form, slots, psc, -, -⟩ := abortSettled_form s
  obtain ⟨l', d', c', answers⟩ := answers_answer id .done [] (abortSettled s)
  have rank := fun k hk => abortSettled_rank s (k := k) hk
  have link : (answer id .done [] (abortSettled s)).link.state = s.link.state :=
    (Completes.answer id .done [] (abortSettled s)).active.trans (abortSettled_completes s).active
  rw [answers] at link ⊢
  rw [form] at rank ⊢
  refine ⟨rfl, psc.stopped, psc.pace, psc.countdown, psc.cursor, psc.sweep, fun i hi => ?_, rfl, rfl, rfl, psc.phases,
    ⟨rfl, rfl⟩, ⟨rfl, rfl⟩, fun i hi => ?_, ⟨fun y => by cases y <;> rfl, rfl⟩, ⟨rfl, rfl, rfl⟩, rank, link, rfl⟩
  · exact (getAt_of_lt _ _ hi).trans (Vector.getElem_replicate hi)
  · refine (slots i hi).trans ?_
    cases slotAt s i <;> rfl

/-! ## Requests beside the one that is taken -/

theorem taken_other_id (hT : Taken 37 args r s) (hn : RequestsNamed s) (hq : q ∈ s.dem.requests)
    (hd : q.isDemand = true) : q.id ≠ r.id := by
  intro hid
  obtain ⟨hr, hb, -⟩ := taken_manage hT
  obtain rfl := unique_name hn hq hr hid
  unfold Request.isDemand at hd
  rw [hb] at hd
  cases hd

theorem mem_setPhase_other {id : Nat} {x : Phase} (hq : q ∈ s.dem.requests) (hid : q.id ≠ id) :
    q ∈ (setPhase id x s).dem.requests :=
  List.mem_map.mpr ⟨q, hq, if_neg hid⟩

/-! ## What an abort that is taken leaves -/

/-- The state in which the abort that is being served ends the work in hand. -/
def aborting (id : Nat) (s : State) : State := beginReset .abort id (setPhase id .serving s)

theorem abortedOp_other {g : Granted} (h : ∀ b, g.op ≠ .visitRead b) :
    (match g.op with
      | .visitRead _ => { g with op := .visitRead true }
      | _ => g) = g := by
  split
  · next b hb => exact absurd hb (h b)
  · rfl

theorem ResetEffects.of_aborting {id : Nat} (h : ResetEffects (aborting id s) t) : ResetEffects s t where
  queue := h.queue
  stopped := h.stopped
  pace := h.pace
  countdown := h.countdown
  cursor := h.cursor
  sweep := h.sweep
  injections := h.injections
  loopOff := h.loopOff
  history := h.history
  regions := h.regions
  phases := h.phases
  health := h.health
  spares := h.spares
  slots := h.slots
  records := h.records
  counters := h.counters
  ranks := h.ranks
  link := h.link
  commands := h.commands

theorem aborting_untouched (hT : Taken 37 args r s) (hN : RequestsNamed s)
    (hretires : ∀ w ∈ s.sls.retires, w.request ≠ r.id)
    (hreleases : ∀ i < 32, ∀ a d t w, slotAt s i = .releasing a d t (some w) → w.request ≠ r.id) :
    ¬(NamesDemand (aborting r.id s) r.id ∨ ReleaseAsked (aborting r.id s) r.id ∨
      RetireAsked (aborting r.id s) r.id) := by
  rintro (⟨q, hq, hd, hid⟩ | ⟨i, hi, a, d, time, w, hw, hid⟩ | ⟨w, hw, hid⟩)
  · exact serving_demand hT hN q hq hd hid
  · exact hreleases i hi a d time w hw hid
  · exact hretires w hw hid

theorem abortEnd_fields (id : Nat) (s : State) :
    let t := answer id .done [] (abortSettled s)
    t.fcu.halted = none ∧ (s.fcu.halted.isSome → ∀ n < 40, deviceAt t n = ⟨resetDevice, .sound⟩) ∧
      (s.fcu.halted = none → t.dht = s.dht) ∧ t.sls.retires = [] ∧
      t.fcu.contexts = (s.fcu.contexts.filter fun x => atPort (.retryRead x.id) s) ∧
      t.drp.port = abortedPort s.drp.port := by
  obtain ⟨l, d, c, v, ranks, due, p, devices, form, -, -, halted, served⟩ := abortSettled_form s
  obtain ⟨l', d', c', answers⟩ := answers_answer id .done [] (abortSettled s)
  intro t
  rw [show t = _ from answers, form]
  refine ⟨rfl, fun hs n hn => ?_, fun hs => ?_, rfl, rfl, rfl⟩
  · have := getAt_of_lt devices ⟨resetDevice, .sound⟩ hn
    refine this.trans ?_
    simp only [halted hs, Vector.getElem_replicate]
  · rw [served hs]

/-- No demand request is left but with its completion pending, and so for the Core Reset's own (R38). -/
theorem abortEnd_requests {id : Nat} (hn : (s.dem.requests.map Request.id).Nodup) :
    ∀ q ∈ (answer id .done [] (abortSettled s)).dem.requests, q.isDemand = true ∨ q.id = id →
      q.phase = .completing := by
  have names : ((abortSettled s).dem.requests.map Request.id).Nodup := (abortSettled_completes s).names.nodup hn
  intro q hq hwho
  rcases answer_requests _ _ _ _ names q hq with ⟨h, hid⟩ | h
  · rcases hwho with hd | he
    · exact ((abortSettled_ofDemand s).rest q h).elim (fun h => abortDemand_rest hn h hd) fun h => h
    · exact absurd he hid
  · exact h

theorem abortEnd_delivers_demand {id : Nat} (hn : (s.dem.requests.map Request.id).Nodup)
    (ha : s.link.state = .active) (hq : q ∈ s.dem.requests) (hd : q.isDemand = true) (hp : q.phase ≠ .completing)
    (ho : q.orphan = false) :
    HandedOn q.id (completionFrame q .aborted) (answer id .done [] (abortSettled s)) :=
  ((Completes.answer ..).delivered _ _ ((abortSettled_ofDemand s).delivered _ _
    (abortDemand_delivers hn ha hq hd hp ho))).handedOn

theorem abortEnd_delivers_work {id : Nat} (hn : RequestsNamed s) (ha : s.link.state = .active)
    (hq : q ∈ s.dem.requests) (hd : q.isDemand = false) (hp : q.phase ≠ .completing) (ho : q.orphan = false)
    (asks : (∃ w ∈ s.sls.retires, w.request = q.id) ∨
      ∃ i < 32, ∃ a d time w, slotAt s i = .releasing a d time (some w) ∧ w.request = q.id) :
    HandedOn q.id (.manageDone q.tag .busy []) (answer id .done [] (abortSettled s)) := by
  have notDemand : ¬NamesDemand s q.id := by
    rintro ⟨x, hx, hxd, hid⟩
    obtain rfl := unique_name hn hx hq hid
    rw [hd] at hxd
    cases hxd
  have waits : Waits q (abortFreed s) := (waits_of_mem hn.1 ha hq).after (abortFreed_completes s) notDemand
  have answered := abortAnswered_delivers ho hp waits asks
  have settled := ((abortStopped_ofAnswered s).trans (abortSettled_ofStopped s) :
    Completes (fun _ => False) _ _).delivered _ _ answered
  exact ((Completes.answer ..).delivered _ _ settled).handedOn

/-- The Core Reset's own answer (R184). -/
theorem abortEnd_answers (hT : Taken 37 args r s)
    (untouched : ¬(NamesDemand (aborting r.id s) r.id ∨ ReleaseAsked (aborting r.id s) r.id ∨
      RetireAsked (aborting r.id s) r.id)) :
    HandedOn r.id (.manageDone r.tag .done []) (answer r.id .done [] (abortSettled (aborting r.id s))) := by
  have waits : Waits { r with phase := .serving } (aborting r.id s) :=
    ⟨(taken_waits hT).active, (taken_waits hT).found⟩
  have settled := waits.after (abortSettled_completes (aborting r.id s)) untouched
  have goes : Delivered r.id (.manageDone r.tag .done []) (answer r.id .done [] (abortSettled (aborting r.id s))) :=
    settled.answer hT.buffered nofun .done []
  exact goes.handedOn

end Sys2Proof.Machine

namespace Sys2Proof

open Machine

/-- Settles O47: the start by its stages, the end by the answer of the request whose Core Reset is in progress. -/
theorem drainStartsAndEnds : Obligations.DrainStartsAndEnds := by
  refine ⟨fun args r s hT hN hflavour => ⟨coreResetDrain_range hT hflavour, fun h0 => ?_⟩,
    ?_⟩
  · have zero : arg args 0 = 0 := congrArg BitVec.toNat h0
    generalize hb : beginReset .drain r.id (setPhase r.id .serving s) = b
    have named : RequestsNamed b := by
      rw [← hb]
      exact requestsNamed_setPhase hN
    have notDemand : ¬NamesDemand b r.id := by
      rw [← hb]
      rintro ⟨q, hq, hd, hid⟩
      exact serving_demand hT hN q hq hd hid
    have run := exec_coreResetDrain hT hflavour
    have behind := coreResetDrain_completes r.id zero (setPhase r.id .serving s)
    obtain ⟨l, d, c, ranks, due, form⟩ := coreResetDrain_form r.id zero (setPhase r.id .serving s)
    have rank := fun k hk => coreResetDrain_rank r.id zero (setPhase r.id .serving s) (k := k) hk
    rw [hb] at behind
    generalize coreResetDrain r.id args (setPhase r.id .serving s) = t at run behind form rank
    have reset : t.mgu.coreReset = some ⟨.drain, r.id⟩ :=
      behind.resetKept _ ((foldl_requests_completes drainRequest_completes b).resetKept ⟨.drain, r.id⟩
        (by rw [← hb]; rfl) notDemand) not_false
    refine ⟨t, run, ?_, ?_, ?_, rank, fun q hq hd => ?_, fun q hq a ha hqueued ho => ?_, ?_⟩
    · rw [form] at reset ⊢
      rw [show c = some ⟨.drain, r.id⟩ from reset]
      rfl
    · rw [form]
      rfl
    · rw [form]
      rfl
    · rcases behind.rest q hq with h | h
      · exact drainDemand_rest named.1 h hd
      · rw [h]
        nofun
    · have demand : q.isDemand = true := by
        unfold Request.isDemand
        rw [ha]
        rfl
      have mem : q ∈ b.dem.requests := by
        rw [← hb]
        exact mem_setPhase_other hq (taken_other_id hT hN hq demand)
      have active : b.link.state = .active := by
        rw [← hb]
        exact hT.active
      have answered := behind.delivered _ _ (drainDemand_delivers named.1 active mem ha hqueued ho)
      have exists_iff : lineExists a b = true ↔ rankState s (rankOf a) ≠ .absent ∧ a.index.toNat < depth s := by
        rw [← hb]
        exact lineExists_iff a s
      rw [if_congr exists_iff rfl rfl] at answered
      exact answered.handedOn
    · rw [form]
      exact ⟨rfl, rfl, rfl, rfl, rfl, rfl, rfl⟩
  · intro r s hp hc hf hphase hh finished
    have run := exec_drainEnd hp
    rw [drainEnds_of_finished hc hf hphase] at run
    obtain ⟨p, form, -⟩ := resetEffects_form s
    have found : findRequest r.id (resetEffects s) = some r := by
      rw [form]
      exact hf
    have reset : (resetEffects s).mgu.coreReset = some ⟨.drain, r.id⟩ := by
      rw [form]
      exact hc
    have waits : r.phase ≠ .completing := by
      rw [hphase]
      nofun
    refine ⟨fun hnot => ?_, fun hfin hfill ha ho => ?_, fun hfin hfill discarded => ?_⟩
    · rw [run, if_neg fun h => hnot ((drained_iff s).mp h)]
    · rw [if_pos ((drained_iff s).mpr hfin)] at run
      have effects := resetEffects_own hfin.2.2.2.2.1 hfill
        (x := if s.dem.completions = [] ∧ s.link.upstream.length < 8 then none else s.mgu.coreReset) s.link s.dem rfl
      have answers := answer_ownReset found waits ho (by rw [form]; exact ha) hh reset rfl
      rw [form] at effects answers run
      exact ⟨_, _, run, effects, rfl, rfl, rfl, rfl, rfl, answers⟩
    · rw [if_pos ((drained_iff s).mpr hfin)] at run
      have answers := answer_discarded found waits (by rw [form]; exact discarded) hh reset rfl
      have effects := resetEffects_own hfin.2.2.2.2.1 hfill (x := none) s.link { s.dem with
        requests := s.dem.requests.filter fun q => q.id != r.id
        completions := s.dem.completions.filter fun c => c.request != r.id } rfl
      rw [answers] at run
      rw [form] at effects run
      exact ⟨_, run, effects, rfl, rfl, rfl, rfl, rfl⟩

/-- Settles O48: the abort by its stages, from the state in which it is taken. -/
theorem abortLeavesHalted : Obligations.AbortLeavesHalted := by
  intro args r s hT hflavour hN hretires hreleases
  have run : exec .coreResetAbort s = .next (answer r.id .done [] (abortSettled (aborting r.id s))) :=
    (exec_coreResetAbort hT hflavour).trans (congrArg _ (coreResetAbort_settled ..))
  have named : RequestsNamed (aborting r.id s) := requestsNamed_setPhase hN
  have untouched := aborting_untouched hT hN hretires hreleases
  have other (q : Request) (hd : q.isDemand = true ∨ q.id ≠ r.id) (hq : q ∈ s.dem.requests) :
      q ∈ (aborting r.id s).dem.requests :=
    mem_setPhase_other hq (hd.elim (taken_other_id hT hN hq) id)
  have fields := abortEnd_fields r.id (aborting r.id s)
  have requests := abortEnd_requests (id := r.id) named.1
  have effects := (resetEffects_abort r.id (aborting r.id s)).of_aborting
  have mine := abortEnd_answers hT untouched
  have demands (q : Request) (hq : q ∈ (aborting r.id s).dem.requests) :=
    abortEnd_delivers_demand (id := r.id) named.1 hT.active hq
  have works (q : Request) (hq : q ∈ (aborting r.id s).dem.requests) :=
    abortEnd_delivers_work (id := r.id) named hT.active hq
  generalize answer r.id .done [] (abortSettled (aborting r.id s)) = t at run fields requests effects mine demands works
  obtain ⟨halted, devices, health, retires, contexts, port⟩ := fields
  have port' : t.drp.port = abortedPort s.drp.port := port
  refine ⟨t, run, effects, halted, devices, health, retires, contexts, fun hp => ?_, fun g hg hop => ?_,
    fun g x hg hop => ?_, requests, fun q hq ho hp => ⟨fun hd => ?_, fun hd asks => ?_⟩, mine⟩
  · rw [port', hp]
    rfl
  · rw [port', hg]
    exact congrArg some (abortedOp_other hop)
  · rw [port', hg]
    unfold abortedPort
    rw [Option.map_some, hop]
  · exact demands q (other q (.inl hd) hq) hd hp ho
  · refine works q (other q (.inr ?_) hq) hd hp ho asks
    rintro hid
    rcases asks with ⟨w, hw, hwid⟩ | ⟨i, hi, a, d, time, w, hw, hwid⟩
    · exact hretires w hw (hwid.trans hid)
    · exact hreleases i hi a d time w hw (hwid.trans hid)

end Sys2Proof
end

section
/-! The end of a granted read: its verdict where the device entries of its rank can be read, the part that enters HALTED
where they cannot, and what HALTED makes of it (R7, R8, R14, R39, R110, R111, R127, R164). -/

namespace Sys2Proof.Machine

variable {s t u : State} {g : Granted} {source : ReadSource} {raw : RawLine} {r q : Request} {beats : Burst}
  {v : VerdictRecord} {id : Nat}

/-! ## The read that finishes -/

theorem exec_readFinish (hp : s.link.por = false) (hg : s.drp.port = some g) (hx : g.op.source = some source)
    (beats : Burst) :
    exec (.dramReadFinish beats) s = .next (settle (readFinish g source (fromBeats beats) s)) := by
  refine (next_released hp _).trans (congrArg _ ?_)
  unfold dramReadFinishes
  rw [hg]
  dsimp only
  rw [hx]

/-- Where the entries of the rank are sound, the verdict is delivered and the port is free. -/
theorem readFinish_sound (h : RankSound (rankOf g.line) s) :
    readFinish g source raw s = deliver g.op (verdictOf g source raw s) (freePort s) := by
  have read : readRank (rankOf g.line) (freePort s) = (true, freePort s) := readRank_sound h
  unfold readFinish
  rw [show ({ s with drp := { s.drp with port := none } } : State) = freePort s from rfl]
  dsimp only
  rw [read]
  rfl

/-- Where they cannot be read there is no verdict. -/
theorem readFinish_unread (h : readRank (rankOf g.line) (freePort s) = (false, t)) :
    readFinish g source raw s = endUndecoded g.op t := by
  unfold readFinish
  rw [show ({ s with drp := { s.drp with port := none } } : State) = freePort s from rfl]
  dsimp only
  rw [h]

/-! ## Answers in full -/

theorem completeDemand_answerable (h : Answerable r s) (st : Status) (d : Line) :
    completeDemand r.id st d s = finished r (demandFrame r st d) s :=
  completeDemand_eq_finished st d h.named h.unanswered h.buffered h.active h.notReset

theorem completeDemand_halted (h : Answerable r s) :
    completeDemand r.id .halted zeroLine s = finished r (completionFrame r .halted) s := by
  rw [completeDemand_answerable h, completionFrame_eq]

theorem answer_answerable (h : Answerable r s) (hh : r.hold = none) (res : Result) (p : List Byte) :
    answer r.id res p s = answered r res (if res = .done then p else []) s := by
  unfold answer
  rw [h.named]
  dsimp only
  rw [complete_eq_finished _ h.named h.unanswered h.buffered h.active h.notReset, finished_of_unheld hh]
  rfl

/-! ## Consumers in HALTED -/

theorem raise_form (k : EventKind) (x : Subject) (s : State) : ∃ l, raise k x s = { s with link := l } :=
  ⟨_, raise_eq ..⟩

theorem reportVerdict_form (v : VerdictRecord) (s : State) : ∃ l, reportVerdict v s = { s with link := l } := by
  unfold reportVerdict
  split
  · exact ⟨s.link, rfl⟩
  · next c _ =>
    dsimp only
    split
    · obtain ⟨l, h⟩ := raise_form .lineCorrected (.line v.line) s
      obtain ⟨l', h'⟩ := raise_form .scattered (.line v.line) (raise .lineCorrected (.line v.line) s)
      exact ⟨l', by rw [h', h]⟩
    · exact raise_form ..

/-- In HALTED a verdict is reported, and no consumer acts on it (R39, R71, R116). -/
theorem consume_halted (h : s.fcu.halted.isSome) (v : VerdictRecord) : consume v s = reportVerdict v s := by
  obtain ⟨l, report⟩ := reportVerdict_form v s
  have halted : (reportVerdict v s).fcu.halted.isSome := by
    rw [report]
    exact h
  have count : countVerdict v (reportVerdict v s) = reportVerdict v s := by
    unfold countVerdict
    rw [if_neg]
    rintro ⟨-, hn⟩
    rw [Option.isNone_iff_eq_none] at hn
    rw [hn] at halted
    cases halted
  have health : healthVerdict v (reportVerdict v s) = reportVerdict v s := if_pos halted
  have watch : watchVerdict v (reportVerdict v s) = reportVerdict v s := by
    have miss : isWatchHit v (reportVerdict v s) = false := by
      unfold isWatchHit
      rw [Option.isNone_eq_false_iff.mpr halted, Bool.and_false]
    unfold watchVerdict
    rw [miss, if_neg Bool.false_ne_true]
  have repair : considerRepair v (reportVerdict v s) = reportVerdict v s := by
    have refused : admission v.line v.overwritten (reportVerdict v s) = .refused := if_pos halted
    unfold considerRepair
    rw [refused]
    exact ite_self _
  unfold consume
  rw [count, health, watch, repair]

theorem consume_halted_form (h : s.fcu.halted.isSome) (v : VerdictRecord) :
    ∃ l, consume v s = { s with link := l } := by
  rw [consume_halted h]
  exact reportVerdict_form v s

/-! ## The work behind a read, in HALTED -/

theorem demandOutcome_halted (h : Answerable r s) (hp : r.phase = .readGranted) (hh : s.fcu.halted.isSome)
    (v : VerdictRecord) : demandOutcome r.id v s = finished r (completionFrame r .halted) s := by
  unfold demandOutcome
  rw [h.named]
  dsimp only
  rw [if_neg (not_not.mpr hp), if_pos hh]
  exact completeDemand_halted h

theorem endWorkHalted_isFor {work : RetryWork} (h : work.isFor id = true) (s : State) :
    endWorkHalted work s = completeDemand id .halted zeroLine s := by
  cases work with
  | patrol => cases h
  | demand k | rmw k mask data =>
    obtain rfl : k = id := by simpa [RetryWork.isFor] using h
    rfl

/-- The retry's context is closed and its request waits for the answer. -/
theorem settleAnswer_closed (id : Nat) (x : RetryContext) (s : State) :
    settleAnswer x.work (closeContext id (freePort s)) = retryClosed id x s := by
  have requests (k : Nat) : (s.dem.requests.map fun q =>
      if q.id = k then (if q.phase = .retrying then { q with phase := .answering } else q) else q) =
      s.dem.requests.map fun q => if k = q.id ∧ q.phase = .retrying then { q with phase := .answering } else q := by
    refine List.map_congr_left fun q _ => ?_
    by_cases hk : q.id = k
    · rw [if_pos hk]
      exact if_congr (by simp [hk]) rfl rfl
    · rw [if_neg hk, if_neg fun h => hk h.1.symm]
  unfold retryClosed
  cases hw : x.work with
  | patrol =>
    have same : (s.dem.requests.map fun q => if RetryWork.isFor q.id .patrol ∧ q.phase = .retrying then
        { q with phase := Phase.answering } else q) = s.dem.requests := by
      refine List.map_id'' (fun q => if_neg ?_) _
      rintro ⟨h, -⟩
      cases h
    rw [same]
    rfl
  | demand k | rmw k mask data =>
    have all : (s.dem.requests.map fun q => if RetryWork.isFor q.id (x.work) ∧ q.phase = .retrying then
        { q with phase := Phase.answering } else q) = s.dem.requests.map fun q =>
          if k = q.id ∧ q.phase = .retrying then { q with phase := .answering } else q := by
      refine List.map_congr_left fun q _ => if_congr ?_ rfl rfl
      rw [hw]
      simp [RetryWork.isFor]
    rw [hw] at all
    rw [all, ← requests k]
    rfl

theorem findContext_freed (id : Nat) (s : State) :
    findContext id (freePort s) = s.fcu.contexts.find? fun y => y.id == id := rfl

/-- A retry that finishes in HALTED answers its request HALTED. -/
theorem retryFinish_halted {x : RetryContext} (hx : (s.fcu.contexts.find? fun y => y.id == id) = some x)
    (hw : x.work.isFor r.id = true) (hh : s.fcu.halted.isSome) (v : VerdictRecord)
    (h : Answerable r (consume v (retryClosed id x s))) :
    retryFinish id v (freePort s) =
      finished r (completionFrame r .halted) (consume v (retryClosed id x s)) := by
  have halted : (consume v (retryClosed id x s)).fcu.halted.isSome := by
    obtain ⟨l, form⟩ := consume_halted_form (s := retryClosed id x s) hh v
    rw [form]
    exact hh
  unfold retryFinish
  rw [findContext_freed, hx]
  dsimp only
  rw [settleAnswer_closed]
  unfold retryOutcome
  rw [if_pos (.inl halted), endWorkHalted_isFor hw]
  exact completeDemand_halted h

/-- A Spare Retire whose read finishes in HALTED is answered HALTED, and takes no slot. -/
theorem retireOutcome_halted {w : RetireWork} (hw : (s.sls.retires.find? fun x => x.request == r.id) = some w)
    (hh : s.fcu.halted.isSome) (h : Answerable r s) (hold : r.hold = none) (v : VerdictRecord) :
    retireOutcome r.id v s = answered r .halted []
      { s with sls := { s.sls with retires := s.sls.retires.filter fun x => x.request != r.id } } := by
  have found : retireOf r.id s = some w := hw
  have h' : Answerable r (endRetire r.id s) := ⟨h.active, h.named, h.buffered, h.unanswered, h.notReset⟩
  unfold retireOutcome
  rw [found]
  dsimp only
  rw [if_pos (show (endRetire r.id s).fcu.halted.isSome from hh), answer_answerable h' hold]
  rfl

/-! ## A read under faulty entries, in HALTED -/

theorem rankSound_freePort {k : Nat} (h : RankSound k s) : RankSound k (freePort s) := h

/-- Already in HALTED a faulty entry changes nothing more. -/
theorem readRank_faulty_halted {n k : Nat} (hn : n < 4) (hk : k < 10) (hs : RankSound n s) (hh : s.fcu.halted.isSome) :
    readRank n (freePort (deviceErr (entryNumber n k) .uncorrectable s)) =
      (false, freePort (deviceErr (entryNumber n k) .uncorrectable s)) := by
  have read := readRank_faulty hn hk (rankSound_freePort hs)
  have halted : (deviceErr (entryNumber n k) .uncorrectable (freePort s)).fcu.halted.isSome := hh
  dsimp only at read
  rw [enterHalted_of_halted _ halted] at read
  exact read

theorem endUndecoded_demand (h : Answerable r s) (rmw : Bool) :
    endUndecoded (.demandRead r.id rmw) s = finished r (completionFrame r .halted) s := completeDemand_halted h

theorem endUndecoded_retry {x : RetryContext} (hx : (s.fcu.contexts.find? fun y => y.id == id) = some x) :
    endUndecoded (.retryRead id) s = endWorkHalted x.work (closeContext id s) := by
  unfold endUndecoded
  dsimp only
  rw [show findContext id s = some x from hx]

theorem endUndecoded_retire {w : RetireWork} (hw : (s.sls.retires.find? fun x => x.request == r.id) = some w)
    (h : Answerable r s) (hold : r.hold = none) : endUndecoded (.retireRead r.id) s = answered r .halted []
      { s with sls := { s.sls with retires := s.sls.retires.filter fun x => x.request != r.id } } := by
  have h' : Answerable r (endRetire r.id s) := ⟨h.active, h.named, h.buffered, h.unanswered, h.notReset⟩
  unfold endUndecoded
  dsimp only
  rw [show retireOf r.id s = some w from hw]
  exact answer_answerable h' hold _ _

/-! ## A demand request whose read is at DRAM while the part enters HALTED -/

theorem haltRequest_ends_completes (s : State) (y : Request) :
    Completes (fun k => y.isDemand = true ∧ endsAtHalt y s = true ∧ y.id = k) s (haltRequest s y) := by
  unfold haltRequest
  split
  · next h =>
    rw [Bool.and_eq_true] at h
    exact (Completes.completeDemand ..).mono fun k hk => ⟨h.1, h.2, hk.symm⟩
  · exact .refl

/-- HALTED answers no demand request but those that wait for a grant or a holder (R39). -/
theorem haltDemand_ends_completes (s : State) : Completes
    (fun k => ∃ y ∈ s.dem.requests, endsAtHalt y s = true ∧ y.id = k) s (haltDemand s) := by
  have run : ∀ l : List Request, (∀ y ∈ l, y ∈ s.dem.requests) → ∀ u : State, u.fcu = s.fcu → Completes
      (fun k => ∃ y ∈ s.dem.requests, endsAtHalt y s = true ∧ y.id = k) u (l.foldl haltRequest u) := by
    intro l
    induction l with
    | nil => exact fun _ u _ => .refl
    | cons y l ih =>
      intro hl u hu
      have step : Completes (fun k => ∃ y ∈ s.dem.requests, endsAtHalt y s = true ∧ y.id = k) u (haltRequest u y) :=
        (haltRequest_ends_completes u y).mono fun k ⟨_, he, hk⟩ =>
          ⟨y, hl y List.mem_cons_self, by rwa [endsAtHalt_congr hu] at he, hk⟩
      exact step.trans (ih (fun z hz => hl z (List.mem_cons_of_mem _ hz)) _ ((haltRequest_fcu u y).trans hu))
  exact run _ (fun _ h => h) s rfl

/-- With no release, Spare Retire or drain in hand, a demand request whose read is at DRAM waits on. -/
theorem endWorkAtHalt_waits (hn : RequestsNamed s) (ha : s.link.state = .active) (hq : q ∈ s.dem.requests)
    (hp : q.phase = .readGranted) (hretires : s.sls.retires = []) (hreset : s.mgu.coreReset = none)
    (hreleases : ∀ i < 32, ∀ a d time w, slotAt s i ≠ .releasing a d time (some w)) :
    Waits q (endWorkAtHalt s) := by
  have start : Waits q (haltDemand (retriesEnded s)) := by
    have before : Waits q (retriesEnded s) := waits_of_mem hn.1 ha hq
    refine before.after (haltDemand_ends_completes _) ?_
    rintro ⟨y, hy, he, hid⟩
    obtain rfl := unique_name hn hy hq hid
    unfold endsAtHalt at he
    rw [hp] at he
    cases he
  obtain ⟨l, d, c, demand⟩ := haltDemand_answers (retriesEnded s)
  have noRelease : ∀ k, ¬ReleaseAsked (haltDemand (retriesEnded s)) k := by
    rintro k ⟨i, hi, a, d', time, w, hw, -⟩
    rw [demand] at hw
    exact hreleases i hi a d' time w hw
  have ended : Completes (ReleaseAsked (haltDemand (retriesEnded s))) (haltDemand (retriesEnded s))
      (releasesEnded s) := by
    unfold releasesEnded
    exact foldl_haltRelease_completes (fun _ => List.mem_range.mp) (haltDemand (retriesEnded s))
  have releases : Waits q (releasesEnded s) := start.after ended (noRelease _)
  have works : Waits q (worksAnswered s) := by
    refine releases.after (foldl_haltRetire_completes (releasesEnded s)) ?_
    rintro ⟨w, hw, -⟩
    rw [releasesEnded_retires, hretires] at hw
    cases hw
  have stopped : Completes (fun _ => False) (worksAnswered s) (stopFills (stopPatrol (worksAnswered s))) :=
    (stopPatrol_completes _).trans (stopFills_completes _)
  have noReset : (stopFills (stopPatrol (worksAnswered s))).mgu.coreReset = none := by
    cases hc : (stopFills (stopPatrol (worksAnswered s))).mgu.coreReset with
    | none => rfl
    | some c =>
      have := (worksAnswered_completes s).reset c (stopped.reset c hc)
      rw [hreset] at this
      cases this
  rw [endWorkAtHalt_eq]
  refine ((works.after stopped not_false).after (haltDrain_completes _) ?_).after (settle_completes
    (ids := fun _ => False) _) not_false
  rw [noReset]
  nofun

/-! ## Entering HALTED, from the state it finds -/

/-- The flag set and the HALTED event raised. -/
def halting (cause : HaltCause) (s : State) : State :=
  raise .halted (.table cause.table cause.index) { s with fcu := { s.fcu with halted := some cause } }

theorem halting_form (cause : HaltCause) (s : State) : ∃ l, halting cause s =
    { s with link := l, fcu := { s.fcu with halted := some cause } } ∧ l.state = s.link.state := by
  refine ⟨_, raise_eq .., ?_⟩
  exact raise_link_state ..

theorem enterHalted_eq_halting (cause : HaltCause) (h : s.fcu.halted = none) :
    enterHalted cause s = endWorkAtHalt (halting cause s) := enterHalted_of_served cause h

theorem endsAtHalt_halting (cause : HaltCause) (s : State) (q : Request) :
    endsAtHalt q (retriesEnded (halting cause s)) = endsAtHalt q (retriesEnded s) := by
  obtain ⟨l, form, -⟩ := halting_form cause s
  rw [form]
  rfl

theorem requestsNamed_halting {cause : HaltCause} (hn : RequestsNamed s) : RequestsNamed (halting cause s) := by
  obtain ⟨l, form, -⟩ := halting_form cause s
  rw [form]
  exact hn

theorem halting_active {cause : HaltCause} (ha : s.link.state = .active) : (halting cause s).link.state = .active := by
  obtain ⟨l, form, hl⟩ := halting_form cause s
  rw [form]
  exact hl.trans ha

theorem halting_requests (cause : HaltCause) (s : State) : (halting cause s).dem.requests = s.dem.requests := by
  obtain ⟨l, form, -⟩ := halting_form cause s
  rw [form]

theorem enterHalted_delivers_demand {cause : HaltCause} (h : s.fcu.halted = none) (hn : RequestsNamed s)
    (ha : s.link.state = .active) (hq : q ∈ s.dem.requests) (ho : q.orphan = false) (hp : q.phase ≠ .completing)
    (hd : q.isDemand = true) (he : endsAtHalt q (retriesEnded s) = true) :
    Delivered q.id (completionFrame q .halted) (enterHalted cause s) := by
  rw [enterHalted_eq_halting cause h]
  exact endWorkAtHalt_delivers_demand (requestsNamed_halting hn) (halting_active ha) (by rwa [halting_requests]) ho hp
    hd (by rwa [endsAtHalt_halting])

theorem enterHalted_delivers {cause : HaltCause} (h : s.fcu.halted = none) (hn : RequestsNamed s)
    (ha : s.link.state = .active) (hq : q ∈ s.dem.requests) (ho : q.orphan = false) (hp : q.phase ≠ .completing)
    (hd : q.isDemand = false)
    (ends : (∃ w ∈ s.sls.retires, w.request = q.id ∧ atPort (.retireRead q.id) s = false) ∨
      (∃ i < 32, ∃ a d time w, slotAt s i = .releasing a d time (some w) ∧ w.request = q.id ∧
        atPort (.releaseWrite i w.age) s = false) ∨
      s.mgu.coreReset = some ⟨.drain, q.id⟩) :
    Delivered q.id (.manageDone q.tag .halted []) (enterHalted cause s) := by
  have ends' := ends
  rw [enterHalted_eq_halting cause h]
  refine endWorkAtHalt_delivers ho hp (requestsNamed_halting hn) (halting_active ha) (by rwa [halting_requests]) hd ?_
  obtain ⟨l, form, -⟩ := halting_form cause s
  rw [form]
  exact ends'

theorem enterHalted_waits {cause : HaltCause} (h : s.fcu.halted = none) (hn : RequestsNamed s)
    (ha : s.link.state = .active) (hq : q ∈ s.dem.requests) (hp : q.phase = .readGranted)
    (hretires : s.sls.retires = []) (hreset : s.mgu.coreReset = none)
    (hreleases : ∀ i < 32, ∀ a d time w, slotAt s i ≠ .releasing a d time (some w)) :
    Waits q (enterHalted cause s) := by
  rw [enterHalted_eq_halting cause h]
  obtain ⟨l, form, -⟩ := halting_form cause s
  refine endWorkAtHalt_waits (requestsNamed_halting hn) (halting_active ha) (by rwa [halting_requests]) hp ?_ ?_ ?_
  · rw [form]
    exact hretires
  · rw [form]
    exact hreset
  · rw [form]
    exact hreleases

/-- No demand request is left that waits for a grant or a holder. -/
theorem enterHalted_rest {cause : HaltCause} (h : s.fcu.halted = none) (hn : RequestsNamed s)
    (hq : q ∈ (enterHalted cause s).dem.requests) (hd : q.isDemand = true) :
    q.phase = .completing ∨ endsAtHalt q (retriesEnded s) = false := by
  rw [enterHalted_eq_halting cause h] at hq
  rcases (behindDemand_completes (halting cause s)).rest q hq with h | h
  · rw [← endsAtHalt_halting cause s q]
    refine .inr (haltDemand_rest (s := retriesEnded (halting cause s)) (requestsNamed_halting hn).1 h hd)
  · exact .inl h

theorem endsAtHalt_retrying (hp : q.phase = .retrying)
    (hx : ∀ x ∈ s.fcu.contexts, x.work.isFor q.id = true → atPort (.retryRead x.id) s = false) :
    endsAtHalt q (retriesEnded s) = true := by
  have free : underRetry q.id (retriesEnded s) = false := by
    unfold underRetry retriesEnded haltedContexts
    rw [List.any_eq_false]
    intro y hy
    obtain ⟨x, hmem, rfl⟩ := List.mem_map.mp hy
    obtain ⟨hin, hport⟩ := List.mem_filter.mp hmem
    intro hw
    rw [hx x hin hw] at hport
    cases hport
  unfold endsAtHalt
  rw [hp]
  dsimp only
  rw [free]
  rfl

/-! ## Entering HALTED with no work in hand -/

theorem haltRelease_idle {i : Nat} (h : ∀ a d time w, slotAt s i ≠ .releasing a d time (some w)) :
    haltRelease s i = s := by
  unfold haltRelease
  split
  · next a d time w hw => exact absurd hw (h a d time w)
  · rfl

theorem stopFills_idle (h : ∀ q < 4, rankState s q ≠ .filling) : stopFills s = s := by
  unfold stopFills
  refine foldl_fixed _ _ _ fun q hq => if_neg (h q ?_)
  rcases List.mem_cons.mp hq with rfl | hq
  · decide
  · have : q ∈ [1, 2, 3] := hq
    simp only [List.mem_cons, List.not_mem_nil, or_false] at this
    omega

theorem worksAnswered_idle (hreq : s.dem.requests = []) (hretires : s.sls.retires = []) (hcontexts : s.fcu.contexts = [])
    (hreleases : ∀ i < 32, ∀ a d time w, slotAt s i ≠ .releasing a d time (some w)) : worksAnswered s = s := by
  have retries : retriesEnded s = s := by
    have none_left : haltedContexts s = s.fcu.contexts := by
      unfold haltedContexts
      rw [hcontexts]
      rfl
    unfold retriesEnded
    rw [none_left]
  have demand : haltDemand s = s := by
    unfold haltDemand
    rw [hreq]
    rfl
  have releases : releasesEnded s = s := by
    unfold releasesEnded
    rw [retries, demand]
    exact foldl_fixed _ _ _ fun i hi => haltRelease_idle (hreleases i (List.mem_range.mp hi))
  unfold worksAnswered
  rw [releases, hretires]
  rfl

/-- With no work in hand HALTED is the flag, the stopped patrol and its event alone. -/
theorem enterHalted_idle (cause : HaltCause) (h : s.fcu.halted = none) (hreq : s.dem.requests = [])
    (hretires : s.sls.retires = []) (hcontexts : s.fcu.contexts = []) (hreset : s.mgu.coreReset = none)
    (hreleases : ∀ i < 32, ∀ a d time w, slotAt s i ≠ .releasing a d time (some w)) (hquiet : NoneQuiescing s)
    (hfill : ∀ q < 4, rankState s q ≠ .filling) :
    enterHalted cause s = raise .halted (.table cause.table cause.index)
      { s with
        fcu := { s.fcu with halted := some cause }
        psc := { s.psc with running := false, cursorPhase := .untested } } := by
  obtain ⟨l, form, -⟩ := halting_form cause s
  have answered : worksAnswered (halting cause s) = halting cause s := by
    rw [form]
    exact worksAnswered_idle hreq hretires hcontexts hreleases
  have fills : stopFills (stopPatrol (halting cause s)) = stopPatrol (halting cause s) := by
    rw [form]
    exact stopFills_idle hfill
  have drain : haltDrain (stopPatrol (halting cause s)) = stopPatrol (halting cause s) := by
    unfold haltDrain
    rw [form]
    show (match s.mgu.coreReset with | some ⟨.drain, id⟩ => _ | _ => _) = _
    rw [hreset]
  have settled : settle (stopPatrol (halting cause s)) = stopPatrol (halting cause s) := by
    rw [form]
    exact settle_quiet hquiet
  rw [enterHalted_eq_halting cause h, endWorkAtHalt_eq, answered, fills, drain, settled]
  have psc : (halting cause s).psc = s.psc := by
    rw [form]
  unfold stopPatrol
  rw [psc]
  exact (raise_withPsc ..).symm

/-! ## A read that finds faulty entries -/

/-- With no work left in hand the end of an undecoded read answers at most its demand request. -/
theorem endUndecoded_idle (hc : s.fcu.contexts = []) (hr : s.sls.retires = []) (op : PortOp) :
    Answers s (endUndecoded op s) ∧ Completes (fun _ => True) s (endUndecoded op s) := by
  unfold endUndecoded
  split
  · exact ⟨answers_completeDemand .., (Completes.completeDemand ..).mono fun _ _ => trivial⟩
  · next id =>
    rw [show findContext id s = none by unfold findContext; rw [hc]; rfl]
    exact ⟨.refl _, .refl⟩
  · next id =>
    rw [show retireOf id s = none by unfold retireOf; rw [hr]; rfl]
    exact ⟨.refl _, .refl⟩
  · exact ⟨.refl _, .refl⟩

/-- The part that a read under faulty entries leaves in HALTED (R111, R127). -/
structure UnreadLeaves (cause : HaltCause) (s t : State) : Prop where
  halted : t.fcu.halted = some cause
  port : t.drp.port = none
  contexts : t.fcu.contexts = []
  retires : t.sls.retires = []
  queue : t.rpq = s.rpq
  cod : t.cod = s.cod
  counters : t.mgu.counters = s.mgu.counters
  records : ∀ x, recordAt t x = recordAt s x
  watches : ∀ i < 32, ∀ a hits time, slotAt t i = .watch a hits time ↔ slotAt s i = .watch a hits time
  devices : t.dht = s.dht

theorem haltedSlot_watch (s : State) (i : Nat) (a : LineAddr) (hits : Nat) (time : TimeBase) :
    haltedSlot s i = .watch a hits time ↔ slotAt s i = .watch a hits time := by
  unfold haltedSlot
  split
  · next h =>
    rw [h]
    exact ⟨nofun, nofun⟩
  · exact Iff.rfl

/-- The end of a read that finds faulty entries, from the state `s` in which the port is free and the single-bit errors
are corrected. -/
theorem unreadLeaves (cause : HaltCause) (hh : s.fcu.halted = none) (hp : s.drp.port = none) (op : PortOp) :
    UnreadLeaves cause s (settle (endUndecoded op (enterHalted cause s))) := by
  obtain ⟨l, d, c, v, ranks, due, form, slots⟩ := enterHalted_form cause hh
  have free (x : PortOp) : atPort x s = false := by
    unfold atPort
    rw [hp]
  have noContexts : haltedContexts s = [] := by
    unfold haltedContexts
    simp only [free, List.filter_false, List.map_nil]
  have noRetires : (s.sls.retires.filter fun w => atPort (.retireRead w.request) s) = [] := by
    simp only [free, List.filter_false]
  rw [noContexts, noRetires] at form
  obtain ⟨⟨l', d', c', ended⟩, -⟩ :=
    endUndecoded_idle (s := enterHalted cause s) (by rw [form]) (by rw [form]) op
  obtain ⟨ranks', due', settled⟩ := settle_form (endUndecoded op (enterHalted cause s))
  rw [settled, ended, form]
  refine ⟨rfl, hp, rfl, rfl, rfl, rfl, rfl, fun x => by cases x <;> rfl, fun i hi a hits time => ?_, rfl⟩
  rw [show slotAt _ i = getAt v i .free from rfl, slots i hi]
  exact haltedSlot_watch ..

theorem unread_delivers {cause : HaltCause} (hh : s.fcu.halted = none) (hport : s.drp.port = none)
    (hn : RequestsNamed s) (ha : s.link.state = .active) (hq : q ∈ s.dem.requests) (hd : q.isDemand = true)
    (ho : q.orphan = false) {op : PortOp}
    (hx : q.phase = .retrying ∨ (∃ rmw, op = .demandRead q.id rmw ∧ q.phase = .readGranted ∧ s.sls.retires = [] ∧
      s.mgu.coreReset = none ∧ ∀ i < 32, ∀ a d time w, slotAt s i ≠ .releasing a d time (some w))) :
    HandedOn q.id (completionFrame q .halted) (settle (endUndecoded op (enterHalted cause s))) := by
  have free (x : PortOp) : atPort x s = false := by
    unfold atPort
    rw [hport]
  suffices h : Delivered q.id (completionFrame q .halted) (endUndecoded op (enterHalted cause s)) from
    ((settle_completes (ids := fun _ => False) _).delivered _ _ h).handedOn
  rcases hx with hp | ⟨rmw, rfl, hp, hretires, hreset, hreleases⟩
  · have delivered := enterHalted_delivers_demand (cause := cause) hh hn ha hq ho (by rw [hp]; nofun) hd
      (endsAtHalt_retrying hp fun x _ _ => free _)
    obtain ⟨l, d, c, v, ranks, due, form, -⟩ := enterHalted_form cause hh
    have noContexts : (enterHalted cause s).fcu.contexts = [] := by
      rw [form]
      show haltedContexts s = []
      unfold haltedContexts
      simp only [free, List.filter_false, List.map_nil]
    have noRetires : (enterHalted cause s).sls.retires = [] := by
      rw [form]
      show (s.sls.retires.filter fun w => atPort (.retireRead w.request) s) = []
      simp only [free, List.filter_false]
    exact (endUndecoded_idle noContexts noRetires op).2.delivered _ _ delivered
  · have waits := enterHalted_waits (cause := cause) hh hn ha hq hp hretires hreset hreleases
    rw [completionFrame_eq]
    exact waits.completeDemand ho (by rw [hp]; nofun) _ _

theorem entryAsRead_eq (s : State) (n : Nat) : entryAsRead (deviceAt s n) =
    if (deviceAt s n).storage = .uncorrectable then deviceAt s n else ⟨deviceEntry s n, .sound⟩ := by
  unfold entryAsRead deviceEntry
  generalize deviceAt s n = x
  obtain ⟨value, storage⟩ := x
  cases storage <;> rfl

end Sys2Proof.Machine

namespace Sys2Proof

open Machine

/-- Settles O49: HALTED by its stages, and a read that finishes in HALTED, or that makes the part enter it, by the work
that asked for it. -/
theorem enteringHaltedEndsTheWork : Obligations.EnteringHaltedEndsTheWork := by
  refine ⟨fun cause s => ⟨enterHalted_of_halted cause, fun hh => ?_⟩, fun s g beats r hp hg hh hs => ?_,
    fun s g beats r k hp hg hh hs hr hk => ?_, ?_⟩
  · obtain ⟨l, d, c, v, ranks, due, form, slots⟩ := enterHalted_form cause hh
    have rank := fun q hq => enterHalted_rank cause hh (q := q) hq
    intro t
    refine ⟨by rw [show t = _ from form]; rfl, by rw [show t = _ from form], by rw [show t = _ from form],
      fun i hi => ?_, rank, by rw [show t = _ from form], by rw [show t = _ from form], by rw [show t = _ from form],
      by rw [show t = _ from form], by rw [show t = _ from form], by rw [show t = _ from form],
      by rw [show t = _ from form], by rw [show t = _ from form], fun hn q hq hd => ?_,
      fun hn ha q hq ho hp => ⟨fun hd waits => ?_, fun hd ends => ?_⟩, ?_⟩
    · rw [show t = _ from form]
      exact slots i hi
    · rcases enterHalted_rest hh hn hq hd with hc | he
      · rw [hc]
        exact ⟨nofun, nofun, fun _ _ => ⟨nofun, nofun⟩⟩
      · unfold endsAtHalt at he
        refine ⟨fun h => ?_, fun h => ?_, fun data status => ⟨fun h => ?_, fun h => ?_⟩⟩ <;>
        · rw [h] at he
          cases he
    · refine (enterHalted_delivers_demand hh hn ha hq ho hp hd ?_).handedOn
      rcases waits with h | h | ⟨data, status, h | h⟩ | ⟨h, hx⟩
      · unfold endsAtHalt
        rw [h]
      · unfold endsAtHalt
        rw [h]
      · unfold endsAtHalt
        rw [h]
      · unfold endsAtHalt
        rw [h]
      · exact endsAtHalt_retrying h hx
    · exact (enterHalted_delivers hh hn ha hq ho hp hd ends).handedOn
    · intro hreq hretires hcontexts hreset hreleases hquiet hfill
      exact enterHalted_idle cause hh hreq hretires hcontexts hreset hreleases hquiet hfill
  · intro raw ends
    have run {source : ReadSource} (hx : g.op.source = some source) := exec_readFinish hp hg hx beats
    refine ⟨?_, ?_, ?_⟩
    · intro rmw hop hphase used hA
      have halted : used.fcu.halted.isSome := by
        obtain ⟨l, form⟩ := consume_halted_form (s := freePort s) hh (verdictOf g (if rmw then .rmw else .demand) raw s)
        rw [show used = _ from form]
        exact hh
      refine (run (source := if rmw then .rmw else .demand) (by rw [hop]; cases rmw <;> rfl)).trans ?_
      rw [readFinish_sound hs, hop]
      exact congrArg (fun u => Host.Outcome.next (settle u)) (demandOutcome_halted hA hphase halted _)
    · intro id x hop hx hw used hA
      refine (run (source := .retry) (by rw [hop]; rfl)).trans ?_
      rw [readFinish_sound hs, hop]
      exact congrArg (fun u => Host.Outcome.next (settle u)) (retryFinish_halted hx hw hh _ hA)
    · intro w hop hw used hA hold
      obtain ⟨l, form⟩ := consume_halted_form (s := freePort s) hh (verdictOf g .retire raw s)
      have halted : used.fcu.halted.isSome := by
        rw [show used = _ from form]
        exact hh
      have found : (used.sls.retires.find? fun x => x.request == r.id) = some w := by
        rw [show used = _ from form]
        exact hw
      refine (run (source := .retire) (by rw [hop]; rfl)).trans ?_
      rw [readFinish_sound hs, hop]
      exact congrArg (fun u => Host.Outcome.next (settle u)) (retireOutcome_halted found halted hA hold _)
  · intro faulty freed exec'
    have run {source : ReadSource} (hx : g.op.source = some source) :
        exec' = .next (settle (endUndecoded g.op freed)) := by
      have finish := exec_readFinish (s := faulty) hp hg hx beats
      rwa [readFinish_unread (readRank_faulty_halted hr hk hs hh)] at finish
    refine ⟨fun rmw hop hA => ?_, fun id x hop hx => ?_, fun w hop hw hA hold => ?_, fun hop => ?_⟩
    · rw [run (source := if rmw then .rmw else .demand) (by rw [hop]; cases rmw <;> rfl), hop,
        endUndecoded_demand hA]
    · intro closed
      refine ⟨fun hw => ?_, fun hw hA => ?_⟩
      · rw [run (source := .retry) (by rw [hop]; rfl), hop, endUndecoded_retry (s := freed) hx, hw]
        rfl
      · rw [run (source := .retry) (by rw [hop]; rfl), hop, endUndecoded_retry (s := freed) hx,
          endWorkHalted_isFor hw]
        exact congrArg (fun u => Host.Outcome.next (settle u)) (completeDemand_halted (s := closed) hA)
    · rw [run (source := .retire) (by rw [hop]; rfl), hop, endUndecoded_retire (s := freed) hw hA hold]
      rfl
    · rcases hop with ⟨id, hop⟩ | ⟨b, hop⟩
      · rw [run (source := .verify) (by rw [hop]; rfl), hop]
        rfl
      · rw [run (source := .patrol) (by rw [hop]; rfl), hop]
        rfl
  · intro s g beats k hp hg hsource hh hr hk entry hfault lowest
    obtain ⟨source, hx⟩ := hsource
    have run := exec_readFinish hp hg hx beats
    have read := readRank_faults (s := freePort s) hr hk hfault lowest
    rw [readFinish_unread read] at run
    obtain ⟨l, v, form⟩ := corrected_form (rankOf g.line) (freePort s)
    have device := fun m => deviceAt_corrected hr (freePort s) m
    have same : (corrected (rankOf g.line) (freePort s)).link.state = s.link.state :=
      (corrected_completes (ids := fun _ => False) (rankOf g.line) (freePort s)).active
    generalize corrected (rankOf g.line) (freePort s) = u at run form device same
    have leaves := unreadLeaves (s := u) ⟨.health, entryNumber (rankOf g.line) k⟩ (by rw [form]; exact hh)
      (by rw [form]; rfl) g.op
    have delivers (q : Request) := unread_delivers (s := u) (q := q)
      (cause := ⟨.health, entryNumber (rankOf g.line) k⟩) (op := g.op) (by rw [form]; exact hh) (by rw [form]; rfl)
    generalize settle (endUndecoded g.op (enterHalted ⟨.health, entryNumber (rankOf g.line) k⟩ u)) = t
      at run leaves delivers
    refine ⟨t, run, leaves.halted, leaves.port, leaves.contexts, leaves.retires, ?_, ?_, ?_, fun x => ?_,
      fun i hi a hits time => ?_, fun j hj => ?_, fun hn ha q hq hd ho hwait => ?_⟩
    · rw [leaves.queue, form]
      rfl
    · rw [leaves.cod, form]
      rfl
    · rw [leaves.counters, form]
      rfl
    · rw [leaves.records, form]
      rfl
    · rw [leaves.watches i hi, form]
      rfl
    · have rank : entry j / 10 = rankOf g.line := by
        show entryNumber (rankOf g.line) j / 10 = _
        unfold entryNumber
        omega
      have seen : deviceAt t (entry j) = deviceAt u (entry j) :=
        congrArg (fun x : Dht => getAt x.devices (entry j) ⟨resetDevice, .sound⟩) leaves.devices
      rw [seen, device, if_pos rank, entryAsRead_eq]
      rfl
    · refine delivers q (by rw [form]; exact hn) (same.trans ha) (by rw [form]; exact hq) hd ho ?_
      rw [form]
      exact hwait

end Sys2Proof
end
section
/-! Demand requests that start, on arrival or at DEMAND_START: what their handling comes to beside the request itself
(R18, R22–R26, R28–R31, R33, R34, R86, R87). -/

namespace Sys2Proof.Machine

variable {s t u v : State} {a : LineAddr} {mask : ByteMask} {data : Line} {f g : State → State}

/-! ## Operations that leave the buffer, and look at it for room alone -/

/-- What a request that has started still sees of the part. -/
structure SameStart (u v : State) : Prop where
  dem : v.dem = u.dem
  stamp : v.stamp = u.stamp
  link : v.link.state = u.link.state
  drp : v.drp = u.drp
  reset : v.mgu.coreReset = u.mgu.coreReset

theorem SameStart.trans (h : SameStart u v) (h' : SameStart v t) : SameStart u t :=
  ⟨h'.dem.trans h.dem, h'.stamp.trans h.stamp, h'.link.trans h.link, h'.drp.trans h.drp, h'.reset.trans h.reset⟩

/-- `f` does at `u` what it does there beside any other buffer in which pending completions claim the same room. -/
structure Beside (f : State → State) (u : State) : Prop where
  same : SameStart u (f u)
  blind : ∀ d n, roomClaims (withBuffer d n u) = roomClaims u → f (withBuffer d n u) = withBuffer d n (f u)

theorem Beside.comp (hf : Beside f u) (hg : Beside g (f u)) : Beside (fun x => g (f x)) u :=
  ⟨hf.same.trans hg.same, fun d n h => by
    have claims : roomClaims (withBuffer d n (f u)) = roomClaims (f u) := by
      have kept : roomClaims (f u) = roomClaims u := by unfold roomClaims; rw [hf.same.dem]
      exact h.trans kept.symm
    rw [hf.blind d n h, hg.blind d n claims]⟩

theorem Beside.of_eq (hg : Beside g u) (h : f u = g u) (hw : ∀ d n, f (withBuffer d n u) = g (withBuffer d n u)) :
    Beside f u :=
  ⟨h ▸ hg.same, fun d n hc => by rw [hw, h, hg.blind d n hc]⟩

theorem beside_id (u : State) : Beside (fun x => x) u := ⟨⟨rfl, rfl, rfl, rfl, rfl⟩, fun _ _ _ => rfl⟩

theorem beside_raiseAt (k : EventKind) (n : Nat) (x : Subject) (r : Option RecordName) (u : State) :
    Beside (raiseAt k n x r) u := by
  refine ⟨⟨?_, ?_, raiseAt_link_state k n x r u, ?_, ?_⟩, fun d m h => ?_⟩
  iterate 4 rw [raiseAt_eq]
  have passes : eventPasses n (withBuffer d m u) = eventPasses n u := rfl
  have goes : alertTaken n (withBuffer d m u) = alertTaken n u := by
    unfold alertTaken
    rw [h]
    rfl
  unfold raiseAt
  rw [passes, goes]
  split <;> rfl

theorem beside_setSlot (i : Nat) (x : Slot) (u : State) : Beside (setSlot i x) u :=
  ⟨⟨rfl, rfl, rfl, rfl, rfl⟩, fun _ _ _ => rfl⟩

theorem beside_poisonedRead (a : LineAddr) (u : State) :
    Beside (fun x => countPoisonedRead (rankOf a) (raise .poisonRead (.line a) x)) u :=
  (beside_raiseAt ..).comp (g := countPoisonedRead (rankOf a)) ⟨⟨rfl, rfl, rfl, rfl, rfl⟩, fun _ _ _ => rfl⟩

theorem beside_setRecord (x : RecordName) (c : CaptureRecord) (u : State) : Beside (setRecord x c) u := by
  cases x <;> exact ⟨⟨rfl, rfl, rfl, rfl, rfl⟩, fun _ _ _ => rfl⟩

theorem beside_checkBack (x : RecordName) (u : State) : Beside (checkBack x) u := by
  have seen : ∀ d n, recordAt (withBuffer d n u) x = recordAt u x := fun d n => recordAt_withBuffer x u
  cases h : (recordAt u x).strike with
  | sound => exact (beside_id u).of_eq (by simp only [checkBack, h]) fun d n => by simp only [checkBack, seen, h]
  | singleBit =>
    exact ((beside_setRecord x { recordAt u x with strike := .sound } u).comp (beside_raiseAt ..)).of_eq
      (by simp only [checkBack, h]; rfl) fun d n => by simp only [checkBack, seen, h]; rfl
  | uncorrectable =>
    exact (beside_setRecord x { content := .lost, storage := .uncorrectable, strike := .sound } u).of_eq
      (by simp only [checkBack, h]) fun d n => by simp only [checkBack, seen, h]

/-- A record written and checked back. -/
theorem beside_writeCapture (x : RecordName) (c : Capture) (u : State) : Beside (writeCapture x c) u := by
  have pointed : Beside (fun y : State => { y with fcu := { y.fcu with next := otherRecord x } }) u :=
    ⟨⟨rfl, rfl, rfl, rfl, rfl⟩, fun _ _ _ => rfl⟩
  refine ((pointed.comp (beside_setRecord x ⟨.held { c with phase := u.psc.phase, time := u.mgu.timeBase }, .sound,
    (recordAt u x).strike⟩ _)).comp (beside_checkBack x _)).of_eq rfl fun d n => ?_
  unfold writeCapture
  rw [recordAt_withBuffer]
  rfl

theorem beside_placeCapture (c : Capture) (u : State) : Beside (fun x => (placeCapture c x).2) u := by
  have target : ∀ d n, captureTarget (withBuffer d n u) = captureTarget u := fun d n => by
    unfold captureTarget
    simp only [recordAt_withBuffer]
    rfl
  by_cases halted : u.fcu.halted.isSome
  · exact (beside_id u).of_eq (by unfold placeCapture; rw [if_pos halted]) fun d n => by
      unfold placeCapture
      rw [if_pos (show (withBuffer d n u).fcu.halted.isSome from halted)]
  cases h : captureTarget u with
  | some x =>
    refine (beside_writeCapture x c u).of_eq ?_ fun d n => ?_
    · unfold placeCapture; rw [if_neg halted, h]
    · unfold placeCapture; rw [if_neg (show ¬(withBuffer d n u).fcu.halted.isSome from halted), target, h]
  | none =>
    have counted : Beside countLostCapture u := ⟨⟨rfl, rfl, rfl, rfl, rfl⟩, fun _ _ _ => rfl⟩
    refine (counted.comp (beside_raiseAt .captureLost EventKind.captureLost.level c.subject none _)).of_eq ?_
      fun d n => ?_
    · unfold placeCapture; rw [if_neg halted, h]; rfl
    · unfold placeCapture; rw [if_neg (show ¬(withBuffer d n u).fcu.halted.isSome from halted), target, h]; rfl

theorem placeCapture_fst_withBuffer (c : Capture) (d : Dem) (n : Nat) (u : State) :
    (placeCapture c (withBuffer d n u)).1 = (placeCapture c u).1 := by
  have target : captureTarget (withBuffer d n u) = captureTarget u := by
    unfold captureTarget
    simp only [recordAt_withBuffer]
    rfl
  unfold placeCapture
  rw [target]
  by_cases halted : u.fcu.halted.isSome
  · rw [if_pos halted, if_pos (show (withBuffer d n u).fcu.halted.isSome from halted)]
  · rw [if_neg halted, if_neg (show ¬(withBuffer d n u).fcu.halted.isSome from halted)]
    cases captureTarget u <;> rfl

theorem beside_slotLost (a : LineAddr) (region : Option Nat) (held : Option (ByteMask × Line)) (u : State) :
    Beside (slotLost a region held) u := by
  refine ((beside_placeCapture _ u).comp (beside_raiseAt .spareFailed 6 (.line a)
    (placeCapture (unreadCapture .slotFailed a region held u) u).1 _)).of_eq rfl fun d n => ?_
  show raiseAt _ _ _ (placeCapture _ (withBuffer d n u)).1 _ = _
  rw [placeCapture_fst_withBuffer]
  rfl

/-! ## A request that has started -/

/-- The completions pending are those of requests in the buffer. -/
def Claimed (u : State) : Prop := ∀ c ∈ u.dem.completions, ∃ q ∈ u.dem.requests, q.id = c.request

theorem Claimed.of_none (h : u.dem.completions = []) : Claimed u := fun c hc => by
  rw [h] at hc
  cases hc

/-- A demand request named `id` may be STARTED in every state that `Sees` admits: `stands p u` is `u` with the request
in phase `p`, with its classification, and `ends f u` is `u` with it started and completed by the frame `f`. -/
structure Started (id : Nat) (tag : Byte) (body : RequestBody) (cls : Option Classification)
    (stands : Phase → State → State) (ends : UpFrame → State → State) (Sees : State → Prop) : Prop where
  buffer : ∀ (p : Phase) (u : State), ∃ d n, ∀ v : State, v.dem = u.dem → v.stamp = u.stamp →
    stands p v = withBuffer d n v
  keeps : ∀ {u v}, Sees u → SameStart u v → Sees v
  claims : ∀ {u} p, Sees u → Claimed u → roomClaims (stands p u) = roomClaims u
  setPhase : ∀ {u} p p', Sees u → setPhase id p' (stands p u) = stands p' u
  found : ∀ {u} p, Sees u → ∃ q, findRequest id (stands p u) = some q ∧ q.tag = tag ∧ q.body = body ∧
    q.cls = cls ∧ q.phase = p
  completes : ∀ {u} p f, Sees u → p ≠ .completing → complete id f (stands p u) = ends f u
  others : ∀ {u} p {q}, Sees u → q.id ≠ id → findRequest q.id u = some q → findRequest q.id (stands p u) = some q
  handsOn : ∀ {u} p {q} f, Sees u → q.id ≠ id → findRequest q.id u = some q →
    handedOn q f (stands p u) = stands p (handedOn q f u) ∧ Sees (handedOn q f u)

/-- The completion frame of a demand request, by its kind. -/
def frameOf (tag : Byte) (body : RequestBody) (status : Status) (data : Line) : UpFrame :=
  match body with
  | .read _ => .readDone tag status data
  | _ => .writeDone tag status

section

variable {id : Nat} {tag : Byte} {body : RequestBody} {cls : Option Classification}
  {stands : Phase → State → State} {ends : UpFrame → State → State} {Sees : State → Prop}

theorem Started.stands_eq (h : Started id tag body cls stands ends Sees) (p : Phase) (u : State) :
    ∃ d n, stands p u = withBuffer d n u := by
  obtain ⟨d, n, hd⟩ := h.buffer p u
  exact ⟨d, n, hd u rfl rfl⟩

/-- An operation that the request does not see, and that looks at the buffer for room alone, is as before the start. -/
theorem Started.past (h : Started id tag body cls stands ends Sees) (hs : Sees u) (hc : Claimed u) (p : Phase)
    (hf : Beside f u) : f (stands p u) = stands p (f u) := by
  have claims := h.claims p hs hc
  obtain ⟨d, n, hd⟩ := h.buffer p u
  rw [hd u rfl rfl] at claims ⊢
  rw [hf.blind d n claims, hd _ hf.same.dem hf.same.stamp]

/-- Nor does one that does not look at the buffer at all see the request. -/
theorem Started.pastBlind (h : Started id tag body cls stands ends Sees) (p : Phase)
    (hd : (f u).dem = u.dem) (hn : (f u).stamp = u.stamp) (hf : ∀ d n, f (withBuffer d n u) = withBuffer d n (f u)) :
    f (stands p u) = stands p (f u) := by
  obtain ⟨d, n, hd'⟩ := h.buffer p u
  rw [hd' u rfl rfl, hf, hd' _ hd hn]

theorem Started.completeDemand (h : Started id tag body cls stands ends Sees) (hs : Sees u) {p : Phase}
    (hp : p ≠ .completing) (status : Status) (data : Line) :
    completeDemand id status data (stands p u) = ends (frameOf tag body status data) u := by
  obtain ⟨q, hq, rfl, rfl, -, -⟩ := h.found p hs
  unfold Machine.completeDemand
  rw [hq]
  exact h.completes p _ hs hp

theorem Started.holder (h : Started id tag body cls stands ends Sees) (p : Phase) (a : LineAddr) :
    holder a (stands p u) = holder a u := by
  obtain ⟨d, n, hd⟩ := h.stands_eq p u
  rw [hd]
  rfl

theorem Started.slotAt (h : Started id tag body cls stands ends Sees) (p : Phase) (i : Nat) :
    slotAt (stands p u) i = slotAt u i := by
  obtain ⟨d, n, hd⟩ := h.stands_eq p u
  rw [hd]
  rfl

theorem Started.atPort (h : Started id tag body cls stands ends Sees) (p : Phase) (op : PortOp) :
    atPort op (stands p u) = atPort op u := by
  obtain ⟨d, n, hd⟩ := h.stands_eq p u
  rw [hd]
  rfl

theorem Started.recordAt (h : Started id tag body cls stands ends Sees) (p : Phase) (x : RecordName) :
    recordAt (stands p u) x = recordAt u x := by
  obtain ⟨d, n, hd⟩ := h.stands_eq p u
  rw [hd]
  exact recordAt_withBuffer x u

/-- Outside HALTED and codec-loop mode it is handled by the holder of its line (R24). -/
theorem Started.handled (h : Started id tag body cls stands ends Sees) (hs : Sees s) (hh : s.fcu.halted = none)
    (hl : s.cod.loopLine = none) : ∃ q : Request, handleDemand id (stands .waitRead s) =
      applyDemand q (stands .waitRead s) ∧ q.id = id ∧ q.body = body ∧ q.cls = cls ∧ q.phase = .waitRead := by
  obtain ⟨q, hq, -, hb, hc, hp⟩ := h.found .waitRead hs
  obtain ⟨d, n, hd⟩ := h.stands_eq .waitRead s
  refine ⟨q, ?_, (findRequest_some hq).2, hb, hc, hp⟩
  unfold handleDemand
  rw [hq, show (stands .waitRead s).fcu.halted = none by rw [hd]; exact hh,
    show (stands .waitRead s).cod.loopLine = none by rw [hd]; exact hl]
  rfl

/-! ### READs -/

/-- What comes before a POISONED completion is as it would be without the request. -/
theorem Started.completePoisonedRead (h : Started id tag body cls stands ends Sees) (hs : Sees u) (hc : Claimed u)
    {p : Phase} (hp : p ≠ .completing) (hb : body = .read a) :
    completePoisonedRead id a (stands p u) = ends (.readDone tag .poisoned zeroLine)
      (countPoisonedRead (rankOf a) (raise .poisonRead (.line a) u)) := by
  have past := h.past hs hc p (beside_poisonedRead a u)
  unfold Machine.completePoisonedRead
  rw [past, h.completeDemand (h.keeps hs (beside_poisonedRead a u).same) hp, hb]
  rfl

theorem Beside.claimed (hf : Beside f u) (hc : Claimed u) : Claimed (f u) := fun c hm => by
  rw [hf.same.dem] at hm ⊢
  exact hc c hm

/-- A lost slot's data, beside the request. -/
theorem Started.slotDataLost (h : Started id tag body cls stands ends Sees) (hs : Sees u) (hc : Claimed u)
    (hr : RecordsReady u) (p : Phase) (region : Option Nat) (held : Option (ByteMask × Line)) :
    slotDataLost a region held (stands p u) = stands p (slotLost a region held u) := by
  have ready : RecordsReady (stands p u) := fun x => by rw [h.recordAt]; exact hr x
  rw [slotDataLost_ready ready]
  exact h.past hs hc p (beside_slotLost a region held u)

theorem Started.setSlot (h : Started id tag body cls stands ends Sees) (p : Phase) (i : Nat) (x : Slot) :
    Machine.setSlot i x (stands p u) = stands p (Machine.setSlot i x u) :=
  h.pastBlind (f := Machine.setSlot i x) p rfl rfl fun _ _ => rfl

/-- Where a READ finds the data of the slot lost, after the slot has been dealt with (R87). -/
theorem Started.readLost (h : Started id tag body cls stands ends Sees) (hs : Sees u) (hc : u.dem.completions = [])
    (hr : RecordsReady u) (hb : body = .read a) (region : Option Nat) :
    Machine.completePoisonedRead id a (Machine.slotDataLost a region none (stands .answering u)) =
      ends (.readDone tag .poisoned zeroLine)
        (countPoisonedRead (rankOf a) (raise .poisonRead (.line a) (slotLost a region none u))) := by
  have lost := beside_slotLost a region none u
  have claimed := Claimed.of_none hc
  rw [h.slotDataLost hs claimed hr, h.completePoisonedRead (h.keeps hs lost.same) (lost.claimed claimed)
    (p := .answering) nofun hb]

/-- The same where a Spare Release in progress ends first (R87, T47). -/
theorem Started.readLostAnswered (h : Started id tag body cls stands ends Sees) (hs : Sees u)
    (hc : u.dem.completions = []) (hr : RecordsReady u) (hb : body = .read a) (region : Option Nat) {q : Request}
    (hq : Answerable q u) (hh : q.hold = none) (other : q.id ≠ id) :
    Machine.completePoisonedRead id a (answer q.id .wrongState [] (Machine.slotDataLost a region none
      (stands .answering u))) = ends (.readDone tag .poisoned zeroLine)
        (countPoisonedRead (rankOf a) (raise .poisonRead (.line a)
          (answered q .wrongState [] (slotLost a region none u)))) := by
  have lost := beside_slotLost a region none u
  have claimed := lost.claimed (Claimed.of_none hc)
  have sees := h.keeps hs lost.same
  have named : findRequest q.id (slotLost a region none u) = some q := by
    unfold findRequest
    rw [lost.same.dem]
    exact hq.named
  obtain ⟨d, n, hd⟩ := h.stands_eq .answering (slotLost a region none u)
  have answerable : Answerable q (stands .answering (slotLost a region none u)) := by
    refine ⟨?_, h.others _ sees other named, hq.buffered, hq.unanswered, ?_⟩
    · rw [hd]
      exact lost.same.link.trans hq.active
    · rw [hd]
      show ∀ c, (slotLost a region none u).mgu.coreReset = some c → _
      rw [lost.same.reset]
      exact hq.notReset
  obtain ⟨handed, sees'⟩ := h.handsOn .answering (.manageDone q.tag .wrongState []) sees other named
  have claimed' : Claimed (answered q .wrongState [] (slotLost a region none u)) := by
    have none : (slotLost a region none u).dem.completions = [] := by rw [lost.same.dem]; exact hc
    unfold answered handedOn
    split
    · exact Claimed.of_none none
    · intro c hcm
      have : c = ⟨q.id, .manageDone q.tag .wrongState []⟩ := by
        have : c ∈ (slotLost a region .none u).dem.completions ++ [⟨q.id, .manageDone q.tag .wrongState []⟩] := hcm
        rw [none] at this
        exact List.mem_singleton.mp this
      subst this
      exact ⟨_, List.mem_map.mpr ⟨q, (findRequest_some named).1, rfl⟩, by simp⟩
  rw [h.slotDataLost hs (Claimed.of_none hc) hr, answer_answerable answerable hh]
  unfold answered at claimed' ⊢
  rw [show (if Result.wrongState = .done then ([] : List Byte) else []) = [] from rfl, handed,
    h.completePoisonedRead sees' claimed' (p := .answering) nofun hb]

/-- A READ that has started is handled by the holder of its line (R24, R25, R26, R86, R87). -/
theorem Started.readHandled (h : Started id tag body (some (classify a s)) stands ends Sees) (hs : Sees s)
    (hh : s.fcu.halted = none) (hl : s.cod.loopLine = none) (hb : body = .read a)
    (own : ∀ i b d t w q, Machine.slotAt s i = .releasing b d t (some w) → findRequest w.request s = some q → q.id ≠ id) :
    ReadHandled tag a stands ends (.next (handleDemand id (stands .waitRead s))) s := by
  obtain ⟨q, handled, rfl, qb, qc, -⟩ := h.handled hs hh hl
  have done : ∀ p status data, p ≠ .completing → Machine.completeDemand q.id status data (stands p s) =
      ends (.readDone tag status data) s := fun p status data hp => by
    rw [h.completeDemand hs hp, hb]
    rfl
  have applied : handleDemand q.id (stands .waitRead s) = applyRead q a (stands .waitRead s) := by
    rw [handled]
    unfold applyDemand
    rw [qb, hb]
  rw [applied]
  unfold applyRead
  rw [h.holder, qc, show regionOf (some (classify a s)) = (classify a s).region from rfl]
  refine ⟨fun hd => ?_, fun e hd hk => ?_, fun e hd hk hc => ?_, fun i b d t hd ds hi => ?_,
    fun i b d t hd hi hc => ?_, fun i b d t hd ds hc hi => ?_, fun i b d t hd ds hc hr => ?_⟩
  all_goals rw [hd]; dsimp only
  · exact congrArg _ (h.setPhase _ _ hs)
  · rw [hk]
    exact congrArg _ (done _ _ _ nofun)
  · rw [hk]
    exact congrArg _ (h.completePoisonedRead hs (.of_none hc) nofun hb)
  all_goals unfold readFromSlot
  all_goals rw [h.slotAt]
  · have held : (Machine.slotAt (stands .waitRead s) i).data? = some d := by
      rw [h.slotAt]
      obtain hi | ⟨w, hi⟩ := hi <;> rw [hi] <;> rfl
    rw [readSlot_sound held ds]
    obtain hi | ⟨w, hi⟩ := hi <;> rw [hi] <;> exact congrArg _ (done _ _ _ nofun)
  · rw [hi]
    exact congrArg _ (h.completePoisonedRead hs (.of_none hc) nofun hb)
  · have held : (Machine.slotAt (stands .waitRead s) i).data? = some d := by
      rw [h.slotAt]
      obtain hi | ⟨w, hi⟩ := hi <;> rw [hi] <;> rfl
    have corrected := (beside_setSlot i ((Machine.slotAt s i).withData ⟨d.data, .sound, zeroLine⟩) s).comp
      (beside_raiseAt .internalCorrected EventKind.internalCorrected.level (.table .spare i) none _)
    have past := h.past hs (.of_none hc) .waitRead corrected
    have ended := h.completeDemand (h.keeps hs corrected.same) (p := .waitRead) nofun .clean d.data
    rw [readSlot_singleBit held ds, h.slotAt, show raise .internalCorrected (.table .spare i) (Machine.setSlot i
      ((Machine.slotAt s i).withData ⟨d.data, .sound, zeroLine⟩) (stands .waitRead s)) = _ from past]
    rw [hb] at ended
    obtain hi | ⟨w, hi⟩ := hi <;> rw [hi] at ended ⊢ <;> exact congrArg _ ended
  · have unread : ∀ x, Machine.slotAt s i = x → x.data? = some d →
        readSlot i (stands .waitRead s) = (none, stands .waitRead s) := fun x hi hx =>
      readSlot_uncorrectable (by rw [h.slotAt, hi, hx]) ds
    have answering := h.setPhase .waitRead .answering hs
    have failed := h.keeps hs (beside_setSlot i (.failed b d t) s).same
    refine ⟨fun hi => ?_, fun w hi => ⟨fun granted => ?_, fun x granted hx hxa hxh => ?_⟩⟩
    · have lost := h.readLost failed hc hr hb (classify a s).region
      obtain hi | hi := hi <;> rw [unread _ hi rfl, hi] <;> dsimp only <;> unfold readLostSlot <;>
        rw [answering] <;> dsimp only <;> rw [h.slotAt, hi] <;> dsimp only <;> rw [h.setSlot] <;>
        exact congrArg _ lost
    · rw [unread _ hi rfl, hi]
      dsimp only
      unfold readLostSlot
      rw [answering]
      dsimp only
      rw [h.slotAt, hi]
      dsimp only
      rw [h.atPort, if_pos granted]
      exact congrArg _ (h.readLost hs hc hr hb _)
    · rw [unread _ hi rfl, hi]
      dsimp only
      unfold readLostSlot
      rw [answering]
      dsimp only
      rw [h.slotAt, hi]
      dsimp only
      rw [h.atPort, if_neg (by rw [granted]; exact Bool.false_ne_true), h.setSlot]
      have name := (findRequest_some hx).2
      rw [← name]
      exact congrArg _ (h.readLostAnswered failed hc hr hb _
        ⟨hxa.active, hxa.named, hxa.buffered, hxa.unanswered, hxa.notReset⟩ hxh (own i b d t w x hi hx))

/-! ### Writes -/

/-- A full write, or a merged line, by the holder of the line (R28, R29, R33, T21). -/
theorem Started.applyWrite_none (h : Started id tag body cls stands ends Sees) (hs : Sees s) (p : Phase)
    (hd : Machine.holder a s = .none) (data : Line) (status : Status) :
    applyWrite id a data status (stands p s) = stands (.waitWrite data status) s := by
  unfold applyWrite
  rw [h.holder, hd]
  exact h.setPhase _ _ hs

theorem Started.applyWrite_writing (h : Started id tag body cls stands ends Sees) (hs : Sees s) (p : Phase)
    {e : RepairEntry} (hd : Machine.holder a s = .entry e) (he : e.state = .writing) (data : Line) (status : Status) :
    applyWrite id a data status (stands p s) = stands (.heldWrite data status) s := by
  unfold applyWrite
  rw [h.holder, hd]
  dsimp only
  rw [he]
  exact h.setPhase _ _ hs

theorem Started.applyWrite_removes (h : Started id tag body cls stands ends Sees) (hs : Sees s) (p : Phase)
    {e : RepairEntry} (hd : Machine.holder a s = .entry e) (he : e.state ≠ .writing) (data : Line) (status : Status) :
    applyWrite id a data status (stands p s) = stands (.waitWrite data status) (removeEntry e.id s) := by
  have removed : SameStart s (removeEntry e.id s) := ⟨rfl, rfl, rfl, rfl, rfl⟩
  have past := h.pastBlind (f := removeEntry e.id) (u := s) p rfl rfl fun _ _ => rfl
  unfold applyWrite
  rw [h.holder, hd]
  dsimp only
  rw [past]
  cases hx : e.state
  case writing => exact absurd hx he
  all_goals exact h.setPhase _ _ (h.keeps hs removed)

theorem Started.applyWrite_releasing (h : Started id tag body cls stands ends Sees) (hs : Sees s) (p : Phase) {i : Nat}
    {b : LineAddr} {d : StoredLine} {m : TimeBase} {w : Option ReleaseWork} (hd : Machine.holder a s = .slot i)
    (hi : Machine.slotAt s i = .releasing b d m w) (data : Line) (status : Status) :
    applyWrite id a data status (stands p s) = stands (.heldWrite data status) s := by
  unfold applyWrite
  rw [h.holder, hd]
  dsimp only
  rw [h.slotAt, hi]
  exact h.setPhase _ _ hs

theorem Started.applyWrite_slot (h : Started id tag body cls stands ends Sees) (hs : Sees s) {p : Phase}
    (hp : p ≠ .completing) {i : Nat} {b : LineAddr} {d : StoredLine} {m : TimeBase} (hd : Machine.holder a s = .slot i)
    (hi : Machine.slotAt s i = .active b d m ∨ Machine.slotAt s i = .failed b d m) (data : Line) (status : Status) :
    applyWrite id a data status (stands p s) =
      ends (frameOf tag body status zeroLine) (Machine.setSlot i (.active b ⟨data, .sound, zeroLine⟩ m) s) := by
  have taken := h.completeDemand (h.keeps hs (beside_setSlot i (.active b ⟨data, .sound, zeroLine⟩ m) s).same) hp
    status zeroLine
  have past := h.setSlot p i (.active b ⟨data, .sound, zeroLine⟩ m) (u := s)
  unfold applyWrite
  rw [h.holder, hd]
  dsimp only
  rw [h.slotAt]
  obtain hi | hi := hi <;> rw [hi] <;> exact (congrArg _ past).trans taken

/-- A full write that has started is handled by the holder of its line (R28, R29, R30, R86). -/
theorem Started.fullWriteHandled (h : Started id tag body cls stands ends Sees) (hs : Sees s)
    (hh : s.fcu.halted = none) (hl : s.cod.loopLine = none) {data : Line}
    (hb : body = .write a data ∨ body = .maskedWrite a (BitVec.allOnes 64) data) :
    FullWriteHandled tag a data stands ends (.next (handleDemand id (stands .waitRead s))) s := by
  obtain ⟨q, handled, rfl, qb, -, qp⟩ := h.handled hs hh hl
  have applied : handleDemand q.id (stands .waitRead s) = applyWrite q.id a data .done (stands .waitRead s) := by
    rw [handled]
    unfold applyDemand
    rw [qb, qp]
    obtain hb | hb := hb <;> rw [hb]
    dsimp only
    rw [if_pos rfl]
  have frame : frameOf tag body .done zeroLine = .writeDone tag .done := by obtain hb | hb := hb <;> rw [hb] <;> rfl
  rw [applied]
  refine ⟨fun hd => congrArg _ (h.applyWrite_none hs _ hd ..), fun e hd he => congrArg _ (h.applyWrite_writing hs _ hd he ..),
    fun e hd he => congrArg _ (h.applyWrite_removes hs _ hd he ..),
    fun i b d m w hd hi => congrArg _ (h.applyWrite_releasing hs _ hd hi ..), fun i b d m hd hi => ?_⟩
  rw [← frame]
  exact congrArg _ (h.applyWrite_slot hs (p := .waitRead) nofun hd hi ..)

/-! ### Masked writes -/

/-- The later write of a slot stands, beside an event between the two. -/
theorem setSlot_raise_setSlot (i : Nat) (x y : Slot) (k : EventKind) (z : Subject) (s : State) :
    setSlot i x (raise k z (setSlot i y s)) = setSlot i x (raise k z s) := by
  have up : (raise k z (setSlot i y s)).link = (raise k z s).link := raiseAt_link_congr rfl rfl rfl
  rw [raise_eq, raise_eq (s := s), up]
  unfold setSlot
  simp only [setAt_setAt]

/-- A slot rewritten for its line, held as it was, changes no holder. -/
theorem holder_setSlot_same {i : Nat} {x : Slot} (hl : x.line? = (slotAt s i).line?) (hh : x.holds = (slotAt s i).holds) :
    holder a (setSlot i x s) = holder a s := by
  have slots : slotHolding a (setSlot i x s) = slotHolding a s := slotHolding_of_lines fun j => by
    rw [slotAt_setSlot]
    split
    · rename_i hj
      rw [← hj.1]
      exact ⟨hl, hh⟩
    · exact ⟨rfl, rfl⟩
  unfold holder
  rw [slots]
  rfl

theorem capture_placedNext (hh : s.fcu.halted = none) (hr : NextRecordReady s) (c : Capture) :
    capture c (fun _ y => y) s = placedNext c s := by
  rw [capture_sound hh (.inl ⟨rfl, hr.1⟩) hr.2]
  unfold recordWritten placedNext
  rw [otherRecord_eq]
  rfl

theorem capture_bothHeld (hh : s.fcu.halted = none) (hr : ∀ x, (recordAt s x).content ≠ .empty) (c : Capture) :
    capture c (fun _ y => y) s = raise .captureLost c.subject (countLostCapture s) := by
  rw [capture_eq, placeCapture_lost hh hr]
  rfl

/-- A refused read-modify-write, its held write captured as it would be without the request (R34). -/
theorem Started.refuseRmw (h : Started id tag body cls stands ends Sees) (hs : Sees s) (p : Phase)
    (hb : body = .maskedWrite a mask data) {c : Capture} (hc : capture c (fun _ y => y) (stands .answering s) =
      stands .answering v) (hv : SameStart s v) :
    refuseRmw id c (stands p s) = ends (.writeDone tag .uncorrectable) v := by
  unfold Machine.refuseRmw
  rw [h.setPhase _ _ hs, hc, h.completeDemand (h.keeps hs hv) (p := .answering) nofun, hb]
  rfl

theorem Started.refuse_placed (h : Started id tag body cls stands ends Sees) (hs : Sees s) (p : Phase)
    (hb : body = .maskedWrite a mask data) (hh : s.fcu.halted = none) (hr : NextRecordReady s) (c : Capture) :
    Machine.refuseRmw id c (stands p s) = ends (.writeDone tag .uncorrectable) (placedNext c s) := by
  obtain ⟨d, n, hd⟩ := h.stands_eq .answering s
  have ready : NextRecordReady (stands .answering s) := by
    unfold NextRecordReady
    rw [h.recordAt, show (stands .answering s).fcu = s.fcu by rw [hd]; rfl]
    exact hr
  have pointed : SameStart s { s with fcu := { s.fcu with next := if s.fcu.next = .a then .b else .a } } :=
    ⟨rfl, rfl, rfl, rfl, rfl⟩
  have placed : SameStart s (placedNext c s) := pointed.trans (beside_setRecord ..).same
  have blind : ∀ d n, placedNext c (withBuffer d n s) = withBuffer d n (placedNext c s) := fun d n => by
    exact setRecord_withBuffer s.fcu.next _ { s with fcu := { s.fcu with next := if s.fcu.next = .a then .b else .a } }
  refine h.refuseRmw hs p hb ?_ placed
  rw [capture_placedNext (by rw [hd]; exact hh) ready]
  exact h.pastBlind (f := placedNext c) .answering placed.dem placed.stamp blind

theorem Started.refuse_lost (h : Started id tag body cls stands ends Sees) (hs : Sees s) (p : Phase)
    (hb : body = .maskedWrite a mask data) (hh : s.fcu.halted = none)
    (hr : ∀ x, (Machine.recordAt s x).content ≠ .empty) (hc : s.dem.completions = []) (c : Capture) : Machine.refuseRmw id c (stands p s) =
      ends (.writeDone tag .uncorrectable) (raise .captureLost c.subject (countLostCapture s)) := by
  obtain ⟨d, n, hd⟩ := h.stands_eq .answering s
  have counted : Beside countLostCapture s := ⟨⟨rfl, rfl, rfl, rfl, rfl⟩, fun _ _ _ => rfl⟩
  have lost := counted.comp (beside_raiseAt .captureLost EventKind.captureLost.level c.subject none _)
  refine h.refuseRmw hs p hb ?_ lost.same
  rw [capture_bothHeld (by rw [hd]; exact hh) fun x => by rw [h.recordAt]; exact hr x]
  exact h.past hs (.of_none hc) .answering lost

/-- A read-modify-write of the slot that holds its line, its data sound or corrected first (R31, R33, R86). -/
theorem Started.rmwSlot_sound (h : Started id tag body cls stands ends Sees) (hs : Sees s)
    (hb : body = .maskedWrite a mask data) {i : Nat} {b : LineAddr} {d : StoredLine} {m : TimeBase}
    (hd : Machine.holder a s = .slot i) (hi : Machine.slotAt s i = .active b d m) (ds : d.storage = .sound)
    {q : Request} (hq : q.id = id) : rmwFromSlot q a mask data i (stands .waitRead s) =
      ends (.writeDone tag .done) (Machine.setSlot i (.active b ⟨merge mask d.data data, .sound, zeroLine⟩ m) s) := by
  subst hq
  have held : (Machine.slotAt (stands .waitRead s) i).data? = some d := by rw [h.slotAt, hi]; rfl
  have written := h.applyWrite_slot hs (p := .waitRead) nofun hd (.inl hi) (merge mask d.data data) .done
  rw [hb] at written
  unfold rmwFromSlot
  rw [readSlot_sound held ds]
  exact written

theorem Started.rmwSlot_single (h : Started id tag body cls stands ends Sees) (hs : Sees s)
    (hb : body = .maskedWrite a mask data) {i : Nat} {b : LineAddr} {d : StoredLine} {m : TimeBase}
    (hd : Machine.holder a s = .slot i) (hi : Machine.slotAt s i = .active b d m) (ds : d.storage = .singleBit)
    (hc : s.dem.completions = []) {q : Request} (hq : q.id = id) : rmwFromSlot q a mask data i (stands .waitRead s) =
      ends (.writeDone tag .done) (Machine.setSlot i (.active b ⟨merge mask d.data data, .sound, zeroLine⟩ m)
        (raise .internalCorrected (.table .spare i) s)) := by
  subst hq
  have inside : i < 32 := (slotHolding_some (holder_slot hd)).1
  have held : (Machine.slotAt (stands .waitRead s) i).data? = some d := by rw [h.slotAt, hi]; rfl
  have rewritten : (Machine.slotAt s i).withData ⟨d.data, .sound, zeroLine⟩ = .active b ⟨d.data, .sound, zeroLine⟩ m := by
    rw [hi]
    rfl
  have corrected := (beside_setSlot i (.active b ⟨d.data, .sound, zeroLine⟩ m) s).comp
    (beside_raiseAt .internalCorrected EventKind.internalCorrected.level (.table .spare i) none _)
  have past := h.past hs (.of_none hc) .waitRead corrected
  have slots : Machine.slotAt (raise .internalCorrected (.table .spare i)
      (Machine.setSlot i (.active b ⟨d.data, .sound, zeroLine⟩ m) s)) i = .active b ⟨d.data, .sound, zeroLine⟩ m := by
    unfold Machine.slotAt
    rw [raise_sls]
    exact (slotAt_setSlot ..).trans (if_pos ⟨rfl, inside⟩)
  have holds : Machine.holder a (raise .internalCorrected (.table .spare i)
      (Machine.setSlot i (.active b ⟨d.data, .sound, zeroLine⟩ m) s)) = .slot i :=
    ((sameWork_raiseAt ..).holder a).trans ((holder_setSlot_same (by rw [hi]; rfl) (by rw [hi]; rfl)).trans hd)
  have written := h.applyWrite_slot (s := raise .internalCorrected (.table .spare i)
    (Machine.setSlot i (.active b ⟨d.data, .sound, zeroLine⟩ m) s)) (h.keeps hs corrected.same) (p := .waitRead) nofun
    holds (.inl slots) (merge mask d.data data) .done
  rw [hb, setSlot_raise_setSlot] at written
  unfold rmwFromSlot
  rw [readSlot_singleBit held ds, h.slotAt, rewritten, show raise .internalCorrected (.table .spare i)
    (Machine.setSlot i (.active b ⟨d.data, .sound, zeroLine⟩ m) (stands .waitRead s)) = _ from past]
  exact written

/-- One whose slot has lost its data is refused, the slot FAILED and its held write captured (R87, R124). -/
theorem Started.rmwSlot_lost (h : Started id tag body (some (classify a s)) stands ends Sees) (hs : Sees s)
    (hb : body = .maskedWrite a mask data) {i : Nat} {b : LineAddr} {d : StoredLine} {m : TimeBase}
    (hi : Machine.slotAt s i = .active b d m) (ds : d.storage = .uncorrectable) (hc : s.dem.completions = [])
    (hr : RecordsReady s) {q : Request} (hq : q.id = id) (hqc : q.cls = some (classify a s)) :
    rmwFromSlot q a mask data i (stands .waitRead s) = ends (.writeDone tag .uncorrectable)
      (slotLost a (classify a s).region (some (mask, data)) (Machine.setSlot i (.failed b d m) s)) := by
  subst hq
  have failed := h.keeps hs (beside_setSlot i (.failed b d m) s).same
  have lost := beside_slotLost a (classify a s).region (some (mask, data)) (Machine.setSlot i (.failed b d m) s)
  have ended := h.completeDemand (h.keeps failed lost.same) (p := .answering) nofun .uncorrectable zeroLine
  rw [hb] at ended
  unfold rmwFromSlot
  rw [readSlot_uncorrectable (show (Machine.slotAt (stands .waitRead s) i).data? = some d by rw [h.slotAt, hi]; rfl) ds]
  dsimp only
  rw [h.slotAt, hi]
  dsimp only
  rw [h.setPhase _ _ hs, h.setSlot, hqc, show regionOf (some (classify a s)) = (classify a s).region from rfl,
    h.slotDataLost failed (.of_none hc) hr]
  exact ended

/-- A masked write that has started, with not all flags set, is handled by the holder of its line. -/
theorem Started.maskedWriteHandled (h : Started id tag body (some (classify a s)) stands ends Sees) (hs : Sees s)
    (hh : s.fcu.halted = none) (hl : s.cod.loopLine = none) (hb : body = .maskedWrite a mask data)
    (hm : mask ≠ BitVec.allOnes 64) :
    MaskedWriteHandled tag a mask data stands ends (.next (handleDemand id (stands .waitRead s))) s := by
  obtain ⟨q, handled, rfl, qb, qc, qp⟩ := h.handled hs hh hl
  have applied : handleDemand q.id (stands .waitRead s) =
      if mask = 0 then Machine.completeDemand q.id .done zeroLine (stands .waitRead s)
      else applyRmw q a mask data (stands .waitRead s) := by
    rw [handled]
    unfold applyDemand
    rw [qb, qp, hb]
    dsimp only
    rw [if_neg hm]
  rw [applied]
  unfold MaskedWriteHandled
  intro merged done refused
  refine ⟨fun hz => ?_, fun hz => ?_⟩
  · rw [if_pos hz, h.completeDemand hs (p := .waitRead) nofun, hb]
    rfl
  have marked : markOf (stands .waitRead s) (rankOf a) = markOf s (rankOf a) := by
    obtain ⟨d, n, hd⟩ := h.stands_eq .waitRead s
    rw [hd]
    rfl
  have captured : unreadCapture .rmwUe a (regionOf q.cls) (some (mask, data)) (stands .waitRead s) =
      { kind := .rmwUe, line := some a, region := (classify a s).region, phase := 0, time := 0,
        retry := none, outcomes := Vector.replicate 4 .notRead,
        mark := (markOf s (rankOf a)).map Fin.val, held := some (mask, data), table := none } := by
    unfold unreadCapture
    rw [marked, qc]
    rfl
  rw [if_neg hz]
  unfold applyRmw
  rw [h.holder, captured]
  refine ⟨fun hd => ?_, fun e hd hk he => ?_, fun e hd hk he => ?_, fun i b d m w hd hi => ?_, fun i b d m hd hi ds => ?_,
    fun i b d m hd hi hc => ⟨fun ds => ?_, fun ds hr => ?_⟩, fun held => ⟨fun hr => ?_, fun hr hc => ?_⟩⟩
  · rw [hd]
    exact congrArg _ (h.setPhase _ _ hs)
  · rw [hd]
    dsimp only
    rw [hk]
    exact congrArg _ (h.applyWrite_writing hs _ hd he ..)
  · rw [hd]
    dsimp only
    rw [hk]
    exact congrArg _ (h.applyWrite_removes hs _ hd he ..)
  · rw [hd]
    dsimp only
    rw [h.slotAt, hi]
    exact congrArg _ (h.setPhase _ _ hs)
  · rw [hd]
    dsimp only
    rw [h.slotAt, hi]
    exact congrArg _ (h.rmwSlot_sound hs hb hd hi ds rfl)
  · rw [hd]
    dsimp only
    rw [h.slotAt, hi]
    exact congrArg _ (h.rmwSlot_single hs hb hd hi ds hc rfl)
  · rw [hd]
    dsimp only
    rw [h.slotAt, hi]
    exact congrArg _ (h.rmwSlot_lost hs hb hi ds hc hr rfl qc)
  · have placed := h.refuse_placed hs .waitRead hb hh hr
    obtain ⟨i, b, d, m, hd, hi⟩ | ⟨e, hd, hk⟩ := held
    · rw [hd]
      dsimp only
      rw [h.slotAt, hi]
      exact congrArg _ (placed _)
    · rw [hd]
      dsimp only
      rw [hk]
      exact congrArg _ (placed _)
  · have lost := h.refuse_lost hs .waitRead hb hh hr hc
    obtain ⟨i, b, d, m, hd, hi⟩ | ⟨e, hd, hk⟩ := held
    · rw [hd]
      dsimp only
      rw [h.slotAt, hi]
      exact congrArg _ (lost _)
    · rw [hd]
      dsimp only
      rw [hk]
      exact congrArg _ (lost _)

/-! ### The loop line -/

theorem injectOne_withBuffer (a : LineAddr) (raw : RawLine) (d : Dem) (n i : Nat) (s : State) :
    injectOne a (raw, withBuffer d n s) i =
      ((injectOne a (raw, s) i).1, withBuffer d n (injectOne a (raw, s) i).2) := by
  have entry : (withBuffer d n s).cod = s.cod := rfl
  unfold injectOne
  dsimp only
  rw [entry]
  cases getAt s.cod.injections i none with
  | none => rfl
  | some e =>
    dsimp only
    split <;> rfl

theorem loopWrite_withBuffer (a : LineAddr) (data : Line) (d : Dem) (n : Nat) (s : State) :
    loopWrite a data (withBuffer d n s) = withBuffer d n (loopWrite a data s) := by
  unfold loopWrite formWrite inject
  simp only [List.foldl_cons, List.foldl_nil, injectOne_withBuffer]
  rfl

theorem loopWrite_form (a : LineAddr) (data : Line) (s : State) :
    ∃ cod, loopWrite a data s = { s with cod := cod } ∧ LoopLineWritten a data s { s with cod := cod } := by
  obtain ⟨symbols, entries, v, hv⟩ := inject_spec a (encode data) s
  have written : loopWrite a data s = { s with cod := { s.cod with
      injections := v, loopLine := some (inject a (encode data) s).1 } } := by
    show { (inject a (encode data) s).2 with cod := { (inject a (encode data) s).2.cod with
      loopLine := some (inject a (encode data) s).1 } } = _
    rw [hv]
  refine ⟨_, written, ⟨_, rfl, symbols⟩, fun i hi => ?_⟩
  have spent := entries i hi
  rw [hv] at spent
  exact spent

/-- A write of the loop line, completed. -/
theorem Started.loopWritten (h : Started id tag body cls stands ends Sees) (hs : Sees s) (hb : ∀ b, body ≠ .read b)
    (a : LineAddr) (data : Line) (status : Status) :
    ∃ cod, Machine.completeDemand id status zeroLine (loopWrite a data (stands .answering s)) =
      ends (.writeDone tag status) { s with cod := cod } ∧ LoopLineWritten a data s { s with cod := cod } := by
  obtain ⟨cod, written, loop⟩ := loopWrite_form a data s
  have same : SameStart s (loopWrite a data s) := by
    rw [written]
    exact ⟨rfl, rfl, rfl, rfl, rfl⟩
  have frame : frameOf tag body status zeroLine = .writeDone tag status := by
    cases body with
    | read b => exact absurd rfl (hb b)
    | _ => rfl
  refine ⟨cod, ?_, loop⟩
  rw [h.pastBlind (f := loopWrite a data) .answering same.dem same.stamp fun d n => loopWrite_withBuffer a data d n s,
    h.completeDemand (h.keeps hs same) (p := .answering) nofun, frame, written]

/-- A demand request that has started in codec-loop mode is served by the loop line (R18, T15). -/
theorem Started.loopHandled (h : Started id tag body cls stands ends Sees) (hs : Sees s) (hh : s.fcu.halted = none)
    {raw : RawLine} (hl : s.cod.loopLine = some raw) (hr : RankSound (rankOf a) s) :
    LoopHandled tag body a raw ends (.next (handleDemand id (stands .waitRead s))) s := by
  obtain ⟨q, hq, -, rfl, -, -⟩ := h.found .waitRead hs
  obtain rfl : q.id = id := (findRequest_some hq).2
  have halted : (stands .waitRead s).fcu.halted = none := by
    obtain ⟨d, n, hd⟩ := h.stands_eq .waitRead s
    rw [hd]
    exact hh
  have line : (stands .waitRead s).cod.loopLine = some raw := by
    obtain ⟨d, n, hd⟩ := h.stands_eq .waitRead s
    rw [hd]
    exact hl
  have handled : handleDemand q.id (stands .waitRead s) = loopAccess q raw (stands .waitRead s) := by
    unfold handleDemand
    rw [halted, hq, line]
    rfl
  have decoded : ∀ source, loopDecode a source raw (stands .answering s) =
      (some (decodeLine a source (markOf s (rankOf a)) none false raw), stands .answering s) := fun source => by
    obtain ⟨d, n, hd⟩ := h.stands_eq .answering s
    unfold loopDecode
    rw [hd, readRank_sound (s := withBuffer d n s) hr]
    rfl
  have done := fun status data => h.completeDemand hs (p := .answering) nofun status data
  rw [handled]
  unfold loopAccess
  dsimp only
  rw [h.setPhase _ _ hs]
  unfold LoopHandled
  intro v wrote
  refine ⟨fun hbody => ?_, fun data hbody => ?_, fun mask data hbody hm => ⟨fun hz => ?_, fun hz =>
    ⟨fun bad => ?_, fun status good => ?_⟩⟩⟩
  · rw [hbody] at done ⊢
    dsimp only
    rw [decoded]
    dsimp only
    unfold loopRead
    change Host.Outcome.next (match v.verdict with | .clean => _ | .corrected => _ | .uncorrectable => _ | .poisoned => _) = _
    cases v.verdict <;> exact congrArg _ (done ..)
  · obtain ⟨cod, written, loop⟩ := h.loopWritten hs (by obtain hbody | hbody := hbody <;> rw [hbody] <;> nofun) a data .done
    refine ⟨cod, ?_, loop⟩
    obtain hbody | hbody := hbody <;> rw [hbody]
    · exact congrArg _ written
    · dsimp only
      rw [if_pos rfl]
      exact congrArg _ written
  · rw [hbody] at done ⊢
    dsimp only
    rw [if_neg hm, if_pos hz]
    exact congrArg _ (done ..)
  · rw [hbody] at done ⊢
    dsimp only
    rw [if_neg hm, if_neg hz, decoded]
    dsimp only
    unfold loopMerge
    change Host.Outcome.next (match v.verdict with | .clean => _ | .corrected => _ | _ => _) = _
    obtain bad | bad := bad <;> rw [bad] <;> exact congrArg _ (done ..)
  · obtain ⟨cod, written, loop⟩ := h.loopWritten hs (by rw [hbody]; nofun) a (merge mask v.corrected data) status
    refine ⟨cod, ?_, loop⟩
    rw [hbody]
    dsimp only
    rw [if_neg hm, if_neg hz, decoded]
    dsimp only
    unfold loopMerge
    change Host.Outcome.next (match v.verdict with | .clean => _ | .corrected => _ | _ => _) = _
    obtain ⟨good, rfl⟩ | ⟨good, rfl⟩ := good <;> rw [good] <;> exact congrArg _ written

end

/-! ## Requests that start on arrival -/

/-- The request of a let-in demand frame, started. -/
def arrivedRequest (frame : List Byte) (key : HoldKey) (cls : Option Classification) (p : Phase) (u : State) : Request :=
  { id := u.stamp, tag := frameTag frame, body := frameBody frame, phase := p, age := u.stamp + 1, cls := cls,
    hold := some key, orphan := false }

/-- The state with it in the buffer, its place in the hold set taken. -/
def arrivedIn (frame : List Byte) (key : HoldKey) (cls : Option Classification) (p : Phase) (u : State) : State :=
  withNewest (arrivedRequest frame key cls p u) key u

/-- What its handling asks of the part. -/
structure SeesArrival (id : Nat) (key : HoldKey) (u : State) : Prop where
  stamp : u.stamp = id
  named : ∀ q ∈ u.dem.requests, q.id < u.stamp
  active : u.link.state = .active
  free : key ∉ u.dem.holdSet
  quiet : portHolds key u = false
  noReset : u.mgu.coreReset = none

section

variable {frame : List Byte} {key : HoldKey} {cls : Option Classification} {id : Nat}

theorem SeesArrival.keeps (h : SeesArrival id key u) (hs : SameStart u v) : SeesArrival id key v :=
  ⟨hs.stamp.trans h.stamp, by rw [hs.dem, hs.stamp]; exact h.named, hs.link.trans h.active, by rw [hs.dem]; exact h.free,
    (portHolds_congr hs.drp key).trans h.quiet, hs.reset.trans h.noReset⟩

theorem updateRequest_arrivedIn (h : SeesArrival id key u) (g : Request → Request) (p : Phase) :
    updateRequest id g (arrivedIn frame key cls p u) =
      withNewest (g (arrivedRequest frame key cls p u)) key u := by
  obtain rfl := h.stamp
  unfold updateRequest arrivedIn withNewest
  dsimp only
  rw [List.map_append, map_earlier g h.named]
  simp only [List.map_cons, List.map_nil, arrivedRequest, if_true]

theorem find_arrivedIn (h : SeesArrival id key u) (p : Phase) :
    findRequest id (arrivedIn frame key cls p u) = some (arrivedRequest frame key cls p u) := by
  obtain rfl := h.stamp
  exact find_newest _ rfl h.named

theorem claims_arrivedIn (h : SeesArrival id key u) (hc : Claimed u) (p : Phase) :
    roomClaims (arrivedIn frame key cls p u) = roomClaims u := by
  unfold roomClaims arrivedIn withNewest
  refine List.countP_congr fun c hcm => ?_
  obtain ⟨q, hq, hqc⟩ := hc c hcm
  have earlier := h.named q hq
  have other : (u.stamp == c.request) = false := by
    rw [beq_eq_false_iff_ne, ← hqc]
    omega
  simp [List.any_append, arrivedRequest, other]

theorem handedOn_arrivedIn (h : SeesArrival id key u) (p : Phase) {q : Request} (f : UpFrame) (hq : q.id ≠ id) :
    handedOn q f (arrivedIn frame key cls p u) = arrivedIn frame key cls p (handedOn q f u) ∧
      SeesArrival id key (handedOn q f u) := by
  obtain rfl := h.stamp
  have other : (u.stamp != q.id) = true := by simpa using Ne.symm hq
  have named := h.named
  refine ⟨?_, ?_⟩
  · unfold handedOn arrivedIn withNewest
    dsimp only
    split
    · simp [arrivedRequest, other]
    · simp [arrivedRequest, Ne.symm hq]
  · unfold handedOn
    split
    · refine ⟨rfl, fun x hx => named x (List.mem_filter.mp hx).1, ?_, h.free, h.quiet, h.noReset⟩
      exact (beginSending_state _).trans h.active
    · refine ⟨rfl, fun x hx => ?_, h.active, h.free, h.quiet, h.noReset⟩
      obtain ⟨y, hy, rfl⟩ := List.mem_map.mp hx
      split <;> exact named y hy

/-- A request that starts on arrival. -/
theorem arrival_started {ends : UpFrame → State → State} (hends : ∀ {u} p f, SeesArrival id key u → p ≠ .completing →
    complete id f (arrivedIn frame key cls p u) = ends f u) :
    Started id (frameTag frame) (frameBody frame) cls (arrivedIn frame key cls) ends (SeesArrival id key) where
  buffer p u := ⟨(arrivedIn frame key cls p u).dem, u.stamp + 2, fun v hd hn => by
    unfold withBuffer arrivedIn withNewest arrivedRequest
    rw [hd, hn]⟩
  keeps := SeesArrival.keeps
  claims p hs hc := claims_arrivedIn hs hc p
  setPhase p p' hs := updateRequest_arrivedIn hs _ p
  found p hs := ⟨_, find_arrivedIn hs p, rfl, rfl, rfl, rfl⟩
  completes := hends
  others p q hs hq hf := by
    unfold findRequest at hf ⊢
    unfold arrivedIn withNewest
    exact (List.find?_append ..).trans (by rw [hf]; rfl)
  handsOn p q f hs hq _ := handedOn_arrivedIn hs p f hq

end

/-! ## Requests that DEMAND_START starts -/

/-- What the handling of the QUEUED request `r` asks of the part. -/
structure SeesStart (r : Request) (key : HoldKey) (u : State) : Prop where
  named : findRequest r.id u = some r
  active : u.link.state = .active
  free : key ∉ u.dem.holdSet
  quiet : portHolds key u = false
  notReset : ∀ c, u.mgu.coreReset = some c → c.request ≠ r.id

section

variable {r : Request} {key : HoldKey}

theorem SeesStart.keeps (h : SeesStart r key u) (hs : SameStart u v) : SeesStart r key v :=
  ⟨by unfold findRequest; rw [hs.dem]; exact h.named, hs.link.trans h.active, by rw [hs.dem]; exact h.free,
    (portHolds_congr hs.drp key).trans h.quiet, by rw [hs.reset]; exact h.notReset⟩

/-- Requests changed by their name alone are found as before. -/
theorem find_map_other {l : List Request} {g : Request → Request} {k n : Nat} (hk : k ≠ n)
    (hg : ∀ q, (g q).id = q.id) : ((l.map fun q => if q.id = n then g q else q).find? fun q => q.id == k) =
      l.find? fun q => q.id == k := by
  induction l with
  | nil => rfl
  | cons q l ih =>
    rw [List.map_cons, List.find?_cons, List.find?_cons, ih]
    by_cases hn : q.id = n
    · have : (q.id == k) = false := by rw [beq_eq_false_iff_ne, hn]; exact Ne.symm hk
      rw [if_pos hn, hg, this]
    · rw [if_neg hn]

theorem handedOn_startedIn {cls : Option Classification} (h : SeesStart r key u) (p : Phase) {q : Request} (f : UpFrame)
    (hq : q.id ≠ r.id) : handedOn q f (startedIn r key cls p u) = startedIn r key cls p (handedOn q f u) ∧
      SeesStart r key (handedOn q f u) := by
  refine ⟨?_, ?_⟩
  · unfold handedOn startedIn
    dsimp only
    split
    · have swaps : ∀ l : List Request, (l.map fun x => if x.id = r.id then { x with
          phase := p, age := u.stamp, cls := cls.or x.cls, hold := some key } else x).filter (fun x => x.id != q.id) =
            (l.filter fun x => x.id != q.id).map fun x => if x.id = r.id then { x with
              phase := p, age := u.stamp, cls := cls.or x.cls, hold := some key } else x := fun l => by
        rw [List.filter_map]
        congr 2
        funext x
        by_cases hx : x.id = r.id <;> simp [hx]
      rw [swaps]
    · have swaps : ∀ l : List Request, (l.map fun x => if x.id = r.id then { x with
          phase := p, age := u.stamp, cls := cls.or x.cls, hold := some key } else x).map (fun x =>
            if x.id = q.id then { x with phase := .completing } else x) =
          (l.map fun x => if x.id = q.id then { x with phase := .completing } else x).map fun x =>
            if x.id = r.id then { x with
              phase := p, age := u.stamp, cls := cls.or x.cls, hold := some key } else x := fun l => by
        rw [List.map_map, List.map_map]
        congr 1
        funext x
        by_cases hx : x.id = r.id
        · simp [hx, Ne.symm hq]
        · by_cases hy : x.id = q.id <;> simp [hx, hy, hq]
      rw [swaps]
  · unfold handedOn
    split
    · exact ⟨(find_filter_ne _ _ _ (Ne.symm hq)).trans h.named, (beginSending_state _).trans h.active, h.free, h.quiet,
        h.notReset⟩
    · exact ⟨(find_map_other (g := fun x => { x with phase := .completing }) (Ne.symm hq) fun _ => rfl).trans h.named,
        h.active, h.free, h.quiet, h.notReset⟩

/-- A request that DEMAND_START starts. -/
theorem start_started (ho : r.orphan = false) (cls : Classification) :
    Started r.id r.tag r.body (some cls) (startedIn r key (some cls)) (finishedIn r key (some cls))
      (SeesStart r key) where
  buffer p u := ⟨(startedIn r key (some cls) p u).dem, u.stamp + 1, fun v hd hn => by
    unfold withBuffer startedIn
    rw [hd, hn]⟩
  keeps := SeesStart.keeps
  claims _ _ _ := roomClaims_startedIn
  setPhase _ p' _ := setPhase_startedIn p'
  found _ hs := ⟨_, findRequest_startedIn hs.named, rfl, rfl, rfl, rfl⟩
  completes _ f hs hp := complete_startedIn f hs.named hp hs.active ho hs.free hs.quiet hs.notReset
  others p q hs hq hf := (find_map_other (g := fun x => { x with
    phase := p, age := _, cls := (some cls).or x.cls, hold := some key }) hq fun _ => rfl).trans hf
  handsOn p q f hs hq _ := handedOn_startedIn hs p f hq

end

/-! ## From the command to the handling (R22, R23) -/

/-- The checks of T18 in their order, in codec-loop mode too. -/
theorem startCheck_refuses {status : Status}
    (h : (s.fcu.halted.isSome ∧ status = .halted) ∨ (s.fcu.halted = none ∧ ¬lineExists a s = true ∧ status = .range) ∨
      (s.fcu.halted = none ∧ lineExists a s = true ∧ s.cod.loopLine = none ∧ rankState s (rankOf a) ≠ .online ∧
        status = .notReady)) : startCheck a s = some status := by
  unfold startCheck
  obtain ⟨hh, rfl⟩ | ⟨hh, hx, rfl⟩ | ⟨hh, hx, hl, ho, rfl⟩ := h
  · rw [if_pos hh]
  · simp [hh, hx]
  · simp [hh, hx, hl, ho]

theorem startCheck_passes (hh : s.fcu.halted = none) (hx : lineExists a s = true)
    (hl : s.cod.loopLine.isSome ∨ rankState s (rankOf a) = .online) : startCheck a s = none := by
  unfold startCheck
  obtain hl | ho := hl
  · simp [hh, hx, Option.isSome_iff_ne_none.mp hl]
  · simp [hh, hx, ho]

/-- A request that no check stops is classified and handled (R23, R24). -/
theorem startDemand_handled {r : Request} (hcheck : startCheck a (beginDemand r a s) = none)
    (hr : RegionsSound (beginDemand r a s)) : startDemand r a s =
      handleDemand r.id (attachClass r.id (classify a (beginDemand r a s)) (beginDemand r a s)) := by
  unfold startDemand
  dsimp only
  rw [hcheck, lookup_sound hr]

section

variable {frame : List Byte} {r : Request}

theorem sees_arrival (hL : LetIn frame s) {key : HoldKey} (hf : key ∉ s.dem.holdSet) (hp : portHolds key s = false) :
    SeesArrival s.stamp key s := ⟨rfl, hL.named, hL.active, hf, hp, hL.noReset⟩

/-- A let-in demand frame whose place is free starts, in codec-loop mode too. -/
theorem receive_begins (hL : LetIn frame s) (hb : (frameBody frame).line? = some a) (hf : holdKey s a ∉ s.dem.holdSet)
    (hq : queuedBefore (holdKey s a) s = false) : receive frame s =
      startDemand (newRequest (frameTag frame) (frameBody frame) s) a
        (enqueue (newRequest (frameTag frame) (frameBody frame) s) s) := by
  rw [receive_admits hL.active hL.good hL.room hL.free, hb]
  dsimp only
  unfold arriveDemand
  rw [hL.noReset]
  dsimp only
  rw [hq, decide_eq_false hf]
  rfl

theorem receive_handled (hL : LetIn frame s) (hb : (frameBody frame).line? = some a) (hf : holdKey s a ∉ s.dem.holdSet)
    (hp : portHolds (holdKey s a) s = false) (hq : queuedBefore (holdKey s a) s = false)
    (hcheck : startCheck a s = none) (hr : RegionsSound s) : receive frame s =
      handleDemand s.stamp (arrivedIn frame (holdKey s a) (some (classify a s)) .waitRead s) := by
  have sees := sees_arrival hL hf hp
  have begun : beginDemand (newRequest (frameTag frame) (frameBody frame) s) a
      (enqueue (newRequest (frameTag frame) (frameBody frame) s) s) = arrivedIn frame (holdKey s a) none .waitRead s :=
    beginDemand_newest hL.named
  rw [receive_begins hL hb hf hq, startDemand_handled (by rw [begun]; exact hcheck) (by rw [begun]; exact hr), begun]
  exact congrArg _ (updateRequest_arrivedIn sees _ _)

theorem exec_demand_frame (hL : LetIn frame s) :
    ∀ c ∈ [Instr.read frame, .write frame, .maskedWrite frame], exec c s = .next (receive frame s) := by
  intro c hc
  simp only [List.mem_cons, List.not_mem_nil, or_false] at hc
  rcases hc with rfl | rfl | rfl <;> exact next_released hL.released _

/-- A Startable frame is handled in the state in which it stands STARTED. -/
theorem exec_frame_starts (hL : LetIn frame s) (hS : Startable a s) (hb : (frameBody frame).line? = some a) :
    ∀ c ∈ [Instr.read frame, .write frame, .maskedWrite frame], exec c s =
      .next (handleDemand s.stamp (withStarted frame a (some (classify a s)) .waitRead s)) := by
  intro c hc
  have key : holdKey s a = .line a := by simp [holdKey, hS.loopOff]
  have handled := receive_handled hL hb (key ▸ hS.free) (key ▸ hS.quiet) (key ▸ hS.first)
    (startCheck_eq_none hS.served hS.loopOff hS.online hS.inside) hS.regions
  rw [key] at handled
  exact (exec_demand_frame hL c hc).trans (congrArg _ handled)

/-- A Startable frame stands STARTED. -/
theorem frame_started : Started s.stamp (frameTag frame) (frameBody frame) (some (classify a s))
    (withStarted frame a (some (classify a s))) (completedAtOnce frame a (some (classify a s)))
    (SeesArrival s.stamp (.line a)) := by
  refine arrival_started fun {u} p f hs hp => ?_
  rw [← hs.stamp]
  exact complete_withStarted _ _ f hs.named hp hs.active hs.free hs.quiet hs.noReset

/-- No Spare Release in progress is that of a request that has just arrived. -/
theorem arrival_not_release (hn : ∀ q ∈ s.dem.requests, q.id < s.stamp) {k : Nat} {q : Request}
    (hq : findRequest k s = some q) : q.id ≠ s.stamp := by
  have := hn q (findRequest_some hq).1
  omega

/-! ## DEMAND_START -/

theorem holdKey_eq {b : LineAddr} (h : b = a ∨ s.cod.loopLine.isSome) : holdKey s b = holdKey s a := by
  obtain rfl | h := h
  · rfl
  · unfold holdKey
    rw [if_pos h, if_pos h]

theorem exec_demandStart_next {b : LineAddr} (hN : StartsNext r a s) (hb : b = a ∨ s.cod.loopLine.isSome) :
    exec (.demandStart b) s = .next (startDemand r a s) := by
  refine (next_released hN.released _).trans (congrArg _ ?_)
  unfold startNext
  rw [holdKey_eq hb, if_neg hN.free, hN.oldest]

theorem oldestQueued_line {key : HoldKey} (h : oldestQueued key s = some (r, a)) : r.body.line? = some a := by
  obtain ⟨q, -, hq⟩ := List.exists_of_findSome?_eq_some h
  cases hb : q.body.line? with
  | none => rw [hb] at hq; cases hq
  | some b =>
    rw [hb] at hq
    dsimp only at hq
    split at hq
    · cases hq
      exact hb
    · cases hq

theorem sees_start (hN : StartsNext r a s) : SeesStart r (holdKey s a) s :=
  ⟨hN.named, hN.active, hN.free, hN.quiet, hN.notReset⟩

/-- The request that a check of T18 meets completes at once (R23). -/
theorem startDemand_refused {status : Status} (hN : StartsNext r a s) (hc : startCheck a s = some status) :
    startDemand r a s = finishedIn r (holdKey s a) none (completionFrame r status) s := by
  have check : startCheck a (startedIn r (holdKey s a) none .waitRead s) = some status := hc
  unfold startDemand
  rw [beginDemand_startedIn]
  dsimp only
  rw [check]
  dsimp only
  unfold completeDemand
  rw [findRequest_startedIn hN.named, completionFrame_eq]
  exact complete_startedIn _ hN.named nofun hN.active hN.buffered hN.free hN.quiet hN.notReset

/-- One that none meets is handled. -/
theorem startDemand_goesOn (hc : startCheck a s = none) (hr : RegionsSound s) : startDemand r a s =
    handleDemand r.id (startedIn r (holdKey s a) (some (classify a s)) .waitRead s) := by
  have check : startCheck a (beginDemand r a s) = none := by rw [beginDemand_startedIn]; exact hc
  have sound : RegionsSound (beginDemand r a s) := by rw [beginDemand_startedIn]; exact hr
  rw [startDemand_handled check sound, beginDemand_startedIn, attachClass_startedIn]
  rfl

/-- One whose line has no holder waits for its DRAM operation (R25, R28, R30). -/
theorem handleDemand_unheld {p : Phase} (hf : findRequest r.id s = some r) (hh : s.fcu.halted = none)
    (hl : s.cod.loopLine = none) (hd : holder a s = .none) (hline : r.body.line? = some a)
    (hp : match r.body with
      | .read _ => p = .waitRead
      | .write _ data => p = .waitWrite data .done
      | .maskedWrite _ mask data => mask ≠ 0 ∧ p = if mask = BitVec.allOnes 64 then .waitWrite data .done else .waitRead
      | .manage _ _ => False) (cls : Option Classification) (key : HoldKey) :
    handleDemand r.id (startedIn r key cls .waitRead s) = startedIn r key cls p s := by
  have holds : holder a (startedIn r key cls .waitRead s) = .none := hd
  unfold handleDemand
  rw [show (startedIn r key cls .waitRead s).fcu = s.fcu from rfl,
    show (startedIn r key cls .waitRead s).cod = s.cod from rfl, hh, hl, findRequest_startedIn hf]
  dsimp only [Option.isSome_none]
  rw [if_neg Bool.false_ne_true]
  unfold applyDemand
  cases hb : r.body with
  | manage k args => rw [hb] at hp; cases hp
  | read b =>
    rw [hb] at hp hline
    cases hline
    dsimp only
    unfold applyRead
    rw [holds, hp]
    exact setPhase_startedIn _
  | write b data =>
    rw [hb] at hp hline
    cases hline
    dsimp only
    unfold applyWrite
    rw [holds, hp]
    exact setPhase_startedIn _
  | maskedWrite b mask data =>
    rw [hb] at hp hline
    cases hline
    dsimp only at hp ⊢
    by_cases full : mask = BitVec.allOnes 64
    · rw [if_pos full] at hp ⊢
      unfold applyWrite
      rw [holds, hp.2]
      exact setPhase_startedIn _
    · rw [if_neg full] at hp ⊢
      rw [if_neg hp.1]
      unfold applyRmw
      rw [holds, hp.2]
      exact setPhase_startedIn _

/-! ## Arrivals in codec-loop mode -/

/-- A completion of the request at once. -/
def loopEnds (frame : List Byte) (cls : Option Classification) (f : UpFrame) (u : State) : State :=
  finished (arrivedRequest frame .loopLine cls .answering u) f (arrivedIn frame .loopLine cls .answering u)

theorem loop_complete {cls : Option Classification} {id : Nat} (p : Phase) (f : UpFrame)
    (hs : SeesArrival id .loopLine u) (hp : p ≠ .completing) :
    complete id f (arrivedIn frame .loopLine cls p u) = loopEnds frame cls f u := by
  rw [complete_eq_finished f (find_arrivedIn hs p) hp rfl hs.active (by
    show ∀ c, u.mgu.coreReset = some c → _
    rw [hs.noReset]
    nofun)]
  exact finished_newest_phase .answering f .loopLine (arrivedRequest frame .loopLine cls p u) u

theorem loop_started (cls : Option Classification) (id : Nat) : Started id (frameTag frame) (frameBody frame) cls
    (arrivedIn frame .loopLine cls) (loopEnds frame cls) (SeesArrival id .loopLine) :=
  arrival_started loop_complete

theorem loopEnds_eq {cls : Option Classification} {id : Nat} (f : UpFrame) (hs : SeesArrival id .loopLine u)
    (hc : u.dem.completions = []) (room : u.link.upstream.length < 8) : loopEnds frame cls f u = { u with
      link := beginSending { u.link with upstream := u.link.upstream ++ [f] }
      stamp := u.stamp + 2 } := by
  have others : u.dem.requests.filter (fun q => q.id != u.stamp) = u.dem.requests := filter_earlier hs.named
  have quiet : portHolds .loopLine (arrivedIn frame .loopLine cls .answering u) = false := hs.quiet
  unfold loopEnds finished
  rw [if_pos ⟨hc, room⟩]
  unfold arrivedRequest
  dsimp only
  rw [quiet, if_neg Bool.false_ne_true]
  unfold arrivedIn withNewest arrivedRequest
  dsimp only
  rw [List.filter_append, others, List.erase_append_right _ hs.free]
  simp

theorem portHolds_loopLine (s : State) : portHolds .loopLine s = false := by
  unfold portHolds
  split
  · split <;> rfl
  · rfl

/-- What the loop line makes of a request, with its completion said in other words. -/
theorem LoopHandled.ended {tag : Byte} {body : RequestBody} {raw : RawLine} {ends ends' : UpFrame → State → State}
    {o : Host.Outcome State Fault Refusal} (h : LoopHandled tag body a raw ends o s)
    (he : ∀ f cod, ends f { s with cod := cod } = ends' f { s with cod := cod }) :
    LoopHandled tag body a raw ends' o s := by
  have here : ∀ f, ends f s = ends' f s := fun f => he f s.cod
  obtain ⟨hread, hwrite, hmask⟩ := h
  refine ⟨fun hb => (hread hb).trans (congrArg _ (here _)), fun data hb => ?_, fun mask data hb hm => ?_⟩
  · obtain ⟨cod, ho, loop⟩ := hwrite data hb
    exact ⟨cod, ho.trans (congrArg _ (he _ _)), loop⟩
  · obtain ⟨hzero, hsome⟩ := hmask mask data hb hm
    refine ⟨fun hz => (hzero hz).trans (congrArg _ (here _)), fun hz => ?_⟩
    obtain ⟨hbad, hgood⟩ := hsome hz
    refine ⟨fun bad => (hbad bad).trans (congrArg _ (here _)), fun status good => ?_⟩
    obtain ⟨cod, ho, loop⟩ := hgood status good
    exact ⟨cod, ho.trans (congrArg _ (he _ _)), loop⟩

end

end Sys2Proof.Machine

namespace Sys2Proof

open Machine

/-- Settles O13. -/
theorem readByHolder : Obligations.ReadByHolder := by
  intro frame a s hL hS hb cls
  rw [exec_frame_starts hL hS (by rw [hb]; rfl) _ (by simp)]
  exact frame_started.readHandled (sees_arrival hL hS.free hS.quiet) hS.served hS.loopOff hb
    fun _ _ _ _ _ _ _ hq => arrival_not_release hL.named hq

/-- Settles O14. -/
theorem fullWriteByHolder : Obligations.FullWriteByHolder := by
  intro frame a data s hL hS c hc cls
  have body : frameBody frame = .write a data ∨ frameBody frame = .maskedWrite a (BitVec.allOnes 64) data :=
    hc.imp And.right And.right
  have command : c ∈ [Instr.read frame, .write frame, .maskedWrite frame] := by
    obtain ⟨rfl, -⟩ | ⟨rfl, -⟩ := hc <;> simp
  rw [exec_frame_starts hL hS (by obtain hb | hb := body <;> rw [hb] <;> rfl) c command]
  exact frame_started.fullWriteHandled (sees_arrival hL hS.free hS.quiet) hS.served hS.loopOff body

/-- Settles O15. -/
theorem maskedWriteByHolder : Obligations.MaskedWriteByHolder := by
  intro frame a mask data s hL hS hb hm cls
  rw [exec_frame_starts hL hS (by rw [hb]; rfl) _ (by simp)]
  exact frame_started.maskedWriteHandled (sees_arrival hL hS.free hS.quiet) hS.served hS.loopOff hb hm

/-- Settles O17: the start itself, then the checks, the holder of the line, and codec-loop mode. -/
theorem demandStartsWhenItsLineIsFree : Obligations.DemandStartsWhenItsLineIsFree := by
  refine ⟨fun a s hp hl => ⟨fun idle => ?_, fun r phase hf ho hn hh hr hon hd hholder hphase => ?_⟩,
    fun r a b s hN hb => ?_, fun frame a raw s hL hl hf hq hh hr hrank hc room hb => ?_⟩
  · have key : holdKey s a = .line a := by simp [holdKey, hl]
    refine (next_released hp _).trans (congrArg _ ?_)
    unfold startNext
    rw [key]
    obtain held | none := idle
    · rw [if_pos held]
    · rw [none]
      exact ite_self _
  · have key : holdKey s a = .line a := by simp [holdKey, hl]
    have handled := handleDemand_unheld hn hh hl hholder (oldestQueued_line ho) hphase (some (classify a s)) (.line a)
    have goes := startDemand_goesOn (r := r) (startCheck_eq_none hh hl hon hd) hr
    rw [key, handled] at goes
    refine (next_released hp _).trans (congrArg _ ?_)
    unfold startNext
    rw [key, if_neg hf, ho]
    exact goes
  · intro o exists_
    have next : o = .next (startDemand r a s) := exec_demandStart_next hN hb
    rw [next]
    have exist : lineExists a s = true ↔ exists_ := lineExists_iff a s
    refine ⟨fun status hs => congrArg _ (startDemand_refused hN (startCheck_refuses ?_)), fun hh hr hx => ?_⟩
    · rw [exist]
      exact hs
    · intro stands ends
      have goes := fun hc => startDemand_goesOn (r := r) (a := a) (s := s) hc hr
      have started := start_started (r := r) (key := holdKey s a) hN.buffered (classify a s)
      have sees := sees_start hN
      refine ⟨fun hl hon => ?_, fun raw hl hrank => ?_⟩
      · rw [goes (startCheck_eq_none hh hl hon hx.2)]
        refine ⟨fun hbody => started.readHandled sees hh hl hbody fun i b d t w q hi hq => ?_,
          fun data hbody => started.fullWriteHandled sees hh hl hbody,
          fun mask data hbody hm => started.maskedWriteHandled sees hh hl hbody hm⟩
        have inside : i < 32 := by
          by_contra out
          have free : slotAt s i = .free := by unfold slotAt getAt; rw [dif_neg out]
          rw [free] at hi
          cases hi
        rw [(findRequest_some hq).2]
        exact hN.unreleased i inside b d t w hi
      · rw [goes (startCheck_passes hh (exist.mpr hx) (.inl (by rw [hl]; rfl)))]
        exact started.loopHandled sees hh hl hrank
  · intro exists_ answered c hcm
    have key : holdKey s a = .loopLine := by simp [holdKey, hl]
    have exist : lineExists a s = true ↔ exists_ := lineExists_iff a s
    have sees := sees_arrival hL hf (portHolds_loopLine s)
    rw [exec_demand_frame hL c hcm]
    refine ⟨fun hx => congrArg _ ?_, fun hx => ?_⟩
    · have check : startCheck a s = some .range :=
        startCheck_refuses (.inr (.inl ⟨hh, fun h => hx (exist.mp h), rfl⟩))
      have begun : beginDemand (newRequest (frameTag frame) (frameBody frame) s) a
          (enqueue (newRequest (frameTag frame) (frameBody frame) s) s) = arrivedIn frame .loopLine none .waitRead s := by
        rw [beginDemand_newest hL.named, key]
        rfl
      have ended := (loop_started (frame := frame) none s.stamp).completeDemand sees (p := .waitRead) nofun .range
        zeroLine
      rw [loopEnds_eq _ sees hc room] at ended
      rw [receive_begins hL hb (key ▸ hf) (key ▸ hq)]
      unfold startDemand
      rw [begun]
      dsimp only
      rw [show startCheck a (arrivedIn frame .loopLine none .waitRead s) = some .range from check]
      exact ended
    · have handled := receive_handled hL hb (key ▸ hf) (key ▸ portHolds_loopLine s) (key ▸ hq)
        (startCheck_passes hh (exist.mpr hx) (.inl (by rw [hl]; rfl))) hr
      rw [handled, key]
      exact ((loop_started _ s.stamp).loopHandled sees hh hl hrank).ended fun f cod =>
        loopEnds_eq (u := { s with cod := cod }) f ⟨sees.stamp, sees.named, sees.active, sees.free, sees.quiet,
          sees.noReset⟩ hc room

end Sys2Proof
end
section
/-! The test of the cursor line with its run of skips, the end of a pass, decay, and steal mode (R101, R136, R141,
R144, R148). -/

namespace Sys2Proof.Machine

variable {s t u : State} {a : LineAddr}

/-! ## Decay -/

theorem foldl_decay_form (l : List Nat) (s : State) :
    ∃ v, l.foldl decayDevice s = { s with dht := { s.dht with devices := v } } := by
  induction l generalizing s with
  | nil => exact ⟨_, rfl⟩
  | cons n l ih =>
    obtain ⟨v, hv⟩ := ih (decayDevice s n)
    exact ⟨v, hv⟩

theorem deviceAt_foldl_decay {l : List Nat} (hl : l.Nodup) (s : State) {m : Nat} (hm : m < 40) :
    deviceAt (l.foldl decayDevice s) m =
      if m ∈ l then ⟨(deviceEntry s m).aged s.dht.decayQ, .sound⟩ else deviceAt s m := by
  induction l generalizing s with
  | nil => rfl
  | cons n l ih =>
    obtain ⟨fresh, rest⟩ := List.nodup_cons.mp hl
    have here : ∀ k, deviceAt (decayDevice s n) k =
        if n = k ∧ n < 40 then ⟨(deviceEntry s n).aged s.dht.decayQ, .sound⟩ else deviceAt s k :=
      fun k => deviceAt_setDevice ..
    rw [List.foldl_cons, ih rest]
    by_cases hn : n = m
    · subst hn
      rw [if_neg fresh, if_pos List.mem_cons_self, here, if_pos ⟨rfl, hm⟩]
    · have same : deviceAt (decayDevice s n) m = deviceAt s m := by rw [here, if_neg (fun h => hn h.1)]
      unfold deviceEntry
      rw [same]
      simp only [List.mem_cons, Ne.symm hn, false_or]
      rfl

/-- The rank's entries, aged (R101). -/
theorem aged_devices {r : Nat} {v : Vector (Stored DeviceEntry) 40}
    (h : (rankEntries r).foldl decayDevice s = { s with dht := { s.dht with devices := v } }) :
    v = Vector.ofFn fun n =>
      if n.val / 10 = r then ⟨s.dht.devices[n].value.aged s.dht.decayQ, .sound⟩ else s.dht.devices[n] := by
  refine Vector.ext fun n hn => ?_
  have aged := deviceAt_foldl_decay (nodup_rankEntries r) s hn
  rw [h] at aged
  rw [Vector.getElem_ofFn]
  unfold deviceAt deviceEntry deviceAt at aged
  rw [getAt_of_lt _ _ hn, getAt_of_lt _ _ hn] at aged
  simp only [mem_rankEntries] at aged
  exact aged

/-- With readable entries the rank decays as its devices age (R101). -/
theorem decayRank_sound {r : Nat} (h : RankSound r s) : decayRank r s =
    { s with dht := { s.dht with devices := Vector.ofFn fun n =>
      if n.val / 10 = r then ⟨s.dht.devices[n].value.aged s.dht.decayQ, .sound⟩ else s.dht.devices[n] } } := by
  obtain ⟨v, hv⟩ := foldl_decay_form (rankEntries r) s
  unfold decayRank
  rw [readRank_sound h]
  dsimp only
  rw [hv, aged_devices hv]

/-! ## The end of a pass -/

theorem passEnded_eq {r : Nat} (h : RankSound r s) :
    (if s.psc.wholeSweep then completeSweep r s else s) = passEnded r s := by
  unfold passEnded completeSweep
  rw [decayRank_sound h]

theorem passEnded_form (r : Nat) (s : State) : ∃ l v, passEnded r s = { s with
    link := l, dht := { s.dht with devices := v } } ∧ l.straps = s.link.straps ∧ l.state = s.link.state := by
  unfold passEnded
  split
  · rw [raise_eq]
    exact ⟨_, _, rfl, raise_link_straps .., raise_link_state ..⟩
  · exact ⟨_, _, rfl, rfl, rfl⟩

/-- The readable entries stay readable. -/
theorem rankSound_passEnded {q : Nat} (r : Nat) (h : RankSound q s) : RankSound q (passEnded r s) := by
  unfold passEnded
  split
  · intro d hd
    rw [deviceAt_raise]
    unfold deviceAt
    by_cases hn : entryNumber q d < 40
    · rw [getAt_of_lt _ _ hn, Vector.getElem_ofFn]
      split
      · rfl
      · have sound := h d hd
        unfold deviceAt at sound
        rwa [getAt_of_lt _ _ hn] at sound
    · unfold getAt
      rw [dif_neg hn]
  · exact h

/-! ## The test and its run of skips -/

/-- `u` reads as `s` wherever a test of the cursor line looks, and its line `a` stands to be tested. -/
structure Testing (s : State) (a : LineAddr) (visited : Bool) (u : State) : Prop where
  rgt : u.rgt = s.rgt
  entries : u.rpq.entries = s.rpq.entries
  slots : u.sls.slots = s.sls.slots
  straps : u.link.straps = s.link.straps
  ranks : u.drp.ranks = s.drp.ranks
  readable : ∀ q, RankSound q s → RankSound q u
  served : u.fcu.halted = none
  allowed : (currentProfile u).allowed = true
  running : u.psc.running = true
  cursor : u.psc.cursor = some a
  untested : u.psc.cursorPhase = .untested
  visited : u.psc.passVisited = visited

section

variable {visited : Bool}

theorem Testing.lineToTest (h : Testing s a visited u) : lineToTest u = some a := by
  unfold Machine.lineToTest
  rw [if_pos ⟨h.running, by rw [h.served]; rfl, h.allowed, h.untested⟩, h.cursor]

theorem Testing.depth (h : Testing s a visited u) : depth u = depth s := by
  unfold Machine.depth
  rw [h.straps]

theorem Testing.rankState (h : Testing s a visited u) (q : Nat) : rankState u q = rankState s q := by
  unfold Machine.rankState rankRec
  rw [h.ranks]

theorem Testing.skips (h : Testing s a visited u) (b : LineAddr) : skipsLine b (classify b u) u = true ↔ Skipped s b := by
  have held : holder b u = holder b s := by
    have slots : slotHolding b u = slotHolding b s := by
      unfold slotHolding slotAt
      rw [h.slots]
    have entries : entryOf b u = entryOf b s := by
      unfold entryOf
      rw [h.entries]
    unfold holder
    rw [slots, entries]
  have unheld : holder b u ≠ .none ↔ (entryOf b u).isSome ∨ (slotHolding b u).isSome := by
    unfold holder
    cases slotHolding b u <;> cases entryOf b u <;> simp
  unfold Skipped skipsLine
  rw [← held, unheld, classify_congr h.rgt]
  simp only [Bool.or_eq_true, beq_iff_eq]
  tauto

/-- One line tested, the tables sound (R144). -/
theorem testLines_succ (h : Testing s a visited u) (hr : RegionsSound s) (n : Nat) : testLines (n + 1) u =
    if skipsLine a (classify a u) u then testLines n (advanceCursor true u)
    else { u with psc := { u.psc with cursorPhase := .visitLine (classify a u) } } := by
  have sound : RegionsSound u := fun i hi => by
    unfold regionAt
    rw [h.rgt]
    exact hr i hi
  show (match lineToTest u with | none => u | some b => _) = _
  rw [h.lineToTest]
  dsimp only
  rw [lookup_sound sound]
  dsimp only
  rw [if_neg (by rw [h.served]; exact Bool.false_ne_true)]

/-- The cursor goes to the rank that is next (R148). -/
theorem cursorToFirst_next {r q : Nat} (hq : NextOnline s r q) (hs : ∀ p, rankState u p = rankState s p) :
    cursorToFirst (ranksAfter r) u = setCursor (lineAt q 0) u := by
  have first : firstOnline (ranksAfter r) u = some q := by
    unfold firstOnline ranksAfter
    rw [← hq]
    congr 1
    funext p
    rw [hs p]
    rfl
  unfold cursorToFirst
  rw [first]

theorem setCursor_lineAt (q : Nat) (u : State) : setCursor (lineAt q 0) u = passBegun q .untested u := rfl

/-- The end of a pass by a grant or a skip, the entries of its rank readable (R148). -/
theorem endPass_eq {r q : Nat} {bySkip : Bool} (hs : RankSound r u) (hq : NextOnline s r q)
    (hranks : ∀ p, rankState u p = rankState s p) (hrun : u.psc.running = true) : endPass bySkip r u =
      passBegun q (if bySkip && !u.psc.passVisited then .deferred else .untested) (passEnded r u) := by
  obtain ⟨l, v, form, -, -⟩ := passEnded_form r u
  have ranks : ∀ p, rankState (passEnded r u) p = rankState s p := fun p => by
    rw [form]
    exact hranks p
  have running : (passBegun q .untested (passEnded r u)).psc.running = true := by
    rw [form]
    exact hrun
  unfold endPass
  rw [passEnded_eq hs]
  dsimp only
  rw [cursorToFirst_next hq ranks, setCursor_lineAt]
  cases bySkip && !u.psc.passVisited
  · rfl
  · rw [if_pos ⟨rfl, running⟩]
    rfl

/-- Where the cursor stood is lost in a run. -/
theorem passEnded_cursor (r q : Nat) (p x : CursorPhase) (c : Option LineAddr) (u : State) :
    passBegun q p (passEnded r { u with psc := { u.psc with cursor := c, cursorPhase := x } }) =
      passBegun q p (passEnded r u) := by
  unfold passEnded
  dsimp only
  split
  · rw [raise_eq, raise_eq (s := { u with dht := _ })]
    have up : ∀ v, (raise .sweepDone (.rank r) { u with
        psc := { u.psc with cursor := c, cursorPhase := x }, dht := { u.dht with devices := v } }).link =
        (raise .sweepDone (.rank r) { u with dht := { u.dht with devices := v } }).link := fun v =>
      raiseAt_link_congr rfl rfl rfl
    rw [up]
    rfl
  · rfl

theorem SkipRun.cursor {run : State → State} (h : SkipRun s a visited run) (c : Option LineAddr) (x : CursorPhase)
    (u : State) : run { u with psc := { u.psc with cursor := c, cursorPhase := x } } = run u := by
  induction h with
  | visit => rfl
  | skip _ _ _ _ _ _ _ _ _ ih => exact ih
  | putOff => exact passEnded_cursor ..
  | goOn _ _ run => exact congrArg run (passEnded_cursor ..)

/-- The line tested after a pass has ended: the first of the next rank. -/
theorem Testing.passBegun (h : Testing s a visited u) (r q : Nat) :
    Testing s (lineAt q 0) false (passBegun q .untested (passEnded r u)) := by
  obtain ⟨l, v, form, straps, -⟩ := passEnded_form r u
  have readable : ∀ p, RankSound p s → RankSound p (passEnded r u) := fun p hp => rankSound_passEnded r (h.readable p hp)
  rw [form] at readable ⊢
  exact ⟨h.rgt, h.entries, h.slots, straps.trans h.straps, h.ranks, readable, h.served, h.allowed, h.running, rfl, rfl,
    rfl⟩

/-- The lines tested one after another do what the run of skips says, given room for two passes (R144). -/
theorem testLines_run {run : State → State} (h : SkipRun s a visited run) (hr : RegionsSound s) {n : Nat}
    (hn : (Machine.depth s - a.index.toNat) + (if visited then Machine.depth s else 0) < n)
    (hu : Testing s a visited u) : testLines n u = run u := by
  induction h generalizing n u with
  | visit b x stays =>
    obtain ⟨m, rfl⟩ : ∃ m, n = m + 1 := ⟨n - 1, by omega⟩
    rw [testLines_succ hu hr, if_neg (fun hx => stays ((hu.skips b).mp hx)), classify_congr hu.rgt]
    rw [← hu.cursor]
  | skip b c x run skipped hrank hindex inside rest ih =>
    obtain ⟨m, rfl⟩ : ∃ m, n = m + 1 := ⟨n - 1, by omega⟩
    have next : c = { b with index := b.index + 1 } := by
      obtain ⟨rank, index⟩ := c
      obtain rfl : rank = b.rank := hrank
      congr 1
      refine BitVec.eq_of_toNat_eq ?_
      have below := index.isLt
      dsimp only at hindex below
      rw [BitVec.toNat_add, hindex, show (1 : BitVec 27).toNat = 1 from rfl]
      omega
    have stepped : advanceCursor true u = stepCursor b u := by
      unfold advanceCursor
      rw [hu.cursor]
      dsimp only
      rw [if_pos (by rw [hu.depth]; omega)]
    have goes : Testing s c x (stepCursor b u) := by
      rw [next]
      exact ⟨hu.rgt, hu.entries, hu.slots, hu.straps, hu.ranks, hu.readable, hu.served, hu.allowed, hu.running, rfl, rfl,
        hu.visited⟩
    rw [testLines_succ hu hr, if_pos ((hu.skips b).mpr skipped), stepped, ih (by omega) goes]
    exact rest.cursor ..
  | putOff b q skipped last hs hq =>
    obtain ⟨m, rfl⟩ : ∃ m, n = m + 1 := ⟨n - 1, by omega⟩
    have ended : advanceCursor true u = Machine.passBegun q .deferred (passEnded (rankOf b) u) := by
      unfold advanceCursor
      rw [hu.cursor]
      dsimp only
      rw [if_neg (by rw [hu.depth]; omega), endPass_eq (hu.readable _ hs) hq hu.rankState hu.running, hu.visited]
      rfl
    have nothing : ∀ k, testLines k (Machine.passBegun q .deferred (passEnded (rankOf b) u)) =
        Machine.passBegun q .deferred (passEnded (rankOf b) u) := fun k => by
      cases k with
      | zero => rfl
      | succ k =>
        have untestable : lineToTest (Machine.passBegun q .deferred (passEnded (rankOf b) u)) = none :=
          if_neg fun h => CursorPhase.noConfusion h.2.2.2
        show (match lineToTest _ with | none => _ | some b => _) = _
        rw [untestable]
    rw [testLines_succ hu hr, if_pos ((hu.skips b).mpr skipped), ended, nothing]
  | goOn b q run skipped last hs hq _ ih =>
    obtain ⟨m, rfl⟩ : ∃ m, n = m + 1 := ⟨n - 1, by omega⟩
    have ended : advanceCursor true u = Machine.passBegun q .untested (passEnded (rankOf b) u) := by
      unfold advanceCursor
      rw [hu.cursor]
      dsimp only
      rw [if_neg (by rw [hu.depth]; omega), endPass_eq (hu.readable _ hs) hq hu.rankState hu.running, hu.visited]
      rfl
    have room : Machine.depth s - (lineAt q 0).index.toNat + (if (false : Bool) then Machine.depth s else 0) < m := by
      rw [if_pos rfl] at hn
      rw [if_neg Bool.false_ne_true]
      omega
    rw [testLines_succ hu hr, if_pos ((hu.skips b).mpr skipped), ended]
    exact ih room (hu.passBegun (rankOf b) q)

/-- A line that stands to be tested under sound tables goes through its run of skips (R144). -/
theorem patrolProceeds_run {run : State → State} (h : SkipRun s a visited run) (hs : PatrolTablesSound s)
    (hu : Testing s a visited u) (hp : (storedProfile u u.psc.phase).storage = .sound) : patrolProceeds u = run u := by
  unfold patrolProceeds readProfile
  rw [if_pos ⟨hu.running, by rw [hu.served]; rfl, by rw [hu.cursor]; rfl, hu.untested⟩]
  dsimp only
  rw [checkProfile_sound hp]
  refine testLines_run h hs.regions ?_ hu
  rw [hu.depth]
  split <;> omega

/-! ### A run beside a request being served -/

theorem passEnded_setPhase (r id : Nat) (p : Phase) (u : State) :
    passEnded r (setPhase id p u) = setPhase id p (passEnded r u) := by
  have aged : ∀ v, raise .sweepDone (.rank r) (setPhase id p { u with dht := { u.dht with devices := v } }) =
      setPhase id p (raise .sweepDone (.rank r) { u with dht := { u.dht with devices := v } }) := fun v =>
    raise_setPhase ..
  unfold passEnded
  by_cases whole : u.psc.wholeSweep
  · rw [if_pos whole, ← aged, if_pos (show (setPhase id p u).psc.wholeSweep from whole)]
    rfl
  · rw [if_neg whole, if_neg (show ¬(setPhase id p u).psc.wholeSweep from whole)]

theorem SkipRun.setPhase {run : State → State} (h : SkipRun s a visited run) (id : Nat) (p : Phase) (u : State) :
    run (setPhase id p u) = Machine.setPhase id p (run u) := by
  induction h generalizing u with
  | visit => rfl
  | skip _ _ _ _ _ _ _ _ _ ih => exact ih u
  | putOff b q => exact congrArg (Machine.passBegun q .deferred) (passEnded_setPhase (rankOf b) id p u)
  | goOn b q run _ _ _ _ _ ih =>
    exact (congrArg (fun x => run (Machine.passBegun q .untested x)) (passEnded_setPhase (rankOf b) id p u)).trans
      (ih (Machine.passBegun q .untested (passEnded (rankOf b) u)))

/-- A run changes PSC, the device entries and what goes upstream. -/
theorem SkipRun.form {run : State → State} (h : SkipRun s a visited run) (u : State) : ∃ l v p, run u = { u with
    link := l, dht := { u.dht with devices := v }, psc := p } ∧ l.state = u.link.state := by
  induction h generalizing u with
  | visit => exact ⟨u.link, u.dht.devices, _, rfl, rfl⟩
  | skip _ _ _ _ _ _ _ _ _ ih => exact ih u
  | putOff b q =>
    obtain ⟨l, v, form, -, state⟩ := passEnded_form (rankOf b) u
    exact ⟨l, v, _, congrArg (Machine.passBegun q .deferred) form, state⟩
  | goOn b q run _ _ _ _ _ ih =>
    obtain ⟨l, v, form, -, state⟩ := passEnded_form (rankOf b) u
    obtain ⟨l', v', p, form', state'⟩ := ih (Machine.passBegun q .untested (passEnded (rankOf b) u))
    refine ⟨l', v', p, form'.trans ?_, state'.trans (by rw [form]; exact state)⟩
    rw [form]
    rfl

/-! ## Ticks (R137, R138) -/

theorem patrolProceeds_untestable (hp : (storedProfile u u.psc.phase).storage = .sound) (h : lineToTest u = none) :
    patrolProceeds u = u := by
  have nothing : ∀ n, testLines n u = u := fun n => by
    cases n with
    | zero => rfl
    | succ n =>
      show (match lineToTest u with | none => u | some b => _) = u
      rw [h]
  unfold patrolProceeds readProfile
  dsimp only
  rw [checkProfile_sound hp, nothing]
  exact ite_self u

/-- The conditions under which a tick earns or is lost (R138). -/
def TickCounts (s : State) : Prop :=
  s.psc.running = true ∧ (currentProfile s).allowed = true ∧ s.psc.cursor.isSome ∧ s.fcu.halted = none

theorem tickCounts_iff (s : State) : tickCounts (currentProfile s).allowed s = true ↔ TickCounts s := by
  unfold tickCounts TickCounts
  simp only [Bool.and_eq_true, Option.isNone_iff_eq_none]
  tauto

/-- A tick whose profile reads sound: the countdown, the credit, and the test. -/
theorem tickOccurs_sound (h : (storedProfile s s.psc.phase).storage = .sound) : tickOccurs s =
    patrolProceeds (resumeDeferred (countTick (currentProfile s).allowed
      { s with psc := { s.psc with tickCountdown := (currentProfile s).period } })) := by
  unfold tickOccurs readProfile
  rw [checkProfile_sound h]
  rfl

theorem lineToTest_none (h : ¬TickCounts u) : lineToTest u = none := by
  by_contra tests
  unfold lineToTest at tests
  by_cases hx : u.psc.running ∧ u.fcu.halted.isNone ∧ (currentProfile u).allowed ∧ u.psc.cursorPhase = .untested
  · rw [if_pos hx] at tests
    obtain ⟨running, served, allowed, -⟩ := hx
    exact h ⟨running, allowed, Option.isSome_iff_ne_none.mpr tests, Option.isNone_iff_eq_none.mp served⟩
  · exact tests (if_neg hx)

theorem storedProfile_err {n : Nat} (hn : n < 8) (x : Storage) : storedProfile (profileErr n x s) n = ⟨profileAt s n, x⟩ :=
  (storedProfile_setProfile s n n ⟨profileAt s n, x⟩).trans (if_pos ⟨rfl, hn⟩)

theorem profileAt_err {n : Nat} (hn : n < 8) (x : Storage) : profileAt (profileErr n x s) n = profileAt s n := by
  have stored := congrArg Stored.value (storedProfile_err (s := s) hn x)
  exact stored

theorem checkProfile_err_single {n : Nat} (hn : n < 8) (h : (storedProfile s n).storage = .sound) :
    checkProfile n (profileErr n .singleBit s) = raise .internalCorrected (.table .phase n) s := by
  have back : setProfile n ⟨profileAt s n, .sound⟩ (profileErr n .singleBit s) = s := by
    have same : (⟨profileAt s n, .sound⟩ : Stored Profile) = storedProfile s n := by rw [← h]; rfl
    unfold setProfile profileErr
    dsimp only
    rw [setAt_setAt, same]
    unfold storedProfile
    rw [setAt_getAt]
  rw [checkProfile_single (congrArg Stored.storage (storedProfile_err hn _)),
    profileAt_err hn, back]

/-- The part after a profile was found lost (R136, R141). -/
def profileReset (n : Nat) (s : State) : State :=
  if n = s.psc.phase ∧ s.fcu.halted = none then stealJudged 262144 (itemLost .phase n (profileDefaulted n s))
  else itemLost .phase n (profileDefaulted n s)

theorem checkProfile_err_lost {n : Nat} (hn : n < 8) (h : RecordsReady s) :
    checkProfile n (profileErr n .uncorrectable s) = profileReset n s := by
  have defaulted : setProfile n ⟨defaultProfile, .sound⟩ (profileErr n .uncorrectable s) = profileDefaulted n s := by
    unfold setProfile profileErr profileDefaulted
    dsimp only
    rw [setAt_setAt]
    rfl
  have ready : RecordsReady (profileErr n .uncorrectable s) := h
  rw [checkProfile_lost (congrArg Stored.storage (storedProfile_err hn _)) ready]
  unfold profileLost profileReset
  rw [defaulted]
  rfl

theorem profileReset_form (n : Nat) (s : State) : ∃ b, (profileReset n s).psc =
    { (profileDefaulted n s).psc with steal := b } := by
  have psc := itemLost_psc .phase n (profileDefaulted n s)
  unfold profileReset
  split
  · obtain ⟨l, b, form, -⟩ := stealJudged_form 262144 (itemLost .phase n (profileDefaulted n s))
    rw [form]
    exact ⟨b, by rw [psc]⟩
  · exact ⟨s.psc.steal, psc⟩

theorem storedProfile_reset {n : Nat} (hn : n < 8) :
    storedProfile (profileReset n s) n = ⟨⟨320, true, 262144, 20⟩, .sound⟩ := by
  obtain ⟨b, psc⟩ := profileReset_form n s
  unfold storedProfile
  rw [psc]
  exact (storedProfile_setProfile s n n ⟨⟨320, true, 262144, 20⟩, .sound⟩).trans (if_pos ⟨rfl, hn⟩)

/-- Ticks whose profiles come to the same after their check are the same (R136). -/
theorem exec_tick_reread {n : Nat} {v : State} (hu : u.link.por = false) (hun : u.psc.phase = n)
    (hvn : v.psc.phase = n) (hc : checkProfile n u = v) (hs : (storedProfile v n).storage = .sound) :
    exec .tick u = exec .tick v := by
  have hv : v.link.por = false := hc ▸ (moves_checkProfile n u).por.trans hu
  have reads : readProfile u.psc.phase u = readProfile v.psc.phase v := by
    unfold readProfile
    rw [hun, hvn, hc, checkProfile_sound hs]
  refine (next_released hu _).trans (Eq.trans (congrArg _ ?_) (next_released hv _).symm)
  unfold tickOccurs
  rw [reads]

theorem tickOccurs_idle (h : (storedProfile s s.psc.phase).storage = .sound) (hc : ¬TickCounts s) :
    tickOccurs s = { s with psc := { s.psc with
      tickCountdown := (currentProfile s).period
      cursorPhase := if s.psc.cursorPhase = .deferred then .untested else s.psc.cursorPhase } } := by
  have uncounted : countTick (currentProfile s).allowed
      { s with psc := { s.psc with tickCountdown := (currentProfile s).period } } =
      { s with psc := { s.psc with tickCountdown := (currentProfile s).period } } :=
    if_neg fun x => hc ((tickCounts_iff s).mp x)
  have resumed : resumeDeferred { s with psc := { s.psc with tickCountdown := (currentProfile s).period } } =
      { s with psc := { s.psc with
        tickCountdown := (currentProfile s).period
        cursorPhase := if s.psc.cursorPhase = .deferred then .untested else s.psc.cursorPhase } } := by
    unfold resumeDeferred
    dsimp only
    split <;> rfl
  rw [tickOccurs_sound h, uncounted, resumed]
  exact patrolProceeds_untestable h (lineToTest_none hc)

/-- What a test at a tick does: nothing where the line stands as the visit line, else the run of skips. -/
def TestedAtTick (s : State) (run : State → State) : Prop :=
  (∃ cls, s.psc.cursorPhase = .visitLine cls ∧ run = id) ∨
    (∃ a, s.psc.cursor = some a ∧ (s.psc.cursorPhase = .untested ∨ s.psc.cursorPhase = .deferred) ∧
      RegionsSound s ∧ SkipRun s a s.psc.passVisited run)

/-- `u` is `s` after the credit of a tick has been counted, as far as a test sees. -/
structure Counted (s u : State) : Prop where
  tables : u.rgt = s.rgt ∧ u.rpq.entries = s.rpq.entries ∧ u.sls.slots = s.sls.slots ∧ u.dht = s.dht ∧
    u.drp.ranks = s.drp.ranks ∧ u.link.straps = s.link.straps
  served : u.fcu.halted = s.fcu.halted
  cursor : u.psc.cursor = s.psc.cursor ∧ u.psc.cursorPhase = s.psc.cursorPhase ∧ u.psc.passVisited = s.psc.passVisited
  running : u.psc.running = s.psc.running
  profiles : u.psc.profiles = s.psc.profiles ∧ u.psc.phase = s.psc.phase

theorem Counted.proceeds {run : State → State} (hu : Counted s u) (h : (storedProfile s s.psc.phase).storage = .sound)
    (hc : TickCounts s) (hrun : TestedAtTick s run) : patrolProceeds (resumeDeferred u) = run u := by
  obtain ⟨running, allowed, -, served⟩ := hc
  obtain ⟨⟨rgt, entries, slots, dht, ranks, straps⟩, halted, ⟨cursor, phase, visited⟩, running', profiles, number⟩ := hu
  have stored : storedProfile u u.psc.phase = storedProfile s s.psc.phase := by
    unfold storedProfile
    rw [profiles, number]
  rcases hrun with ⟨cls, visit, rfl⟩ | ⟨b, hb, waits, regions, hrun⟩
  · have stays : resumeDeferred u = u := if_neg (by rw [phase, visit]; nofun)
    rw [stays]
    exact patrolProceeds_noLine (.inr (.inr (by rw [phase, visit]; nofun)))
  · have resumed : resumeDeferred u = { u with psc := { u.psc with cursor := u.psc.cursor, cursorPhase := .untested } } := by
      unfold resumeDeferred
      split
      · rfl
      · have untested : u.psc.cursorPhase = .untested := by
          rcases waits with w | w
          · exact phase.trans w
          · exact absurd (phase.trans w) (by assumption)
        rw [← untested]
    have testing : Testing s b s.psc.passVisited (resumeDeferred u) := by
      rw [resumed]
      refine ⟨rgt, entries, slots, straps, ranks, fun q hq => ?_, halted.trans served, ?_, running'.trans running,
        cursor.trans hb, rfl, visited⟩
      · unfold RankSound deviceAt at hq ⊢
        rw [show ({ u with psc := { u.psc with cursor := u.psc.cursor, cursorPhase := .untested } } : State).dht = u.dht
          from rfl, dht]
        exact hq
      · show (storedProfile u u.psc.phase).value.allowed = true
        rw [stored]
        exact allowed
    have runs := patrolProceeds_run hrun ⟨regions, h⟩ testing (by
      rw [resumed]
      exact (congrArg Stored.storage stored).trans h)
    rw [runs, resumed]
    exact hrun.cursor ..

theorem stealJudged_straps (threshold : Nat) (u : State) : (stealJudged threshold u).link.straps = u.link.straps := by
  unfold stealJudged
  split
  · exact raise_link_straps ..
  · split
    · exact raise_link_straps ..
    · rfl

theorem tickOccurs_earns {run : State → State} (h : (storedProfile s s.psc.phase).storage = .sound) (hc : TickCounts s)
    (hl : s.psc.credit < s.psc.lagLimit) (hrun : TestedAtTick s run) : tickOccurs s =
      run (stealJudged (currentProfile s).steal { s with psc := { s.psc with
        tickCountdown := (currentProfile s).period, credit := s.psc.credit + 1, lagging := false } }) := by
  have earned : countTick (currentProfile s).allowed
      { s with psc := { s.psc with tickCountdown := (currentProfile s).period } } =
      stealJudged (currentProfile s).steal { s with psc := { s.psc with
        tickCountdown := (currentProfile s).period, credit := s.psc.credit + 1, lagging := false } } :=
    (if_pos ((tickCounts_iff s).mpr hc)).trans ((if_pos hl).trans (evalSteal_sound (s := { s with psc := { s.psc with
        tickCountdown := (currentProfile s).period, credit := s.psc.credit + 1, lagging := false } }) h hc.2.2.2))
  rw [tickOccurs_sound h, earned]
  obtain ⟨l, b, form, -⟩ := stealJudged_form (currentProfile s).steal { s with psc := { s.psc with
    tickCountdown := (currentProfile s).period, credit := s.psc.credit + 1, lagging := false } }
  have straps := stealJudged_straps (currentProfile s).steal { s with psc := { s.psc with
    tickCountdown := (currentProfile s).period, credit := s.psc.credit + 1, lagging := false } }
  refine Counted.proceeds ?_ h hc hrun
  rw [form] at straps ⊢
  exact ⟨⟨rfl, rfl, rfl, rfl, rfl, straps⟩, rfl, ⟨rfl, rfl, rfl⟩, rfl, rfl, rfl⟩

theorem tickOccurs_lost {run : State → State} (h : (storedProfile s s.psc.phase).storage = .sound) (hc : TickCounts s)
    (hl : s.psc.lagLimit ≤ s.psc.credit) (hrun : TestedAtTick s run) {lost : State} (hlost : lost = { s with
      psc := { s.psc with tickCountdown := (currentProfile s).period, lagging := true }
      mgu := { s.mgu with counters := { s.mgu.counters with
        lagTicks := if s.mgu.counters.lagTicks < 2 ^ 32 - 1 then s.mgu.counters.lagTicks + 1
          else s.mgu.counters.lagTicks } } }) :
    tickOccurs s = run (if s.psc.lagging then lost else raise .patrolLag .none lost) := by
  have counted : countTick (currentProfile s).allowed
      { s with psc := { s.psc with tickCountdown := (currentProfile s).period } } =
      loseTick { s with psc := { s.psc with tickCountdown := (currentProfile s).period } } :=
    (if_pos ((tickCounts_iff s).mpr hc)).trans (if_neg (Nat.not_lt.mpr hl))
  have loses : loseTick { s with psc := { s.psc with tickCountdown := (currentProfile s).period } } =
      if s.psc.lagging then lost else raise .patrolLag .none lost := by
    subst hlost
    unfold loseTick
    by_cases lagging : s.psc.lagging
    · rw [if_pos lagging]
      exact congrArg (fun x : State => { x with psc := { x.psc with lagging := true } }) (if_pos lagging)
    · rw [if_neg lagging]
      refine (congrArg (fun x : State => { x with psc := { x.psc with lagging := true } }) (if_neg lagging)).trans ?_
      have psc : (raise .patrolLag .none (countLagTick
          { s with psc := { s.psc with tickCountdown := (currentProfile s).period } })).psc = _ := raise_psc ..
      dsimp only
      rw [psc]
      exact (raise_withPsc _ _ _ _).symm
  rw [tickOccurs_sound h, counted, loses]
  refine Counted.proceeds ?_ h hc hrun
  subst hlost
  split
  · exact ⟨⟨rfl, rfl, rfl, rfl, rfl, rfl⟩, rfl, ⟨rfl, rfl, rfl⟩, rfl, rfl, rfl⟩
  · have straps := raise_link_straps .patrolLag .none { s with
      psc := { s.psc with tickCountdown := (currentProfile s).period, lagging := true }
      mgu := { s.mgu with counters := { s.mgu.counters with
        lagTicks := if s.mgu.counters.lagTicks < 2 ^ 32 - 1 then s.mgu.counters.lagTicks + 1
          else s.mgu.counters.lagTicks } } }
    rw [raise_eq] at straps ⊢
    exact ⟨⟨rfl, rfl, rfl, rfl, rfl, straps⟩, rfl, ⟨rfl, rfl, rfl⟩, rfl, rfl, rfl⟩

/-! ## Visits (R114, R146–R148) -/

theorem stealJudged_cursor (threshold : Nat) (c : Option LineAddr) (x : CursorPhase) (u : State) :
    stealJudged threshold { u with psc := { u.psc with cursor := c, cursorPhase := x } } =
      { stealJudged threshold u with psc := { (stealJudged threshold u).psc with cursor := c, cursorPhase := x } } := by
  have moved : ∀ (k : EventKind) (b : Bool),
      raise k .none { u with psc := { u.psc with cursor := c, cursorPhase := x, steal := b } } =
        { raise k .none { u with psc := { u.psc with steal := b } } with
          psc := { (raise k .none { u with psc := { u.psc with steal := b } }).psc with
            cursor := c, cursorPhase := x } } := fun k b => by
    rw [raise_withPsc k .none u { u.psc with steal := b }]
    exact raise_withPsc k .none u { u.psc with cursor := c, cursorPhase := x, steal := b }
  unfold stealJudged
  dsimp only
  split
  · exact moved .stealOn true
  · split
    · exact moved .stealOff false
    · rfl

/-- The work of a granted visit, with its history moved (R146). -/
def visitGranted (a : LineAddr) (cls : Classification) (s : State) : State :=
  { s with
    psc := { s.psc with credit := s.psc.credit - 1, passVisited := true }
    drp := { s.drp with port := some ⟨.visitRead false, a, some cls, none, false⟩, history := 0 } }

theorem grant_visit {w : Waiting} {cls : Classification} (hw : w ∈ waiting s) (hop : w.op = .visitRead false)
    (ha : s.psc.cursor = some a) (hc : s.psc.cursorPhase = .visitLine cls) : s.fcu.halted = none ∧
      s.psc.running = true ∧ (currentProfile s).allowed = true ∧
      grant w s = patrolProceeds (evalSteal (advanceCursor false (visitGranted a cls s))) := by
  cases mem_waiting_iff.mp hw with
  | visit b c hh hv =>
    unfold waitingVisit at hv
    rw [ha, hc] at hv
    dsimp only at hv
    split at hv
    · next allowed =>
      cases hv
      refine ⟨hh, allowed.2.1, allowed.2.2.1, ?_⟩
      unfold grant
      rw [hh]
      rfl
    · cases hv
  | _ => cases hop

/-- Steal mode judged and the next line tested, from the state in which the cursor has moved on. -/
theorem visit_goesOn {run : State → State} (h : SkipRun s a visited run) (hs : PatrolTablesSound s)
    (hu : Testing s a visited u) (hp : (storedProfile u u.psc.phase) = storedProfile s s.psc.phase) :
    patrolProceeds (evalSteal u) = run (stealJudged (currentProfile s).steal u) := by
  have sound : (storedProfile u u.psc.phase).storage = .sound := by rw [hp]; exact hs.profile
  have steal : (currentProfile u).steal = (currentProfile s).steal := congrArg (·.value.steal) hp
  rw [evalSteal_sound sound hu.served, steal]
  obtain ⟨l, b, form, -⟩ := stealJudged_form (currentProfile s).steal u
  have straps := stealJudged_straps (currentProfile s).steal u
  refine patrolProceeds_run h hs ?_ ?_
  · rw [form] at straps ⊢
    exact ⟨hu.rgt, hu.entries, hu.slots, straps.trans hu.straps, hu.ranks, hu.readable, hu.served, hu.allowed, hu.running,
      hu.cursor, hu.untested, hu.visited⟩
  · rw [form]
    exact sound

/-- A verdict that is not CORRECTED, and that was made without a mark or is no CLEAN one, moves no consumer (R14). -/
theorem consume_silent {v : VerdictRecord} (hv : v.verdict ≠ .corrected) (hc : v.correction = none)
    (hm : v.mark = none ∨ v.verdict ≠ .clean) (hs : RankSound (rankOf v.line) s) : consume v s = s := by
  have unrepairable : v.repairable = false := by unfold VerdictRecord.repairable; rw [hc]
  have reports : reportVerdict v s = s := by unfold reportVerdict; rw [hc]
  have counts : countVerdict v s = s := if_neg fun h => hv h.1
  have judges : ∀ r, judgeProbation r v s = s := fun r => by
    unfold judgeProbation
    cases hmark : v.mark with
    | none => rfl
    | some m =>
      rcases hm with h | h
      · rw [hmark] at h
        cases h
      · dsimp only
        split
        · split
          · exact absurd (by assumption) h
          · exact absurd (by assumption) hv
          · rfl
        · rfl
  have tallies : healthVerdict v s = s := by
    unfold healthVerdict
    split
    · rfl
    · rw [readRank_sound hs]
      dsimp only
      unfold raiseTallies
      rw [hc]
      exact judges _
  have watches : watchVerdict v s = s := by
    unfold watchVerdict isWatchHit
    rw [unrepairable]
    rfl
  have considers : considerRepair v s = s := by
    unfold considerRepair
    rw [unrepairable]
    rfl
  unfold consume
  rw [reports, counts, tallies, watches, considers]

theorem correction_of_verdict {g : Granted} {source : ReadSource} {raw : RawLine}
    (h : (verdictOf g source raw s).verdict ≠ .corrected) : (verdictOf g source raw s).correction = none := if_neg h

/-- An uncorrectable or poisoned read moves no consumer. -/
theorem consume_failed {g : Granted} {source : ReadSource} {raw : RawLine} (hs : RankSound (rankOf g.line) s)
    (h : (verdictOf g source raw s).verdict = .uncorrectable ∨ (verdictOf g source raw s).verdict = .poisoned) :
    consume (verdictOf g source raw s) (freePort s) = freePort s := by
  have failed : (verdictOf g source raw s).verdict ≠ .corrected ∧ (verdictOf g source raw s).verdict ≠ .clean := by
    rcases h with h | h <;> rw [h] <;> exact ⟨nofun, nofun⟩
  exact consume_silent failed.1 (correction_of_verdict failed.1) (.inr failed.2) (rankSound_freePort hs)

end

end Sys2Proof.Machine

namespace Sys2Proof

open Machine

/-- Settles O44. -/
theorem patrolRequests : Obligations.PatrolRequests := by
  intro args r s a tested
  refine ⟨fun hT => ⟨fun running => ?_, fun stopped parked => ?_, fun b run stopped hb untested ht hrun => ?_⟩,
    fun hT => ?_, fun hT => ?_, fun hT sound quiet => ?_, fun hT => ?_⟩
  · exact taken_general hT rfl (u := s) (res := .done) (p := []) (if_pos running) rfl rfl rfl
  · have quiet : NoLineToTest (setPhase r.id .serving { s with psc := { s.psc with running := true } }) :=
      .inr (.inl parked)
    refine taken_general hT rfl (u := { s with psc := { s.psc with running := true } }) (res := .done) (p := [])
      ((if_neg (by rw [show (setPhase r.id .serving s).psc = s.psc from rfl, stopped]; nofun)).trans ?_) rfl rfl rfl
    exact congrArg (answer r.id .done []) (patrolProceeds_noLine quiet)
  · have served : s.fcu.halted = none := taken_not_halted hT rfl
    have testing : Testing s b s.psc.passVisited (setPhase r.id .serving { s with psc := { s.psc with running := true } }) :=
      ⟨rfl, rfl, rfl, rfl, rfl, fun _ h => h, served, ht.2, rfl, hb, untested, rfl⟩
    have runs := patrolProceeds_run hrun ht.1 testing ht.1.profile
    rw [hrun.setPhase] at runs
    obtain ⟨l, v, p, form, state⟩ := hrun.form { s with psc := { s.psc with running := true } }
    refine taken_general hT rfl (res := .done) (p := []) ((if_neg (by
      rw [show (setPhase r.id .serving s).psc = s.psc from rfl, stopped]; nofun)).trans
        (congrArg (answer r.id .done []) runs)) ?_ ?_ ?_ <;> rw [form]
    exact state
  · exact taken_general hT rfl (u := { s with psc := { s.psc with running := false, cursorPhase := .untested } })
      (res := .done) (p := []) rfl rfl rfl rfl
  · have served : s.fcu.halted = none := taken_not_halted hT rfl
    intro moved
    refine ⟨fun bad => ?_, fun hon hin stopped => ?_, fun run hon hin running ht hrun => ?_⟩
    · exact taken_general hT rfl (u := s) (res := .range) (p := []) (if_pos bad) rfl rfl rfl
    all_goals
      have good : ¬(rankState s (rankOf a) ≠ .online ∨ depth s ≤ a.index.toNat) := by
        rintro (h | h)
        · exact h hon
        · omega
    · refine taken_general hT rfl (u := { s with psc := moved }) (res := .done) (p := []) ((if_neg good).trans ?_)
        rfl rfl rfl
      exact congrArg (answer r.id .done [])
        (patrolProceeds_noLine (s := setPhase r.id .serving { s with psc := moved }) (.inl stopped))
    · have testing : Testing s a false (setPhase r.id .serving { s with psc := moved }) :=
        ⟨rfl, rfl, rfl, rfl, rfl, fun _ h => h, served, ht.2, running, rfl, rfl, rfl⟩
      have runs := patrolProceeds_run hrun ht.1 testing ht.1.profile
      rw [hrun.setPhase] at runs
      obtain ⟨l, v, p, form, state⟩ := hrun.form { s with psc := moved }
      refine taken_general hT rfl (res := .done) (p := []) ((if_neg good).trans
        (congrArg (answer r.id .done []) runs)) ?_ ?_ ?_ <;> rw [form]
      exact state
  · have served : s.fcu.halted = none := taken_not_halted hT rfl
    intro limit
    have judged := stealJudged_setPhase (id := r.id) (p := .serving) (currentProfile s).steal
      (s := { s with psc := { s.psc with lagLimit := limit, credit := min s.psc.credit limit } })
    have evaluated : evalSteal (setPhase r.id .serving
        { s with psc := { s.psc with lagLimit := limit, credit := min s.psc.credit limit } }) = _ :=
      (evalSteal_sound (s := setPhase r.id .serving
        { s with psc := { s.psc with lagLimit := limit, credit := min s.psc.credit limit } }) sound served).trans judged
    have still : NoLineToTest (setPhase r.id .serving (stealJudged (currentProfile s).steal
        { s with psc := { s.psc with lagLimit := limit, credit := min s.psc.credit limit } })) :=
      noLineToTest_stealJudged (s := { s with psc := { s.psc with lagLimit := limit, credit := min s.psc.credit limit } })
        _ quiet
    obtain ⟨l, b, form, state⟩ := stealJudged_form (currentProfile s).steal
      { s with psc := { s.psc with lagLimit := limit, credit := min s.psc.credit limit } }
    have bounded : clamp 1 Config.creditCeiling (argument args 0 4) = limit := clamp_eq _ _ _ (by decide)
    refine taken_general hT rfl (res := .done) (p := []) (u := stealJudged (currentProfile s).steal
      { s with psc := { s.psc with lagLimit := limit, credit := min s.psc.credit limit } }) ?_ ?_ ?_ ?_
    · unfold pacingSet
      rw [bounded]
      exact congrArg (answer r.id .done []) ((congrArg patrolProceeds evaluated).trans (patrolProceeds_noLine still))
    · rw [form]
      exact state
    · rw [form]
    · rw [form]
  · intro cleared
    have left : leaveSteal (setPhase r.id .serving { s with psc := { s.psc with credit := 0, lagging := false } }) =
        setPhase r.id .serving (if s.psc.steal then raise .stealOff .none cleared else cleared) := by
      unfold leaveSteal
      by_cases h : s.psc.steal
      · rw [if_pos (show (setPhase r.id .serving
          { s with psc := { s.psc with credit := 0, lagging := false } }).psc.steal from h), if_pos h]
        exact raise_setPhase _ _ _ _ cleared
      · have same : { s with psc := { s.psc with credit := 0, lagging := false } } = cleared := by
          have off : s.psc.steal = false := by simpa using h
          show _ = { s with psc := { s.psc with credit := 0, lagging := false, steal := false } }
          rw [← off]
        rw [if_neg (show ¬(setPhase r.id .serving
          { s with psc := { s.psc with credit := 0, lagging := false } }).psc.steal from h), if_neg h, same]
    refine taken_general hT rfl (res := .done) (p := []) (congrArg (answer r.id .done []) left) ?_ ?_ ?_ <;> split
    · exact raise_link_state ..
    · rfl
    · rw [raise_dem]
    · rfl
    · rw [raise_mgu]
    · rfl

/-- Settles O37. -/
theorem tickEarnsOrIsLost : Obligations.TickEarnsOrIsLost := by
  refine ⟨fun s hp sound => ?_, fun s n hn => ?_⟩
  · intro p counts ticked
    have ticks : exec .tick s = .next (tickOccurs s) := next_released hp _
    rw [ticks]
    refine ⟨fun h => congrArg _ (tickOccurs_idle sound h), fun run hrun => ⟨fun hc hl => ?_, fun hc hl => ?_⟩⟩
    · exact congrArg _ (tickOccurs_earns sound hc hl hrun)
    · intro m lost
      exact congrArg _ (tickOccurs_lost sound hc hl hrun rfl)
  · intro judged corrected defaulted reads
    have reread : ∀ {u v : State} {p : Profile}, checkProfile n u = v → profileAt v n = p → readProfile n u = (p, v) := by
      rintro u v p rfl rfl
      rfl
    refine ⟨?_, fun sound => ⟨?_, fun current hp => ?_⟩, fun ready => ⟨?_, fun current hp => ?_⟩⟩
    · exact reread (checkProfile_sound (congrArg Stored.storage (storedProfile_err hn .sound)))
        (profileAt_err hn .sound)
    · exact reread (checkProfile_err_single hn sound) (profileAt_congr (raise_psc ..))
    · refine exec_tick_reread (n := n) hp current ((congrArg Psc.phase (raise_psc ..)).trans current)
        (checkProfile_err_single hn sound) ?_
      unfold storedProfile
      rw [raise_psc]
      exact sound
    · exact reread (checkProfile_err_lost hn ready) (congrArg Stored.value (storedProfile_reset hn))
    · obtain ⟨b, psc⟩ := profileReset_form n s
      refine exec_tick_reread (n := n) (v := profileReset n s) hp current ?_ (checkProfile_err_lost hn ready)
        (congrArg Stored.storage (storedProfile_reset hn))
      rw [psc]
      exact current

/-- Settles O23: the grant, the cursor on the next line or the next rank, and the end of the visit's read. -/
theorem visitIsGranted : Obligations.VisitIsGranted := by
  refine ⟨fun s a cls w hp hport hw hop ha hc hs => ?_, fun s g aborted beats hF hop => ?_⟩
  · intro threshold granted
    obtain ⟨served, running, allowed, grants⟩ := grant_visit ((firstWaiting_spec _).2 w hw).1 hop ha hc
    have granted_eq : exec .arbiterGrant s = .next (patrolProceeds (evalSteal (advanceCursor false granted))) :=
      (next_released hp _).trans (congrArg _ ((arbiterGrants_first hport hw).trans grants))
    rw [granted_eq]
    refine ⟨fun run inside hrun => congrArg _ ?_, fun q run last hrank hq hrun => congrArg _ ?_⟩
    · have stepped : advanceCursor false granted = stepCursor a granted := by
        unfold advanceCursor
        rw [show granted.psc.cursor = some a from ha]
        exact if_pos inside
      have testing : Testing s { a with index := a.index + 1 } true (stepCursor a granted) :=
        ⟨rfl, rfl, rfl, rfl, rfl, fun _ h => h, served, allowed, running, rfl, rfl, rfl⟩
      rw [stepped, visit_goesOn hrun hs testing rfl]
      exact (congrArg run (stealJudged_cursor ..)).trans (hrun.cursor ..)
    · have ended : advanceCursor false granted = passBegun q .untested (passEnded (rankOf a) granted) := by
        unfold advanceCursor
        rw [show granted.psc.cursor = some a from ha]
        refine (if_neg (show ¬a.index.toNat + 1 < depth s by omega)).trans ?_
        exact endPass_eq (s := s) (u := granted) (bySkip := false) hrank hq (fun _ => rfl) running
      have testing : Testing s (lineAt q 0) false (passBegun q .untested (passEnded (rankOf a) granted)) := by
        obtain ⟨l, v, form, straps, -⟩ := passEnded_form (rankOf a) granted
        have readable : ∀ p, RankSound p s → RankSound p (passEnded (rankOf a) granted) := fun p hp =>
          rankSound_passEnded _ hp
        rw [form] at readable ⊢
        exact ⟨rfl, rfl, rfl, straps, rfl, readable, served, allowed, running, rfl, rfl, rfl⟩
      rw [ended, visit_goesOn hrun hs testing ?_]
      obtain ⟨l, v, form, -, -⟩ := passEnded_form (rankOf a) granted
      rw [form]
      rfl
  · intro raw v used
    rw [exec_readFinish hF.released hF.port (by rw [hop]; rfl), readFinish_sound hF.rank, hop]
    refine congrArg (fun x => Host.Outcome.next (settle x)) ?_
    show visitOutcome aborted v used = _
    unfold visitOutcome
    by_cases failed : v.verdict = .uncorrectable
    · have silent : used = freePort s := consume_failed hF.rank (.inl failed)
      rw [silent]
      by_cases opens : aborted = false ∧ rankState s (rankOf g.line) = .online
      · rw [if_pos ⟨failed, by rw [opens.1]; exact Bool.false_ne_true, by
            show s.fcu.halted.isNone = true
            rw [hF.served]
            rfl, opens.2⟩, if_pos ⟨failed, opens⟩]
        rfl
      · rw [if_neg fun h => opens ⟨by simpa using h.2.1, h.2.2.2⟩, if_neg fun h => opens h.2]
    · rw [if_neg fun h => failed h.1, if_neg fun h => failed h.1]

end Sys2Proof
end
section
/-! The end of a demand read: its verdict to the consumers and to its request, and a read that finds an error in a
device entry (R14, R26, R27, R32–R34, R110, R111, R114, R115, R164). -/

namespace Sys2Proof.Machine

variable {s t u : State} {a : LineAddr} {g : Granted} {source : ReadSource} {raw : RawLine} {r : Request}
  {v : VerdictRecord} {id : Nat}

/-! ## A line read back as it was written -/

theorem decodeLine_encode (a : LineAddr) (source : ReadSource) (cls : Option Classification) (overwritten : Bool)
    (data : Line) : (decodeLine a source none cls overwritten (encode data)).verdict = .clean ∧
      (decodeLine a source none cls overwritten (encode data)).corrected = data := by
  have same : (Vector.ofFn fun j => Vector.ofFn fun d =>
      if d = (0 : Fin 10) then (encode data)[j][d] ^^^ (fun _ => 0 : Fin 4 → Sym) j else (encode data)[j][d] : RawLine) =
      encode data := by
    ext1 j hj
    ext1 d hd
    simp
  obtain ⟨corrected, -, verdict⟩ := singleDeviceErrorsAreCorrected a source cls overwritten data 0 fun _ => 0
  rw [same] at corrected verdict
  exact ⟨by simpa using verdict, corrected⟩

/-! ## The verdict reaches its request -/

theorem demandOutcome_read (hr : findRequest id s = some r) (hp : r.phase = .readGranted) (hh : s.fcu.halted = none)
    (hb : r.body = .read a) : demandOutcome id v s = readOutcome id v s := by
  unfold demandOutcome
  rw [hr]
  dsimp only
  rw [if_neg (by simp [hp]), if_neg (by simp [hh]), hb]

theorem demandOutcome_rmw {mask : ByteMask} {data : Line} (hr : findRequest id s = some r) (hp : r.phase = .readGranted)
    (hh : s.fcu.halted = none) (hb : r.body = .maskedWrite a mask data) :
    demandOutcome id v s = rmwOutcome id mask data v s := by
  unfold demandOutcome
  rw [hr]
  dsimp only
  rw [if_neg (by simp [hp]), if_neg (by simp [hh]), hb]

theorem exec_demandRead {rmw : Bool} (hF : Finishing g s) (hop : g.op = .demandRead id rmw) (beats : Burst) :
    exec (.dramReadFinish beats) s = .next (settle (demandOutcome id
      (verdictOf g (if rmw then .rmw else .demand) (fromBeats beats) s)
      (consume (verdictOf g (if rmw then .rmw else .demand) (fromBeats beats) s) (freePort s)))) := by
  rw [exec_readFinish hF.released hF.port (source := if rmw then .rmw else .demand) (by rw [hop]; cases rmw <;> rfl),
    readFinish_sound hF.rank, hop]
  rfl

theorem Answerable.congr (h : Answerable r s) (hl : t.link.state = s.link.state) (hd : t.dem = s.dem)
    (hm : t.mgu.coreReset = s.mgu.coreReset) : Answerable r t :=
  ⟨hl.trans h.active, by unfold findRequest; rw [hd]; exact h.named, h.buffered, h.unanswered, by rw [hm]; exact h.notReset⟩

/-- A POISONED READ, with its event and its counter (R26). -/
theorem completePoisonedRead_answerable (h : Answerable r s) (hb : r.body = .read a) (b : LineAddr) :
    completePoisonedRead r.id b s = finished r (.readDone r.tag .poisoned zeroLine)
      (countPoisonedRead (rankOf b) (raise .poisonRead (.line b) s)) := by
  have reported : Answerable r (countPoisonedRead (rankOf b) (raise .poisonRead (.line b) s)) := by
    refine h.congr (raise_link_state ..) (raise_dem ..) ?_
    show (raise .poisonRead (.line b) s).mgu.coreReset = _
    rw [raise_mgu]
  unfold completePoisonedRead
  rw [completeDemand_answerable reported]
  unfold demandFrame
  rw [hb]

/-- A read-modify-write refused, its capture in the next record (R34, R124). -/
theorem refuseRmw_placed {mask : ByteMask} {data : Line} (h : Answerable r s) (hb : r.body = .maskedWrite a mask data)
    (hh : s.fcu.halted = none) (hr : NextRecordReady s) (c : Capture) : refuseRmw r.id c s =
      finished r (.writeDone r.tag .uncorrectable) (withPhase r.id .answering (placedNext c s)) := by
  have ready : NextRecordReady (setPhase r.id .answering s) := by
    unfold NextRecordReady
    rw [recordAt_setPhase]
    exact hr
  have placed : placedNext c (setPhase r.id .answering s) = withPhase r.id .answering (placedNext c s) := by
    exact setRecord_setPhase (s := { s with fcu := { s.fcu with next := if s.fcu.next = .a then .b else .a } }) ..
  have answering : findRequest r.id (withPhase r.id .answering (placedNext c s)) =
      some { r with phase := .answering } := by
    have named : findRequest r.id (placedNext c s) = some r := by
      unfold findRequest placedNext
      rw [setRecord_dem]
      exact h.named
    exact findRequest_setPhase .answering named
  unfold refuseRmw
  rw [capture_placedNext (by exact hh) ready, placed]
  rw [completeDemand_eq_finished _ _ answering nofun h.buffered ?_ ?_]
  · unfold demandFrame
    rw [hb]
    rfl
  · show (placedNext c s).link.state = .active
    unfold placedNext
    rw [setRecord_link]
    exact h.active
  · show ∀ x, (placedNext c s).mgu.coreReset = some x → _
    unfold placedNext
    rw [setRecord_mgu]
    exact h.notReset

/-! ## An error in a device entry of the rank (R110, R111) -/

/-- Where the entries can be read, the verdict is made under the mark they leave, and delivered. -/
theorem readFinish_read (h : readRank (rankOf g.line) (freePort s) = (true, t)) : readFinish g source raw s =
    deliver g.op (decodeLine g.line source (markOf t (rankOf g.line)) g.cls g.overwritten raw) t := by
  unfold readFinish
  rw [show ({ s with drp := { s.drp with port := none } } : State) = freePort s from rfl]
  dsimp only
  rw [h]

theorem freePort_raise (k : EventKind) (x : Subject) (s : State) : freePort (raise k x s) = raise k x (freePort s) := by
  have up : (raise k x (freePort s)).link = (raise k x s).link := raiseAt_link_congr rfl rfl rfl
  rw [raise_eq, raise_eq (s := freePort s), up]
  rfl

/-- A read that finds a single-bit error ends as it would after the correction. -/
theorem readFinish_single {k : Nat} (hr : rankOf g.line < 4) (hk : k < 10) (hs : RankSound (rankOf g.line) s) :
    readFinish g source raw (deviceErr (entryNumber (rankOf g.line) k) .singleBit s) =
      readFinish g source raw (raise .internalCorrected (.table .health (entryNumber (rankOf g.line) k)) s) := by
  have sound : RankSound (rankOf g.line)
      (raise .internalCorrected (.table .health (entryNumber (rankOf g.line) k)) (freePort s)) := fun d hd => by
    rw [deviceAt_raise]
    exact rankSound_freePort hs d hd
  have struck := readRank_single (s := freePort s) hr hk (rankSound_freePort hs)
  have corrected : readRank (rankOf g.line)
      (freePort (raise .internalCorrected (.table .health (entryNumber (rankOf g.line) k)) s)) = (true, raise .internalCorrected
        (.table .health (entryNumber (rankOf g.line) k)) (freePort s)) := by
    rw [freePort_raise]
    exact readRank_sound sound
  rw [readFinish_read corrected]
  exact readFinish_read (s := deviceErr (entryNumber (rankOf g.line) k) .singleBit s) struck

/-- With no retry and no Spare Retire in hand, no work but a demand request is answered. -/
theorem endUndecoded_undemanded {op : PortOp} (hc : s.fcu.contexts = []) (hr : s.sls.retires = [])
    (hop : ∀ id rmw, op ≠ .demandRead id rmw) : endUndecoded op s = s := by
  unfold endUndecoded
  split
  · exact absurd rfl (hop _ _)
  · rw [show findContext _ s = none by unfold findContext; rw [hc]; rfl]
  · rw [show retireOf _ s = none by unfold retireOf; rw [hr]; rfl]
  · rfl

/-- Entering HALTED with the port free leaves no retry and no Spare Retire in hand (R127). -/
theorem enterHalted_noWork (cause : HaltCause) (hh : s.fcu.halted = none) (hp : s.drp.port = none) :
    (enterHalted cause s).fcu.contexts = [] ∧ (enterHalted cause s).sls.retires = [] := by
  obtain ⟨l, d, c, v, ranks, due, form, -⟩ := enterHalted_form cause hh
  have free (x : PortOp) : atPort x s = false := by
    unfold atPort
    rw [hp]
  rw [form]
  refine ⟨?_, ?_⟩
  · show haltedContexts s = []
    unfold haltedContexts
    simp only [free, List.filter_false, List.map_nil]
  · show (s.sls.retires.filter fun w => atPort (.retireRead w.request) s) = []
    simp only [free, List.filter_false]

/-! ## What each verdict makes of the request -/

section

variable {mask : ByteMask} {data : Line} (hA : Answerable r s) (hph : r.phase = .readGranted) (hh : s.fcu.halted = none)

include hA hph hh

theorem demandRead_clean (hb : r.body = .read a) (hv : v.verdict = .clean) :
    demandOutcome r.id v s = finished r (.readDone r.tag .clean v.corrected) s := by
  rw [demandOutcome_read hA.named hph hh hb]
  unfold readOutcome
  rw [hv]
  dsimp only
  rw [completeDemand_answerable hA]
  unfold demandFrame
  rw [hb]

theorem demandRead_corrected (hb : r.body = .read a) (hv : v.verdict = .corrected) :
    demandOutcome r.id v s = finished r (.readDone r.tag .corrected v.corrected) s := by
  rw [demandOutcome_read hA.named hph hh hb]
  unfold readOutcome
  rw [hv]
  dsimp only
  rw [completeDemand_answerable hA]
  unfold demandFrame
  rw [hb]

theorem demandRead_poisoned (hb : r.body = .read a) (hv : v.verdict = .poisoned) : demandOutcome r.id v s =
    finished r (.readDone r.tag .poisoned zeroLine)
      (countPoisonedRead (rankOf v.line) (raise .poisonRead (.line v.line) s)) := by
  rw [demandOutcome_read hA.named hph hh hb]
  unfold readOutcome
  rw [hv]
  exact completePoisonedRead_answerable hA hb v.line

theorem demandRead_retried (hb : r.body = .read a) (hv : v.verdict = .uncorrectable) :
    demandOutcome r.id v s = openContext (.demand r.id) v (withPhase r.id .retrying s) := by
  rw [demandOutcome_read hA.named hph hh hb]
  unfold readOutcome
  rw [hv]
  rfl

theorem demandRmw_clean (hb : r.body = .maskedWrite a mask data) (hd : holder v.line s = .none) (hv : v.verdict = .clean) :
    demandOutcome r.id v s = withPhase r.id (.waitWrite (merge mask v.corrected data) .done) s := by
  rw [demandOutcome_rmw hA.named hph hh hb]
  unfold rmwOutcome
  rw [hv]
  dsimp only
  unfold applyWrite
  rw [hd]
  rfl

theorem demandRmw_corrected (hb : r.body = .maskedWrite a mask data) (hd : holder v.line s = .none)
    (hv : v.verdict = .corrected) :
    demandOutcome r.id v s = withPhase r.id (.waitWrite (merge mask v.corrected data) .corrected) s := by
  rw [demandOutcome_rmw hA.named hph hh hb]
  unfold rmwOutcome
  rw [hv]
  dsimp only
  unfold applyWrite
  rw [hd]
  rfl

theorem demandRmw_poisoned (hb : r.body = .maskedWrite a mask data) (ready : NextRecordReady s)
    (hv : v.verdict = .poisoned) : demandOutcome r.id v s = finished r (.writeDone r.tag .uncorrectable)
      (withPhase r.id .answering (placedNext (poisonedRmwCapture v mask data) s)) := by
  rw [demandOutcome_rmw hA.named hph hh hb]
  unfold rmwOutcome
  rw [hv]
  exact refuseRmw_placed hA hb hh ready _

theorem demandRmw_retried (hb : r.body = .maskedWrite a mask data) (hv : v.verdict = .uncorrectable) :
    demandOutcome r.id v s = openContext (.rmw r.id mask data) v (withPhase r.id .retrying s) := by
  rw [demandOutcome_rmw hA.named hph hh hb]
  unfold rmwOutcome
  rw [hv]
  rfl

end

end Sys2Proof.Machine

namespace Sys2Proof

open Machine

/-- Settles O26. -/
theorem cleanReadCompletes : Obligations.CleanReadCompletes := by
  refine ⟨fromBeats_get, fromBeats_onBeats, ?_, fun s g id rmw beats hF hop => ?_,
    fun s g k beats hp hg hx hs hr hk => ?_⟩
  · intro s g id r a data hp ha hh hq hg hop hs hm hr hph hb ho hhold hc hnone room
    have decoded := decodeLine_encode g.line .demand g.cls g.overwritten data
    have hv : verdictOf g .demand (encode data) s = decodeLine g.line .demand none g.cls g.overwritten (encode data) := by
      unfold verdictOf
      rw [hm]
    have silent : consume (verdictOf g .demand (encode data) s) (freePort s) = freePort s := by
      have clean : (verdictOf g .demand (encode data) s).verdict ≠ .corrected := by
        rw [hv, decoded.1]
        nofun
      exact consume_silent clean (correction_of_verdict clean) (.inl hm) (rankSound_freePort hs)
    have completes := complete_held (s := freePort s) (.readDone r.tag .clean data) hr (by rw [hph]; nofun) ho ha hhold hc
      hnone room rfl
    have answered : demandOutcome id (verdictOf g .demand (encode data) s) (freePort s) =
        complete id (.readDone r.tag .clean data) (freePort s) := by
      rw [demandOutcome_read (s := freePort s) hr hph hh hb]
      unfold readOutcome
      rw [hv, decoded.1, decoded.2]
      dsimp only
      unfold completeDemand demandFrame
      rw [show findRequest id (freePort s) = some r from hr]
      dsimp only
      rw [hb]
    have finishes : exec (.dramReadFinish (onBeats (encode data))) s = .next (settle (demandOutcome id
        (verdictOf g .demand (fromBeats (onBeats (encode data))) s)
        (consume (verdictOf g .demand (fromBeats (onBeats (encode data))) s) (freePort s)))) :=
      exec_demandRead ⟨hp, hg, hh, hs⟩ hop _
    rw [finishes, fromBeats_onBeats, silent, answered, completes]
    exact congrArg _ (settle_quiet hq)
  · intro raw v free used
    have run : ∀ w, demandOutcome id v used = w → exec (.dramReadFinish beats) s = .next (settle w) := fun w h =>
      (exec_demandRead hF hop beats).trans (congrArg (fun x => Host.Outcome.next (settle x)) h)
    have silent : v.verdict = .uncorrectable ∨ v.verdict = .poisoned → used = free := consume_failed hF.rank
    refine ⟨fun h => ?_, fun r hr hA hph hh => ⟨fun a hb => ?_, fun a mask data hb hd => ?_⟩⟩
    · rcases h with h | h | ⟨h, hm⟩
      · exact silent (.inl h)
      · exact silent (.inr h)
      · have clean : v.verdict ≠ .corrected := by rw [h]; nofun
        exact consume_silent clean (correction_of_verdict clean) (.inl hm) (rankSound_freePort hF.rank)
    · subst hr
      exact ⟨fun hv => run _ (demandRead_clean hA hph hh hb hv), fun hv => run _ (demandRead_corrected hA hph hh hb hv),
        fun hv => run _ (by
          rw [silent (.inr hv)] at hA hh ⊢
          exact demandRead_poisoned hA hph hh hb hv),
        fun hv => run _ (by
          rw [silent (.inl hv)] at hA hh ⊢
          exact demandRead_retried hA hph hh hb hv)⟩
    · subst hr
      intro merged
      exact ⟨fun hv => run _ (demandRmw_clean hA hph hh hb hd hv), fun hv => run _ (demandRmw_corrected hA hph hh hb hd hv),
        fun hv ready => run _ (by
          rw [silent (.inr hv)] at hA hh ⊢
          exact demandRmw_poisoned hA hph hh hb ready hv),
        fun hv => run _ (by
          rw [silent (.inl hv)] at hA hh ⊢
          exact demandRmw_retried hA hph hh hb hv)⟩
  · obtain ⟨source, hx⟩ := hx
    intro n
    refine ⟨?_, fun hh => ?_⟩
    · rw [exec_readFinish (s := deviceErr n .singleBit s) hp hg hx beats,
        exec_readFinish (s := raise .internalCorrected (.table .health n) s) ((raise_link_por ..).trans hp)
          ((congrArg Drp.port (raise_drp ..)).trans hg) hx beats, readFinish_single hr hk hs]
    · intro faulty entered
      have run : exec (.dramReadFinish beats) faulty = .next (settle (endUndecoded g.op entered)) :=
        (exec_readFinish (s := faulty) hp hg hx beats).trans
          (congrArg (fun x => Host.Outcome.next (settle x)) (readFinish_unread (readRank_faulty (s := freePort s) hr hk
            (rankSound_freePort hs))))
      rw [run]
      refine ⟨fun id rmw r hop hid hA => ?_, fun hop => ?_⟩
      · subst hid
        rw [hop, endUndecoded_demand hA]
      · have idle := enterHalted_noWork (s := { faulty with drp := { s.drp with port := none } }) ⟨.health, n⟩ hh rfl
        rw [endUndecoded_undemanded idle.1 idle.2 hop]

end Sys2Proof
end
section
/-! Repair entries and slots that a line gains where no other work concerns it; confirmed lines and the end of a retry
read (R24, R54, R57, R64, R78, R115–R120). -/

namespace Sys2Proof.Machine

variable {s t u : State} {a : LineAddr} {x : RetryContext} {v : VerdictRecord} {r : Request} {g : Granted}

/-! ## A line gains a holder that no work follows -/

theorem holderChanged_idle (h : followerOf a s = none) : holderChanged a s = s := by
  unfold holderChanged
  rw [h]

theorem dropPatrolRetries_none (h : s.fcu.contexts = []) (gone : LineAddr → Bool) : dropPatrolRetries gone s = s := by
  obtain ⟨link, dem, rgt, cod, dht, rpq, sls, fcu, psc, drp, mgu, stamp, pending⟩ := s
  obtain ⟨recordA, recordB, next, halted, contexts⟩ := fcu
  obtain rfl : contexts = [] := h
  rfl

theorem cursorLineHeld_elsewhere (h : s.psc.cursor ≠ some a) : cursorLineHeld a s = s := by
  unfold cursorLineHeld
  split
  · next b _ hb _ => exact if_neg fun hab => h (by rw [hab]; exact hb)
  · rfl

theorem entryGained_idle (hf : followerOf a s = none) (hc : s.fcu.contexts = []) (hp : s.psc.cursor ≠ some a) :
    entryGained a s = s := by
  unfold entryGained
  rw [holderChanged_idle hf, dropPatrolRetries_none hc, cursorLineHeld_elsewhere hp]

/-- An entry joins the queue, and nothing else happens where nothing follows the holder of its line (R54). -/
theorem createEntry_idle (hf : followerOf a s = none) (hc : s.fcu.contexts = []) (hp : s.psc.cursor ≠ some a)
    (kind : RepairKind) (data : Line) (verify : Bool) (state : RepairState) :
    createEntry a kind data verify state s = { s with
      rpq := { s.rpq with entries := s.rpq.entries ++
        [{ id := s.stamp, line := a, kind := kind, data := data, verify := verify, replayed := false,
           state := state, retired := false }] }
      stamp := s.stamp + 1 } := entryGained_idle (s := { s with
      rpq := { s.rpq with entries := s.rpq.entries ++
        [{ id := s.stamp, line := a, kind := kind, data := data, verify := verify, replayed := false,
           state := state, retired := false }] }
      stamp := s.stamp + 1 }) hf hc hp

theorem slotGained_idle (h : Unattended a s) : slotGained a s = s := by
  unfold slotGained
  rw [holderChanged_idle h.follower, dropPatrolRetries_none h.contexts]
  dsimp only
  rw [h.retires]
  exact cursorLineHeld_elsewhere h.cursor

/-- The entries once the line of one of them has gone to a slot (R64). -/
def entriesRetired (a : LineAddr) (s : State) : List RepairEntry :=
  match entryOf a s with
  | none => s.rpq.entries
  | some e =>
    if e.state = .writing then s.rpq.entries.map fun x => if x.id = e.id then { x with retired := true } else x
    else s.rpq.entries.filter fun x => x.id != e.id

theorem retireEntry_form (a : LineAddr) (s : State) :
    retireEntry a s = { s with rpq := { s.rpq with entries := entriesRetired a s } } := by
  unfold retireEntry entriesRetired
  cases entryOf a s with
  | none => rfl
  | some e =>
    dsimp only
    by_cases h : e.state = .writing
    · rw [if_pos h, h]
      rfl
    · rw [if_neg h]
      split
      · exact absurd (by assumption) h
      · rfl

/-- A line retired where no work but its entry concerns it (R64, R78). -/
theorem retireLine_unattended {i : Nat} (h : Unattended a s) (data : Line) :
    retireLine i a data s = retiredInto i a data s := by
  have gained : retireEntry a (raise .spareRetired (.line a) (setSlot i (.active a (freshData data) s.mgu.timeBase) s)) =
      retiredInto i a data s := by
    have entries : entriesRetired a (raise .spareRetired (.line a)
        (setSlot i (.active a (freshData data) s.mgu.timeBase) s)) = entriesRetired a s := by
      unfold entriesRetired entryOf
      rw [raise_rpq]
      rfl
    have up : ∀ e, (raise .spareRetired (.line a) { s with
        sls := { s.sls with slots := setAt s.sls.slots i (.active a ⟨data, .sound, zeroLine⟩ s.mgu.timeBase) }
        rpq := { s.rpq with entries := e } }).link =
        (raise .spareRetired (.line a) (setSlot i (.active a (freshData data) s.mgu.timeBase) s)).link := fun e =>
      raiseAt_link_congr rfl rfl rfl
    have spelt : retiredInto i a data s = raise .spareRetired (.line a) { s with
        sls := { s.sls with slots := setAt s.sls.slots i (.active a ⟨data, .sound, zeroLine⟩ s.mgu.timeBase) }
        rpq := { s.rpq with entries := entriesRetired a s } } := rfl
    rw [retireEntry_form, entries, spelt, raise_eq (s := { s with
      sls := { s.sls with slots := setAt s.sls.slots i (.active a ⟨data, .sound, zeroLine⟩ s.mgu.timeBase) }
      rpq := { s.rpq with entries := entriesRetired a s } }), up, raise_eq]
    rfl
  have unattended : Unattended a (retiredInto i a data s) := by
    unfold retiredInto
    refine ⟨?_, ?_, ?_, ?_⟩
    · unfold followerOf
      rw [raise_dem]
      exact h.follower
    · rw [raise_fcu]
      exact h.contexts
    · rw [raise_sls]
      exact h.retires
    · rw [raise_psc]
      exact h.cursor
  unfold retireLine
  rw [gained, slotGained_idle unattended]

/-! ## Admission (T36) -/

theorem admission_refused {overwritten : Bool} (h : s.fcu.halted.isSome ∨ (slotHolding a s).isSome ∨ (entryOf a s).isSome ∨
    overwritten = true ∨ rankState s (rankOf a) ≠ .online) : admission a overwritten s = .refused := by
  unfold admission
  rcases h with h | h | h | h | h
  · rw [if_pos h]
  · simp [h]
  · simp [h]
  · simp [h]
  · simp [h]

theorem admission_open {overwritten : Bool} (h : ¬(s.fcu.halted.isSome ∨ (slotHolding a s).isSome ∨ (entryOf a s).isSome ∨
    overwritten = true ∨ rankState s (rankOf a) ≠ .online)) :
    admission a overwritten s = if 16 ≤ s.rpq.entries.length then .deferred else .admitted := by
  unfold admission
  rw [if_neg (fun x => h (.inl x)), if_neg (fun x => h (.inr (.inl x))), if_neg (fun x => h (.inr (.inr (.inl x)))),
    if_neg (fun x => h (.inr (.inr (.inr (.inl x))))), if_neg (fun x => h (.inr (.inr (.inr (.inr x)))))]
  rfl

/-! ## The isolation set (R118) -/

/-- A device whose symbol differs in some codeword of two reads. -/
def Differs (first second : RawLine) (d : Fin 10) : Prop := ∃ j : Fin 4, first[j][d] ≠ second[j][d]

theorem differs_iff (first second : RawLine) (d : Fin 10) :
    ((List.finRange 4).any fun j => first[j][d] != second[j][d]) = true ↔ Differs first second d := by
  simp [Differs]

theorem bit_of_device : ∀ d e : Fin 10, (1#10 <<< e.val).getLsbD d.val = decide (e = d) := by decide

theorem foldl_isolation (first second : RawLine) (d : Fin 10) (l : List (Fin 10)) (acc : BitVec 10) :
    (l.foldl (fun acc d => if (List.finRange 4).any fun j => first[j][d] != second[j][d] then acc ||| (1#10 <<< d.val)
      else acc) acc).getLsbD d.val = true ↔ acc.getLsbD d.val = true ∨ (d ∈ l ∧ Differs first second d) := by
  induction l generalizing acc with
  | nil => simp
  | cons e l ih =>
    rw [List.foldl_cons, ih]
    by_cases he : e = d
    · subst he
      by_cases hd : Differs first second e
      · rw [if_pos ((differs_iff ..).mpr hd), BitVec.getLsbD_or, bit_of_device]
        simp [hd]
      · rw [if_neg fun x => hd ((differs_iff ..).mp x)]
        simp [hd]
    · have other : ∀ b : Bool, (if b then acc ||| (1#10 <<< e.val) else acc).getLsbD d.val = acc.getLsbD d.val := fun b => by
        cases b
        · rfl
        · rw [if_pos rfl, BitVec.getLsbD_or, bit_of_device, decide_eq_false he, Bool.or_false]
      rw [other]
      simp [Ne.symm he]

theorem isolationSet_iff (first second : RawLine) (d : Fin 10) :
    (isolationSet first second).getLsbD d.val = true ↔ Differs first second d := by
  unfold isolationSet
  rw [foldl_isolation]
  simp [List.mem_finRange]

theorem isolationSet_eq_zero (first second : RawLine) : isolationSet first second = 0 ↔ first = second := by
  constructor
  · intro h
    ext1 j hj
    ext1 d hd
    by_contra hne
    have marked := (isolationSet_iff first second ⟨d, hd⟩).mpr ⟨⟨j, hj⟩, hne⟩
    rw [h] at marked
    simp at marked
  · rintro rfl
    apply BitVec.eq_of_getLsbD_eq
    intro d hd
    have unmarked := (not_congr (isolationSet_iff first first ⟨d, hd⟩)).mpr fun ⟨_, hne⟩ => hne rfl
    simpa using unmarked

/-! ## Confirmation (R119, R120) -/

/-- How the work of a confirmed line ends: `failed` says what it makes of a state. -/
def HandsFailure (x : RetryContext) (raw : Line) (failed : State → State) (u : State) : Prop :=
  (x.work = .patrol ∧ failed = id) ∨
    (∃ r a, x.work = .demand r.id ∧ Answerable r u ∧ r.body = .read a ∧
      failed = finished r (.readDone r.tag .uncorrectable raw)) ∨
    (∃ r a mask data, x.work = .rmw r.id mask data ∧ Answerable r u ∧ r.body = .maskedWrite a mask data ∧
      failed = finished r (.writeDone r.tag .uncorrectable))

theorem HandsFailure.congr {raw : Line} {failed : State → State} (h : HandsFailure x raw failed s)
    (hl : t.link.state = s.link.state) (hd : t.dem = s.dem) (hm : t.mgu.coreReset = s.mgu.coreReset) :
    HandsFailure x raw failed t := by
  rcases h with h | ⟨r, a, hw, hA, hb, hf⟩ | ⟨r, a, mask, data, hw, hA, hb, hf⟩
  · exact .inl h
  · exact .inr (.inl ⟨r, a, hw, hA.congr hl hd hm, hb, hf⟩)
  · exact .inr (.inr ⟨r, a, mask, data, hw, hA.congr hl hd hm, hb, hf⟩)

theorem failWork_hands {raw : Line} {failed : State → State} (h : HandsFailure x raw failed s) :
    failWork x.work raw s = failed s := by
  rcases h with ⟨hw, rfl⟩ | ⟨r, a, hw, hA, hb, rfl⟩ | ⟨r, a, mask, data, hw, hA, hb, rfl⟩ <;> rw [hw]
  · rfl
  all_goals
    refine (completeDemand_answerable hA _ _).trans ?_
    unfold demandFrame
    rw [hb]

/-- What a confirmation does once the capture has been placed, by its verdict (R120). -/
theorem confirm_after {placed : State} {failed : State → State}
    (hcap : capture (confirmedCapture x v) (reportUe x) s = placed) :
    (placed.fcu.halted.isSome ∨ v.verdict = .poisoned → HandsFailure x v.rawData failed placed →
      confirm x v s = failed placed) ∧
    (placed.fcu.halted = none → v.verdict = .uncorrectable →
      HandsFailure x v.rawData failed (requestPoison x.line v.rawData v.overwritten placed) →
      confirm x v s = failed (requestPoison x.line v.rawData v.overwritten placed)) := by
  unfold confirm
  rw [hcap]
  refine ⟨fun silent hands => ?_, fun served hv hands => ?_⟩
  · dsimp only
    rw [if_pos silent]
    exact failWork_hands hands
  · dsimp only
    rw [if_neg (by rw [served, hv]; rintro (h | h) <;> cases h)]
    exact failWork_hands hands

/-- A POISON entry joins the queue where nothing stands against it (R57, R120). -/
theorem requestPoison_admitted {data : Line} {overwritten : Bool} (hh : s.fcu.halted = none) (ho : overwritten = false)
    (hd : holder a s = .none) (hon : rankState s (rankOf a) = .online) (room : s.rpq.entries.length < 16)
    (hf : followerOf a s = none) (hc : s.fcu.contexts = []) (hp : s.psc.cursor ≠ some a) :
    requestPoison a data overwritten s = { s with
      rpq := { s.rpq with entries := s.rpq.entries ++
        [{ id := s.stamp, line := a, kind := .poison, data := data, verify := false, replayed := false,
           state := .ready, retired := false }] }
      stamp := s.stamp + 1 } := by
  obtain ⟨slots, entries⟩ := holder_none hd
  have admitted : admission a overwritten s = .admitted := by
    rw [admission_open (by simp [hh, slots, entries, ho, hon]), if_neg (Nat.not_le.mpr room)]
  unfold requestPoison
  rw [admitted]
  exact createEntry_idle hf hc hp ..

/-- `t` is `s` after a capture was written and reported: its records, the counters and what goes upstream may differ. -/
def Recorded (s t : State) : Prop := ∃ l a b n c, t = { s with
    link := l
    fcu := { s.fcu with recordA := a, recordB := b, next := n }
    mgu := { s.mgu with counters := c } } ∧ l.state = s.link.state

theorem Recorded.setRecord (h : Recorded s t) (x : RecordName) (c : CaptureRecord) : Recorded s (setRecord x c t) := by
  obtain ⟨l, a, b, n, k, rfl, hl⟩ := h
  cases x
  · exact ⟨l, c, b, n, k, rfl, hl⟩
  · exact ⟨l, a, c, n, k, rfl, hl⟩

theorem Recorded.raiseAt (h : Recorded s t) (k : EventKind) (n : Nat) (x : Subject) (y : Option RecordName) :
    Recorded s (raiseAt k n x y t) := by
  have state := raiseAt_link_state k n x y t
  rw [raiseAt_eq] at state ⊢
  obtain ⟨l, a, b, m, c, rfl, hl⟩ := h
  exact ⟨_, a, b, m, c, rfl, state.trans hl⟩

theorem Recorded.countUe (h : Recorded s t) (q : Nat) : Recorded s (countUe q t) := by
  obtain ⟨l, a, b, n, c, rfl, hl⟩ := h
  exact ⟨l, a, b, n, _, rfl, hl⟩

theorem recordWritten_next (record : CaptureRecord) (s : State) : recordWritten s.fcu.next record s =
    setRecord s.fcu.next record { s with fcu := { s.fcu with next := if s.fcu.next = .a then .b else .a } } := by
  unfold recordWritten
  rw [otherRecord_eq]

theorem recorded_next (record : CaptureRecord) (s : State) : Recorded s
    (setRecord s.fcu.next record { s with fcu := { s.fcu with next := if s.fcu.next = .a then .b else .a } }) :=
  Recorded.setRecord ⟨s.link, s.fcu.recordA, s.fcu.recordB, _, s.mgu.counters, rfl, rfl⟩ _ _

/-! ## The end of a retry read (R117) -/

theorem exec_retryRead {id : Nat} (hF : Finishing g s) (hop : g.op = .retryRead id)
    (hx : (s.fcu.contexts.find? fun y => y.id == id) = some x) (beats : Burst) :
    exec (.dramReadFinish beats) s = .next (settle (retryOutcome x (verdictOf g .retry (fromBeats beats) s)
      (consume (verdictOf g .retry (fromBeats beats) s) (retryClosed id x s)))) := by
  rw [exec_readFinish hF.released hF.port (source := .retry) (by rw [hop]; rfl), readFinish_sound hF.rank, hop]
  have finishes : retryFinish id (verdictOf g .retry (fromBeats beats) s) (freePort s) =
      retryOutcome x (verdictOf g .retry (fromBeats beats) s)
        (consume (verdictOf g .retry (fromBeats beats) s) (retryClosed id x s)) := by
    unfold retryFinish
    rw [findContext_freed, hx, ← settleAnswer_closed]
  exact congrArg (fun y => Host.Outcome.next (settle y)) finishes

/-- The work of a retry ended while it was at DRAM has been answered already (R127). -/
theorem endWorkHalted_answered {work : RetryWork}
    (h : ∀ q ∈ s.dem.requests, work.isFor q.id = true → q.phase = .completing) : endWorkHalted work s = s := by
  have answered : ∀ k, (work.isFor k = true) → completeDemand k .halted zeroLine s = s := fun k hk => by
    unfold completeDemand
    cases hf : findRequest k s with
    | none => rfl
    | some q =>
      obtain ⟨hq, rfl⟩ := findRequest_some hf
      dsimp only
      unfold complete
      rw [hf]
      exact if_pos (h q hq hk)
  cases work with
  | patrol => rfl
  | demand k => exact answered k (by simp [RetryWork.isFor])
  | rmw k mask data => exact answered k (by simp [RetryWork.isFor])

theorem retryOutcome_confirms (hh : s.fcu.halted = none) (he : x.ended = false)
    (hv : v.verdict = .uncorrectable ∨ v.verdict = .poisoned) : retryOutcome x v s = confirm x v s := by
  unfold retryOutcome
  rw [if_neg (by simp [hh, he]), if_neg (by rcases hv with h | h <;> simp [h])]

theorem retryOutcome_succeeds (hh : s.fcu.halted = none) (he : x.ended = false)
    (hv : v.verdict = .clean ∨ v.verdict = .corrected) : retryOutcome x v s = retrySucceeds x.work v s := by
  unfold retryOutcome
  rw [if_neg (by simp [hh, he]), if_pos hv]

end Sys2Proof.Machine

namespace Sys2Proof

open Machine

/-- Settles O54: the isolation set, the confirmation with each strike, and the end of the retry read. -/
theorem confirmedLinesAreIsolated : Obligations.ConfirmedLinesAreIsolated := by
  refine ⟨fun first second => ⟨fun d => isolationSet_iff first second d, fun same => ?_, fun differ => ?_⟩,
    fun x v s hh hv he => ⟨retryOutcome_confirms hh he hv, rfl⟩, fun x v s failed hh => ?_,
    fun s g id x beats hF hop hx => ?_⟩
  · exact if_pos ((isolationSet_eq_zero ..).mpr same)
  · exact if_neg fun h => differ ((isolationSet_eq_zero ..).mp h)
  · intro hands empty record written strike subject placed reportedIn reported
    have goes : CaptureGoes s.fcu.next s := .inl ⟨rfl, empty⟩
    have spelt : (confirmedCapture x v).placed s = record := rfl
    have form : Recorded s reported := by
      refine (Recorded.raiseAt ?_ ..).countUe _
      show Recorded s (if strike = .singleBit then _ else _)
      split
      · exact (recorded_next _ s).raiseAt ..
      · exact recorded_next _ s
    have captured : strike ≠ .uncorrectable → capture (confirmedCapture x v) (reportUe x) s = reported := fun hne => by
      by_cases single : strike = .singleBit
      · rw [capture_single hh goes single, recordWritten_next, spelt]
        exact congrArg reportedIn (if_pos single).symm
      · have sound : strike = .sound := by
          cases hs : strike
          · rfl
          · exact absurd hs single
          · exact absurd hs hne
        rw [capture_sound hh goes sound, recordWritten_next, spelt]
        exact congrArg reportedIn (if_neg single).symm
    refine ⟨fun hne hs hv => ?_, fun hne hs hv ho hd hon room hf hc hp => ?_, fun lost => ?_⟩
    · obtain ⟨l, a, b, n, c, hform, hl⟩ := form
      have hands' : HandsFailure x v.rawData failed reported := by
        rw [hform]
        exact HandsFailure.congr (s := s) hs hl rfl rfl
      exact (confirm_after (captured hne)).1 (.inr hv) hands'
    · obtain ⟨l, a, b, n, c, hform, hl⟩ := form
      have poisoned := requestPoison_admitted (s := reported) (a := x.line) (data := v.rawData) (by rw [hform]; exact hh)
        ho (by rw [hform]; exact hd) (by rw [hform]; exact hon) (by rw [hform]; exact room) (by rw [hform]; exact hf)
        (by rw [hform]; exact hc) (by rw [hform]; exact hp)
      have hands' : HandsFailure x v.rawData failed (requestPoison x.line v.rawData v.overwritten reported) := by
        rw [poisoned, hform]
        exact HandsFailure.congr (s := s) hs hl rfl rfl
      have confirmed := (confirm_after (captured hne)).2 (by rw [hform]; exact hh) hv hands'
      rw [confirmed, poisoned, show reported.rpq = s.rpq by rw [hform], show reported.stamp = s.stamp by rw [hform]]
    · intro entered hs
      have capturedLost : capture (confirmedCapture x v) (reportUe x) s = entered := by
        rw [capture_lost hh goes lost, recordWritten_next]
        rfl
      have served : (reportedIn (written .lost .uncorrectable)).fcu.halted = none := by
        obtain ⟨l, a, b, n, c, hform, -⟩ : Recorded s (reportedIn (written .lost .uncorrectable)) :=
          ((recorded_next _ s).raiseAt ..).countUe _
        rw [hform]
        exact hh
      exact (confirm_after capturedLost).1 (.inl (by rw [enterHalted_halted _ served]; rfl)) hs
  · intro raw v closed used answers served
    have run : ∀ w, retryOutcome x v used = w → answers w := fun w h =>
      (exec_retryRead hF hop hx beats).trans (congrArg (fun y => Host.Outcome.next (settle y)) h)
    refine ⟨fun he answered => run _ ?_, fun he hv => run _ ?_, fun he hv =>
      ⟨fun hw => run _ ?_, fun r a hw hA hb => run _ ?_, fun r mask data hw hA hph hd => run _ ?_⟩⟩
    · exact (if_pos (.inr he)).trans (endWorkHalted_answered answered)
    · have failed : v.verdict ≠ .corrected ∧ v.verdict ≠ .clean := by
        rcases hv with h | h <;> rw [h] <;> exact ⟨nofun, nofun⟩
      have silent : used = closed :=
        consume_silent failed.1 (correction_of_verdict failed.1) (.inr failed.2) hF.rank
      rw [retryOutcome_confirms served he hv, silent]
    all_goals rw [retryOutcome_succeeds served he hv, hw]
    · rfl
    · refine (completeDemand_answerable hA _ _).trans ?_
      unfold demandFrame
      rw [hb]
    · unfold retrySucceeds
      dsimp only
      rw [hA.named]
      dsimp only
      rw [if_pos hph]
      unfold applyWrite
      rw [show holder v.line used = .none from hd]
      rfl

end Sys2Proof
end
section
/-! The choice of a slot; the end of DRAM writes; admission to the repair queue; verify reads (R22, R29, R31, R33, R54–R56,
R60–R63, R77, R79, R84, R149, R160, R164). -/

namespace Sys2Proof.Machine

variable {s t u : State} {a : LineAddr} {g : Granted} {r q : Request} {id i : Nat} {v : VerdictRecord} {e : RepairEntry}

/-! ## The choice of a slot (R77, R79) -/

theorem freeSlot_first (hi : i < 32) (hf : slotAt s i = .free) (h : ∀ j < i, slotAt s j ≠ .free) : freeSlot s = some i := by
  unfold freeSlot
  rw [List.find?_range_eq_some]
  exact ⟨by simp [hf], List.mem_range.mpr hi, fun j hj => by simpa using h j hj⟩

theorem freeSlot_none (h : ∀ j < 32, slotAt s j ≠ .free) : freeSlot s = none := by
  unfold freeSlot
  rw [List.find?_eq_none]
  intro j hj
  simpa using h j (List.mem_range.mp hj)

/-- The best WATCH slot among the first `n`: the smallest last-hit time, the lowest number on a tie. -/
def OldestBelow (s : State) (n : Nat) : Option (Nat × TimeBase) → Prop
  | none => ∀ j < n, (slotAt s j).lastHit? = none
  | some (i, t) => i < n ∧ (slotAt s i).lastHit? = some t ∧
      ∀ j < n, ∀ u, (slotAt s j).lastHit? = some u → t < u ∨ t = u ∧ i ≤ j

theorem oldestBelow_step {n : Nat} {best : Option (Nat × TimeBase)} (h : OldestBelow s n best) :
    OldestBelow s (n + 1) (olderWatch s best n) := by
  unfold olderWatch
  have below : ∀ {j}, j < n + 1 → j < n ∨ j = n := fun h => by omega
  cases hit : (slotAt s n).lastHit? with
  | none =>
    cases best with
    | none =>
      intro j hj
      rcases below hj with hj | rfl
      · exact h j hj
      · exact hit
    | some b =>
      obtain ⟨hi, ht, least⟩ := h
      refine ⟨by omega, ht, fun j hj u hu => ?_⟩
      rcases below hj with hj | rfl
      · exact least j hj u hu
      · rw [hit] at hu
        cases hu
  | some t =>
    cases best with
    | none =>
      refine ⟨by omega, hit, fun j hj u hu => ?_⟩
      rcases below hj with hj | rfl
      · rw [h j hj] at hu
        cases hu
      · rw [hit] at hu
        cases hu
        exact .inr ⟨rfl, Nat.le_refl _⟩
    | some b =>
      obtain ⟨k, w⟩ := b
      obtain ⟨hi, ht, least⟩ := h
      dsimp only
      split
      · next earlier =>
        refine ⟨by omega, hit, fun j hj u hu => ?_⟩
        rcases below hj with hj | rfl
        · rcases least j hj u hu with h | ⟨rfl, -⟩
          · exact .inl (BitVec.lt_trans earlier h)
          · exact .inl earlier
        · rw [hit] at hu
          cases hu
          exact .inr ⟨rfl, Nat.le_refl _⟩
      · next later =>
        refine ⟨by omega, ht, fun j hj u hu => ?_⟩
        rcases below hj with hj | rfl
        · exact least j hj u hu
        · rw [hit] at hu
          cases hu
          by_cases same : w = t
          · exact .inr ⟨same, by omega⟩
          · exact .inl (BitVec.lt_of_le_ne (BitVec.not_lt.mp later) same)

theorem oldestBelow_range (s : State) (n : Nat) : OldestBelow s n ((List.range n).foldl (olderWatch s) none) := by
  induction n with
  | zero => exact fun j hj => absurd hj (Nat.not_lt_zero j)
  | succ n ih =>
    rw [List.range_succ, List.foldl_append]
    exact oldestBelow_step ih

theorem slotForWatch_chosen (h : FreeOrOldest i s) : slotForWatch s = some i := by
  obtain ⟨hi, ⟨hf, first⟩ | ⟨b, n, t, hw, full, least⟩⟩ := h
  · unfold slotForWatch
    rw [freeSlot_first hi hf first]
  · have watches : ∀ {j u}, (slotAt s j).lastHit? = some u → ∃ c m, slotAt s j = .watch c m u := fun {j u} hj => by
      unfold Slot.lastHit? at hj
      split at hj
      · cases hj
        exact ⟨_, _, by assumption⟩
      · cases hj
    have hit : (slotAt s i).lastHit? = some t := by rw [hw]; rfl
    have oldest : oldestWatch s = some i := by
      have best := oldestBelow_range s 32
      unfold oldestWatch
      cases hb : (List.range 32).foldl (olderWatch s) none with
      | none =>
        rw [hb] at best
        rw [best i hi] at hit
        cases hit
      | some x =>
        obtain ⟨j, u⟩ := x
        rw [hb] at best
        obtain ⟨hj, hu, lower⟩ := best
        obtain ⟨c, m, hc⟩ := watches hu
        have up := least j hj c m u hc
        have down := lower i hi t hit
        have : j = i := by
          rcases up with h | ⟨rfl, h⟩
          · rcases down with h' | ⟨rfl, -⟩
            · exact absurd (BitVec.lt_trans h h') (BitVec.lt_irrefl _)
            · exact absurd h (BitVec.lt_irrefl _)
          · rcases down with h' | ⟨-, h'⟩
            · exact absurd h' (BitVec.lt_irrefl _)
            · omega
        rw [this]
        rfl
    unfold slotForWatch
    rw [freeSlot_none full]
    exact oldest

theorem slotForRetire_chosen (h : ChosenSlot a i s) : slotForRetire a s = some i := by
  unfold slotForRetire
  rcases h with ⟨hi, fits, n, t, hw⟩ | ⟨unnamed, h⟩
  · have own : watchOf a s = some i := by
      unfold watchOf
      rw [List.find?_range_eq_some]
      refine ⟨by simp [hw, Slot.line?, Slot.lastHit?], List.mem_range.mpr hi, fun j hj => ?_⟩
      have other : (slotAt s j).line? ≠ some a := fun hl => by
        have := fits j (by omega) i hi a hl (by rw [hw]; rfl)
        omega
      simp [other]
    rw [own]
  · have none : watchOf a s = none := by
      unfold watchOf
      rw [List.find?_eq_none]
      intro j hj
      simp [unnamed j (List.mem_range.mp hj)]
    rw [none]
    exact slotForWatch_chosen h

/-- With every slot the holder of its line, there is none to take. -/
theorem slotForRetire_none (h : ∀ j < 32, (slotAt s j).holds = true) : slotForRetire a s = none := by
  cases hs : slotForRetire a s with
  | none => rfl
  | some j =>
    obtain ⟨hj, hh, -⟩ := slotForRetire_some hs
    rw [h j hj] at hh
    cases hh

theorem slotForWatch_none (h : ∀ j < 32, (slotAt s j).holds = true) : slotForWatch s = none := by
  cases hs : slotForWatch s with
  | none => rfl
  | some j =>
    obtain ⟨hj, hh⟩ := slotForWatch_some hs
    rw [h j hj] at hh
    cases hh

/-! ## The end of a DRAM write -/

theorem exec_writeFinish (hp : s.link.por = false) (hg : s.drp.port = some g) (hw : writeDone g (freePort s) = some t) :
    exec .dramWriteFinish s = .next (settle t) := by
  refine (next_released hp _).trans (congrArg _ ?_)
  unfold dramWriteFinishes
  rw [hg]
  dsimp only
  rw [hw]

theorem writeDone_demand (h : g.op = .demandWrite id) (s : State) : writeDone g s = some (demandWriteDone id g.line s) := by
  unfold writeDone
  rw [h]

theorem writeDone_repair (h : g.op = .repairWrite id) (s : State) : writeDone g s = some (repairWriteDone id s) := by
  unfold writeDone
  rw [h]

theorem writeDone_release {age : Nat} (h : g.op = .releaseWrite i age) (s : State) :
    writeDone g s = some (releaseDone i age s) := by
  unfold writeDone
  rw [h]

theorem writeDone_fill (h : g.op = .fillWrite) (s : State) : writeDone g s = some (fillWriteDone g.line s) := by
  unfold writeDone
  rw [h]

theorem noneQuiescing_congr (h : NoneQuiescing s) (hd : t.drp.ranks = s.drp.ranks) : NoneQuiescing t := by
  unfold NoneQuiescing rankState rankRec at h ⊢
  rw [hd]
  exact h

theorem exec_writeFinish_quiet (hp : s.link.por = false) (hq : NoneQuiescing s) (hg : s.drp.port = some g)
    (hw : writeDone g (freePort s) = some t) (hd : t.drp.ranks = s.drp.ranks) : exec .dramWriteFinish s = .next t := by
  rw [exec_writeFinish hp hg hw, settle_quiet (noneQuiescing_congr hq hd)]

/-- A demand write whose request waits for it completes with the status it carries (R22, R28). -/
theorem demandWriteDone_granted {status : Status} (hr : findRequest id s = some r) (hph : r.phase = .writeGranted status)
    (hb : ∀ a, r.body ≠ .read a) : demandWriteDone id a s = complete id (.writeDone r.tag status) s := by
  unfold demandWriteDone
  rw [hr]
  dsimp only
  rw [hph]
  dsimp only
  unfold completeDemand
  rw [hr]
  dsimp only
  unfold demandFrame
  cases hbody : r.body with
  | read b => exact absurd hbody (hb b)
  | _ => rfl

theorem heldBehind_eq_false (h : ∀ q ∈ s.dem.requests, q.hold = some (.line a) → ∀ d st, q.phase ≠ .heldWrite d st) :
    heldBehind a s = false := by
  unfold heldBehind
  rw [List.any_eq_false]
  intro q hq
  by_cases hh : q.hold = some (.line a)
  · cases hp : q.phase <;> simp
    exact absurd hp (h q hq hh _ _)
  · simp [hh]

theorem repairWriteDone_unheld (he : findEntry id s = some e) (hb : heldBehind e.line s = false) :
    repairWriteDone id s = { s with rpq := { s.rpq with
      entries := if e.verify = true ∧ e.retired = false then
          (s.rpq.entries.map fun x => if x.id = id then { x with state := .verifying } else x)
        else (s.rpq.entries.filter fun x => x.id != id) } } := by
  unfold repairWriteDone
  rw [he]
  dsimp only
  rw [hb, if_neg Bool.false_ne_true]
  by_cases hr : e.retired
  · rw [if_pos hr, if_neg (by simp [hr])]
    rfl
  · by_cases hv : e.verify
    · rw [if_neg hr, if_pos hv, if_pos ⟨hv, by simpa using hr⟩]
      rfl
    · rw [if_neg hr, if_neg hv, if_neg fun h => hv h.1]
      rfl

/-! ## A request that follows the holder of its line -/

theorem follower_spec (h : followerOf a s = some q) : q ∈ s.dem.requests ∧ q.hold = some (.line a) ∧
    q.phase.followsHolder = true := by
  have member := List.mem_of_find?_eq_some h
  have found := List.find?_some h
  simp only [Bool.and_eq_true, beq_iff_eq] at found
  exact ⟨member, found.1, found.2⟩

/-- A write held behind a line that has lost its holder waits for DRAM (R29). -/
theorem holderChanged_heldWrite {d : Line} {status : Status} (hf : followerOf a s = some q)
    (hp : q.phase = .heldWrite d status) (hl : q.body.line? = some a) (hb : ∀ b, q.body ≠ .read b)
    (hd : holder a s = .none) : holderChanged a s = withPhase q.id (.waitWrite d status) s := by
  have applied : applyDemand q s = applyWrite q.id a d status s := by
    unfold applyDemand
    cases hbody : q.body with
    | read b => exact absurd hbody (hb b)
    | write b data =>
      rw [hbody] at hl
      cases hl
      rw [hp]
    | maskedWrite b mask data =>
      rw [hbody] at hl
      cases hl
      rw [hp]
    | manage k args =>
      rw [hbody] at hl
      cases hl
  unfold holderChanged
  rw [hf]
  dsimp only
  rw [if_neg (by rw [hp]; nofun), applied]
  unfold applyWrite
  rw [hd]
  rfl

/-- A read-modify-write held there waits for its read (R31, R33). -/
theorem holderChanged_heldRmw {mask : ByteMask} {d : Line} (hf : followerOf a s = some q) (hp : q.phase = .heldRmw)
    (hb : q.body = .maskedWrite a mask d) (hz : mask ≠ 0) (hm : mask ≠ BitVec.allOnes 64) (hd : holder a s = .none) :
    holderChanged a s = withPhase q.id .waitRead s := by
  have applied : applyDemand q s = applyRmw q a mask d s := by
    unfold applyDemand
    rw [hb, hp]
    dsimp only
    rw [if_neg hm, if_neg hz]
  unfold holderChanged
  rw [hf]
  dsimp only
  rw [if_neg (by rw [hp]; nofun), applied]
  unfold applyRmw
  rw [hd]
  rfl

theorem holder_eq_none (hs : slotHolding a s = none) (he : entryOf a s = none) : holder a s = .none := by
  unfold holder
  rw [hs, he]

theorem slotHolding_eq_none (h : ∀ j < 32, (slotAt s j).line? = some a → (slotAt s j).holds = false) :
    slotHolding a s = none := by
  rw [← Option.not_isSome_iff_eq_none, slotHolding_isSome]
  rintro ⟨j, hj, hl, hh⟩
  rw [h j hj hl] at hh
  cases hh

theorem entryOf_eq_none (h : ∀ x ∈ s.rpq.entries, x.line ≠ a) : entryOf a s = none := by
  unfold entryOf
  rw [List.find?_eq_none]
  intro x hx
  simpa using h x hx

/-- A write held behind the write of a repair entry waits for DRAM, and the entry is gone (R29, R60). -/
theorem repairWriteDone_held {d : Line} {status : Status} (he : findEntry id s = some e)
    (hslots : ∀ i < 32, (slotAt s i).line? = some e.line → (slotAt s i).holds = false)
    (hentries : ∀ x ∈ s.rpq.entries, x.line = e.line → x.id = id) (hf : followerOf e.line s = some q)
    (hp : q.phase = .heldWrite d status) (hl : q.body.line? = some e.line) (hb : ∀ b, q.body ≠ .read b) :
    repairWriteDone id s = withPhase q.id (.waitWrite d status) (removeEntry id s) := by
  obtain ⟨hq, hold, -⟩ := follower_spec hf
  have held : heldBehind e.line s = true := by
    unfold heldBehind
    rw [List.any_eq_true]
    exact ⟨q, hq, by simp [hold, hp]⟩
  have unheld : holder e.line (removeEntry id s) = .none := by
    refine holder_eq_none (slotHolding_eq_none hslots) (entryOf_eq_none fun x hx hline => ?_)
    obtain ⟨hx, hid⟩ := List.mem_filter.mp hx
    rw [hentries x hx hline] at hid
    simp at hid
  unfold repairWriteDone
  rw [he]
  dsimp only
  rw [if_pos held]
  exact holderChanged_heldWrite (s := removeEntry id s) hf hp hl hb unheld

/-! ## The end of a release and of a fill -/

theorem find?_filter_of_some {α : Type} {l : List α} {p keep : α → Bool} {x : α} (h : l.find? p = some x) (hk : keep x = true) :
    (l.filter keep).find? p = some x := by
  induction l with
  | nil => cases h
  | cons y l ih =>
    rw [List.find?_cons] at h
    by_cases hy : p y = true
    · rw [hy] at h
      cases h
      rw [List.filter_cons_of_pos hk, List.find?_cons, hy]
    · rw [Bool.not_eq_true] at hy
      rw [hy] at h
      by_cases kept : keep y = true
      · rw [List.filter_cons_of_pos kept, List.find?_cons, hy]
        exact ih h
      · rw [List.filter_cons_of_neg kept]
        exact ih h

theorem answered_taken {res : Result} {p : List Byte} (hc : s.dem.completions = []) (room : s.link.upstream.length < 8) :
    answered r res p s = { s with
      link := beginSending { s.link with upstream := s.link.upstream ++ [.manageDone r.tag res p] }
      dem := { s.dem with requests := s.dem.requests.filter fun q => q.id != r.id } } := if_pos ⟨hc, room⟩

theorem followerOf_answered_none {res : Result} {p : List Byte} (hc : s.dem.completions = [])
    (room : s.link.upstream.length < 8) (h : followerOf a s = none) : followerOf a (answered r res p s) = none := by
  rw [answered_taken hc room]
  unfold followerOf at h ⊢
  rw [List.find?_eq_none] at h ⊢
  exact fun x hx => h x (List.mem_filter.mp hx).1

theorem followerOf_answered {res : Result} {p : List Byte} (hc : s.dem.completions = [])
    (room : s.link.upstream.length < 8) (h : followerOf a s = some q) (hq : q.id ≠ r.id) :
    followerOf a (answered r res p s) = some q := by
  rw [answered_taken hc room]
  unfold followerOf at h ⊢
  exact find?_filter_of_some h (by simpa using hq)

/-- A release's write has finished: the slot is free, and the Spare Release is answered (R84). -/
theorem releaseDone_eq {b : LineAddr} {d : StoredLine} {m : TimeBase} {work : ReleaseWork}
    (hs : slotAt s i = .releasing b d m (some work)) (hr : findRequest work.request s = some r) (hp : r.phase = .serving)
    (ho : r.orphan = false) (hh : r.hold = none) (ha : s.link.state = .active) (hc : s.mgu.coreReset = none) :
    releaseDone i work.age s = holderChanged b (answered r .done [] (setSlot i .free s)) := by
  have answerable : Answerable r (setSlot i .free s) := by
    have name := (findRequest_some hr).2
    exact ⟨ha, by rw [name]; exact hr, ho, by rw [hp]; nofun, by
      show ∀ c, s.mgu.coreReset = some c → _
      rw [hc]
      nofun⟩
  unfold releaseDone
  rw [hs]
  dsimp only
  rw [if_pos rfl, ← (findRequest_some hr).2, answer_answerable answerable hh]
  rfl

/-- The slot freed, and no entry beside it, its line has no holder. -/
theorem holder_released {b : LineAddr} {d : StoredLine} {m : TimeBase} {work : Option ReleaseWork}
    (hs : slotAt s i = .releasing b d m work) (fits : SlotsFit s) (he : ∀ x ∈ s.rpq.entries, x.line ≠ b) :
    holder b (setSlot i .free s) = .none := by
  have inside : i < 32 := by
    by_contra out
    have free : slotAt s i = .free := by unfold slotAt getAt; rw [dif_neg out]
    rw [free] at hs
    cases hs
  refine holder_eq_none (slotHolding_eq_none fun j hj hl => ?_) (entryOf_eq_none he)
  rw [slotAt_setSlot] at hl ⊢
  by_cases hij : i = j
  · rw [if_pos ⟨hij, inside⟩]
    rfl
  · rw [if_neg fun h => hij h.1] at hl
    exact absurd (fits i inside j hj b (by rw [hs]; rfl) hl) hij

theorem fillWriteDone_open (h : rankState s (rankOf a) ≠ .filling ∨ a.index.toNat + 1 < depth s) :
    fillWriteDone a s = s := by
  unfold fillWriteDone
  refine if_neg ?_
  rintro ⟨filling, last, -⟩
  rcases h with h | h
  · exact h filling
  · omega

/-- The rank whose fill is complete is ONLINE, with FILL_DONE (R160). -/
def rankFilled (k : Nat) (s : State) : State :=
  raise .fillDone (.rank k) { s with drp := { s.drp with
    ranks := setAt s.drp.ranks k { rankRec s k with state := .online } } }

theorem fillWriteDone_last (hf : rankState s (rankOf a) = .filling) (hl : a.index.toNat + 1 = depth s)
    (hp : (rankRec s (rankOf a)).fillPosition = depth s) :
    fillWriteDone a s = rankCameOnline (rankOf a) (rankFilled (rankOf a) s) := if_pos ⟨hf, hl, hp⟩

theorem noneQuiescing_filled {k : Nat} (h : NoneQuiescing s) : NoneQuiescing (rankFilled k s) := by
  intro j hj hoff
  have ranks : ∀ m, rankRec (rankFilled k s) m = if k = m ∧ k < 4 then { rankRec s k with state := .online }
      else rankRec s m := fun m => by
    unfold rankFilled
    unfold rankRec
    rw [raise_drp]
    exact rankRec_setRank ..
  unfold rankState at hoff
  rw [ranks] at hoff ⊢
  split at hoff
  · cases hoff
  · next other =>
    rw [if_neg other]
    exact h j hj hoff

theorem holder_answered {res : Result} {p : List Byte} (hc : s.dem.completions = []) (room : s.link.upstream.length < 8)
    (b : LineAddr) : holder b (answered r res p s) = holder b s := by
  rw [answered_taken hc room]
  rfl

theorem answered_ranks {res : Result} {p : List Byte} (hc : s.dem.completions = []) (room : s.link.upstream.length < 8) :
    (answered r res p s).drp.ranks = s.drp.ranks := by
  rw [answered_taken hc room]

/-- A parked cursor goes to index 0 of the rank whose fill is complete; with the patrol stopped that is all (R149). -/
theorem rankCameOnline_parked {k : Nat} (hc : s.psc.cursor = none) (hr : s.psc.running = false) :
    rankCameOnline k s = setCursor (lineAt k 0) s := by
  unfold rankCameOnline
  rw [if_pos (by rw [hc]; rfl)]
  exact patrolProceeds_noLine (.inl hr)

theorem rankCameOnline_placed {k : Nat} (hc : s.psc.cursor.isSome) : rankCameOnline k s = s := by
  unfold rankCameOnline
  rw [if_neg]
  intro parked
  rw [Option.isNone_iff_eq_none.mp parked] at hc
  cases hc

/-! ## Admission of a REPAIR entry (R54–R56) -/

theorem entryOf_isSome : (entryOf a s).isSome ↔ ∃ e ∈ s.rpq.entries, e.line = a := by
  unfold entryOf
  rw [List.find?_isSome]
  simp

theorem draining_iff : draining s = true ↔ ∃ id, s.mgu.coreReset = some ⟨.drain, id⟩ := by
  unfold draining
  constructor
  · intro h
    split at h
    · next id hc => exact ⟨id, hc⟩
    · cases h
  · rintro ⟨id, hc⟩
    rw [hc]

theorem classOfWork_eq (c : Option Classification) : classOfWork c = (c.map Classification.cls).getD .standard := by
  cases c <;> rfl

/-- A REPAIR entry in the first state its class gives it, where nothing follows the holder of its line. -/
def entryJoined (v : VerdictRecord) (cls : RegionClass) (state : RepairState) (s : State) : State := { s with
  rpq := { s.rpq with entries := s.rpq.entries ++
    [{ id := s.stamp, line := v.line, kind := .repair, data := v.corrected,
       verify := decide (cls = .journal), replayed := false, state := state, retired := false }] }
  stamp := s.stamp + 1 }

section Idle

variable (hf : followerOf v.line s = none) (hc : s.fcu.contexts = []) (hp : s.psc.cursor ≠ some v.line)
include hf hc hp

theorem createRepair_ready {cls : RegionClass} (h : cls ≠ .hot ∨ draining s = true) :
    createRepair v.line v.corrected cls s = entryJoined v cls .ready s := by
  have created := fun verify => createEntry_idle hf hc hp .repair v.corrected verify .ready
  cases cls with
  | hot =>
    have drains : draining s = true := h.resolve_left fun x => x rfl
    refine Eq.trans ?_ (created false)
    unfold createRepair createHot
    dsimp only
    rw [if_pos drains]
  | journal => exact created true
  | _ => exact created false

theorem createRepair_hot (hd : draining s = false) (hs : (storedProfile s s.psc.phase).storage = .sound)
    (hh : s.fcu.halted = none) (hn : NoLineToTest s) : createRepair v.line v.corrected .hot s =
      entryJoined v .hot (if (currentProfile s).lazyWait = 0 then .ready else .waiting (currentProfile s).lazyWait) s := by
  have read : readProfile s.psc.phase s = (currentProfile s, s) := by
    unfold readProfile
    rw [checkProfile_sound hs]
    rfl
  have joined : ∀ state, patrolProceeds (createEntry v.line .repair v.corrected false state s) = entryJoined v .hot state s :=
    fun state => by
      rw [createEntry_idle hf hc hp]
      exact patrolProceeds_noLine hn
  unfold createRepair createHot
  dsimp only
  rw [if_neg (by rw [hd]; nofun), read]
  dsimp only
  rw [if_neg (by rw [hh]; nofun)]
  by_cases hw : (currentProfile s).lazyWait = 0
  · rw [if_neg (by omega), if_pos hw]
    exact joined _
  · rw [if_pos (by omega), if_neg hw]
    exact joined _

end Idle

theorem considerRepair_unasked (h : v.repairable = false ∨ v.source.isRepaired = false) : considerRepair v s = s := by
  unfold considerRepair
  rw [if_neg]
  rcases h with h | h <;> simp [h]

/-- What RPQ makes of a verdict it considers, by its admission. -/
theorem considerRepair_asked (hv : v.repairable = true) (hs : v.source.isRepaired = true) :
    (admission v.line v.overwritten s = .refused → considerRepair v s = s) ∧
    (admission v.line v.overwritten s = .deferred → considerRepair v s = raise .repairDeferred (.line v.line) s) ∧
    (admission v.line v.overwritten s = .admitted →
      considerRepair v s = createRepair v.line v.corrected ((v.cls.map Classification.cls).getD .standard) s) := by
  have asked : (v.repairable && v.source.isRepaired) = true := by rw [hv, hs]; rfl
  unfold considerRepair
  rw [if_pos asked, classOfWork_eq]
  exact ⟨fun h => by rw [h], fun h => by rw [h], fun h => by rw [h]⟩

/-! ## The end of a verify read (R61–R63) -/

theorem verifyOutcome_clean (he : findEntry id s = some e) (hs : e.state = .verifying) (hv : v.verdict = .clean) :
    verifyOutcome id v s = removeEntry id s := by
  unfold verifyOutcome
  rw [he]
  dsimp only
  rw [if_neg (not_not.mpr hs), if_pos hv]

theorem verifyOutcome_replayed (he : findEntry id s = some e) (hs : e.state = .verifying) (hv : v.verdict ≠ .clean)
    (hr : e.replayed = false) :
    verifyOutcome id v s = updateEntry id (fun x => { x with replayed := true, state := .ready }) s := by
  unfold verifyOutcome
  rw [he]
  dsimp only
  rw [if_neg (not_not.mpr hs), if_neg hv, hr]
  rfl

theorem verifyOutcome_handed (he : findEntry id s = some e) (hs : e.state = .verifying) (hv : v.verdict ≠ .clean)
    (hr : e.replayed = true) (hh : s.fcu.halted = none) : verifyOutcome id v s = handOff e s := by
  unfold verifyOutcome
  rw [he]
  dsimp only
  rw [if_neg (not_not.mpr hs), if_neg hv, hr, if_neg (by nofun), if_neg (by rw [hh]; nofun)]

theorem exec_verifyRead (hF : Finishing g s) (hop : g.op = .verifyRead id) (beats : Burst) :
    exec (.dramReadFinish beats) s = .next (settle (verifyOutcome id (verdictOf g .verify (fromBeats beats) s)
      (consume (verdictOf g .verify (fromBeats beats) s) (freePort s)))) := by
  rw [exec_readFinish hF.released hF.port (source := .verify) (by rw [hop]; rfl), readFinish_sound hF.rank, hop]
  rfl

theorem handOff_placed (hs : ChosenSlot e.line i s) (hu : Unattended e.line s) :
    handOff e s = retiredInto i e.line e.data (removeEntry e.id s) := by
  unfold handOff
  dsimp only
  rw [slotForRetire_chosen (s := removeEntry e.id s) hs]
  have unattended : Unattended e.line (removeEntry e.id s) := ⟨hu.follower, hu.contexts, hu.retires, hu.cursor⟩
  exact retireLine_unattended unattended e.data

theorem handOff_stuck (h : ∀ j < 32, (slotAt s j).holds = true) :
    handOff e s = raise .repairStuck (.line e.line) (removeEntry e.id s) := by
  unfold handOff
  dsimp only
  rw [slotForRetire_none (s := removeEntry e.id s) h]

end Sys2Proof.Machine

namespace Sys2Proof

open Machine

/-- Settles O27: the end of each write, admission to the repair queue, and the end of a verify read. -/
theorem writeCompletes : Obligations.WriteCompletes := by
  refine ⟨fun s g hp ha hq hc hg h0 h8 => ?_, fun v s => ?_, ?_⟩
  · intro free
    have ends : ∀ {t}, writeDone g free = some t → t.drp.ranks = s.drp.ranks →
        exec .dramWriteFinish s = .next t := exec_writeFinish_quiet hp hq hg
    refine ⟨fun id r status hop hr hph hb ho hh => ?_, fun id e hop he hu => ?_,
      fun id e q d status hop he hslots hent hf hph hl hb => ?_,
      ?_, fun hop hd => ?_, ?_⟩
    · refine ends ((writeDone_demand hop free).trans (congrArg some ?_)) rfl
      rw [demandWriteDone_granted (s := free) hr hph hb]
      exact complete_held (s := free) _ hr (by rw [hph]; nofun) ho ha hh hc h0 h8 rfl
    · exact ends ((writeDone_repair hop free).trans (congrArg some
        (repairWriteDone_unheld (s := free) he (heldBehind_eq_false hu)))) rfl
    · exact ends ((writeDone_repair hop free).trans (congrArg some
        (repairWriteDone_held (s := free) he hslots hent hf hph hl hb))) rfl
    · intro i b d time work r hop hs hr hph ho hh released
      have done : writeDone g free = some (holderChanged b released) := (writeDone_release hop free).trans
        (congrArg some (releaseDone_eq (s := free) hs hr hph ho hh ha hc))
      have ranks : released.drp.ranks = s.drp.ranks := answered_ranks (s := setSlot i .free free) h0 h8
      refine ⟨fun hf => ?_, fun q hf hne hl fits hent => ?_⟩
      · have idle : followerOf b released = none := followerOf_answered_none (s := setSlot i .free free) h0 h8 hf
        exact ends (done.trans (congrArg some (holderChanged_idle idle))) ranks
      · have waits : followerOf b released = some q := followerOf_answered (s := setSlot i .free free) h0 h8 hf hne
        have unheld : holder b released = .none := (holder_answered (s := setSlot i .free free) h0 h8 b).trans
          (holder_released (s := free) hs fits hent)
        refine ⟨fun data status hqp hb => ?_, fun mask data hqp hb hz hm => ?_⟩
        · exact ends (done.trans (congrArg some (holderChanged_heldWrite waits hqp hl hb unheld))) ranks
        · exact ends (done.trans (congrArg some (holderChanged_heldRmw waits hqp hb hz hm unheld))) ranks
    · exact ends ((writeDone_fill hop free).trans (congrArg some (fillWriteDone_open (s := free) (.inr hd)))) rfl
    · intro hop k
      refine ⟨fun hk => ?_, ?_⟩
      · exact ends ((writeDone_fill hop free).trans (congrArg some (fillWriteDone_open (s := free) (.inl hk)))) rfl
      · intro hk hl hpos online
        have done : writeDone g free = some (rankCameOnline k online) := (writeDone_fill hop free).trans
          (congrArg some (fillWriteDone_last (s := free) hk hl hpos))
        have quiet : NoneQuiescing online := noneQuiescing_filled (s := free) hq
        have psc : online.psc = s.psc := raise_psc ..
        refine ⟨fun cur => ?_, fun cur run => ?_⟩
        · rw [rankCameOnline_placed (psc ▸ cur)] at done
          rw [exec_writeFinish hp hg done, settle_quiet quiet]
        · rw [rankCameOnline_parked (by rw [psc]; exact cur) (by rw [psc]; exact run)] at done
          have still : NoneQuiescing (setCursor (lineAt k 0) online) := noneQuiescing_congr quiet rfl
          rw [exec_writeFinish hp hg done, settle_quiet still, ← psc]
          rfl
  · intro cls barred joined drains
    have sources : v.source = .demand ∨ v.source = .patrol ∨ v.source = .retry → v.source.isRepaired = true := by
      rintro (h | h | h) <;> rw [h] <;> rfl
    have bars : barred ↔ s.fcu.halted.isSome ∨ (slotHolding v.line s).isSome ∨ (entryOf v.line s).isSome ∨
        v.overwritten = true ∨ rankState s (rankOf v.line) ≠ .online := by
      rw [slotHolding_isSome, entryOf_isSome]
    refine ⟨fun h => considerRepair_unasked ?_, fun hv hs => ⟨fun hb => ?_, fun hb full => ?_,
      fun hb room hf hc hp => ⟨fun h => ?_, fun hot hd hst hn => ?_⟩⟩⟩
    · rcases h with h | h | h | h
      · exact .inl h
      all_goals exact .inr (by rw [h]; rfl)
    all_goals obtain ⟨refused, deferred, admitted⟩ := considerRepair_asked (s := s) hv (sources hs)
    · exact refused (admission_refused (bars.mp hb))
    all_goals have opened := admission_open fun h => hb (bars.mpr h)
    · exact deferred (opened.trans (if_pos full))
    · refine (admitted (opened.trans (if_neg (by omega)))).trans ?_
      exact createRepair_ready hf hc hp (h.imp_right draining_iff.mpr)
    · have served : s.fcu.halted = none := by
        by_contra h
        exact hb (.inl (Option.isSome_iff_ne_none.mpr h))
      have undrained : draining s = false := Bool.eq_false_iff.mpr fun h => hd (draining_iff.mp h)
      rw [admitted (opened.trans (if_neg (by omega))), show (v.cls.map Classification.cls).getD .standard = .hot from hot]
      refine (createRepair_hot hf hc hp undrained hst served hn).trans ?_
      show entryJoined v .hot _ s = entryJoined v cls _ s
      rw [show cls = .hot from hot]
  · intro s g id beats e hF hop raw v used removed he hs hh
    have run : ∀ {t}, verifyOutcome id v used = t → exec (.dramReadFinish beats) s = .next (settle t) := fun h =>
      (exec_verifyRead hF hop beats).trans (congrArg (fun y => Host.Outcome.next (settle y)) h)
    have name := (findEntry_some he).2
    refine ⟨fun hv => run (verifyOutcome_clean he hs hv), fun hv hr => run ?_, fun hv hr => ⟨fun i hi hu _ => run ?_,
      fun full => run ?_⟩⟩
    · rw [verifyOutcome_replayed he hs hv hr]
      rfl
    · rw [verifyOutcome_handed he hs hv hr hh, handOff_placed hi hu, name]
      rfl
    · rw [verifyOutcome_handed he hs hv hr hh, handOff_stuck full, name]
      rfl

end Sys2Proof
end
section
/-! Spare Retire and Spare Release, the end of a RETIRE read, and the watch (R64, R75–R81, R83). -/

namespace Sys2Proof.Machine

variable {s t u : State} {a : LineAddr} {g : Granted} {r q : Request} {id i : Nat} {v : VerdictRecord} {e : RepairEntry}
  {args : List Byte} {w : RetireWork}

/-! ## Data in hand: the slot is chosen and the line retired (R64, R81) -/


theorem placeRetire_placed (hs : ChosenSlot a i s) (hu : Unattended a s) (data : Line) :
    placeRetire id a data s = answer id .done [BitVec.ofNat 8 i] (retiredInto i a data s) := by
  unfold placeRetire
  rw [slotForRetire_chosen hs, ← packed_one]
  exact congrArg (answer id .done (packed 1 i)) (retireLine_unattended hu data)

theorem placeRetire_full (h : ∀ j < 32, (slotAt s j).holds = true) (data : Line) :
    placeRetire id a data s = answer id .busy [] s := by
  unfold placeRetire
  rw [slotForRetire_none h]

/-- What may not be retired: a line that a slot or a POISON entry holds. -/
def Unretirable (a : LineAddr) (s : State) : Prop :=
  (∃ i, holder a s = .slot i) ∨ ∃ e, holder a s = .entry e ∧ e.kind = .poison

/-- What a RETIRE of the line takes: the data just read, or that of its REPAIR entry. -/
def RetiresWith (read : Line) (a : LineAddr) (data : Line) (s : State) : Prop :=
  holder a s = .none ∧ data = read ∨ ∃ e, holder a s = .entry e ∧ e.kind = .repair ∧ data = e.data

/-! ## Spare Retire (T45) -/

theorem spareRetire_outside (h : ¬(rankState s (rankOf (addressOf (field args 0 4))) ≠ .absent ∧
    (addressOf (field args 0 4)).index.toNat < depth s)) : spareRetire id args s = answer id .range [] s := by
  rw [← lineExists_iff, Bool.not_eq_true] at h
  unfold spareRetire
  dsimp only
  rw [h]
  rfl

/-- The checks of the line's rank passed, SLS looks at the holder of the line. -/
def retireByHolder (id : Nat) (a : LineAddr) (s : State) : State :=
  match holder a s with
  | .slot _ => answer id .wrongState [] s
  | .none => askRetireRead id a s
  | .entry e =>
    match e.kind with
    | .poison => answer id .wrongState [] s
    | .repair => placeRetire id a e.data s

theorem spareRetire_inside (h : rankState s (rankOf (addressOf (field args 0 4))) ≠ .absent ∧
    (addressOf (field args 0 4)).index.toNat < depth s) : spareRetire id args s =
      if rankState s (rankOf (addressOf (field args 0 4))) ≠ .online then answer id .wrongState [] s
      else retireByHolder id (addressOf (field args 0 4)) s := by
  rw [← lineExists_iff] at h
  unfold spareRetire retireByHolder holder
  dsimp only
  rw [h, if_neg (by nofun)]
  split
  · rfl
  · cases slotHolding (addressOf (field args 0 4)) s with
    | some i => rfl
    | none => cases entryOf (addressOf (field args 0 4)) s <;> rfl

theorem retireByHolder_refused (h : Unretirable a s) : retireByHolder id a s = answer id .wrongState [] s := by
  unfold retireByHolder
  obtain ⟨i, h⟩ | ⟨e, h, hk⟩ := h
  · rw [h]
  · rw [h]
    dsimp only
    rw [hk]

theorem retireByHolder_repair (h : holder a s = .entry e) (hk : e.kind = .repair) :
    retireByHolder id a s = placeRetire id a e.data s := by
  unfold retireByHolder
  rw [h]
  dsimp only
  rw [hk]

/-- A request that is served follows the holder of no line. -/
theorem followerOf_serving (h : followerOf a s = none) : followerOf a (setPhase r.id .serving s) = none := by
  unfold followerOf at h ⊢
  rw [List.find?_eq_none] at h ⊢
  intro q hq
  obtain ⟨p, hp, rfl⟩ := List.mem_map.mp hq
  split
  · simp [Phase.followsHolder]
  · exact h p hp

theorem retiredInto_setPhase (i : Nat) (a : LineAddr) (data : Line) (id : Nat) (p : Phase) (s : State) :
    retiredInto i a data (setPhase id p s) = setPhase id p (retiredInto i a data s) := by
  unfold retiredInto
  rw [← raise_setPhase]
  rfl

theorem answerable_retiredInto {data : Line} (h : Answerable r s) : Answerable r (retiredInto i a data s) :=
  h.congr (raise_link_state ..) (raise_dem ..) (congrArg Mgu.coreReset (raise_mgu ..))

/-- A line whose entry is not in WRITING goes to a slot, and the entry leaves (R64). -/
theorem retiredInto_entry {data : Line} (he : entryOf a s = some e) (hs : e.state ≠ .writing) : retiredInto i a data s =
    raise .spareRetired (.line a) { s with
      sls := { s.sls with slots := setAt s.sls.slots i (.active a ⟨data, .sound, zeroLine⟩ s.mgu.timeBase) }
      rpq := { s.rpq with entries := s.rpq.entries.filter fun x => x.id != e.id } } := by
  unfold retiredInto
  rw [he]
  dsimp only
  rw [if_neg hs]

/-! ## Spare Release (T46) -/

theorem spareRelease_inside (h : (byteAt args 0).toNat ≤ 31) : spareRelease id args s = releaseSlot id (byteAt args 0).toNat s :=
  if_neg (Nat.not_lt.mpr h)

/-! ## The end of a RETIRE read (R81) -/

theorem retireAgain_refused (ho : rankState s (rankOf w.line) = .online) (hv : v.overwritten = false)
    (h : Unretirable w.line s) : retireAgain w v s = answer w.request .wrongState [] s := by
  unfold retireAgain
  rw [if_neg (not_not.mpr ho), hv, if_neg (by nofun)]
  obtain ⟨i, h⟩ | ⟨e, h, hk⟩ := h
  · rw [if_pos (by rw [holder_slot h]; rfl)]
  · obtain ⟨hs, he⟩ := holder_entry h
    rw [if_neg (by rw [hs]; nofun), he]
    dsimp only
    rw [hk]

theorem retireAgain_placed {data : Line} (ho : rankState s (rankOf w.line) = .online) (hv : v.overwritten = false)
    (h : RetiresWith v.corrected w.line data s) : retireAgain w v s = placeRetire w.request w.line data s := by
  unfold retireAgain
  rw [if_neg (not_not.mpr ho), hv, if_neg (by nofun)]
  obtain ⟨h, rfl⟩ | ⟨e, h, hk, rfl⟩ := h
  · obtain ⟨hs, he⟩ := holder_none h
    rw [if_neg (by rw [hs]; nofun), he]
  · obtain ⟨hs, he⟩ := holder_entry h
    rw [if_neg (by rw [hs]; nofun), he]
    dsimp only
    rw [hk]

theorem exec_retireRead (hF : Finishing g s) (hop : g.op = .retireRead id) (beats : Burst) :
    exec (.dramReadFinish beats) s = .next (settle (retireOutcome id (verdictOf g .retire (fromBeats beats) s)
      (consume (verdictOf g .retire (fromBeats beats) s) (freePort s)))) := by
  rw [exec_readFinish hF.released hF.port (source := .retire) (by rw [hop]; rfl), readFinish_sound hF.rank, hop]
  rfl

theorem retireOutcome_served (hw : retireOf id s = some w) (hh : s.fcu.halted = none) : retireOutcome id v s =
    if v.verdict = .clean ∨ v.verdict = .corrected then retireAgain w v (endRetire id s)
    else answer id .wrongState [] (endRetire id s) := by
  unfold retireOutcome
  rw [hw]
  dsimp only
  rw [if_neg (by rw [show (endRetire id s).fcu.halted = none from hh]; nofun)]

section Outcome

variable (hw : retireOf r.id s = some w) (hh : r.hold = none) (served : s.fcu.halted = none)
include hw hh served

/-- The answer to a RETIRE read whose line, looked at again, gives `res`. -/
theorem retireOutcome_again {res : Result} {p : List Byte}
    (hl : ¬(v.verdict = .uncorrectable ∨ v.verdict = .poisoned)) (hu : Answerable r u)
    (h : retireAgain w v (endRetire r.id s) = answer w.request res p u) :
    retireOutcome r.id v s = answered r res (if res = .done then p else []) u := by
  have request : w.request = r.id := by simpa using List.find?_some hw
  have decoded : v.verdict = .clean ∨ v.verdict = .corrected := by
    cases hv : v.verdict <;> simp [hv] at hl ⊢
  rw [retireOutcome_served hw served, if_pos decoded, h, request]
  exact answer_answerable hu hh ..

variable (hA : Answerable r s)
include hA

theorem retireOutcome_lost (hl : v.verdict = .uncorrectable ∨ v.verdict = .poisoned) :
    retireOutcome r.id v s = answered r .wrongState [] (endRetire r.id s) := by
  have ended : Answerable r (endRetire r.id s) := hA.congr rfl rfl rfl
  rw [retireOutcome_served hw served, if_neg (by rcases hl with h | h <;> rw [h] <;> nofun)]
  exact answer_answerable ended hh ..

variable (hl : ¬(v.verdict = .uncorrectable ∨ v.verdict = .poisoned))
include hl

theorem retireOutcome_off (ho : rankState s (rankOf w.line) ≠ .online) :
    retireOutcome r.id v s = answered r .wrongState [] (endRetire r.id s) :=
  retireOutcome_again (p := []) hw hh served hl (hA.congr rfl rfl rfl) (if_pos ho)

variable (ho : rankState s (rankOf w.line) = .online)
include ho

theorem retireOutcome_overwritten (hv : v.overwritten = true) :
    retireOutcome r.id v s = answered r .busy [] (endRetire r.id s) :=
  retireOutcome_again (p := []) hw hh served hl (hA.congr rfl rfl rfl)
    ((if_neg (not_not.mpr ho)).trans (if_pos hv))

variable (hv : v.overwritten = false)
include hv

theorem retireOutcome_refused (h : Unretirable w.line s) :
    retireOutcome r.id v s = answered r .wrongState [] (endRetire r.id s) :=
  retireOutcome_again (p := []) hw hh served hl (hA.congr rfl rfl rfl)
    (retireAgain_refused (s := endRetire r.id s) ho hv h)

variable {data : Line} (hd : RetiresWith v.corrected w.line data s)
include hd

theorem retireOutcome_placed (hi : ChosenSlot w.line i s) (hu : Unattended w.line (endRetire r.id s)) :
    retireOutcome r.id v s = answered r .done [BitVec.ofNat 8 i] (retiredInto i w.line data (endRetire r.id s)) := by
  have ended : Answerable r (endRetire r.id s) := hA.congr rfl rfl rfl
  exact retireOutcome_again (res := .done) hw hh served hl (answerable_retiredInto ended)
    ((retireAgain_placed (s := endRetire r.id s) ho hv hd).trans (placeRetire_placed (s := endRetire r.id s) hi hu data))

theorem retireOutcome_full (full : ∀ j < 32, (slotAt s j).holds = true) :
    retireOutcome r.id v s = answered r .busy [] (endRetire r.id s) :=
  retireOutcome_again (p := []) hw hh served hl (hA.congr rfl rfl rfl)
    ((retireAgain_placed (s := endRetire r.id s) ho hv hd).trans (placeRetire_full (s := endRetire r.id s) full data))

end Outcome

/-! ## The watch (R75–R77) -/

/-- A verdict that counts as a hit on its line (R75). -/
def Hits (v : VerdictRecord) (s : State) : Prop :=
  v.repairable = true ∧ v.source ≠ .retire ∧ v.overwritten = false ∧
    (∀ i < 32, (slotAt s i).line? = some v.line → (slotAt s i).holds = false) ∧
    rankState s (rankOf v.line) = .online ∧ s.fcu.halted = none

theorem isWatchHit_iff : isWatchHit v s = true ↔ Hits v s := by
  unfold isWatchHit Hits
  have unheld : (slotHolding v.line s).isNone = true ↔
      ∀ i < 32, (slotAt s i).line? = some v.line → (slotAt s i).holds = false :=
    ⟨fun h => slotHolding_none (Option.isNone_iff_eq_none.mp h), fun h => by rw [slotHolding_eq_none h]; rfl⟩
  rw [← unheld]
  simp [and_assoc]

theorem slotNaming_eq_none (h : ∀ j < 32, (slotAt s j).line? ≠ some a) : slotNaming a s = none := by
  unfold slotNaming
  rw [List.find?_eq_none]
  intro j hj
  simpa using h j (List.mem_range.mp hj)

theorem slotNaming_eq (fits : SlotsFit s) (hi : i < 32) (h : (slotAt s i).line? = some a) : slotNaming a s = some i := by
  unfold slotNaming
  rw [List.find?_range_eq_some]
  refine ⟨by simpa using h, List.mem_range.mpr hi, fun j hj => ?_⟩
  have other : (slotAt s j).line? ≠ some a := fun hl => by
    have := fits j (by omega) i hi a hl h
    omega
  simpa using other

theorem watchVerdict_missed (h : ¬Hits v s) : watchVerdict v s = s := if_neg (mt isWatchHit_iff.mp h)

theorem watchVerdict_unnamed (h : Hits v s) (hn : ∀ j < 32, (slotAt s j).line? ≠ some v.line) :
    watchVerdict v s = allocateWatch v.line s := by
  unfold watchVerdict
  rw [if_pos (isWatchHit_iff.mpr h), slotNaming_eq_none hn]

theorem watchVerdict_named {hits : Nat} {m : TimeBase} (h : Hits v s) (fits : SlotsFit s) (hi : i < 32)
    (hw : slotAt s i = .watch v.line hits m) : watchVerdict v s =
      if s.sls.threshold ≤ hits + 1 then retireLine i v.line v.corrected s
      else setSlot i (.watch v.line (hits + 1) s.mgu.timeBase) s := by
  unfold watchVerdict
  rw [if_pos (isWatchHit_iff.mpr h), slotNaming_eq fits hi (by rw [hw]; rfl)]
  dsimp only
  rw [hw]

/-- A hit with no slot to take is dropped, and SPARE_FULL is raised where the flag was clear (R77). -/
theorem allocateWatch_dropped (h : ∀ j < 32, (slotAt s j).holds = true) : allocateWatch a s =
    if s.sls.allocationFailed = true then s
    else raise .spareFull (.line a) { s with sls := { s.sls with allocationFailed := true } } := by
  unfold allocateWatch
  rw [slotForWatch_none h]
  dsimp only
  by_cases hf : s.sls.allocationFailed = true
  · rw [if_pos hf, if_pos hf, ← hf]
  · have up : (raise .spareFull (.line a) s).link =
        (raise .spareFull (.line a) { s with sls := { s.sls with allocationFailed := true } }).link :=
      raiseAt_link_congr rfl rfl rfl
    rw [if_neg hf, if_neg hf, raise_eq (s := { s with sls := { s.sls with allocationFailed := true } }), ← up, raise_eq]

end Sys2Proof.Machine

namespace Sys2Proof

open Machine

/-- Settles O43: the two requests by the state of line and slot, the end of the RETIRE read, and the watch. -/
theorem spareRetireAndRelease : Obligations.SpareRetireAndRelease := by
  refine ⟨fun args r s => ?_, ?_, fun v s => ?_⟩
  · intro a n serving
    refine ⟨fun hT => ?_, fun hT => ⟨fun hn => ?_, fun hn => ?_⟩⟩
    · intro inside online
      refine ⟨fun out => ?_, fun hin off => ?_, fun hin hon bad => ?_, fun hin hon free => ?_,
        fun e hin hon he hk full => ?_, fun e i hin hon he hk hst hi hf first unnamed hr hc hp hfol => ?_⟩
      · exact taken_general hT rfl (u := s) (res := .range) (p := []) (spareRetire_outside out) rfl rfl rfl
      · exact taken_general hT rfl (u := s) (res := .wrongState) (p := [])
          ((spareRetire_inside (s := setPhase r.id .serving s) hin).trans (if_pos off)) rfl rfl rfl
      all_goals have passed : spareRetire r.id args (setPhase r.id .serving s) =
          retireByHolder r.id a (setPhase r.id .serving s) :=
        (spareRetire_inside (s := setPhase r.id .serving s) hin).trans (if_neg (not_not.mpr hon))
      · exact taken_general hT rfl (u := s) (res := .wrongState) (p := [])
          (passed.trans (retireByHolder_refused (s := setPhase r.id .serving s) bad)) rfl rfl rfl
      · refine congrArg Host.Outcome.next (((taken_exec hT spareRetire).trans passed).trans ?_)
        unfold retireByHolder
        rw [show holder a (setPhase r.id .serving s) = .none from free]
        rfl
      · exact taken_general hT rfl (u := s) (res := .busy) (p := [])
          ((passed.trans (retireByHolder_repair (s := setPhase r.id .serving s) he hk)).trans
            (placeRetire_full (s := setPhase r.id .serving s) full _)) rfl rfl rfl
      · have chosen : ChosenSlot a i (setPhase r.id .serving s) := .inr ⟨unnamed, hi, .inl ⟨hf, first⟩⟩
        have unattended : Unattended a (setPhase r.id .serving s) := ⟨followerOf_serving hfol, hc, hr, hp⟩
        rw [← retiredInto_entry (holder_entry he).2 hst]
        refine taken_general hT rfl (res := .done) ((passed.trans
          (retireByHolder_repair (s := setPhase r.id .serving s) he hk)).trans ((placeRetire_placed chosen unattended _).trans
            (congrArg (answer r.id .done _) (retiredInto_setPhase ..)))) ?_ ?_ ?_
        · exact raise_link_state ..
        · exact raise_dem ..
        · exact congrArg Mgu.coreReset (raise_mgu ..)
    · exact taken_general hT rfl (u := s) (res := .range) (p := []) (if_pos hn) rfl rfl rfl
    · have inside : ∀ {t}, releaseSlot r.id n (setPhase r.id .serving s) = t →
          spareRelease r.id args (setPhase r.id .serving s) = t := (spareRelease_inside hn).trans
      have slot : slotAt (setPhase r.id .serving s) n = slotAt s n := rfl
      refine ⟨fun h => ?_, fun b hits t h => ?_, fun b d t h off => ?_, fun b d t h on => ?_, fun b d t h hf => ?_,
        fun b d t w h => ?_⟩
      · refine taken_general hT rfl (u := s) (res := .wrongState) (p := []) (inside ?_) rfl rfl rfl
        unfold releaseSlot
        rw [slot, h]
      · refine taken_general hT rfl (u := setSlot n .free s) (res := .done) (p := []) (inside ?_) rfl rfl rfl
        unfold releaseSlot
        rw [slot, h]
        rfl
      · refine taken_general hT rfl (u := s) (res := .wrongState) (p := []) (inside ?_) rfl rfl rfl
        unfold releaseSlot
        rw [slot, h]
        exact if_neg off
      · refine congrArg Host.Outcome.next ((taken_exec hT spareRelease).trans (inside ?_))
        unfold releaseSlot
        rw [slot, h]
        exact if_pos on
      · refine taken_general hT rfl (u := setSlot n .free s) (res := .done) (p := []) (inside ?_) rfl rfl rfl
        have idle : followerOf b (setSlot n .free (setPhase r.id .serving s)) = none := followerOf_serving (s := s) hf
        unfold releaseSlot
        rw [slot, h]
        dsimp only
        rw [holderChanged_idle idle]
        rfl
      · refine taken_general hT rfl (u := s) (res := .wrongState) (p := []) (inside ?_) rfl rfl rfl
        unfold releaseSlot
        rw [slot, h]
  · intro s g w r beats hF hop raw v used ended lost online answers hw hA hh served
    have run : ∀ {t}, retireOutcome r.id v used = t → answers t := fun h =>
      (exec_retireRead hF hop beats).trans (congrArg (fun y => Host.Outcome.next (settle y)) h)
    refine ⟨fun h => run ?_, fun hl hon ho => run (retireOutcome_overwritten hw hh served hA hl hon ho),
      fun hl hon ho => ⟨fun bad => run (retireOutcome_refused hw hh served hA hl hon ho bad), fun data hd =>
        ⟨fun i hi hu => run (retireOutcome_placed hw hh served hA hl hon ho hd hi hu),
          fun full => run (retireOutcome_full hw hh served hA hl hon ho hd full)⟩⟩⟩
    by_cases hl : lost
    · exact retireOutcome_lost hw hh served hA hl
    · exact retireOutcome_off hw hh served hA hl (h.resolve_left hl)
  · intro hit unnamed
    refine ⟨watchVerdict_missed, fun h hn i hi => ?_, fun h full => ?_, fun i hits t h fits hi hw =>
      ⟨fun below => ?_, fun reached hu => ?_⟩⟩
    · rw [watchVerdict_unnamed h hn]
      unfold allocateWatch
      rw [slotForWatch_chosen hi]
      rfl
    · have none : ∀ j < 32, (slotAt s j).line? ≠ some v.line := fun j hj hl => by
        have := h.2.2.2.1 j hj hl
        rw [full j hj] at this
        cases this
      rw [watchVerdict_unnamed h none, allocateWatch_dropped full]
    · rw [watchVerdict_named h fits hi hw, if_neg (by omega)]
    · rw [watchVerdict_named h fits hi hw, if_pos reached, retireLine_unattended hu]

end Sys2Proof
end
section
/-! What a verdict does to the device table: tallies, marks and probation (R13, R14, R92–R98, R105–R107, R110–R112). -/

namespace Sys2Proof.Machine

variable {s : State} {a : LineAddr} {source : ReadSource} {mark : Option (Fin 10)} {cls : Option Classification}
  {overwritten : Bool} {raw : RawLine} {v : VerdictRecord} {q d : Nat}

/-! ## The fixed devices of a correction record (R13) -/

/-- The outcome of a codeword whose one wrong symbol, if any, is the pattern `e` on device `d`. -/
def fixedBy (d : Fin 10) (e : Sym) : CodewordOutcome := if e = 0 then .clean else .fixed d e

theorem fixedPatterns_fixedBy (d k : Fin 10) (es : List Sym) :
    fixedPatterns (es.map (fixedBy d)) k = if d = k then es.filter (· ≠ 0) else [] := by
  unfold fixedPatterns
  induction es with
  | nil => simp
  | cons e es ih =>
    rw [List.map_cons, List.filterMap_cons, ih]
    by_cases he : e = 0
    · rw [show fixedBy d e = .clean from if_pos he, List.filter_cons_of_neg (by simpa using he)]
    · rw [show fixedBy d e = .fixed d e from if_neg he, List.filter_cons_of_pos (by simpa using he)]
      by_cases hk : d = k <;> simp [hk]

theorem only_device : ∀ d : Fin 10, ((List.finRange 10).filter fun k => decide (d = k)) = [d] := by decide

theorem sum_patternWeight (es : List Sym) :
    ((es.filter (· ≠ 0)).map patternWeight).sum = (es.map patternWeight).sum := by
  induction es with
  | nil => rfl
  | cons e es ih =>
    by_cases he : e = 0
    · subst he
      rw [List.filter_cons_of_neg (by simp), ih, List.map_cons, List.sum_cons]
      simp [patternWeight]
    · rw [List.filter_cons_of_pos (by simpa using he), List.map_cons, List.map_cons, List.sum_cons, List.sum_cons, ih]

/-- Errors on one device make it the one fixed device, with its wrong codewords and their wrong bits. -/
theorem fixedDevices_fixedBy {es : List Sym} (h : ∃ e ∈ es, e ≠ 0) (d : Fin 10) :
    fixedDevices (es.map (fixedBy d)) = [⟨d, es.countP (· ≠ 0), (es.map patternWeight).sum⟩] := by
  have some : es.filter (· ≠ 0) ≠ [] := by
    obtain ⟨e, he, hne⟩ := h
    exact List.ne_nil_of_mem (List.mem_filter.mpr ⟨he, by simpa using hne⟩)
  have listed : (fun k => !(fixedPatterns (es.map (fixedBy d)) k).isEmpty) = fun k => decide (d = k) := by
    funext k
    rw [fixedPatterns_fixedBy]
    by_cases hk : d = k
    · simpa [hk] using some
    · simp [hk]
  unfold fixedDevices
  rw [listed, only_device, List.map_singleton, fixedPatterns_fixedBy, if_pos rfl, sum_patternWeight,
    List.countP_eq_length_filter]

/-- Under a mark no codeword is FIXED. -/
theorem fixedDevices_marked (m : Fin 10) (raw : RawLine) : fixedDevices (outcomesOf (some m) raw).toList = [] := by
  have unfixed : ∀ o ∈ (outcomesOf (some m) raw).toList, ∀ k p, o ≠ .fixed k p := by
    intro o ho k p
    obtain ⟨j, hj, rfl⟩ := Vector.mem_iff_getElem.mp (Vector.mem_toList_iff.mp ho)
    unfold outcomesOf
    rw [Vector.getElem_ofFn]
    unfold outcomeOf outcomeMarked
    dsimp only
    split
    · nofun
    · split <;> nofun
  have none : ∀ k, fixedPatterns (outcomesOf (some m) raw).toList k = [] := by
    intro k
    unfold fixedPatterns
    rw [List.filterMap_eq_nil_iff]
    intro o ho
    split
    · next k' p => exact absurd rfl (unfixed _ ho k' p)
    · rfl
  unfold fixedDevices
  simp [none]

/-! ## Tally increments (R95–R98) -/

/-- A verdict acts on the device table where the entries of its rank can be read. -/
theorem healthVerdict_sound (hh : s.fcu.halted = none) (hs : RankSound (rankOf v.line) s) : healthVerdict v s =
    judgeProbation (rankOf v.line) v (raiseTallies (rankOf v.line) v s) := by
  unfold healthVerdict
  rw [hh, if_neg (by nofun), readRank_sound hs]

theorem healthVerdict_halted (hh : s.fcu.halted.isSome) : healthVerdict v s = s := if_pos hh

section Charge

variable {f : FixedDevice} {scattered : Bool}

theorem raiseTally_marked (hm : (deviceEntry s (entryNumber q f.device.val)).state.isMark = true) :
    raiseTally q scattered s f = s := if_pos hm

variable (hm : (deviceEntry s (entryNumber q f.device.val)).state.isMark = false)
include hm

theorem raiseTally_below (hlt : (deviceEntry s (entryNumber q f.device.val)).tally + increment scattered f < 256) :
    raiseTally q scattered s f =
      riseBelow q f.device.val ((deviceEntry s (entryNumber q f.device.val)).tally + increment scattered f) s := by
  unfold raiseTally
  dsimp only
  rw [hm, if_neg (by nofun), Nat.min_eq_right (Nat.le_of_lt hlt), if_pos hlt]

variable (hge : 256 ≤ (deviceEntry s (entryNumber q f.device.val)).tally + increment scattered f)
include hge

theorem raiseTally_marks (hn : markOf s q = none) : raiseTally q scattered s f = markByTally q f.device.val s := by
  unfold raiseTally
  dsimp only
  rw [hm, if_neg (by nofun), Nat.min_eq_left hge, if_neg (Nat.lt_irrefl _), hn]
  rfl

theorem raiseTally_holds (hn : (markOf s q).isSome) : raiseTally q scattered s f = holdAtCap q f.device.val s := by
  unfold raiseTally
  dsimp only
  rw [hm, if_neg (by nofun), Nat.min_eq_left hge, if_neg (Nat.lt_irrefl _), if_pos hn]

end Charge

/-! ## Probation (R105–R107) -/

theorem raiseTallies_marked {m : Fin 10} : raiseTallies q (decodeLine a source (some m) cls overwritten raw) s = s := by
  unfold raiseTallies
  split
  · next c hc =>
    have record : c = correctionRecord (some m) (outcomesOf (some m) raw).toList := by
      unfold decodeLine at hc
      dsimp only at hc
      split at hc
      · exact (Option.some.inj hc).symm
      · cases hc
    rw [record, show (correctionRecord (some m) (outcomesOf (some m) raw).toList).fixed = [] from fixedDevices_marked m raw]
    rfl
  · rfl

theorem correction_eq : (decodeLine a source mark cls overwritten raw).correction =
    if (decodeLine a source mark cls overwritten raw).verdict = .corrected then
      some (correctionRecord mark (decodeLine a source mark cls overwritten raw).outcomes.toList) else none := rfl

/-- Errors on one device of an encoded line: the correction record charges that device alone. -/
theorem correction_disturbed {data : Line} {device : Fin 10} {error : Fin 4 → Sym} (h : ∃ j, error j ≠ 0) :
    (decodeLine a source none cls overwritten (Vector.ofFn fun j => Vector.ofFn fun d =>
      if d = device then (encode data)[j][d] ^^^ error j else (encode data)[j][d])).correction =
    some { fixed := [⟨device, (List.finRange 4).countP fun j => error j != 0,
             ((List.finRange 4).map fun j => patternWeight (error j)).sum⟩]
           fill := none, erasureOnly := false, scattered := false } := by
  obtain ⟨-, outcome, verdict⟩ := singleDeviceErrorsAreCorrected a source cls overwritten data device error
  obtain ⟨j, hj⟩ := h
  rw [if_neg fun all => hj (all j)] at verdict
  generalize (Vector.ofFn fun j => Vector.ofFn fun d =>
      if d = device then (encode data)[j][d] ^^^ error j else (encode data)[j][d] : RawLine) = raw at outcome verdict ⊢
  have outcomes : (decodeLine a source none cls overwritten raw).outcomes.toList =
      ((List.finRange 4).map error).map (fixedBy device) := by
    have listed : (decodeLine a source none cls overwritten raw).outcomes = Vector.ofFn fun j => fixedBy device (error j) := by
      apply Vector.ext
      intro i hi
      rw [Vector.getElem_ofFn]
      exact outcome ⟨i, hi⟩
    rw [listed, Vector.toList_ofFn, List.ofFn_eq_map, List.map_map]
    rfl
  have one := fixedDevices_fixedBy (es := (List.finRange 4).map error)
    ⟨error j, List.mem_map.mpr ⟨j, List.mem_finRange j, rfl⟩, hj⟩ device
  rw [List.countP_map, List.map_map (f := error) (g := patternWeight)] at one
  rw [correction_eq, if_pos verdict, outcomes]
  unfold correctionRecord
  rw [one]
  have wrong : ((fun x : Sym => decide (x ≠ 0)) ∘ error) = fun j => error j != 0 := by
    funext k
    by_cases hk : error k = 0
    · simp [hk]
    · rw [Function.comp_apply, decide_eq_true hk, bne_iff_ne.mpr hk]
  rw [wrong]
  rfl

/-- The verdict of such a line charges the device as its record says. -/
theorem healthVerdict_one {f : FixedDevice} {scattered erasureOnly : Bool} {fill : Option (Fin 10 × Nat)}
    (hh : s.fcu.halted = none) (hs : RankSound (rankOf v.line) s) (hm : v.mark = none)
    (hc : v.correction = some ⟨[f], fill, erasureOnly, scattered⟩) :
    healthVerdict v s = raiseTally (rankOf v.line) scattered s f := by
  rw [healthVerdict_sound hh hs]
  unfold judgeProbation raiseTallies
  rw [hm, hc]
  rfl

/-- The probation of the marked device, by the verdict decoded under its mark (R105–R107). -/
theorem judgeProbation_marked {m : Fin 10} (hm : v.mark = some m) :
    ((deviceEntry s (entryNumber q m.val)).state ≠ .probation → judgeProbation q v s = s) ∧
    ((deviceEntry s (entryNumber q m.val)).state = .probation → v.verdict = .clean →
      judgeProbation q v s = countProbation q m.val s) ∧
    ((deviceEntry s (entryNumber q m.val)).state = .probation → v.verdict = .corrected →
      judgeProbation q v s = failProbation q m.val s) ∧
    (v.verdict = .uncorrectable ∨ v.verdict = .poisoned → judgeProbation q v s = s) := by
  unfold judgeProbation
  rw [hm]
  dsimp only
  refine ⟨fun other => if_neg other, fun hp hv => ?_, fun hp hv => ?_, fun hv => ?_⟩
  · rw [if_pos hp, hv]
  · rw [if_pos hp, hv]
  · split
    · rcases hv with hv | hv <;> rw [hv]
    · rfl

section Probation

variable {m : Fin 10} (hh : s.fcu.halted = none) (hs : RankSound (rankOf a) s)
include hh hs

/-- Under a mark only the probation of the marked device is judged. -/
theorem healthVerdict_marked : healthVerdict (decodeLine a source (some m) cls overwritten raw) s =
    judgeProbation (rankOf a) (decodeLine a source (some m) cls overwritten raw) s := by
  rw [healthVerdict_sound (v := decodeLine a source (some m) cls overwritten raw) hh hs, raiseTallies_marked]
  rfl

end Probation

/-! ## The corrected line's events and its counter (R14, R176) -/

/-- What COD and MGU make of a corrected line before the consumers take it. -/
def correctionReported (a : LineAddr) (scattered : Bool) (s : State) : State :=
  let corrected := raise .lineCorrected (.line a) s
  if scattered then raise .scattered (.line a) corrected else corrected

theorem correctionReported_fcu (scattered : Bool) : (correctionReported a scattered s).fcu = s.fcu := by
  unfold correctionReported
  dsimp only
  split
  · rw [raise_fcu, raise_fcu]
  · rw [raise_fcu]

theorem correctionReported_mgu (scattered : Bool) : (correctionReported a scattered s).mgu = s.mgu := by
  unfold correctionReported
  dsimp only
  split
  · rw [raise_mgu, raise_mgu]
  · rw [raise_mgu]

theorem countVerdict_corrected (hv : v.verdict = .corrected) (hh : s.fcu.halted = none) :
    countVerdict v s = countCorrected (rankOf v.line) s := if_pos ⟨hv, by rw [hh]; rfl⟩

theorem countCorrected_eq (q : Nat) (s : State) :
    countCorrected q s = s.withCounters fun k => { k with corrected := bump s.mgu.counters.corrected q } := rfl

/-- A corrected verdict, reported and counted, goes to its consumers. -/
theorem consume_corrected {c : CorrectionRecord} (hv : v.verdict = .corrected) (hc : v.correction = some c)
    (hh : s.fcu.halted = none) : consume v s = considerRepair v (watchVerdict v (healthVerdict v
      (countCorrected (rankOf v.line) (correctionReported v.line c.scattered s)))) := by
  have reports : reportVerdict v s = correctionReported v.line c.scattered s := by
    unfold reportVerdict
    rw [hc]
    rfl
  unfold consume
  rw [reports, countVerdict_corrected hv (by rw [correctionReported_fcu]; exact hh)]

theorem rankSound_raise {k : EventKind} {x : Subject} (h : RankSound q s) : RankSound q (raise k x s) := by
  intro d hd
  rw [deviceAt_raise]
  exact h d hd

end Sys2Proof.Machine

namespace Sys2Proof

open Machine

/-- Settles O55: the charge of one device, the judgement of probation, and the read of the entries. -/
theorem talliesRise : Obligations.TalliesRise := by
  refine ⟨?_, ?_, ?_⟩
  · intro a source cls data device error s hne hh hs hr hfit raw v k bits charge e subject put
    have record : v.correction = some ⟨[⟨device, k, bits⟩], none, false, false⟩ := correction_disturbed hne
    have verdict : healthVerdict v s = raiseTally (rankOf a) false s ⟨device, k, bits⟩ := healthVerdict_one hh hs rfl record
    have charged : increment false ⟨device, k, bits⟩ = charge := by
      unfold increment
      simp [charge]
    refine ⟨record, fun hm => ?_, fun hm hlt => ?_, fun hm hge hn => ?_, fun hm hge hn => ?_⟩
    · rw [verdict]
      exact raiseTally_marked hm
    · rw [verdict, raiseTally_below hm (by rw [charged]; exact hlt), charged]
      rfl
    · rw [verdict, raiseTally_marks hm (by rw [charged]; exact hge) hn]
      rfl
    · intro held
      rw [verdict, raiseTally_holds hm (by rw [charged]; exact hge) hn]
      have touched : (e.touched || decide (e.tally < 255)) = if e.tally < 255 then true else e.touched := by
        by_cases h : e.tally < 255 <;> simp [h]
      have same : held = putDevice (entryNumber (rankOf a) device.val)
          { e with tally := 255, state := .suspect, touched := e.touched || decide (e.tally < 255), capped := true } s := by
        rw [touched]
        rfl
      rw [same]
      rfl
  · intro a source cls overwritten raw mark s hh hs v
    refine ⟨?_, ?_, fun hv => ?_, fun m hm hr => ?_⟩
    · intro c hc corrected reported counts risen counted
      rw [correction_eq] at hc
      split at hc
      · next hv =>
        have scattered : c.scattered = decide (2 ≤ c.fixed.length) := by
          rw [← Option.some.inj hc]
          rfl
        have same : correctionReported a c.scattered s = reported := by
          unfold correctionReported
          rw [scattered]
          simp only [decide_eq_true_eq]
          rfl
        have tallied : countCorrected (rankOf a) (correctionReported a c.scattered s) = counted := by
          rw [countCorrected_eq, correctionReported_mgu, same, bump_eq]
        rw [← tallied]
        exact consume_corrected hv (correction_eq.trans ((if_pos hv).trans hc)) hh
      · cases hc
    · rw [correction_eq]
      split
      · next hv => exact ⟨nofun, fun h => absurd hv h⟩
      · next hv => exact ⟨fun _ => hv, fun _ => rfl⟩
    · have uncorrected : v.verdict ≠ .corrected := by
        rcases hv with h | h | ⟨h, -⟩ <;> rw [h] <;> nofun
      refine consume_silent uncorrected (if_neg uncorrected) ?_ hs
      rcases hv with h | h | ⟨-, h⟩
      · exact .inr (by rw [h]; nofun)
      · exact .inr (by rw [h]; nofun)
      · exact .inl h
    · subst hm
      intro e subject put
      have judged := healthVerdict_marked (source := source) (cls := cls) (overwritten := overwritten) (raw := raw)
        (m := m) hh hs
      obtain ⟨other, counts, fails, lost⟩ := judgeProbation_marked (s := s) (q := rankOf a) (v := v) (m := m) rfl
      exact ⟨fun h => judged.trans (other h), fun hp hv => judged.trans (counts hp hv),
        fun hp hv => judged.trans (fails hp hv), fun hv => judged.trans (lost hv)⟩
  · intro v r k s hr hk hs n corrected faulty
    have read : RankSound r corrected := rankSound_raise hs
    refine ⟨healthVerdict_halted, ?_, ?_, fun hh hv => ⟨?_, ?_⟩⟩
    · unfold decayRank
      rw [readRank_single hr hk hs, readRank_sound read]
    · unfold decayRank
      rw [show readRank r faulty = _ from readRank_faulty hr hk hs]
    · have served : corrected.fcu.halted = none := (congrArg Fcu.halted (raise_fcu ..)).trans hh
      unfold healthVerdict
      rw [hv, readRank_single hr hk hs, readRank_sound read, served,
        show (deviceErr n .singleBit s).fcu.halted = none from hh]
      rfl
    · unfold healthVerdict
      rw [hv, show readRank r faulty = _ from readRank_faulty hr hk hs, if_neg]
      rw [show faulty.fcu.halted = none from hh]
      nofun

end Sys2Proof
end
section
/-! Rank Fill, Rank Online and Rank Offline, and the ranks that settle (R88, R144, R149, R156–R159, R161, R163). -/

namespace Sys2Proof.Machine

variable {s t u : State} {a : LineAddr} {r : Request} {id q k : Nat} {args : List Byte} {p : Phase}

/-! ## Ranks that settle (R158, R163) -/

/-- The settling of some ranks other than `k`. -/
theorem settleRanks_other (l : List Nat) (h : k ∉ l) (u : State) : rankRec (l.foldl settleRank u) k = rankRec u k ∧
    rankBusy (l.foldl settleRank u) k = rankBusy u k ∧
    (k ∈ (l.foldl settleRank u).drp.refreshDue → k ∈ u.drp.refreshDue) := by
  induction l generalizing u with
  | nil => exact ⟨rfl, rfl, fun h => h⟩
  | cons j l ih =>
    have hj : k ≠ j := List.ne_of_not_mem_cons h
    have hl : k ∉ l := List.not_mem_of_not_mem_cons h
    obtain ⟨-, busy, recs, due⟩ := settleRank_keeps u j
    obtain ⟨hr, hb, hd⟩ := ih hl (settleRank u j)
    exact ⟨hr.trans (recs k hj), hb.trans (busy k), fun h => due k (hd h)⟩

theorem four_ranks_split (hk : k < 4) : ∃ l m, [0, 1, 2, 3] = l ++ k :: m ∧ k ∉ l ∧ k ∉ m := by
  interval_cases k
  · exact ⟨[], [1, 2, 3], rfl, by decide, by decide⟩
  · exact ⟨[0], [2, 3], rfl, by decide, by decide⟩
  · exact ⟨[0, 1], [3], rfl, by decide, by decide⟩
  · exact ⟨[0, 1, 2], [], rfl, by decide, by decide⟩

/-- A rank settles as its own turn says, whatever the other ranks do. -/
theorem settle_at (hk : k < 4) : ∃ u, rankRec u k = rankRec s k ∧ rankBusy u k = rankBusy s k ∧
    rankRec (settle s) k = rankRec (settleRank u k) k ∧
    (k ∈ (settle s).drp.refreshDue → k ∈ (settleRank u k).drp.refreshDue) := by
  obtain ⟨l, m, split, hl, hm⟩ := four_ranks_split hk
  obtain ⟨recs, busy, -⟩ := settleRanks_other l hl s
  obtain ⟨after, -, due⟩ := settleRanks_other m hm (settleRank (l.foldl settleRank s) k)
  have folded : settle s = m.foldl settleRank (settleRank (l.foldl settleRank s) k) := by
    unfold settle
    rw [split, List.foldl_append, List.foldl_cons]
  refine ⟨l.foldl settleRank s, recs, busy, ?_, ?_⟩
  · rw [folded, after]
  · rw [folded]
    exact due

theorem settle_busy (hk : k < 4) (hb : rankBusy s k = true) : rankRec (settle s) k = rankRec s k := by
  obtain ⟨u, recs, busy, after, -⟩ := settle_at (s := s) hk
  have stays : settleRank u k = u := by
    unfold settleRank
    rw [if_neg]
    rintro ⟨-, -, idle⟩
    rw [busy, hb] at idle
    exact idle rfl
  rw [after, stays, recs]

theorem settle_idle (hk : k < 4) (ho : rankState s k = .offline) (hs : (rankRec s k).selfRefresh = false)
    (hb : rankBusy s k = false) : rankRec (settle s) k = { rankRec s k with selfRefresh := true, refresh := none } ∧
      k ∉ (settle s).drp.refreshDue := by
  obtain ⟨u, recs, busy, after, due⟩ := settle_at (s := s) hk
  have goes : settleRank u k = { u with drp := { u.drp with
      ranks := setAt u.drp.ranks k { rankRec u k with selfRefresh := true, refresh := none }
      refreshDue := u.drp.refreshDue.filter fun q => q != k } } := by
    unfold settleRank
    refine if_pos ⟨?_, ?_, ?_⟩
    · unfold rankState
      rw [recs]
      exact ho
    · rw [recs, hs]
      nofun
    · rw [busy, hb]
      nofun
  refine ⟨?_, fun h => ?_⟩
  · rw [after, goes, ← recs]
    refine (rankRec_setRank u k k { rankRec u k with selfRefresh := true, refresh := none }).trans ?_
    rw [if_pos ⟨rfl, hk⟩]
  · have := due h
    rw [goes] at this
    simp at this

/-! ### Beside a request being served -/

theorem settleRank_setPhase (h : ∀ x ∈ s.dem.requests, x.id = id → x.body.line? = none) (k : Nat) :
    settleRank (setPhase id p s) k = setPhase id p (settleRank s k) := by
  have busy : rankBusy (setPhase id p s) k = rankBusy s k := by
    unfold rankBusy
    rw [waiting_setPhase p h]
    rfl
  unfold settleRank
  rw [busy]
  by_cases hx : rankState s k = .offline ∧ ¬(rankRec s k).selfRefresh ∧ ¬rankBusy s k
  · rw [if_pos hx]
    exact if_pos hx
  · rw [if_neg hx]
    exact if_neg hx

theorem settle_setPhase (h : ∀ x ∈ s.dem.requests, x.id = id → x.body.line? = none) :
    settle (setPhase id p s) = setPhase id p (settle s) := by
  have all : ∀ (l : List Nat) (u : State), u.dem = s.dem →
      l.foldl settleRank (setPhase id p u) = setPhase id p (l.foldl settleRank u) := by
    intro l
    induction l with
    | nil => exact fun _ _ => rfl
    | cons k l ih =>
      intro u hu
      have kept : (settleRank u k).dem = s.dem := by
        unfold settleRank
        split <;> exact hu
      rw [List.foldl_cons, List.foldl_cons, settleRank_setPhase (by rw [hu]; exact h), ih _ kept]
  exact all _ s rfl

/-- A request that is taken names no line. -/
theorem taken_lineless (hT : Taken k args r s) (hn : RequestsNamed s) :
    ∀ x ∈ s.dem.requests, x.id = r.id → x.body.line? = none := by
  obtain ⟨member, body, -⟩ := taken_manage hT
  intro x hx hid
  rw [unique_name hn hx member hid, body]
  rfl

/-- The owner answers DONE once the ranks have settled. -/
theorem taken_settled {eff : Nat → List Byte → State → State} {c : Instr} (hT : Taken k args r s) (hn : RequestsNamed s)
    (hc : exec c s = .next (if s.link.por then s else take k eff s))
    (he : eff r.id args (setPhase r.id .serving s) = answer r.id .done [] (settle (setPhase r.id .serving u)))
    (hl : u.link.state = s.link.state) (hd : u.dem = s.dem) (hm : u.mgu = s.mgu) :
    exec c s = .next (answered r .done [] (settle u)) := by
  obtain ⟨v, d, form⟩ := settle_form u
  rw [settle_setPhase (by rw [hd]; exact taken_lineless hT hn)] at he
  refine taken_general hT hc (res := .done) (p := []) he ?_ ?_ ?_ <;> rw [form]
  · exact hl
  · exact hd
  · rw [hm]

/-! ## Rank Fill (R88, R159) -/

/-- The slots once those of rank `q` among the slots numbered in `l` are FREE. -/
def slotsFreed (q : Nat) (l : List Nat) (v : Vector Slot 32) : Vector Slot 32 :=
  Vector.ofFn fun i => if i.val ∈ l ∧ (v[i].line?.map rankOf) = some q then .free else v[i]

theorem slotAt_eq (hi : k < 32) : slotAt s k = s.sls.slots[k] := by
  unfold slotAt
  exact getAt_of_lt _ _ hi

theorem getElem_slotsFreed {l : List Nat} {v : Vector Slot 32} (hi : k < 32) : (slotsFreed q l v)[k] =
    if k ∈ l ∧ (v[k].line?.map rankOf) = some q then .free else v[k] := by
  unfold slotsFreed
  rw [Vector.getElem_ofFn]
  rfl

theorem slotsFreed_nil (v : Vector Slot 32) : slotsFreed q [] v = v := by
  apply Vector.ext
  intro i hi
  rw [getElem_slotsFreed hi, if_neg fun h => List.not_mem_nil h.1]

theorem slotsFreed_cons (j : Nat) (l : List Nat) (v : Vector Slot 32) :
    slotsFreed q l (slotsFreed q [j] v) = slotsFreed q (j :: l) v := by
  apply Vector.ext
  intro i hi
  have one : (slotsFreed q [j] v)[i] = if i = j ∧ (v[i].line?.map rankOf) = some q then .free else v[i] := by
    rw [getElem_slotsFreed hi]
    simp only [List.mem_singleton]
  rw [getElem_slotsFreed (l := l) hi, one, getElem_slotsFreed (l := j :: l) hi]
  by_cases h : i = j ∧ (v[i].line?.map rankOf) = some q
  · have listed : i ∈ j :: l := by
      rw [h.1]
      exact List.mem_cons_self
    rw [if_pos h, ite_self, if_pos ⟨listed, h.2⟩]
  · rw [if_neg h]
    refine if_congr ⟨fun hx => ⟨List.mem_cons_of_mem j hx.1, hx.2⟩, fun hx => ⟨?_, hx.2⟩⟩ rfl rfl
    exact (List.mem_cons.mp hx.1).resolve_left fun hij => h ⟨hij, hx.2⟩

theorem slotsFreed_one {v : Vector Slot 32} {j : Nat} (hj : j < 32) : slotsFreed q [j] v =
    if (v[j].line?.map rankOf) = some q then v.set j .free hj else v := by
  apply Vector.ext
  intro i hi
  rw [getElem_slotsFreed hi]
  by_cases hij : j = i
  · subst hij
    by_cases hr : (v[j].line?.map rankOf) = some q
    · rw [if_pos ⟨List.mem_singleton_self j, hr⟩, if_pos hr, Vector.getElem_set_self]
    · rw [if_neg fun h => hr h.2, if_neg hr]
  · rw [if_neg fun h => hij (List.mem_singleton.mp h.1).symm]
    split
    · rw [Vector.getElem_set_ne _ _ hij]
    · rfl

theorem freeRankSlot_eq {j : Nat} (hj : j < 32) (u : State) :
    freeRankSlot q u j = { u with sls := { u.sls with slots := slotsFreed q [j] u.sls.slots } } := by
  rw [slotsFreed_one hj]
  unfold freeRankSlot
  rw [slotAt_eq hj]
  cases u.sls.slots[j].line? with
  | none => rfl
  | some b =>
    dsimp only
    by_cases hb : rankOf b = q
    · rw [if_pos hb, if_pos (by rw [Option.map_some, hb])]
      unfold setSlot setAt
      rw [dif_pos hj]
    · rw [if_neg hb, if_neg (by rw [Option.map_some]; exact fun h => hb (Option.some.inj h))]

/-- One slot after another is freed where its line lies in the rank. -/
theorem foldl_freeRankSlot (l : List Nat) (hl : ∀ i ∈ l, i < 32) (u : State) :
    l.foldl (freeRankSlot q) u = { u with sls := { u.sls with slots := slotsFreed q l u.sls.slots } } := by
  induction l generalizing u with
  | nil =>
    rw [slotsFreed_nil]
    rfl
  | cons j l ih =>
    rw [List.foldl_cons, freeRankSlot_eq (hl j List.mem_cons_self), ih (fun i hi => hl i (List.mem_cons_of_mem j hi)),
      slotsFreed_cons j l]

/-! ## Rank Offline (R149, R157, R158) -/

theorem rankReleases_iff : rankReleases q s = true ↔
    ∃ i < 32, ∃ a d t w, slotAt s i = .releasing a d t w ∧ rankOf a = q := by
  unfold rankReleases
  rw [List.any_eq_true]
  constructor
  · rintro ⟨x, hx, releasing⟩
    obtain ⟨i, hi, rfl⟩ := Vector.mem_iff_getElem.mp (Vector.mem_toList_iff.mp hx)
    rw [← slotAt_eq hi] at releasing
    split at releasing
    · next a d t w slot => exact ⟨i, hi, a, d, t, w, slot, by simpa using releasing⟩
    · cases releasing
  · rintro ⟨i, hi, a, d, t, w, slot, rank⟩
    refine ⟨slotAt s i, Vector.mem_toList_iff.mpr ?_, ?_⟩
    · rw [slotAt_eq hi]
      exact Vector.getElem_mem hi
    · rw [slot]
      simpa using rank

/-- The state whose rank `q` is OFFLINE. -/
def madeOffline (q : Nat) (s : State) : State := setRank q { rankRec s q with state := .offline } s

theorem rankLeftOnline_elsewhere (hc : u.fcu.contexts = []) (h : ∀ a, u.psc.cursor = some a → rankOf a ≠ q) :
    rankLeftOnline q u = u := by
  unfold rankLeftOnline
  rw [dropPatrolRetries_none hc]
  dsimp only
  split
  · next a ha => exact if_neg (h a ha)
  · rfl

theorem rankLeftOnline_here (hc : u.fcu.contexts = []) (ha : u.psc.cursor = some a) (hq : rankOf a = q) :
    rankLeftOnline q u = patrolProceeds (cursorToFirst (ranksAfter q) u) := by
  unfold rankLeftOnline
  rw [dropPatrolRetries_none hc]
  dsimp only
  rw [ha]
  exact if_pos hq

/-- With no other ONLINE rank the cursor is parked (R149). -/
theorem cursorToFirst_none
    (h : ([(q + 1) % 4, (q + 2) % 4, (q + 3) % 4, q].find? fun p => decide (rankState u p = .online)) = none) :
    cursorToFirst (ranksAfter q) u = parkCursor u := by
  have first : firstOnline (ranksAfter q) u = none := by
    rw [← h]
    rfl
  unfold cursorToFirst
  rw [first]

/-- What a request for an ONLINE rank does once nothing in RPQ and SLS stands against it (R157). -/
theorem rankOffline_online (ho : rankState s (arg args 0) = .online) (he : ∀ e ∈ s.rpq.entries, rankOf e.line ≠ arg args 0)
    (hr : rankReleases (arg args 0) s = false) : rankOffline id args s =
      answer id .done [] (settle (rankLeftOnline (arg args 0) (madeOffline (arg args 0) s))) := by
  unfold rankOffline
  dsimp only
  rw [ho]
  dsimp only
  have entryless : ¬(s.rpq.entries.any fun e => rankOf e.line == arg args 0) = true := by
    rw [List.any_eq_true]
    rintro ⟨e, hmem, rank⟩
    exact he e hmem (by simpa using rank)
  rw [if_neg entryless, if_neg (by rw [hr]; nofun)]
  unfold madeOffline
  rfl

theorem rankOffline_busy (ho : rankState s (arg args 0) = .online)
    (h : (∃ e ∈ s.rpq.entries, rankOf e.line = arg args 0) ∨ rankReleases (arg args 0) s = true) :
    rankOffline id args s = answer id .busy [] s := by
  unfold rankOffline
  dsimp only
  rw [ho]
  dsimp only
  by_cases he : s.rpq.entries.any fun e => rankOf e.line == arg args 0
  · exact if_pos he
  · rw [if_neg he]
    refine if_pos (h.resolve_left ?_)
    rintro ⟨e, hmem, rank⟩
    exact he (List.any_eq_true.mpr ⟨e, hmem, by simpa using rank⟩)

theorem rankOffline_filling (ho : rankState s (arg args 0) = .filling) : rankOffline id args s =
    answer id .done [] (settle (raise .fillStopped (.rank (arg args 0)) (madeOffline (arg args 0) s))) := by
  unfold rankOffline
  dsimp only
  rw [ho]
  dsimp only
  unfold stopFill
  rw [if_pos ho]
  rfl

section Cursor

variable (hc : s.fcu.contexts = []) (hcur : s.psc.cursor = some a) (hq : rankOf a = q)
include hc hcur hq

/-- Where the cursor stood in the rank and no other is ONLINE, it is parked. -/
theorem rankLeftOnline_parked (h : ([(q + 1) % 4, (q + 2) % 4, (q + 3) % 4, q].find? fun p =>
    decide (rankState (madeOffline q s) p = .online)) = none) :
    rankLeftOnline q (madeOffline q s) = parkCursor (madeOffline q s) := by
  rw [rankLeftOnline_here (u := madeOffline q s) hc hcur hq, cursorToFirst_none h]
  exact patrolProceeds_noLine (.inr (.inl rfl))

variable {next : Nat} (h : NextOnline (madeOffline q s) q next)
include h

theorem rankLeftOnline_moves : rankLeftOnline q (madeOffline q s) =
    patrolProceeds (passBegun next .untested (madeOffline q s)) := by
  rw [rankLeftOnline_here (u := madeOffline q s) hc hcur hq, cursorToFirst_next h fun _ => rfl, setCursor_lineAt]

/-- The line it moves to is not tested with the patrol stopped or not allowed. -/
theorem rankLeftOnline_waits (hw : s.psc.running = false ∨ PatrolTablesSound s ∧ (currentProfile s).allowed = false) :
    rankLeftOnline q (madeOffline q s) = passBegun next .untested (madeOffline q s) := by
  rw [rankLeftOnline_moves hc hcur hq h]
  rcases hw with stopped | ⟨sound, disallowed⟩
  · exact patrolProceeds_noLine (.inl stopped)
  · have profile : currentProfile (passBegun next .untested (madeOffline q s)) = currentProfile s := rfl
    have untested : ¬TickCounts (passBegun next .untested (madeOffline q s)) := by
      intro counts
      have allowed := counts.2.1
      rw [profile, disallowed] at allowed
      exact Bool.noConfusion allowed
    have stored : (storedProfile (passBegun next .untested (madeOffline q s))
      (passBegun next .untested (madeOffline q s)).psc.phase).storage = .sound := sound.profile
    exact patrolProceeds_untestable stored (lineToTest_none untested)

/-- With the patrol running the test goes on there, with the run of skips behind it, beside a request being served
(R144). -/
theorem rankLeftOnline_tests {run : State → State} (hr : s.psc.running = true) (hs : PatrolTablesSound s)
    (ha : (currentProfile s).allowed = true) (hh : s.fcu.halted = none)
    (hrun : SkipRun (madeOffline q s) (lineAt next 0) false run) :
    rankLeftOnline q (madeOffline q (setPhase id p s)) =
      setPhase id p (run (passBegun next .untested (madeOffline q s))) := by
  have sound : PatrolTablesSound (madeOffline q s) := ⟨hs.regions, hs.profile⟩
  have testing : Testing (madeOffline q s) (lineAt next 0) false
      (passBegun next .untested (madeOffline q (setPhase id p s))) :=
    ⟨rfl, rfl, rfl, rfl, rfl, fun _ h => h, hh, ha, hr, rfl, rfl, rfl⟩
  rw [rankLeftOnline_moves (s := setPhase id p s) hc hcur hq h, patrolProceeds_run hrun sound testing hs.profile]
  exact hrun.setPhase id p (passBegun next .untested (madeOffline q s))

end Cursor

/-- Where the cursor was not in the rank or was moved, a request for an ONLINE rank is answered DONE. -/
theorem exec_rankOffline_online (hT : Taken 23 args r s) (hn : RequestsNamed s)
    (ho : rankState s (arg args 0) = .online) (he : ∀ e ∈ s.rpq.entries, rankOf e.line ≠ arg args 0)
    (hr : rankReleases (arg args 0) s = false)
    (hu : rankLeftOnline (arg args 0) (madeOffline (arg args 0) (setPhase r.id .serving s)) = setPhase r.id .serving u)
    (hl : u.link.state = s.link.state) (hd : u.dem = s.dem) (hm : u.mgu = s.mgu) :
    exec .rankOffline s = .next (answered r .done [] (settle u)) := by
  refine taken_settled hT hn rfl ?_ hl hd hm
  rw [rankOffline_online (s := setPhase r.id .serving s) ho he hr, hu]

end Sys2Proof.Machine

namespace Sys2Proof

open Machine

/-- Settles O45: the three requests by the rank's state, the cursor's move, and the ranks that settle. -/
theorem rankRequests : Obligations.RankRequests := by
  intro args r s q put refreshed
  refine ⟨fun k c hk hT => ?_, fun hT hoff hloop => ?_, fun hT hoff hloop => ?_, fun hT => ?_,
    fun k hk ho hs => ⟨settle_busy hk, settle_idle hk ho hs⟩⟩
  · obtain ⟨rfl, rfl⟩ | ⟨rfl, rfl⟩ := hk
    all_goals refine ⟨fun absent => ?_, fun present refused => ?_⟩
    · exact taken_general hT rfl (u := s) (res := .range) (p := []) (if_pos absent) rfl rfl rfl
    · refine taken_general hT rfl (u := s) (res := .wrongState) (p := []) ((if_neg present).trans ?_) rfl rfl rfl
      by_cases loop : s.cod.loopLine.isSome
      · exact if_pos loop
      · exact (if_neg loop).trans (if_pos (refused.resolve_left loop))
    · exact taken_general hT rfl (u := s) (res := .range) (p := []) (if_pos absent) rfl rfl rfl
    · refine taken_general hT rfl (u := s) (res := .wrongState) (p := []) ((if_neg present).trans ?_) rfl rfl rfl
      by_cases loop : s.cod.loopLine.isSome
      · exact if_pos loop
      · exact (if_neg loop).trans (if_pos (refused.resolve_left loop))
  · have opened : rankFill r.id args (setPhase r.id .serving s) = answer r.id .done [] (setRank q
        { activeRank .filling (rankRec ((List.range 32).foldl (freeRankSlot q) (setPhase r.id .serving s)) q) with
          fillPosition := 0 } ((List.range 32).foldl (freeRankSlot q) (setPhase r.id .serving s))) :=
      (if_neg (by rw [show rankState (setPhase r.id .serving s) (arg args 0) = .offline from hoff]; nofun)).trans
        ((if_neg (by rw [show (setPhase r.id .serving s).cod.loopLine = none from hloop]; nofun)).trans
          (if_neg (not_not.mpr hoff)))
    rw [foldl_freeRankSlot _ fun i hi => List.mem_range.mp hi] at opened
    refine ⟨put ⟨.filling, false, 0, refreshed⟩
      { s with sls := { s.sls with slots := slotsFreed q (List.range 32) s.sls.slots } },
      taken_general hT rfl (res := .done) (p := []) opened rfl rfl rfl, fun i hi => ?_, rfl⟩
    rw [slotAt_eq hi, slotAt_eq hi]
    refine (getElem_slotsFreed hi).trans (if_congr ?_ rfl rfl)
    exact and_iff_right (List.mem_range.mpr hi)
  · intro online
    have opened : rankOnline r.id args (setPhase r.id .serving s) =
        answer r.id .done [] (rankCameOnline q (setPhase r.id .serving online)) :=
      (if_neg (by rw [show rankState (setPhase r.id .serving s) (arg args 0) = .offline from hoff]; nofun)).trans
        ((if_neg (by rw [show (setPhase r.id .serving s).cod.loopLine = none from hloop]; nofun)).trans
          (if_neg (not_not.mpr hoff)))
    refine ⟨fun cur => ?_, fun cur run => ?_⟩
    · rw [rankCameOnline_placed (s := setPhase r.id .serving online) cur] at opened
      exact taken_general hT rfl (u := online) (res := .done) (p := []) opened rfl rfl rfl
    · rw [rankCameOnline_parked (s := setPhase r.id .serving online) cur run] at opened
      exact taken_general hT rfl (u := setCursor (lineAt q 0) online) (res := .done) (p := []) opened rfl rfl rfl
  · intro offline
    refine ⟨fun ho => ?_, fun ho => ?_, fun ho hn => ?_, fun ho he => ?_, fun ho hx => ?_, fun ho he hx hc hn => ?_⟩
    · refine taken_general hT rfl (u := s) (res := .range) (p := []) ?_ rfl rfl rfl
      unfold rankOffline
      dsimp only
      rw [show rankState (setPhase r.id .serving s) (arg args 0) = .absent from ho]
    · refine taken_general hT rfl (u := s) (res := .wrongState) (p := []) ?_ rfl rfl rfl
      unfold rankOffline
      dsimp only
      rw [show rankState (setPhase r.id .serving s) (arg args 0) = .offline from ho]
    · refine taken_settled hT hn rfl ?_ (raise_link_state ..) (raise_dem ..) (raise_mgu ..)
      rw [rankOffline_filling (s := setPhase r.id .serving s) ho, ← raise_setPhase]
      rfl
    · exact taken_general hT rfl (u := s) (res := .busy) (p := [])
        (rankOffline_busy (s := setPhase r.id .serving s) ho (.inl he)) rfl rfl rfl
    · exact taken_general hT rfl (u := s) (res := .busy) (p := [])
        (rankOffline_busy (s := setPhase r.id .serving s) ho (.inr (rankReleases_iff.mpr hx))) rfl rfl rfl
    · intro next answers
      have idle : rankReleases q s = false := by
        rw [Bool.eq_false_iff]
        intro h
        obtain ⟨i, hi, a, d, t, w, slot, rank⟩ := rankReleases_iff.mp h
        exact hx i hi a d t w slot rank
      have left : ∀ u, rankLeftOnline q (madeOffline q (setPhase r.id .serving s)) = setPhase r.id .serving u →
          u.link.state = s.link.state → u.dem = s.dem → u.mgu = s.mgu → answers u :=
        fun u hu hl hd hm => exec_rankOffline_online hT hn ho he idle hu hl hd hm
      refine ⟨fun elsewhere => ?_, fun ⟨a, ha, hq⟩ => ⟨fun none => ?_, fun p hp => ⟨fun hw => ?_,
        fun run hr hs hall hh hrun => ?_⟩⟩⟩
      · refine left offline ?_ rfl rfl rfl
        exact rankLeftOnline_elsewhere (u := madeOffline q (setPhase r.id .serving s)) hc elsewhere
      · exact left (parkCursor offline) (rankLeftOnline_parked (s := setPhase r.id .serving s) hc ha hq none) rfl rfl rfl
      · refine left (passBegun p .untested offline) ?_ rfl rfl rfl
        exact rankLeftOnline_waits (s := setPhase r.id .serving s) hc ha hq hp (hw.imp_right fun h => ⟨⟨h.1.1, h.1.2⟩, h.2⟩)
      · obtain ⟨l, v, x, form, state⟩ := hrun.form (passBegun p .untested offline)
        refine left _ (rankLeftOnline_tests (s := s) hc ha hq hp hr hs hall hh hrun) ?_ ?_ ?_
        · exact (congrArg (fun y : State => y.link.state) form).trans state
        · exact (congrArg State.dem form).trans rfl
        · exact (congrArg State.mgu form).trans rfl

end Sys2Proof
end
